-- ==== Sys2Proof/Word.lean ====
section
/-!
DEFINITION. The word types of the engine: exchange memory words, bytes, record tags and bus addresses
(00_scope.md, conventions; 12_record_layouts.md).
-/

namespace Sys2Proof

/-- A 32-bit word of exchange memory, an engine-time value, a sequence number. -/
abbrev Word := BitVec 32

/-- A byte of exchange memory. -/
abbrev Byte := BitVec 8

/-- The 16-bit tag of a check or ticket record (R1, R75). -/
abbrev Tag := BitVec 16

/-- A 64-bit bus address (BASE, R165). -/
abbrev Addr := BitVec 64

end Sys2Proof
end

