-- ==== Sys2Proof/Config.lean ====
section
/-!
DEFINITION. The sizes of the engine (00_scope.md, "Sizes at a glance"), the places of the regions of exchange memory
(R143), and the one value the spec leaves free.
-/

namespace Sys2Proof.Config

/-- Lanes 0 to 63. -/
def laneTotal : Nat := 64
/-- Check records 0 to 1023 (R1). -/
def checkTotal : Nat := 1024
/-- Line records 0 to 8191 (R5). -/
def lineTotal : Nat := 8192
/-- Lines on one check, voided ones included (R6). -/
def linesPerCheck : Nat := 64
/-- Highest item index (R56). -/
def itemTop : Nat := 511
/-- Ticket records 0 to 2047 (R75). -/
def ticketTotal : Nat := 2048
/-- Ticket lines of one ticket (R79). -/
def linesPerTicket : Nat := 8
/-- Station controllers 0 to 15 (R94). -/
def stationTotal : Nat := 16
/-- Timed action entries 0 to 63 (R119). -/
def actionTotal : Nat := 64
/-- Program entries 0 to 255 (R127). -/
def programTotal : Nat := 256
/-- Chain slots 0 to 15 (R129). -/
def slotTotal : Nat := 16
/-- Slots of one lane's ring (R146). -/
def ringSlots : Nat := 8
/-- The cap on a check's total, an amount and a tip (R28, R44). -/
def amountTop : Nat := 99999999
/-- The largest portion count (R57). -/
def portionTop : Nat := 65535
/-- The largest value of a 32-bit counter (R163). -/
def countTop : Nat := 4294967295
/-- The largest value of a 40-bit amount counter (R163). -/
def amountCounterTop : Nat := 1099511627775

/-- Offset of the config block (R143). -/
def configAt : Nat := 0x00000
/-- Offset of the status page (R143). -/
def statusAt : Nat := 0x00200
/-- Offset of the lane slots (R143). -/
def slotsAt : Nat := 0x01000
/-- Offset of the rail windows (R143). -/
def windowsAt : Nat := 0x11000
/-- Offset of the notice log (R143). -/
def noticesAt : Nat := 0x15000
/-- Size of the exchange window: 128 KiB (R143). -/
def windowSize : Nat := 0x20000

/-- UNVERIFIED free value: the word that memory holds after a write of the engine fails on the bus ("whatever memory kept of the
failed writes", R149; "old or partial contents", R159). No body: nothing about it can be proved. The argument numbers the
failed writes. Log entry 9. -/
opaque failedWrite : Nat → Word

end Sys2Proof.Config
end

