-- ==== Sys2Proof/Syntax.lean ====
section
/-!
DEFINITION. The commands of the engine: one constructor for each row of spec/opcode_table.json, with the operands log entries 1
and 2 describe.
-/

namespace Sys2Proof

/-- A store of the hub processor into board DRAM: a run of bytes from an absolute address (log entry 2). -/
structure HubStore where
  addr : Addr
  data : List Byte
  deriving DecidableEq, Repr

/-- What the DRAM bus brings to one step: the hub's stores that landed since the step before, and which of this step's own
accesses fail, numbered from 0 in the order the step makes them, one 32-bit word an access (log entry 2). -/
structure Bus where
  hub : List HubStore
  errs : List Nat
  deriving DecidableEq, Repr

/-- The five registers of R165. -/
inductive Reg where
  | baseLo | baseHi | ctrl | stat | attn
  deriving DecidableEq, Repr

/-- The commands. A request row (BADREQ, and OPEN_CHECK to VIEW) is the completion of the request in flight of that kind: its
fields are those the sweep copied from the slot (R147, R148). -/
inductive Instr where
  /-- POWER_ON (R173). -/
  | powerOn
  /-- START (R167); `cut` is how many of the seven steps are made before the queue goes on, `none` for all (log entry 23). -/
  | start (bus : Bus) (cut : Option Nat)
  /-- START with the LOAD qualifier (R167). -/
  | startLoad (bus : Bus) (cut : Option Nat)
  /-- RUN (R168). -/
  | run
  /-- The entry to RUN that a RUN written with a request in flight waits for (R168). -/
  | enterRun
  /-- PARK (R169). -/
  | park
  /-- The entry to PARKED that a second PARK with a request in flight waits for (R169). -/
  | enterParked
  /-- WAKE (R170). -/
  | wake (bus : Bus)
  /-- A rising edge on the wake input (R170). -/
  | wakeInput (bus : Bus)
  /-- RESTART (R171). -/
  | restart
  /-- A write to BASE_LO (`hi` false) or BASE_HI (`hi` true) (R165). -/
  | baseWrite (hi : Bool) (value : Word)
  /-- A write to ATTN (R162). -/
  | attnAck (value : Word)
  /-- A write of a value to a register (R165, R166; log entry 28). -/
  | registerWrite (reg : Reg) (value : Word) (bus : Bus)
  /-- One look of the sweep at the lane of its calendar entry, with at most one take (R150). -/
  | sweepVisit (bus : Bus)
  | badreq (bus : Bus)
  | openCheck (bus : Bus)
  | addLine (bus : Bus)
  | setLine (bus : Bus)
  | voidLine (bus : Bus)
  | send (bus : Bus)
  | voidCheck (bus : Bus)
  | readCheck (bus : Bus)
  | takeHold (bus : Bus)
  | releaseHold (bus : Bus)
  | transfer (bus : Bus)
  | breakHold (bus : Bus)
  | setPayers (bus : Bus)
  | setSplit (bus : Bus)
  | tender (bus : Bus)
  | readSplit (bus : Bus)
  | defineItem (bus : Bus)
  | setBand (bus : Bus)
  | clearShort (bus : Bus)
  | readItem (bus : Bus)
  | yieldItem (bus : Bus)
  | waste (bus : Bus)
  | stockCount (bus : Bus)
  | bump (bus : Bus)
  | remake (bus : Bus)
  | stepIntake (bus : Bus)
  | setStation (bus : Bus)
  | setAction (bus : Bus)
  | writeProgram (bus : Bus)
  | armChain (bus : Bus)
  | startChain (bus : Bus)
  | stopChain (bus : Bus)
  | readChain (bus : Bus)
  | setProfile (bus : Bus)
  | view (bus : Bus)
  /-- A base tick (R116). -/
  | baseTick (bus : Bus)
  /-- The action of one timed action entry (R122). -/
  | timedAction (entry : Nat) (bus : Bus)
  /-- The builder's owed retries of a base tick (R84). -/
  | owedRetry (bus : Bus)
  /-- An aging tick of a station (R106). -/
  | agingTick (station : Nat) (bus : Bus)
  /-- The expiry of a station's gate hold (R102). -/
  | gateHoldExpiry (station : Nat) (bus : Bus)
  /-- The expiry of the attention delay (R161). -/
  | attentionDelayExpiry
  /-- The expiry of a chain slot's wait timer (R132). -/
  | chainWaitExpiry (slot : Nat) (bus : Bus)
  /-- The run of a chain slot resting in FIRING (R132). -/
  | firingSlotRun (slot : Nat) (bus : Bus)
  /-- The retry of a STALLED chain slot (R137). -/
  | chainStallRetry (slot : Nat) (bus : Bus)
  deriving DecidableEq, Repr

end Sys2Proof
end

