-- ==== Sys2Proof/Machine/Sparse.lean ====
section
/-!
DEFINITION. Indexed tables and memory as lists of (index, value) pairs in one canonical form: indices strictly rising, and no
entry equal to the value an unlisted index has (log entry 30).
-/

namespace Sys2Proof.Machine

/-- The value at an index: the listed one, or the default `d`. -/
def tget {α : Type} (d : α) : List (Nat × α) → Nat → α
  | [], _ => d
  | (k, v) :: t, i => if i = k then v else tget d t i

/-- Put a value at its place in index order. -/
def tins {α : Type} (i : Nat) (v : α) : List (Nat × α) → List (Nat × α)
  | [] => [(i, v)]
  | (k, w) :: t =>
    if i < k then (i, v) :: (k, w) :: t
    else if i = k then (i, v) :: t
    else (k, w) :: tins i v t

/-- Write a value: the default is removed, any other value is listed. -/
def tset {α : Type} [DecidableEq α] (d : α) (t : List (Nat × α)) (i : Nat) (v : α) : List (Nat × α) :=
  if v = d then t.filter (fun p => decide (p.1 ≠ i)) else tins i v t

/-- Change the value at one index. -/
def tupd {α : Type} [DecidableEq α] (d : α) (t : List (Nat × α)) (i : Nat) (f : α → α) : List (Nat × α) :=
  tset d t i (f (tget d t i))

/-- Change the values at indices 0 to n - 1, each on its own. -/
def tupdAll {α : Type} [DecidableEq α] (d : α) (t : List (Nat × α)) (n : Nat) (f : Nat → α → α) : List (Nat × α) :=
  (List.range n).foldl (fun u i => tset d u i (f i (tget d u i))) t

/-- Change the value at every listed index. -/
def tmap {α : Type} [DecidableEq α] (d : α) (t : List (Nat × α)) (f : α → α) : List (Nat × α) :=
  (t.map (fun p => p.1)).foldl (fun u i => tupd d u i f) t

/-- Every index of a list is above `b`. -/
def keysAbove {α : Type} (b : Nat) : List (Nat × α) → Bool
  | [] => true
  | (k, _) :: t => decide (b < k) && keysAbove b t

/-- The canonical form. -/
def twf {α : Type} [DecidableEq α] (d : α) : List (Nat × α) → Bool
  | [] => true
  | (k, v) :: t => decide (v ≠ d) && keysAbove k t && twf d t

/-- The lowest index from `i` on, looking at `fuel` indices, that meets `p`. -/
def findFrom (p : Nat → Bool) : Nat → Nat → Option Nat
  | 0, _ => none
  | fuel + 1, i => if p i then some i else findFrom p fuel (i + 1)

end Sys2Proof.Machine
end

