-- ==== Sys2Proof/Machine/State.lean ====
section
/-!
DEFINITION. All the state the spec gives the engine, as plain data, and the state at power-on. INVENTORY.md lists every field
with its rule. Tables are sparse lists (Machine/Sparse.lean): an unlisted index holds the power-on value.
-/

namespace Sys2Proof.Machine

/-! ### Named values (encodings in 12_record_layouts.md) -/

/-- The six engine states (R165). -/
inductive EngineState where
  | stopped | load | run | parking | parked | halted
  deriving DecidableEq, Repr

/-- Result codes (12, Encodings). -/
inductive ResultCode where
  | ok | clamped | nocheck | gone | held | out | closed | role | range | full | frozen | state | referenced | limit | parking
  | badreq | aborted
  deriving DecidableEq, Repr

/-- Notice kinds (R158). -/
inductive NoticeKind where
  | itemLow | itemOut | itemBack | ticketOverdue | stationState | holdBroken | checkRefund | chainSkip | chainStall | chainDone
  | chainEndCheck | timedPrompt | laneFault
  deriving DecidableEq, Repr

/-- Lane roles (R153). -/
inductive Role where
  | off | till | station | supervisor
  deriving DecidableEq, Repr

/-- Check states (R2). -/
inductive CheckState where
  | free | opened | settling | paid | voided
  deriving DecidableEq, Repr

/-- Payer statuses (R39). -/
inductive PayerStatus where
  | unpaid | part | paid
  deriving DecidableEq, Repr

inductive FirePolicy where
  | onSend | onClose
  deriving DecidableEq, Repr

inductive SplitMode where
  | even | byLine
  deriving DecidableEq, Repr

inductive ItemKind where
  | simple | composite
  deriving DecidableEq, Repr

/-- Item levels (R66). -/
inductive Level where
  | available | low | out
  deriving DecidableEq, Repr

/-- Station intake (R94). -/
inductive Intake where
  | opened | lastCall | closed
  deriving DecidableEq, Repr

/-- Station restart policies (R98). -/
inductive RestartPolicy where
  | closed | opened | previous
  deriving DecidableEq, Repr

inductive GateMode where
  | opened | gather
  deriving DecidableEq, Repr

/-- Ticket classes (R76). -/
inductive TicketClass where
  | rush0 | rush1 | normal
  deriving DecidableEq, Repr

/-- Ticket marks NONE, LATE and OVERDUE (R76). -/
inductive Mark where
  | unmarked | late | overdue
  deriving DecidableEq, Repr

/-- The direction of an intake step (R96). -/
inductive Direction where
  | opening | closing
  deriving DecidableEq, Repr

/-- The mode of an intake step (R96). -/
inductive StepMode where
  | staged | direct
  deriving DecidableEq, Repr

/-- Program entry kinds (R127). -/
inductive EntryKind where
  | wait | fire
  deriving DecidableEq, Repr

/-- Chain slot states (R129). -/
inductive ChainState where
  | idle | armed | firing | waiting | stalled | done
  deriving DecidableEq, Repr

inductive ChainMode where
  | once | count | loop
  deriving DecidableEq, Repr

/-- Config error codes of STAT (R165). -/
inductive ConfigError where
  | noError | cfgBase | cfgLanes | cfgCalendar | cfgRead
  deriving DecidableEq, Repr

/-- Exchange fault regions of STAT (R165). -/
inductive FaultRegion where
  | noRegion | statusPage | railWindow | noticeLog | laneSlot
  deriving DecidableEq, Repr

/-- A line's assignment (R8): POOL, one payer, or a set of two or more payers in rising order. -/
inductive Assign where
  | pool
  | single (payer : Nat)
  | set (payers : List Nat)
  deriving DecidableEq, Repr

/-! ### Small records -/

/-- One value for each of four classes or bands. -/
structure Quad where
  c0 : Nat
  c1 : Nat
  c2 : Nat
  c3 : Nat
  deriving DecidableEq, Repr

/-- A duration (R118). -/
structure Duration where
  level : Nat
  count : Nat
  deriving DecidableEq, Repr

/-- An armed timer (R118): its level, its remaining count, and whether the tick that ends it has come while its block's own event
for that base tick has not (log entry 5). -/
structure Timer where
  level : Nat
  left : Nat
  due : Bool
  deriving DecidableEq, Repr

/-- The attention delay timer (R160). -/
inductive DelayTimer where
  | disarmed
  | armed (timer : Timer)
  | expired
  deriving DecidableEq, Repr

/-! ### Checks and lines -/

/-- A payer record in use (R39). -/
structure Payer where
  status : PayerStatus
  share : Nat
  tendered : Nat
  tenders : Nat
  tips : Nat
  change : Nat
  deriving DecidableEq, Repr

/-- The empty payer record (R39). -/
def emptyPayer : Payer := { status := .unpaid, share := 0, tendered := 0, tenders := 0, tips := 0, change := 0 }

/-- A check record (R2). `payers` holds the records in use, payer 1 first: its length is the payer count, and the records above it
hold the empty values. -/
structure Check where
  tag : Tag
  state : CheckState
  holder : Option Nat
  expiry : Word
  openedAt : Word
  opener : Nat
  policy : FirePolicy
  rush : Bool
  serviceRate : Nat
  taxRates : Quad
  split : SplitMode
  payers : List Payer
  lines : List Nat
  subtotal : Nat
  taxes : Quad
  service : Nat
  total : Nat
  refund : Nat
  outstanding : Nat
  owed : Bool
  chain : Option Nat
  overdue : Bool
  deriving DecidableEq, Repr

/-- A FREE check record with a given tag (R1, R2). -/
def freeCheck (tag : Tag) : Check :=
  { tag := tag, state := .free, holder := none, expiry := 0, openedAt := 0, opener := 0, policy := .onSend, rush := false,
    serviceRate := 0, taxRates := ⟨0, 0, 0, 0⟩, split := .even, payers := [emptyPayer], lines := [], subtotal := 0,
    taxes := ⟨0, 0, 0, 0⟩, service := 0, total := 0, refund := 0, outstanding := 0, owed := false, chain := none,
    overdue := false }

/-- The check record at power-on (R1). -/
def check0 : Check := freeCheck 1

/-- A line record in use (R6), with its made marks (R77). -/
structure Line where
  check : Nat
  item : Nat
  qty : Nat
  price : Nat
  taxClass : Nat
  discount : Nat
  net : Nat
  modifier : Nat
  group : Nat
  assign : Assign
  fired : Bool
  voided : Bool
  isRemake : Bool
  isCopy : Bool
  isTemplate : Bool
  made1 : Bool
  made2 : Bool
  made3 : Bool
  deriving DecidableEq, Repr

/-! ### Catalogue -/

/-- An item record (R57). -/
structure Item where
  defined : Bool
  kind : ItemKind
  station : Nat
  taxClass : Nat
  prices : Quad
  low : Nat
  onHand : Nat
  reserved : Nat
  comps : List (Nat × Nat)
  level : Level
  short : Bool
  wasShort : Bool
  deriving DecidableEq, Repr

/-- The undefined item (R57, last column). -/
def item0 : Item :=
  { defined := false, kind := .simple, station := 0, taxClass := 0, prices := ⟨0, 0, 0, 0⟩, low := 0, onHand := 0, reserved := 0,
    comps := [], level := .out, short := false, wasShort := false }

/-! ### Tickets -/

/-- A ticket line (R76). -/
structure TicketLine where
  line : Nat
  pos : Nat
  item : Nat
  qty : Nat
  modifier : Nat
  struck : Bool
  deriving DecidableEq, Repr

/-- What a ticket record in use holds beside its tag (R76). `onRail` is the state: PENDING when clear, RAIL when set. -/
structure Order where
  check : Nat
  checkTag : Tag
  station : Nat
  cls : TicketClass
  onRail : Bool
  mark : Mark
  firedAt : Word
  releasedAt : Option Word
  isRemake : Bool
  course : Option Nat
  lines : List TicketLine
  deriving DecidableEq, Repr

/-- A ticket record (R75): a free one holds only its tag. -/
structure Ticket where
  tag : Tag
  order : Option Order
  deriving DecidableEq, Repr

def ticket0 : Ticket := { tag := 1, order := none }

/-! ### Stations -/

/-- A station controller (R94). -/
structure Station where
  intake : Intake
  stamp : Word
  parkIntake : Intake
  policy : RestartPolicy
  rush0 : List Nat
  rush1 : List Nat
  normal : List Nat
  rail : List Nat
  gateMode : GateMode
  gateOpen : Bool
  threshold : Nat
  hold : Duration
  holdTimer : Option Timer
  fast : Bool
  railLimit : Nat
  aging : Duration
  agingTimer : Option Timer
  winCount : Word
  deriving DecidableEq, Repr

/-- A station controller at power-on (R94, last column). -/
def station0 : Station :=
  { intake := .closed, stamp := 0, parkIntake := .closed, policy := .closed, rush0 := [], rush1 := [], normal := [], rail := [],
    gateMode := .opened, gateOpen := true, threshold := 1, hold := ⟨0, 0⟩, holdTimer := none, fast := false, railLimit := 12,
    aging := ⟨0, 0⟩, agingTimer := none, winCount := 0 }

/-! ### Timed actions and course chains -/

/-- A timed action with its arguments (R119). -/
inductive Action where
  | setBand (band : Nat)
  | stepIntake (station : Nat) (dir : Direction) (mode : StepMode)
  | setGate (station : Nat) (mode : GateMode)
  | startChain (slot : Nat)
  | prompt (code : Nat)
  deriving DecidableEq, Repr

/-- A timed action table entry (R119). -/
structure TimedEntry where
  level : Nat
  period : Nat
  countdown : Nat
  jitter : Nat
  action : Action
  deriving DecidableEq, Repr

def timedEntry0 : TimedEntry := { level := 0, period := 0, countdown := 0, jitter := 0, action := .prompt 0 }

/-- A program entry (R127); `next` absent is END. -/
structure ProgEntry where
  kind : EntryKind
  next : Option Nat
  group : Nat
  repeats : Nat
  reorder : Bool
  dur : Duration
  deriving DecidableEq, Repr

def progEntry0 : ProgEntry := { kind := .wait, next := none, group := 1, repeats := 1, reorder := false, dur := ⟨0, 0⟩ }

/-- A chain slot (R129). `ran` says that the slot has run at the present base tick (R132, log entry 7). -/
structure Slot where
  state : ChainState
  check : Nat
  tag : Tag
  first : Nat
  cur : Nat
  reps : Nat
  mode : ChainMode
  passCount : Nat
  passesDone : Nat
  interval : Nat
  phase : Nat
  next : Option Nat
  timer : Option Timer
  ran : Bool
  deriving DecidableEq, Repr

def slot0 : Slot :=
  { state := .idle, check := 0, tag := 0, first := 0, cur := 0, reps := 0, mode := .once, passCount := 1, passesDone := 0,
    interval := 1, phase := 1, next := none, timer := none, ran := false }

/-! ### Lanes and counters -/

/-- A lane: its profile and fault flag (R153) and its next-slot pointer (R147). -/
structure Lane where
  role : Role
  station : Nat
  voidFired : Bool
  discount : Bool
  stockAdjust : Bool
  lock : Bool
  fault : Bool
  pointer : Nat
  deriving DecidableEq, Repr

def lane0 : Lane :=
  { role := .off, station := 0, voidFired := false, discount := false, stockAdjust := false, lock := false, fault := false,
    pointer := 0 }

/-- One STATION set of counters (R163). -/
structure StationCount where
  relRush0 : Nat
  relRush1 : Nat
  relNormal : Nat
  onTime : Nat
  overdue : Nat
  withdrawn : Nat
  remakes : Nat
  byThreshold : Nat
  byHold : Nat
  byFast : Nat
  deriving DecidableEq, Repr

def stationCount0 : StationCount := ⟨0, 0, 0, 0, 0, 0, 0, 0, 0, 0⟩

/-- One ITEM set of counters (R163). -/
structure ItemCount where
  consumed : Nat
  unmade : Nat
  afterMade : Nat
  wasted : Nat
  outs : Nat
  yields : Nat
  excess : Nat
  deriving DecidableEq, Repr

def itemCount0 : ItemCount := ⟨0, 0, 0, 0, 0, 0, 0⟩

/-- One LANE set of counters (R163). -/
structure LaneCount where
  taken : Nat
  refused : Nat
  opened : Nat
  tenders : Nat
  tenderTotal : Nat
  tipTotal : Nat
  deriving DecidableEq, Repr

def laneCount0 : LaneCount := ⟨0, 0, 0, 0, 0, 0⟩

/-- The ENGINE set of counters (R163). -/
structure EngineCount where
  notices : Nat
  stalls : Nat
  retries : Nat
  laneFaults : Nat
  deriving DecidableEq, Repr

def engineCount0 : EngineCount := ⟨0, 0, 0, 0⟩

/-! ### The tables -/

/-- The engine's copy of the config block (R144). -/
structure Cfg where
  laneCount : Nat
  calendar : List (Nat × Nat)
  taxRates : Quad
  holdTime : Nat
  tipCap : Nat
  wakeEnable : Bool
  deriving DecidableEq, Repr

/-- DESIGN CHOICE (log entry 11): the copies before the first START. -/
def cfg0 : Cfg := { laneCount := 0, calendar := [], taxRates := ⟨0, 0, 0, 0⟩, holdTime := 0, tipCap := 0, wakeEnable := false }

/-- The on-chip tables: what the effect of a request or of a timed event reaches. -/
structure Tables where
  cfg : Cfg
  lanes : List (Nat × Lane)
  checks : List (Nat × Check)
  lines : List (Nat × Option Line)
  items : List (Nat × Item)
  band : Nat
  tickets : List (Nat × Ticket)
  owed : List Nat
  stations : List (Nat × Station)
  time : Word
  actions : List (Nat × TimedEntry)
  draw : Word
  program : List (Nat × ProgEntry)
  slots : List (Nat × Slot)
  cStations : List (Nat × StationCount)
  cItems : List (Nat × ItemCount)
  cLanes : List (Nat × LaneCount)
  cEngine : EngineCount
  deriving DecidableEq, Repr

/-- Every table at its power-on value (R173). -/
def tables0 : Tables :=
  { cfg := cfg0, lanes := [], checks := [], lines := [], items := [], band := 0, tickets := [], owed := [], stations := [],
    time := 0, actions := [], draw := 1, program := [], slots := [], cStations := [], cItems := [], cLanes := [],
    cEngine := engineCount0 }

/-! ### Control, request unit, timebase, attention -/

/-- A START in progress (R167): its qualifier, the step to make next (1 to 7), what the bus does to its accesses, how many accesses
it has made, and the config block it has read (log entry 23). -/
structure StartOp where
  load : Bool
  next : Nat
  errs : List Nat
  acc : Nat
  block : List Word
  answerLost : Bool
  deriving DecidableEq, Repr

/-- Engine control (R165 to R169). -/
structure Enc where
  engine : EngineState
  configError : ConfigError
  clampFlag : Bool
  faultRegion : FaultRegion
  commandError : Bool
  startOp : Option StartOp
  parkPending : Bool
  runPending : Bool
  deriving DecidableEq, Repr

def enc0 : Enc :=
  { engine := .stopped, configError := .noError, clampFlag := false, faultRegion := .noRegion, commandError := false,
    startOp := none, parkPending := false, runPending := false }

/-- A request as the sweep copied it (R147, R148). `body` is the 48-byte body, 12 words. -/
structure Req where
  lane : Nat
  slot : Nat
  kind : Nat
  hubTag : Word
  body : List Word
  takenAt : Word
  deriving DecidableEq, Repr

/-- The answer to a request: its code and the words of its result body, 0 after the last. -/
structure Answer where
  code : ResultCode
  body : List Word
  deriving DecidableEq, Repr

/-- A pending answer (R171, R172). -/
structure Pending where
  lane : Nat
  slot : Nat
  hubTag : Word
  answer : Answer
  deriving DecidableEq, Repr

/-- The request unit. -/
structure Rqu where
  inFlight : Option Req
  pending : Option Pending
  deriving DecidableEq, Repr

def rqu0 : Rqu := { inFlight := none, pending := none }

/-- The sweep's position (R150). -/
structure Sweep where
  entry : Nat
  taken : Nat
  deriving DecidableEq, Repr

/-- The tick ladder and the level counters (R115, R116); `mults` lists the multipliers of levels 1 to 7, `counters` the counters of
levels 0 to 7. -/
structure Tmb where
  base : Nat
  mults : List Nat
  counters : List Nat
  deriving DecidableEq, Repr

def tmb0 : Tmb := { base := 100, mults := [1, 1, 1, 1, 1, 1, 1], counters := [0, 0, 0, 0, 0, 0, 0, 0] }

/-- What of the latest base tick still waits, one event for each block (R116; log entries 4 to 7): how many levels ticked (levels 0 to
`ticked` - 1), and whether the owed retry, the TAT's event (R120) and the CCU's event (R132) wait. A station's own event waits while one
of its timers has its due mark. -/
structure Due where
  ticked : Nat
  owed : Bool
  tat : Bool
  ccu : Bool
  deriving DecidableEq, Repr

def due0 : Due := { ticked := 0, owed := false, tat := false, ccu := false }

/-- The notice writer and the attention state (R157, R160). -/
structure Ntw where
  written : Word
  count : Nat
  threshold : Nat
  delay : Duration
  timer : DelayTimer
  mask : Word
  urgent : Bool
  line : Bool
  deriving DecidableEq, Repr

def ntw0 : Ntw :=
  { written := 0, count := 0, threshold := 1, delay := ⟨0, 0⟩, timer := .disarmed, mask := 0, urgent := false, line := false }

/-- No command of the table stops the engine with a fault of the model: every error the spec describes is a state. -/
inductive Fault where
  deriving DecidableEq, Repr

/-- Refusals. -/
inductive Refusal where
  /-- Raised by `exec` for a command that has no meaning yet; safe. No command is left so. -/
  | notModelled (mnemonic : String)
  deriving DecidableEq, Repr

/-- The state of the engine, of board DRAM as the engine sees it, and the queue of commands. -/
structure State where
  enc : Enc
  base : Addr
  tb : Tables
  rqu : Rqu
  sweep : Sweep
  tmb : Tmb
  due : Due
  ntw : Ntw
  doneCounts : List (Nat × Word)
  mem : List Host.Cell
  freeCount : Nat
  pending : List Instr
  deriving DecidableEq, Repr

/-- Power-on (R173), with an empty queue. -/
def State.reset : State :=
  { enc := enc0, base := 0, tb := tables0, rqu := rqu0, sweep := { entry := 0, taken := 0 }, tmb := tmb0, due := due0, ntw := ntw0,
    doneCounts := [], mem := [], freeCount := 0, pending := [] }

end Sys2Proof.Machine
end

