-- ==== Sys2Proof/Machine/Operands.lean ====
section
/-!
DEFINITION. Operand forms: the encodings of 12_record_layouts.md, the fields of request bodies, the packing of result bodies
(R175) and the images of the records the engine writes.
-/

namespace Sys2Proof.Machine

/-! ### Encodings (12, Encodings) -/

def EngineState.code : EngineState → Nat
  | .stopped => 0 | .load => 1 | .run => 2 | .parking => 3 | .parked => 4 | .halted => 5

def ResultCode.code : ResultCode → Nat
  | .ok => 0 | .clamped => 1 | .nocheck => 2 | .gone => 3 | .held => 4 | .out => 5 | .closed => 6 | .role => 7 | .range => 8
  | .full => 9 | .frozen => 10 | .state => 11 | .referenced => 12 | .limit => 13 | .parking => 14 | .badreq => 15
  | .aborted => 16

def NoticeKind.code : NoticeKind → Nat
  | .itemLow => 1 | .itemOut => 2 | .itemBack => 3 | .ticketOverdue => 4 | .stationState => 5 | .holdBroken => 6
  | .checkRefund => 7 | .chainSkip => 8 | .chainStall => 9 | .chainDone => 10 | .chainEndCheck => 11 | .timedPrompt => 12
  | .laneFault => 13

def Role.code : Role → Nat
  | .off => 0 | .till => 1 | .station => 2 | .supervisor => 3

def Role.ofCode : Nat → Option Role
  | 0 => some .off | 1 => some .till | 2 => some .station | 3 => some .supervisor | _ => none

def CheckState.code : CheckState → Nat
  | .free => 0 | .opened => 1 | .settling => 2 | .paid => 3 | .voided => 4

def PayerStatus.code : PayerStatus → Nat
  | .unpaid => 0 | .part => 1 | .paid => 2

def FirePolicy.code : FirePolicy → Nat
  | .onSend => 0 | .onClose => 1

def FirePolicy.ofCode : Nat → Option FirePolicy
  | 0 => some .onSend | 1 => some .onClose | _ => none

def SplitMode.code : SplitMode → Nat
  | .even => 0 | .byLine => 1

def SplitMode.ofCode : Nat → Option SplitMode
  | 0 => some .even | 1 => some .byLine | _ => none

def ItemKind.code : ItemKind → Nat
  | .simple => 0 | .composite => 1

def ItemKind.ofCode : Nat → Option ItemKind
  | 0 => some .simple | 1 => some .composite | _ => none

def Level.code : Level → Nat
  | .available => 0 | .low => 1 | .out => 2

def Intake.code : Intake → Nat
  | .opened => 0 | .lastCall => 1 | .closed => 2

def RestartPolicy.code : RestartPolicy → Nat
  | .closed => 0 | .opened => 1 | .previous => 2

def RestartPolicy.ofCode : Nat → Option RestartPolicy
  | 0 => some .closed | 1 => some .opened | 2 => some .previous | _ => none

def GateMode.code : GateMode → Nat
  | .opened => 0 | .gather => 1

def GateMode.ofCode : Nat → Option GateMode
  | 0 => some .opened | 1 => some .gather | _ => none

def TicketClass.code : TicketClass → Nat
  | .rush0 => 0 | .rush1 => 1 | .normal => 2

def Mark.code : Mark → Nat
  | .unmarked => 0 | .late => 1 | .overdue => 2

def Direction.code : Direction → Nat
  | .opening => 0 | .closing => 1

def Direction.ofCode : Nat → Option Direction
  | 0 => some .opening | 1 => some .closing | _ => none

def StepMode.code : StepMode → Nat
  | .staged => 0 | .direct => 1

def StepMode.ofCode : Nat → Option StepMode
  | 0 => some .staged | 1 => some .direct | _ => none

def EntryKind.code : EntryKind → Nat
  | .wait => 0 | .fire => 1

def EntryKind.ofCode : Nat → Option EntryKind
  | 0 => some .wait | 1 => some .fire | _ => none

def ChainState.code : ChainState → Nat
  | .idle => 0 | .armed => 1 | .firing => 2 | .waiting => 3 | .stalled => 4 | .done => 5

def ChainMode.code : ChainMode → Nat
  | .once => 0 | .count => 1 | .loop => 2

def ChainMode.ofCode : Nat → Option ChainMode
  | 0 => some .once | 1 => some .count | 2 => some .loop | _ => none

def ConfigError.code : ConfigError → Nat
  | .noError => 0 | .cfgBase => 1 | .cfgLanes => 2 | .cfgCalendar => 3 | .cfgRead => 4

def FaultRegion.code : FaultRegion → Nat
  | .noRegion => 0 | .statusPage => 1 | .railWindow => 2 | .noticeLog => 3 | .laneSlot => 4

/-- A flag as a byte. -/
def flagCode (b : Bool) : Nat := if b then 1 else 0

/-- A lane or slot as a byte, 0xFF when absent. -/
def optCode : Option Nat → Nat
  | none => 0xFF
  | some n => n

/-- The encoding of a program entry's next: END is 256. -/
def nextCode : Option Nat → Nat
  | none => 256
  | some n => n

/-! ### Quads -/

/-- The value of class or band `i` (the last one for any `i` above 2). -/
def Quad.get (q : Quad) (i : Nat) : Nat :=
  match i with
  | 0 => q.c0
  | 1 => q.c1
  | 2 => q.c2
  | _ => q.c3

def Quad.sum (q : Quad) : Nat := q.c0 + q.c1 + q.c2 + q.c3

def Quad.map (f : Nat → Nat) (q : Quad) : Quad := ⟨f q.c0, f q.c1, f q.c2, f q.c3⟩

/-! ### Words and their parts -/

/-- Byte `j` of a word, byte 0 least significant. -/
def byteOf (w : Word) (j : Nat) : Nat := (w.extractLsb' (8 * j) 8).toNat

/-- Bit `j` of a word. -/
def bitOf (w : Word) (j : Nat) : Bool := w.getLsbD j

def lo16 (w : Word) : Nat := (w.extractLsb' 0 16).toNat

def hi16 (w : Word) : Nat := (w.extractLsb' 16 16).toNat

/-- The tag of a reference word (12). -/
def refTag (w : Word) : Tag := w.extractLsb' 16 16

/-- A reference word: index in bits 15:0, tag in bits 31:16 (12). -/
def refWord (index : Nat) (tag : Tag) : Word := BitVec.ofNat 32 (index % 65536 + tag.toNat * 65536)

/-- Two halves of a word. -/
def halves (lo hi : Nat) : Word := BitVec.ofNat 32 (lo % 65536 + hi % 65536 * 65536)

/-- Four bytes of a word. -/
def bytes4 (b0 b1 b2 b3 : Nat) : Word :=
  BitVec.ofNat 32 (b0 % 256 + b1 % 256 * 256 + b2 % 256 * 65536 + b3 % 256 * 16777216)

/-- Bytes to words, four a word; what is left over at the end fills with 0. -/
def bytesToWords : List Nat → List Word
  | [] => []
  | [a] => [bytes4 a 0 0 0]
  | [a, b] => [bytes4 a b 0 0]
  | [a, b, c] => [bytes4 a b c 0]
  | a :: b :: c :: d :: t => bytes4 a b c d :: bytesToWords t

/-! ### Request bodies (12, Lane slot) -/

/-- Word `k` of a request's body. -/
def reqWord (r : Req) (k : Nat) : Word := r.body.getD k 0

/-- Byte `j` of word `k` of a request's body. -/
def reqByte (r : Req) (k j : Nat) : Nat := byteOf (reqWord r k) j

/-- A flag that has a byte to itself: set when the byte is not 0 (log entry 14). -/
def reqFlag (r : Req) (k j : Nat) : Bool := reqByte r k j != 0

/-- The payers named by an assignment byte: bit p - 1 for payer p. -/
def assignMembers (b : Nat) : List Nat := ((List.range 8).filter (fun i => b.testBit i)).map (· + 1)

/-- The stored form of a set of payers: none is POOL, one is that single payer (R8). -/
def assignOf : List Nat → Assign
  | [] => .pool
  | [p] => .single p
  | ps => .set ps

/-- The payers an assignment names. -/
def Assign.members : Assign → List Nat
  | .pool => []
  | .single p => [p]
  | .set ps => ps

/-- The assignment byte (12). -/
def Assign.code (a : Assign) : Nat := (a.members.map (fun p => 2 ^ (p - 1))).sum

/-! ### Result bodies (R175) -/

/-- A field of a result: a word, or a byte packed with the bytes beside it. -/
inductive Field where
  | w (v : Word)
  | b (v : Nat)
  deriving DecidableEq, Repr

/-- The words of a list of fields, `acc` holding the `n` bytes gathered so far. -/
def packFrom (acc n : Nat) : List Field → List Word
  | [] => if n = 0 then [] else [BitVec.ofNat 32 acc]
  | .w v :: fs => (if n = 0 then [] else [BitVec.ofNat 32 acc]) ++ v :: packFrom 0 0 fs
  | .b v :: fs =>
    if n = 3 then BitVec.ofNat 32 (acc + v % 256 * 16777216) :: packFrom 0 0 fs
    else packFrom (acc + v % 256 * 256 ^ n) (n + 1) fs

/-- The words of a list of fields: words stand alone, bytes go four to a word. -/
def pack (fs : List Field) : List Word := packFrom 0 0 fs

/-- A field of a natural number taking a word. -/
def wn (n : Nat) : Field := .w (BitVec.ofNat 32 n)

/-- A refusal or an answer with a packed body. -/
def answer (code : ResultCode) (fs : List Field) : Answer := { code := code, body := pack fs }

/-- The 16 words of a result body: what the answer carries, and 0 after it. -/
def bodyWords (a : Answer) : List Word := (List.range 16).map (fun k => a.body.getD k 0)

/-! ### Images of the records the engine writes (12) -/

/-- A notice (R157): kind, engine time, subjects. -/
structure Notice where
  kind : NoticeKind
  time : Word
  a : Nat
  b : Nat
  deriving DecidableEq, Repr

/-- The eight words of a notice record. -/
def noticeWords (seq : Word) (n : Notice) : List Word :=
  [seq, bytes4 n.kind.code 0 0 0, n.time, BitVec.ofNat 32 n.a, BitVec.ofNat 32 n.b, 0, 0, 0]

/-- The seven bytes of a ticket line in a rail window entry. -/
def ticketLineBytes (l : TicketLine) : List Nat :=
  let id := l.line + (if l.struck then 32768 else 0)
  [id, id / 256, l.item, l.item / 256, l.qty, l.qty / 256, l.modifier]

/-- The 20 words of a rail window entry. -/
def railEntryWords (index : Nat) (t : Ticket) (o : Order) : List Word :=
  [refWord index t.tag, refWord o.check o.checkTag,
   bytes4 o.cls.code o.mark.code (flagCode o.isRemake) o.lines.length,
   halves (o.course.getD 0xFFFF) 0, o.firedAt, o.releasedAt.getD 0]
  ++ (List.range 14).map (fun k => (bytesToWords (o.lines.flatMap ticketLineBytes)).getD k 0)

/-- An empty rail window entry. -/
def emptyRailEntry : List Word := List.replicate 20 0

/-- The words of a rail window after the change counter: seven of the header and 240 of the entries (R111). -/
def windowWords (n : Nat) (s : Station) (entries : List (List Word)) : List Word :=
  [bytes4 n s.intake.code s.gateMode.code (flagCode s.gateOpen), s.stamp, bytes4 s.railLimit s.rail.length 0 0, 0, 0, 0, 0]
  ++ ((List.range 12).map (fun e => entries.getD e emptyRailEntry)).flatten

/-- The 128 words of the status page (R145). -/
def statusWords (written time : Word) (done : Nat → Word) : List Word :=
  [written, time, 0, 0] ++ (List.range 64).map done ++ List.replicate 60 0

end Sys2Proof.Machine
end

