-- ==== Sys2Proof/Machine/Bill.lean ====
section
/-!
DEFINITION. The split calculator (02_bill_arithmetic.md): the seven stages as functions of a check's lines, rates, mode and payers.
-/

namespace Sys2Proof.Machine

/-- An amount at a rate in basis points, to the nearest minor unit, halves upward (00, Rounding). -/
def atRate (a r : Nat) : Nat := (a * r + 5000) / 10000

/-- An amount at a whole percentage, to the nearest minor unit, halves upward (00, Rounding). -/
def atPercent (a p : Nat) : Nat := (a * p + 50) / 100

/-! ### Stages 1 to 4 -/

/-- The gross of a line (R25). -/
def lineGross (l : Line) : Nat := l.qty * l.price

/-- The net of a line: its gross less its discount; 0 when voided (R25). -/
def lineNet (l : Line) : Nat := if l.voided then 0 else lineGross l - atPercent (lineGross l) l.discount

/-- The sum of the nets of the non-voided lines (R26). -/
def subtotalOf (ls : List Line) : Nat := (ls.map lineNet).sum

/-- The class base b_c (R26). -/
def classBase (ls : List Line) (c : Nat) : Nat := ((ls.filter (fun l => l.taxClass == c)).map lineNet).sum

/-- The four class taxes, each rounded once (R26). -/
def taxesOf (rates : Quad) (ls : List Line) : Quad :=
  ⟨atRate (classBase ls 0) rates.c0, atRate (classBase ls 1) rates.c1, atRate (classBase ls 2) rates.c2,
   atRate (classBase ls 3) rates.c3⟩

/-- The service charge (R27). -/
def serviceOf (rate : Nat) (ls : List Line) : Nat := atRate (subtotalOf ls) rate

/-- The total (R28). -/
def totalOf (rates : Quad) (serviceRate : Nat) (ls : List Line) : Nat :=
  subtotalOf ls + (taxesOf rates ls).sum + serviceOf serviceRate ls

/-! ### The largest-remainder allocation (R29) -/

/-- How many recipients stand before recipient `i` with remainder `r` in the order of R29 step 4: larger remainder first, lower
payer number first where remainders are equal. -/
def rankOf (rems : List Nat) (r i : Nat) : Nat :=
  (rems.zipIdx.filter (fun q => decide (r < q.1 ∨ (q.1 = r ∧ q.2 < i)))).length

/-- The weights used: all 1 where they sum to 0 (R29 step 1). -/
def effectiveWeights (ws : List Nat) : List Nat := if ws.sum = 0 then ws.map (fun _ => 1) else ws

/-- The first receipts (R29 step 2). -/
def firstReceipts (x : Nat) (ws : List Nat) : List Nat := ws.map (fun w => x * w / ws.sum)

/-- The remainders (R29 step 2). -/
def remainders (x : Nat) (ws : List Nat) : List Nat := ws.map (fun w => x * w % ws.sum)

/-- One more unit to each of the `extra` recipients with the largest remainders (R29 step 4). -/
def addLeftover (extra : Nat) (firsts rems : List Nat) : List Nat :=
  List.zipWith (fun f q => f + (if rankOf rems q.1 q.2 < extra then 1 else 0)) firsts rems.zipIdx

/-- The largest-remainder allocation of `x` among recipients in payer order with weights `ws` (R29). -/
def allocate (x : Nat) (ws : List Nat) : List Nat :=
  let es := effectiveWeights ws
  addLeftover (x - (firstReceipts x es).sum) (firstReceipts x es) (remainders x es)

/-! ### Stage 5: ideal shares -/

/-- Lists of amounts by payer, added place by place. -/
def addLists (a b : List Nat) : List Nat := List.zipWith (· + ·) a b

/-- The weights with which a line's net is divided among payers 1 to `n` (R31): 1 for each payer the assignment names, all 1 for
POOL. By R29 a payer of weight 0 receives nothing and the only payer of weight 1 receives all. -/
def assignWeights (a : Assign) (n : Nat) : List Nat :=
  match a with
  | .pool => List.replicate n 1
  | .single p => (List.range n).map (fun i => if i + 1 = p then 1 else 0)
  | .set ps => (List.range n).map (fun i => if i + 1 ∈ ps then 1 else 0)

/-- The payers' class nets n_(p,c) for class `c` (R31). -/
def classNets (ls : List Line) (n c : Nat) : List Nat :=
  (ls.filter (fun l => l.taxClass == c && !l.voided)).foldl
    (fun acc l => addLists acc (allocate (lineNet l) (assignWeights l.assign n))) (List.replicate n 0)

/-- The ideal shares in BY_LINE mode (R31, R32). -/
def idealByLine (rates : Quad) (serviceRate : Nat) (ls : List Line) (n : Nat) : List Nat :=
  let n0 := classNets ls n 0
  let n1 := classNets ls n 1
  let n2 := classNets ls n 2
  let n3 := classNets ls n 3
  let net := addLists (addLists n0 n1) (addLists n2 n3)
  let t := taxesOf rates ls
  let tax := addLists (addLists (allocate t.c0 n0) (allocate t.c1 n1)) (addLists (allocate t.c2 n2) (allocate t.c3 n3))
  addLists (addLists net tax) (allocate (serviceOf serviceRate ls) net)

/-- The ideal shares in EVEN mode (R30). -/
def idealEven (total n : Nat) : List Nat := allocate total (List.replicate n 1)

/-- Stage 5. -/
def idealShares (mode : SplitMode) (rates : Quad) (serviceRate : Nat) (ls : List Line) (n : Nat) : List Nat :=
  match mode with
  | .even => idealEven (totalOf rates serviceRate ls) n
  | .byLine => idealByLine rates serviceRate ls n

/-! ### Stage 6: freeze adjustment -/

def isPaid (p : Payer) : Bool := p.status == .paid

/-- F, the sum of the frozen shares (R33). -/
def frozenSum (ps : List Payer) : Nat := ((ps.filter isPaid).map (·.share)).sum

/-- The ideal shares of the payers that are not PAID, in payer order (R33). -/
def openIdeals (ps : List Payer) (ideal : List Nat) : List Nat :=
  ((ps.zip ideal).filter (fun q => !isPaid q.1)).map (·.2)

/-- The new shares of the payers that are not PAID (R33 steps 1 to 4), `rest` being R. -/
def openShares (rest : Nat) (ideals : List Nat) : List Nat :=
  if ideals.sum ≤ rest then addLists ideals (allocate (rest - ideals.sum) ideals)
  else List.zipWith (· - ·) ideals (allocate (ideals.sum - rest) ideals)

/-- Give the payers that are not PAID the shares of a list, in payer order; a PAID payer keeps its share. -/
def giveShares : List Payer → List Nat → List Payer
  | [], _ => []
  | p :: ps, shares =>
    if isPaid p then p :: giveShares ps shares
    else { p with share := shares.headD 0 } :: giveShares ps shares.tail

/-- Stage 6: the shares (R33, R34). Where every payer is PAID, as a SET_PAYERS that drops the others leaves it (R42), nobody takes the
drift and every share stays: the model's choice, log entry 53. -/
def freezeShares (total : Nat) (ps : List Payer) (ideal : List Nat) : List Payer :=
  if frozenSum ps ≤ total then giveShares ps (openShares (total - frozenSum ps) (openIdeals ps ideal))
  else giveShares ps []

/-- Stage 6: the refund due (R33, R34), also where every payer is PAID (log entry 53). -/
def refundOf (total : Nat) (ps : List Payer) : Nat := frozenSum ps - total

/-! ### Stage 7: status update -/

/-- A payer that is not PAID, has a tender and has tendered its share becomes PAID, with its change due (R35). -/
def settlePayer (p : Payer) : Payer :=
  if !isPaid p && decide (1 ≤ p.tenders) && decide (p.share ≤ p.tendered) then
    { p with status := .paid, change := p.tendered - p.share }
  else p

/-! ### The recomputation -/

/-- The figures a recomputation writes to the check record (R24). -/
structure Figures where
  subtotal : Nat
  taxes : Quad
  service : Nat
  total : Nat
  refund : Nat
  payers : List Payer
  deriving DecidableEq, Repr

/-- The seven stages (R23). -/
def computeBill (mode : SplitMode) (rates : Quad) (serviceRate : Nat) (ps : List Payer) (ls : List Line) : Figures :=
  let total := totalOf rates serviceRate ls
  let ideal := idealShares mode rates serviceRate ls ps.length
  { subtotal := subtotalOf ls, taxes := taxesOf rates ls, service := serviceOf serviceRate ls, total := total,
    refund := refundOf total ps, payers := (freezeShares total ps ideal).map settlePayer }

/-- The tip cap amount of R46. -/
def tipCapAmount (share cap : Nat) : Nat := atPercent share cap

/-! ### The draw source (R121) -/

/-- One advance of the draw source. -/
def drawNext (x : Word) : Word :=
  let a := x ^^^ (x <<< 13)
  let b := a ^^^ (a >>> 17)
  b ^^^ (b <<< 5)

/-- The low end of a jitter mode's reload range (R121): 3P/4 and P/2 rounded upward, and 1. -/
def jitterLow (mode p : Nat) : Nat :=
  match mode with
  | 0 => p
  | 1 => (3 * p + 3) / 4
  | 2 => (p + 1) / 2
  | _ => 1

/-- The reload drawn from a state (R121). -/
def jitterReload (mode p : Nat) (x : Word) : Nat :=
  jitterLow mode p + x.toNat % (p - jitterLow mode p + 1)

end Sys2Proof.Machine
end

