-- ==== Sys2Proof/Machine/Ops.lean ====
section
/-!
DEFINITION. The named operations: reading and writing the tables, the event context of a table effect (`Ev`), exchange memory, the
bus context of a step (`Io`), the attention state, notices, rail windows, lane faults, halting, and answering a request.
-/

namespace Sys2Proof.Machine

/-! ### Tags and saturation -/

/-- The tag a record has after it is freed: one more, and 1 after 65535 (R1, R75). -/
def nextTag (t : Tag) : Tag := if t = 65535 then 1 else t + 1

/-- A 32-bit counter raised by `n`, saturating (R163). -/
def satCount (c n : Nat) : Nat := min (c + n) Config.countTop

/-- A 40-bit amount counter raised by `n`, saturating (R163). -/
def satAmount (c n : Nat) : Nat := min (c + n) Config.amountCounterTop

/-- `a` is past `b` modulo 2^32: their difference lies between 1 and 2^31 - 1 (R18, R95). -/
def isPast (a b : Word) : Bool := decide (1 ≤ (a - b).toNat ∧ (a - b).toNat < 2147483648)

/-! ### Named updates of State -/

def State.setEnc (s : State) (x : Enc) : State := { s with enc := x }
def State.setBase (s : State) (x : Addr) : State := { s with base := x }
def State.setTb (s : State) (x : Tables) : State := { s with tb := x }
def State.setRqu (s : State) (x : Rqu) : State := { s with rqu := x }
def State.setSweep (s : State) (x : Sweep) : State := { s with sweep := x }
def State.setTmb (s : State) (x : Tmb) : State := { s with tmb := x }
def State.setDue (s : State) (x : Due) : State := { s with due := x }
def State.setNtw (s : State) (x : Ntw) : State := { s with ntw := x }
def State.setDoneCounts (s : State) (x : List (Nat × Word)) : State := { s with doneCounts := x }
def State.setMem (s : State) (x : List Host.Cell) : State := { s with mem := x }
def State.setFreeCount (s : State) (x : Nat) : State := { s with freeCount := x }
def State.setPending (s : State) (x : List Instr) : State := { s with pending := x }

/-! ### Named updates of Tables -/

def Tables.setCfg (t : Tables) (x : Cfg) : Tables := { t with cfg := x }
def Tables.setLanes (t : Tables) (x : List (Nat × Lane)) : Tables := { t with lanes := x }
def Tables.setChecks (t : Tables) (x : List (Nat × Check)) : Tables := { t with checks := x }
def Tables.setLines (t : Tables) (x : List (Nat × Option Line)) : Tables := { t with lines := x }
def Tables.setItems (t : Tables) (x : List (Nat × Item)) : Tables := { t with items := x }
def Tables.setBand (t : Tables) (x : Nat) : Tables := { t with band := x }
def Tables.setTickets (t : Tables) (x : List (Nat × Ticket)) : Tables := { t with tickets := x }
def Tables.setOwed (t : Tables) (x : List Nat) : Tables := { t with owed := x }
def Tables.setStations (t : Tables) (x : List (Nat × Station)) : Tables := { t with stations := x }
def Tables.setTime (t : Tables) (x : Word) : Tables := { t with time := x }
def Tables.setActions (t : Tables) (x : List (Nat × TimedEntry)) : Tables := { t with actions := x }
def Tables.setDraw (t : Tables) (x : Word) : Tables := { t with draw := x }
def Tables.setProgram (t : Tables) (x : List (Nat × ProgEntry)) : Tables := { t with program := x }
def Tables.setSlots (t : Tables) (x : List (Nat × Slot)) : Tables := { t with slots := x }
def Tables.setCStations (t : Tables) (x : List (Nat × StationCount)) : Tables := { t with cStations := x }
def Tables.setCItems (t : Tables) (x : List (Nat × ItemCount)) : Tables := { t with cItems := x }
def Tables.setCLanes (t : Tables) (x : List (Nat × LaneCount)) : Tables := { t with cLanes := x }
def Tables.setCEngine (t : Tables) (x : EngineCount) : Tables := { t with cEngine := x }

/-! ### Reading the tables -/

def Tables.lane (t : Tables) (i : Nat) : Lane := tget lane0 t.lanes i
def Tables.check (t : Tables) (i : Nat) : Check := tget check0 t.checks i
def Tables.line (t : Tables) (i : Nat) : Option Line := tget none t.lines i
def Tables.item (t : Tables) (i : Nat) : Item := tget item0 t.items i
def Tables.ticket (t : Tables) (i : Nat) : Ticket := tget ticket0 t.tickets i
def Tables.station (t : Tables) (i : Nat) : Station := tget station0 t.stations i
def Tables.action (t : Tables) (i : Nat) : TimedEntry := tget timedEntry0 t.actions i
def Tables.entry (t : Tables) (i : Nat) : ProgEntry := tget progEntry0 t.program i
def Tables.slot (t : Tables) (i : Nat) : Slot := tget slot0 t.slots i
def Tables.cStation (t : Tables) (i : Nat) : StationCount := tget stationCount0 t.cStations i
def Tables.cItem (t : Tables) (i : Nat) : ItemCount := tget itemCount0 t.cItems i
def Tables.cLane (t : Tables) (i : Nat) : LaneCount := tget laneCount0 t.cLanes i

/-- The line records of a list of line ids, free ids left out. -/
def Tables.linesOf (t : Tables) (ids : List Nat) : List Line := ids.filterMap t.line

/-! ### The event context of a table effect -/

/-- What an event's table effect works on: the tables, the engine state it runs under, the notices it has raised in order, the
items it has touched in order of first touch (R66), the stations it has reached (R104), and the stations whose window it rewrites even
where it has changed back what the window shows (R112). -/
structure Ev where
  tb : Tables
  mode : EngineState
  notes : List Notice
  touched : List Nat
  reached : List Nat
  rewrites : List Nat
  deriving DecidableEq, Repr

def Ev.ofTables (tb : Tables) (mode : EngineState) : Ev :=
  { tb := tb, mode := mode, notes := [], touched := [], reached := [], rewrites := [] }

def Ev.setTb (ev : Ev) (x : Tables) : Ev := { ev with tb := x }

/-- In LOAD no notice is written and no counter counts (R168). -/
def Ev.inLoad (ev : Ev) : Bool := ev.mode == .load

def Ev.updLane (ev : Ev) (i : Nat) (f : Lane → Lane) : Ev := ev.setTb (ev.tb.setLanes (tupd lane0 ev.tb.lanes i f))
def Ev.updCheck (ev : Ev) (i : Nat) (f : Check → Check) : Ev := ev.setTb (ev.tb.setChecks (tupd check0 ev.tb.checks i f))
def Ev.setLine (ev : Ev) (i : Nat) (l : Option Line) : Ev := ev.setTb (ev.tb.setLines (tset none ev.tb.lines i l))
def Ev.updLine (ev : Ev) (i : Nat) (f : Line → Line) : Ev :=
  ev.setTb (ev.tb.setLines (tupd none ev.tb.lines i (fun o => o.map f)))
def Ev.updItem (ev : Ev) (i : Nat) (f : Item → Item) : Ev := ev.setTb (ev.tb.setItems (tupd item0 ev.tb.items i f))
def Ev.updTicket (ev : Ev) (i : Nat) (f : Ticket → Ticket) : Ev := ev.setTb (ev.tb.setTickets (tupd ticket0 ev.tb.tickets i f))
def Ev.updStation (ev : Ev) (i : Nat) (f : Station → Station) : Ev :=
  ev.setTb (ev.tb.setStations (tupd station0 ev.tb.stations i f))
def Ev.updAction (ev : Ev) (i : Nat) (f : TimedEntry → TimedEntry) : Ev :=
  ev.setTb (ev.tb.setActions (tupd timedEntry0 ev.tb.actions i f))
def Ev.updEntry (ev : Ev) (i : Nat) (f : ProgEntry → ProgEntry) : Ev :=
  ev.setTb (ev.tb.setProgram (tupd progEntry0 ev.tb.program i f))
def Ev.updSlot (ev : Ev) (i : Nat) (f : Slot → Slot) : Ev := ev.setTb (ev.tb.setSlots (tupd slot0 ev.tb.slots i f))
def Ev.setBand (ev : Ev) (b : Nat) : Ev := ev.setTb (ev.tb.setBand b)
def Ev.setOwed (ev : Ev) (l : List Nat) : Ev := ev.setTb (ev.tb.setOwed l)

/-- Raise a notice, but in LOAD (R168). Its time is the engine time of the event (R158). -/
def Ev.note (ev : Ev) (kind : NoticeKind) (a b : Nat) : Ev :=
  if ev.inLoad then ev else { ev with notes := ev.notes ++ [{ kind := kind, time := ev.tb.time, a := a, b := b }] }

/-- Mark an item touched, once (R66). -/
def Ev.touch (ev : Ev) (i : Nat) : Ev := if i ∈ ev.touched then ev else { ev with touched := ev.touched ++ [i] }

/-- Mark a station reached (R104). -/
def Ev.reach (ev : Ev) (n : Nat) : Ev := if n ∈ ev.reached then ev else { ev with reached := ev.reached ++ [n] }

/-- Mark a station's window for a rewrite at the end of the event (R112). -/
def Ev.rewrite (ev : Ev) (n : Nat) : Ev := if n ∈ ev.rewrites then ev else { ev with rewrites := ev.rewrites ++ [n] }

/-- The fields of a window's header that one event may change and change back: intake, last-call stamp, gate mode, gate state (R112). -/
def Station.header (s : Station) : Intake × Word × GateMode × Bool := (s.intake, s.stamp, s.gateMode, s.gateOpen)

/-- Change a station; where its header then shows something else, the event rewrites its window, even if it changes it back (R96, R101,
R103, R112, R122; log entry 49). A gate that opens needs no mark of its own: it closes again within the event only as a ticket leaves or
the mode changes, which marks, or by a release, which changes the rail. -/
def Ev.showStation (ev : Ev) (n : Nat) (f : Station → Station) : Ev :=
  if (f (ev.tb.station n)).header = (ev.tb.station n).header then ev.updStation n f else (ev.updStation n f).rewrite n

/-- Move station counters, but in LOAD (R163). -/
def Ev.countStation (ev : Ev) (n : Nat) (f : StationCount → StationCount) : Ev :=
  if ev.inLoad then ev else ev.setTb (ev.tb.setCStations (tupd stationCount0 ev.tb.cStations n f))

/-- Move item counters, but in LOAD (R163). -/
def Ev.countItem (ev : Ev) (i : Nat) (f : ItemCount → ItemCount) : Ev :=
  if ev.inLoad then ev else ev.setTb (ev.tb.setCItems (tupd itemCount0 ev.tb.cItems i f))

/-- Move lane counters, but in LOAD (R163). -/
def Ev.countLane (ev : Ev) (l : Nat) (f : LaneCount → LaneCount) : Ev :=
  if ev.inLoad then ev else ev.setTb (ev.tb.setCLanes (tupd laneCount0 ev.tb.cLanes l f))

/-- Move engine counters, but in LOAD (R163). -/
def Ev.countEngine (ev : Ev) (f : EngineCount → EngineCount) : Ev :=
  if ev.inLoad then ev else ev.setTb (ev.tb.setCEngine (f ev.tb.cEngine))

/-! ### Timers (R118) -/

/-- The timer a duration arms: none when its count is 0. -/
def armTimer (d : Duration) : Option Timer :=
  if d.count = 0 then none else some { level := d.level, left := d.count, due := false }

/-- A tick of levels 0 to `ticked` - 1 reaches a timer: its count falls by one, or, when this is the tick that brings it to 0, the
timer waits for its block's event (log entry 5). -/
def tickTimer (ticked : Nat) (t : Timer) : Timer :=
  if t.level < ticked then (if t.left ≤ 1 then { t with due := true } else { t with left := t.left - 1 }) else t

def timerDue : Option Timer → Bool
  | none => false
  | some t => t.due

/-- The tick whose event was not taken is not counted (log entry 5). -/
def dropDue (t : Option Timer) : Option Timer := t.map (fun t => { t with due := false })

/-! ### Exchange memory -/

/-- What a byte of DRAM that nothing has written reads as. DESIGN CHOICE, log entry 10. -/
def dramByte : Byte := 0

/-- Read a byte of board DRAM. -/
def readByte (m : List Host.Cell) (a : Nat) : Byte := tget dramByte m a

/-- Write a byte of board DRAM. -/
def writeByte (m : List Host.Cell) (a : Nat) (b : Byte) : List Host.Cell := tset dramByte m a b

/-- The canonical form of memory. -/
def memWf (m : List Host.Cell) : Bool := twf dramByte m

/-- Write a run of bytes. -/
def writeBytes (m : List Host.Cell) (a : Nat) : List Byte → List Host.Cell
  | [] => m
  | b :: bs => writeBytes (writeByte m a b) (a + 1) bs

/-- Read a word, least significant byte first (00, Exchange memory). -/
def readWord (m : List Host.Cell) (a : Nat) : Word :=
  readByte m (a + 3) ++ readByte m (a + 2) ++ readByte m (a + 1) ++ readByte m a

/-- Write a word, least significant byte first (00, Exchange memory). -/
def writeWord (m : List Host.Cell) (a : Nat) (w : Word) : List Host.Cell :=
  writeByte (writeByte (writeByte (writeByte m a (w.extractLsb' 0 8)) (a + 1) (w.extractLsb' 8 8)) (a + 2) (w.extractLsb' 16 8))
    (a + 3) (w.extractLsb' 24 8)

/-- The absolute address of an offset of the exchange window (R143). -/
def State.at (s : State) (off : Nat) : Nat := (s.base + BitVec.ofNat 64 off).toNat

/-- The hub's stores land (log entry 2). -/
def landStores (m : List Host.Cell) (hs : List HubStore) : List Host.Cell :=
  hs.foldl (fun m h => writeBytes m h.addr.toNat h.data) m

/-- A state with the hub's stores landed. -/
def State.afterHub (s : State) (bus : Bus) : State := s.setMem (landStores s.mem bus.hub)

/-- The offset of a lane's slot (R143). -/
def slotOff (lane slot : Nat) : Nat := Config.slotsAt + lane * 1024 + slot * 128

/-! ### The bus context of a step -/

/-- A step's bus context: the state, the accesses that fail, and how many accesses the step has made. -/
structure Io where
  st : State
  errs : List Nat
  acc : Nat
  deriving DecidableEq, Repr

/-- The bus context at the start of a step: the hub's stores have landed. -/
def Io.start (s : State) (bus : Bus) : Io := { st := s.afterHub bus, errs := bus.errs, acc := 0 }

def Io.setSt (io : Io) (s : State) : Io := { io with st := s }

/-- Does the next access fail? -/
def Io.bad (io : Io) : Bool := io.errs.contains io.acc

/-- One write of the engine: the word, or a free value when the access fails (log entry 9). -/
def busWrite (io : Io) (off : Nat) (w : Word) : Io :=
  if io.bad then
    { io with
      st := (io.st.setMem (writeWord io.st.mem (io.st.at off) (Config.failedWrite io.st.freeCount))).setFreeCount
        (io.st.freeCount + 1),
      acc := io.acc + 1 }
  else { io with st := io.st.setMem (writeWord io.st.mem (io.st.at off) w), acc := io.acc + 1 }

/-- Writes of consecutive words, in rising offset order (log entry 51), up to the first that fails; and whether all succeeded. -/
def busWrites (io : Io) (off : Nat) : List Word → Io × Bool
  | [] => (io, true)
  | w :: ws => if io.bad then (busWrite io off w, false) else busWrites (busWrite io off w) (off + 4) ws

/-- Reads of `n` consecutive words: none when one of them fails, the accesses made counted either way. -/
def busReads (io : Io) (off : Nat) : Nat → Io × Option (List Word)
  | 0 => (io, some [])
  | n + 1 =>
    if io.bad then ({ io with acc := io.acc + 1 }, none)
    else
      let w := readWord io.st.mem (io.st.at off)
      match busReads { io with acc := io.acc + 1 } (off + 4) n with
      | (io', some ws) => (io', some (w :: ws))
      | (io', none) => (io', none)

def Io.engine (io : Io) : EngineState := io.st.enc.engine

def State.engine (s : State) : EngineState := s.enc.engine

def State.halted (s : State) : Bool := s.enc.engine == .halted

/-! ### Attention (R160 to R162) -/

/-- The level the attention line is evaluated to (R161). -/
def lineLevel (n : Ntw) : Bool :=
  decide (n.threshold ≤ n.count) || (decide (0 < n.count) && n.timer == .expired) || n.urgent

/-- Evaluate the line (R161). -/
def evalLine (n : Ntw) : Ntw := { n with line := lineLevel n }

/-- The delay timer a duration arms (R160). -/
def armDelay (d : Duration) : DelayTimer :=
  match armTimer d with
  | none => .disarmed
  | some t => .armed t

/-- One item toward attention; `urgent` says that it is a notice of a masked kind (R160). -/
def attentionItem (n : Ntw) (urgent : Bool) : Ntw :=
  evalLine { n with
    count := min (n.count + 1) 65535,
    timer := if n.count = 0 ∧ n.delay.count ≠ 0 then armDelay n.delay else n.timer,
    urgent := n.urgent || urgent }

/-- An expiry holds until the next acknowledgement (R161). -/
def dropExpiry : DelayTimer → DelayTimer
  | .expired => .disarmed
  | t => t

/-- The acknowledgement of `v` items (R162). -/
def attentionAck (n : Ntw) (v : Nat) : Ntw :=
  let c := n.count - min v n.count
  evalLine { n with
    count := c, urgent := false,
    timer := if c = 0 then .disarmed else if n.delay.count ≠ 0 then armDelay n.delay else dropExpiry n.timer }

/-- Attention at RESTART: count 0, flag clear, delay disarmed, line low (R160). -/
def attentionClear (n : Ntw) : Ntw := evalLine { n with count := 0, urgent := false, timer := .disarmed }

/-! ### Halting (R172) -/

/-- What the request unit keeps when the engine stops with a request in flight: the answer given, or ABORTED (R171, R172). Nothing is in
flight then, so STAT's request-in-flight flag (R165) is clear, also after a halt that keeps the request's own result: the model's choice,
log entry 52. -/
def keepAnswer (q : Rqu) (own : Option Answer) : Rqu :=
  match q.inFlight with
  | none => q
  | some r =>
    { inFlight := none,
      pending := some { lane := r.lane, slot := r.slot, hubTag := r.hubTag,
                        answer := own.getD { code := .aborted, body := [] } } }

/-- A bus error on a shared region (R172). `own` is the result of the request being completed. -/
def haltIn (region : FaultRegion) (own : Option Answer) (s : State) : State :=
  (s.setEnc { s.enc with engine := .halted, faultRegion := region, startOp := none }).setRqu (keepAnswer s.rqu own)

def haltIo (region : FaultRegion) (own : Option Answer) (io : Io) : Io := io.setSt (haltIn region own io.st)

/-! ### Writing notices (R157, R159) -/

/-- Is a kind set in the urgent mask? -/
def isUrgent (n : Ntw) (k : NoticeKind) : Bool := bitOf n.mask k.code

/-- The state after a notice is written whole: counter and attention item (R157 steps 3 and 4). -/
def noticeCounted (s : State) (k : NoticeKind) : State :=
  (s.setTb (s.tb.setCEngine { s.tb.cEngine with notices := satCount s.tb.cEngine.notices 1 })).setNtw
    (attentionItem s.ntw (isUrgent s.ntw k))

/-- Write one notice; nothing once the engine is HALTED. The sequence word is first (R157 step 1); that the other seven words follow in
rising offset order, which decides what a record whose writing fails holds (R159), is the model's choice (log entry 51). -/
def writeNotice (own : Option Answer) (io : Io) (n : Notice) : Io :=
  if io.st.halted then io
  else
    let seq := io.st.ntw.written
    match busWrites io (Config.noticesAt + seq.toNat % 256 * 32) (noticeWords seq n) with
    | (io1, false) => haltIo .noticeLog own io1
    | (io1, true) =>
      let io2 := io1.setSt (io1.st.setNtw { io1.st.ntw with written := seq + 1 })
      if io2.bad then haltIo .statusPage own (busWrite io2 Config.statusAt (seq + 1))
      else
        let io3 := busWrite io2 Config.statusAt (seq + 1)
        io3.setSt (noticeCounted io3.st n.kind)

/-- Write notices in order (R157). -/
def writeNotices (own : Option Answer) (io : Io) (ns : List Notice) : Io := ns.foldl (writeNotice own) io

/-! ### Rail windows (R111, R112) -/

/-- What a station's window shows, but for its change counter (R112). -/
structure WindowView where
  intake : Intake
  stamp : Word
  gateMode : GateMode
  gateOpen : Bool
  railLimit : Nat
  rail : List (Nat × Ticket)
  deriving DecidableEq, Repr

def windowView (tb : Tables) (n : Nat) : WindowView :=
  let s := tb.station n
  { intake := s.intake, stamp := s.stamp, gateMode := s.gateMode, gateOpen := s.gateOpen, railLimit := s.railLimit,
    rail := s.rail.map (fun i => (i, tb.ticket i)) }

/-- The stations whose window shows something else after an event than before it, in ascending order (R112). -/
def changedWindows (before after : Tables) : List Nat :=
  (List.range Config.stationTotal).filter (fun n => decide (windowView before n ≠ windowView after n))

/-- The stations whose window an event rewrites, in ascending order: each that shows something else after it than before it, and each of
which the event changed such a field, even where it changed it back (R96, R103, R112, R122; log entry 49). -/
def rewrittenWindows (before : Tables) (ev : Ev) : List Nat :=
  (List.range Config.stationTotal).filter (fun n => decide (n ∈ ev.rewrites ∨ windowView before n ≠ windowView ev.tb n))

/-- The entries of a station's window in rail order (R111). -/
def windowEntries (tb : Tables) (n : Nat) : List (List Word) :=
  (tb.station n).rail.map (fun i =>
    match (tb.ticket i).order with
    | some o => railEntryWords i (tb.ticket i) o
    | none => emptyRailEntry)

/-- The odd value a change counter takes at the start of a rewrite: the next odd value (R112, log entry 18). -/
def oddAfter (c : Word) : Word := if c.getLsbD 0 then c + 2 else c + 1

def setWinCount (s : State) (n : Nat) (c : Word) : State :=
  s.setTb (s.tb.setStations (tupd station0 s.tb.stations n (fun x => { x with winCount := c })))

/-- Rewrite one station's window by the three steps of R112, the words of step 2 in rising offset order (log entry 51, the model's choice);
nothing once the engine is HALTED. -/
def writeWindow (own : Option Answer) (io : Io) (n : Nat) : Io :=
  if io.st.halted then io
  else
    let off := Config.windowsAt + n * 1024
    let c := oddAfter (io.st.tb.station n).winCount
    let io1 := io.setSt (setWinCount io.st n c)
    let body := windowWords n (io.st.tb.station n) (windowEntries io.st.tb n)
    match busWrites io1 off (c :: body) with
    | (io2, false) => haltIo .railWindow own io2
    | (io2, true) =>
      let io3 := io2.setSt (setWinCount io2.st n (c + 1))
      if io3.bad then haltIo .railWindow own (busWrite io3 off (c + 1)) else busWrite io3 off (c + 1)

/-- Rewrite windows in order. -/
def writeWindows (own : Option Answer) (io : Io) (ns : List Nat) : Io := ns.foldl (writeWindow own) io

/-- The exchange-memory side of an event whose table effect has given `ev`: the tables stand, then its notices in order, then each
window it rewrites (R112; log entry 8). -/
def commitEv (own : Option Answer) (io : Io) (ev : Ev) : Io :=
  writeWindows own (writeNotices own (io.setSt (io.st.setTb ev.tb)) ev.notes) (rewrittenWindows io.st.tb ev)

/-! ### The sweep's position (R150) -/

/-- A visit ends: the next calendar entry, none taken. -/
def endVisit (s : State) : State :=
  let n := s.sweep.entry + 1
  s.setSweep { entry := if n < s.tb.cfg.calendar.length then n else 0, taken := 0 }

/-- Does the sweep skip a lane (R150 step 1)? -/
def skipsLane (s : State) (l : Nat) : Bool :=
  let x := s.tb.lane l
  x.role == .off || x.fault || (s.engine == .load && x.role != .supervisor)

/-- The lane and the quota of the calendar entry the sweep stands at. -/
def currentVisit (s : State) : Option (Nat × Nat) := s.tb.cfg.calendar[s.sweep.entry]?

/-- After a completion the visit ends when its quota is reached or its lane is now skipped (R150 steps 3 and 4). -/
def settleVisit (s : State) : State :=
  match currentVisit s with
  | none => s
  | some (l, q) => if q ≤ s.sweep.taken || skipsLane s l then endVisit s else s

/-! ### Lane faults (R156) -/

/-- Step 4 of a lane fault: the engine's lane-faults counter, unless the notice of step 3 has halted the engine, and but in LOAD (R156,
R172). -/
def countLaneFault (s : State) : State :=
  if s.halted then s
  else s.setTb ((Ev.ofTables s.tb s.engine).countEngine (fun c => { c with laneFaults := satCount c.laneFaults 1 })).tb

/-- Fault a lane: flag, end of the visit, notice, counter, in this order (R156). `own` is the result of the request being completed,
which a halt keeps (R172, log entry 32). -/
def faultLane (own : Option Answer) (io : Io) (lane slot : Nat) : Io :=
  let s0 := io.st
  let ev := ((Ev.ofTables s0.tb s0.engine).updLane lane (fun x => { x with fault := true })).note .laneFault lane slot
  let io1 := writeNotices own (io.setSt (endVisit (s0.setTb ev.tb))) ev.notes
  io1.setSt (countLaneFault io1.st)

/-! ### Answering a request (R149) -/

/-- The writes of step 1 of R149: result code, result body (its words in rising offset order, log entry 51) and hub tag; and whether all
succeeded. -/
def writeBody (io : Io) (lane slot : Nat) (hubTag : Word) (a : Answer) : Io × Bool :=
  let off := slotOff lane slot
  match busWrites io (off + 0x0C) [BitVec.ofNat 32 a.code.code] with
  | (io1, false) => (io1, false)
  | (io1, true) =>
    match busWrites io1 (off + 0x40) (bodyWords a) with
    | (io2, false) => (io2, false)
    | (io2, true) => busWrites io2 (off + 0x08) [hubTag]

/-- The writes of steps 1 and 2 of R149, the last of them DONE; and whether all succeeded. -/
def writeResult (io : Io) (lane slot : Nat) (hubTag : Word) (a : Answer) : Io × Bool :=
  match writeBody io lane slot hubTag a with
  | (io1, false) => (io1, false)
  | (io1, true) => busWrites io1 (slotOff lane slot) [3]

/-- Does a result code count as refused (R149)? -/
def isRefusal (c : ResultCode) : Bool := c != .ok && c != .clamped

/-- What a DONE counts: the engine's copy of the lane's done count, and, outside LOAD, an attention item and the refusal counter
(R145, R149). -/
def countDone (s : State) (lane : Nat) (c : ResultCode) : State :=
  let s1 := s.setDoneCounts (tupd 0 s.doneCounts lane (· + 1))
  if s.engine == .load then s1
  else
    let s2 := s1.setNtw (attentionItem s1.ntw false)
    if isRefusal c then
      s2.setTb (s2.tb.setCLanes (tupd laneCount0 s2.tb.cLanes lane (fun x => { x with refused := satCount x.refused 1 })))
    else s2

/-- The offset of a lane's done count on the status page (12). -/
def doneCountOff (lane : Nat) : Nat := Config.statusAt + 0x10 + lane * 4

/-- The done count of a lane, the engine's copy (R145). -/
def State.doneCount (s : State) (lane : Nat) : Word := tget 0 s.doneCounts lane

/-- No request is in flight any more (R149, R165). -/
def endRequest (io : Io) : Io := io.setSt (io.st.setRqu { io.st.rqu with inFlight := none })

/-- Write the answer of the request in flight into its slot and end the request (R149). -/
def answerRequest (io : Io) (r : Req) (a : Answer) : Io :=
  match writeResult io r.lane r.slot r.hubTag a with
  | (io1, false) => endRequest (faultLane (some a) io1 r.lane r.slot)
  | (io1, true) =>
    let s1 := countDone (endRequest io1).st r.lane a.code
    let io2 := io1.setSt s1
    if io2.bad then haltIo .statusPage none (busWrite io2 (doneCountOff r.lane) (s1.doneCount r.lane))
    else
      let io3 := busWrite io2 (doneCountOff r.lane) (s1.doneCount r.lane)
      io3.setSt (settleVisit io3.st)

end Sys2Proof.Machine
end

