-- ==== Sys2Proof/Machine/Flags.lean ====
section
/-!
DEFINITION. The flags: an item's level, SHORT and WAS_SHORT (R66, R67), and the fields of the registers STAT, ATTN and CTRL (R165,
R166, 12).
-/

namespace Sys2Proof.Machine

/-! ### Items (R57, R66, R67) -/

/-- The avail of a SIMPLE item (R57). -/
def Item.avail (it : Item) : Nat := it.onHand - it.reserved

def Item.isSimple (it : Item) : Bool := it.defined && it.kind == .simple

/-- The level that follows from avail and low threshold (R66). -/
def levelOf (avail low : Nat) : Level := if avail = 0 then .out else if avail ≤ low then .low else .available

/-- SHORT: avail at or below the low threshold (R67). -/
def shortOf (avail low : Nat) : Bool := decide (avail ≤ low)

/-- The item with level, SHORT and WAS_SHORT worked out again at the end of an event (R66, R67). -/
def Item.settle (it : Item) : Item :=
  if it.isSimple then
    { it with
      level := levelOf it.avail it.low,
      short := shortOf it.avail it.low,
      wasShort := it.wasShort || (shortOf it.avail it.low && !it.short) }
  else it

/-- The notice a level change writes (R66). -/
def levelNotice (before after : Level) : Option NoticeKind :=
  match before, after with
  | .available, .low => some .itemLow
  | .available, .out => some .itemOut
  | .low, .out => some .itemOut
  | .out, .low => some .itemBack
  | .out, .available => some .itemBack
  | _, _ => none

/-- The end of an event for one touched item: level, flags, notice and out-events counter (R66, R67). -/
def settleItem (ev : Ev) (i : Nat) : Ev :=
  let before := ev.tb.item i
  let after := before.settle
  let ev1 := ev.updItem i Item.settle
  let ev2 := if before.level ≠ .out ∧ after.level = .out then ev1.countItem i (fun c => { c with outs := satCount c.outs 1 }) else ev1
  match levelNotice before.level after.level with
  | some k => ev2.note k i after.avail
  | none => ev2

/-- The end of an event for every touched item, in order of first touch (R66). -/
def settleLevels (ev : Ev) : Ev :=
  let ev1 := ev.touched.foldl settleItem ev
  { ev1 with touched := [] }

/-! ### Registers (12, Registers) -/

/-- The word STAT reads as (R165, 12). -/
def statWord (s : State) : Word :=
  BitVec.ofNat 32 (s.enc.engine.code + flagCode s.enc.startOp.isSome * 8 + s.enc.configError.code * 16
    + flagCode s.enc.clampFlag * 256 + s.enc.faultRegion.code * 512 + flagCode s.enc.commandError * 4096
    + flagCode s.rqu.inFlight.isSome * 8192)

/-- The word ATTN reads as (R162, 12). -/
def attnWord (s : State) : Word := BitVec.ofNat 32 (s.ntw.count + flagCode s.ntw.line * 65536)

/-- What each register reads as (R165): CTRL reads 0. -/
def readRegister (s : State) : Reg → Word
  | .baseLo => s.base.extractLsb' 0 32
  | .baseHi => s.base.extractLsb' 32 32
  | .ctrl => 0
  | .stat => statWord s
  | .attn => attnWord s

/-- What a CTRL write asks for (R166). -/
inductive CtrlCommand where
  | nothing | start | startLoad | run | park | wake | restart | invalid
  deriving DecidableEq, Repr

/-- Reading a CTRL write: RESTART first; no command bit; one command, or START with LOAD; anything else is invalid (R166). -/
def ctrlCommand (v : Word) : CtrlCommand :=
  if bitOf v 5 then .restart
  else
    match bitOf v 0, bitOf v 1, bitOf v 2, bitOf v 3, bitOf v 4 with
    | false, false, false, false, false => .nothing
    | true, false, false, false, false => .start
    | true, true, false, false, false => .startLoad
    | false, false, true, false, false => .run
    | false, false, false, true, false => .park
    | false, false, false, false, true => .wake
    | _, _, _, _, _ => .invalid

end Sys2Proof.Machine
end

