-- ==== Sys2Proof/Machine/Stock.lean ====
section
/-!
DEFINITION. Portions: the demand of a line, reservation, release, consumption and the stock adjustments (R58, R63 to R65, R70 to R72).
-/

namespace Sys2Proof.Machine

/-- The demand of a line of `qty` of item `i` on each simple item, in component order (R58). -/
def demandOf (tb : Tables) (i qty : Nat) : List (Nat × Nat) :=
  let it := tb.item i
  match it.kind with
  | .simple => [(i, qty)]
  | .composite => it.comps.map (fun c => (c.1, qty * c.2))

/-- The first item whose avail does not cover its demand (R64). -/
def firstShort (tb : Tables) (ds : List (Nat × Nat)) : Option Nat :=
  (ds.find? (fun d => decide ((tb.item d.1).avail < d.2))).map (·.1)

/-- A reservation is taken only when avail covers it (R63, R64). -/
def Item.reserve (it : Item) (n : Nat) : Item := if n ≤ it.avail then { it with reserved := it.reserved + n } else it

/-- A release lowers reserved (R65). -/
def Item.release (it : Item) (n : Nat) : Item := { it with reserved := it.reserved - n }

/-- A consumption lowers reserved and on_hand together (R65). -/
def Item.consume (it : Item) (n : Nat) : Item := { it with reserved := it.reserved - n, onHand := it.onHand - n }

/-- How much a YIELD of `n` adds (R70). -/
def yieldAmount (it : Item) (n : Nat) : Nat := min n (Config.portionTop - it.onHand)

def Item.yielded (it : Item) (n : Nat) : Item := { it with onHand := it.onHand + yieldAmount it n }

/-- How much a WASTE of `n` takes (R71). -/
def wasteAmount (it : Item) (n : Nat) : Nat := min n it.avail

def Item.wasted (it : Item) (n : Nat) : Item := { it with onHand := it.onHand - wasteAmount it n }

/-- A count of `v`, raised to reserved (R72). -/
def Item.counted (it : Item) (v : Nat) : Item := { it with onHand := max v it.reserved }

/-- Reserve a list of demands (R64). -/
def reserveAll (ev : Ev) (ds : List (Nat × Nat)) : Ev :=
  ds.foldl (fun ev d => (ev.updItem d.1 (fun it => it.reserve d.2)).touch d.1) ev

/-- Release one demand, counted voided-unmade (R65). -/
def releaseOne (ev : Ev) (d : Nat × Nat) : Ev :=
  ((ev.updItem d.1 (fun it => it.release d.2)).countItem d.1 (fun c => { c with unmade := satCount c.unmade d.2 })).touch d.1

/-- Release the demand of a line (R65). -/
def releaseDemand (ev : Ev) (ds : List (Nat × Nat)) : Ev := ds.foldl releaseOne ev

/-- Consume one ticket line's portions (R89). -/
def consumeOne (ev : Ev) (i n : Nat) : Ev :=
  ((ev.updItem i (fun it => it.consume n)).countItem i (fun c => { c with consumed := satCount c.consumed n })).touch i

/-- Portions a void counts as made (R86). -/
def countMade (ev : Ev) (i n : Nat) : Ev := ev.countItem i (fun c => { c with afterMade := satCount c.afterMade n })

end Sys2Proof.Machine
end

