-- ==== Sys2Proof/Machine/Stations.lean ====
section
/-!
DEFINITION. The station controllers (06): intake, queues, the batching gate, release and aging, as effects on the tables.
-/

namespace Sys2Proof.Machine

/-! ### Intake (R95 to R98) -/

/-- Does a station take a new line of a check opened at `openedAt` (R95)? -/
def acceptsLine (s : Station) (openedAt : Word) : Bool :=
  match s.intake with
  | .opened => true
  | .lastCall => isPast s.stamp openedAt
  | .closed => false

/-- The stations a line of item `i` reaches, in component order (R11, R95). -/
def stationsOfItem (tb : Tables) (i : Nat) : List Nat :=
  let it := tb.item i
  match it.kind with
  | .simple => [it.station]
  | .composite => it.comps.map (fun c => (tb.item c.1).station)

/-- The first station that refuses a line (R11 step 5). -/
def firstRefusing (tb : Tables) (i : Nat) (openedAt : Word) : Option Nat :=
  (stationsOfItem tb i).find? (fun n => !acceptsLine (tb.station n) openedAt)

/-- The table of R96. -/
def steppedIntake (mode : StepMode) (dir : Direction) (now : Intake) : Intake :=
  match mode, dir with
  | .direct, .closing => .closed
  | .direct, .opening => .opened
  | .staged, .closing =>
    match now with
    | .opened => .lastCall
    | _ => .closed
  | .staged, .opening =>
    match now with
    | .closed => .lastCall
    | _ => .opened

/-- A step of a station's intake, by request or timed action (R96, R97). -/
def stepIntakeEv (n : Nat) (dir : Direction) (mode : StepMode) (ev : Ev) : Ev :=
  let now := (ev.tb.station n).intake
  let new := steppedIntake mode dir now
  if new = now then ev
  else
    let t := ev.tb.time
    (ev.showStation n (fun s => { s with intake := new, stamp := if new = .lastCall then t else s.stamp })).note .stationState n new.code

/-- The intake a restart policy gives; `previous` is what PREVIOUS returns to (R98). -/
def policyIntake (p : RestartPolicy) (previous : Intake) : Intake :=
  match p with
  | .closed => .closed
  | .opened => .opened
  | .previous => previous

/-! ### Queues and gate (R99 to R103) -/

/-- The number of tickets in the gathered set (R101). -/
def Station.gathered (s : Station) : Nat := s.rush1.length + s.normal.length

/-- In GATHER mode an empty gathered set closes the gate and disarms the hold (R101). -/
def Station.closeIfEmpty (s : Station) : Station :=
  if s.gateMode = .gather ∧ s.gathered = 0 then { s with gateOpen := false, holdTimer := none } else s

/-- Why a gate opens (R102). -/
inductive GateCause where
  | threshold | hold | fast
  deriving DecidableEq, Repr

def countCause (cause : GateCause) (c : StationCount) : StationCount :=
  match cause with
  | .threshold => { c with byThreshold := satCount c.byThreshold 1 }
  | .hold => { c with byHold := satCount c.byHold 1 }
  | .fast => { c with byFast := satCount c.byFast 1 }

/-- A closed gate opens: the hold is disarmed and the opening counted (R102). -/
def openGate (n : Nat) (cause : GateCause) (ev : Ev) : Ev :=
  (ev.updStation n (fun s => { s with gateOpen := true, holdTimer := none })).countStation n (countCause cause)

/-- A ticket at the tail of its class's queue (R99). -/
def Station.enqueue (s : Station) (i : Nat) (c : TicketClass) : Station :=
  match c with
  | .rush0 => { s with rush0 := s.rush0 ++ [i] }
  | .rush1 => { s with rush1 := s.rush1 ++ [i] }
  | .normal => { s with normal := s.normal ++ [i] }

/-- The hold armed by a join to an empty gathered set in GATHER mode (R101). -/
def Station.armHold (s : Station) (c : TicketClass) : Station :=
  if s.gateMode = .gather ∧ c ≠ .rush0 ∧ s.gathered = 0 then { s with holdTimer := armTimer s.hold } else s

/-- The cause, if any, by which a join of a class opens the gate (R102): fast counts before threshold. -/
def joinCause (s : Station) (c : TicketClass) : Option GateCause :=
  if s.gateMode = .gather ∧ s.gateOpen = false ∧ c ≠ .rush0 then
    if c = .rush1 ∧ s.fast then some .fast
    else if s.threshold ≤ s.gathered then some .threshold
    else none
  else none

/-- A new ticket joins the queue of its class (R80, R99, R101, R102). -/
def joinQueue (n i : Nat) (c : TicketClass) (ev : Ev) : Ev :=
  let ev1 := (ev.updStation n (fun s => (s.armHold c).enqueue i c)).reach n
  match joinCause (ev1.tb.station n) c with
  | some cause => openGate n cause ev1
  | none => ev1

/-- A ticket leaves its queue or the rail, wherever it stands (R99, R100), and the gate may close (R101). -/
def Station.drop (s : Station) (i : Nat) : Station :=
  Station.closeIfEmpty { s with
    rush0 := s.rush0.filter (· ≠ i), rush1 := s.rush1.filter (· ≠ i), normal := s.normal.filter (· ≠ i),
    rail := s.rail.filter (· ≠ i) }

def leaveStation (n i : Nat) (ev : Ev) : Ev := (ev.showStation n (fun s => s.drop i)).reach n

/-- A change of gate mode (R103). -/
def Station.setMode (s : Station) (m : GateMode) : Station :=
  if m = s.gateMode then s
  else
    match m with
    | .opened => { s with gateMode := .opened, gateOpen := true, holdTimer := none }
    | .gather => if s.gathered = 0 then { s with gateMode := .gather, gateOpen := false } else { s with gateMode := .gather }

/-! ### Release (R104) -/

/-- The ticket the arbiter would release next (R104). -/
def nextRelease (s : Station) : Option Nat :=
  if s.rail.length < s.railLimit then
    match s.rush0 with
    | i :: _ => some i
    | [] =>
      if s.gateOpen then
        match s.rush1 with
        | i :: _ => some i
        | [] => s.normal.head?
      else none
  else none

/-- The station after a release of its next ticket (R104, R101). -/
def Station.releaseTicket (s : Station) (i : Nat) : Station :=
  Station.closeIfEmpty { s with
    rush0 := s.rush0.filter (· ≠ i), rush1 := s.rush1.filter (· ≠ i), normal := s.normal.filter (· ≠ i),
    rail := s.rail ++ [i] }

def countRelease (c : TicketClass) (x : StationCount) : StationCount :=
  match c with
  | .rush0 => { x with relRush0 := satCount x.relRush0 1 }
  | .rush1 => { x with relRush1 := satCount x.relRush1 1 }
  | .normal => { x with relNormal := satCount x.relNormal 1 }

/-- Which queue the arbiter takes its next ticket from. -/
def nextClass (s : Station) : TicketClass :=
  if s.rush0 ≠ [] then .rush0 else if s.rush1 ≠ [] then .rush1 else .normal

/-- One release (R104). -/
def releaseOneTicket (n i : Nat) (ev : Ev) : Ev :=
  let c := nextClass (ev.tb.station n)
  let t := ev.tb.time
  ((ev.updTicket i (fun k => { k with order := k.order.map (fun o => { o with onRail := true, releasedAt := some t }) })).updStation n
    (fun s => s.releaseTicket i)).countStation n (countRelease c)

/-- The arbiter: release until the rail is at its limit or nothing can be released, at most `fuel` tickets (R104). -/
def arbiter (n : Nat) : Nat → Ev → Ev
  | 0, ev => ev
  | fuel + 1, ev =>
    match nextRelease (ev.tb.station n) with
    | some i => arbiter n fuel (releaseOneTicket n i ev)
    | none => ev

/-- The arbiter run of a station: a rail holds at most 12 tickets, so 12 releases are enough. -/
def runArbiter (ev : Ev) (n : Nat) : Ev := arbiter n 12 ev

/-- The end of an event: the level rules, then the arbiter of every reached station in ascending order (R66, R104). -/
def closeEv (ev : Ev) : Ev :=
  let ev1 := settleLevels ev
  ((List.range Config.stationTotal).filter (fun n => decide (n ∈ ev1.reached))).foldl runArbiter ev1

/-! ### Aging (R106, R107) -/

def advanceMark : Mark → Mark
  | .unmarked => .late
  | .late => .overdue
  | .overdue => .overdue

/-- One ticket of an aging walk (R106, R107): mark, notice and overdue flag. -/
def ageTicket (ev : Ev) (i : Nat) : Ev :=
  match (ev.tb.ticket i).order with
  | none => ev
  | some o =>
    let ev1 := ev.updTicket i (fun k => { k with order := k.order.map (fun o => { o with mark := advanceMark o.mark }) })
    if o.mark = .late then
      (ev1.note .ticketOverdue i o.check).updCheck o.check (fun c => { c with overdue := true })
    else ev1

/-- Did a ticket become OVERDUE at this walk? -/
def becameOverdue (before : Tables) (i : Nat) : Bool :=
  match (before.ticket i).order with
  | some o => o.mark == .late
  | none => false

/-- The promotion of tickets from NORMAL to the tail of RUSH1 (R107). -/
def promote (n : Nat) (is : List Nat) (ev : Ev) : Ev :=
  if is = [] then ev
  else
    let ev1 := is.foldl (fun ev i => ev.updTicket i (fun k => { k with order := k.order.map (fun o => { o with cls := .rush1 }) })) ev
    let ev2 := ev1.updStation n (fun s => { s with normal := s.normal.filter (fun i => decide (i ∉ is)), rush1 := s.rush1 ++ is })
    let s := ev2.tb.station n
    if s.gateMode = .gather ∧ s.gateOpen = false ∧ s.fast then openGate n .fast ev2 else ev2

/-- An aging tick of a station (R106, R107). -/
def agingEv (n : Nat) (ev : Ev) : Ev :=
  let s := ev.tb.station n
  let walk := s.rail ++ s.rush0 ++ s.rush1 ++ s.normal
  let ev1 := walk.foldl ageTicket ev
  let ev2 := promote n (s.normal.filter (becameOverdue ev.tb)) ev1
  (ev2.updStation n (fun s => { s with agingTimer := armTimer s.aging })).reach n

/-- The expiry of a station's gate hold (R102). -/
def gateHoldEv (n : Nat) (ev : Ev) : Ev := (openGate n .hold ev).reach n

/-- A timed SET_GATE (R103, R122). -/
def setGateEv (n : Nat) (m : GateMode) (ev : Ev) : Ev := (ev.showStation n (fun s => s.setMode m)).reach n

end Sys2Proof.Machine
end

