-- ==== Sys2Proof/Machine/Tickets.lean ====
section
/-!
DEFINITION. Kitchen tickets (05): expanding and cutting a fire, building it whole or not at all, striking, withdrawal and bumping.
-/

namespace Sys2Proof.Machine

/-! ### Building a fire (R78 to R82) -/

/-- The ticket lines of one line, each with the station of its simple item (R78). -/
def expandLine (tb : Tables) (id : Nat) : List (Nat × TicketLine) :=
  match tb.line id with
  | none => []
  | some l =>
    ((demandOf tb l.item l.qty).zipIdx 1).map (fun d =>
      ((tb.item d.1.1).station,
        { line := id, pos := d.2, item := d.1.1, qty := d.1.2, modifier := l.modifier, struck := false }))

/-- Cut a list into pieces of eight, the last taking what remains (R79); `fuel` is at least the number of pieces. -/
def cutTickets : Nat → List TicketLine → List (List TicketLine)
  | 0, _ => []
  | _ + 1, [] => []
  | fuel + 1, t => t.take Config.linesPerTicket :: cutTickets fuel (t.drop Config.linesPerTicket)

/-- The tickets of a fire: station and ticket lines, lowest station first (R79). -/
def planFire (tb : Tables) (ids : List Nat) : List (Nat × List TicketLine) :=
  let all := ids.flatMap (expandLine tb)
  (List.range Config.stationTotal).flatMap (fun n =>
    let g := (all.filter (fun p => p.1 == n)).map (·.2)
    (cutTickets g.length g).map (fun ls => (n, ls)))

/-- The number of ticket records in use. -/
def usedTickets (tb : Tables) : Nat := (tb.tickets.filter (fun p => p.2.order.isSome)).length

/-- The number of free ticket records (R81). -/
def freeTickets (tb : Tables) : Nat := Config.ticketTotal - usedTickets tb

/-- The free ticket record of the lowest index (R75). -/
def lowestTicket (tb : Tables) : Option Nat := findFrom (fun i => (tb.ticket i).order.isNone) Config.ticketTotal 0

/-- The class of a fire's tickets (R80). -/
def fireClass (c : Check) (remake : Bool) : TicketClass := if remake then .rush0 else if c.rush then .rush1 else .normal

/-- The record a new ticket is filled with (R80). -/
def newOrder (tb : Tables) (ci : Nat) (remake : Bool) (course : Option Nat) (n : Nat) (ls : List TicketLine) : Order :=
  let c := tb.check ci
  { check := ci, checkTag := c.tag, station := n, cls := fireClass c remake, onRail := false, mark := .unmarked, firedAt := tb.time,
    releasedAt := none, isRemake := remake, course := course, lines := ls }

/-- Build one ticket in the lowest free record and queue it (R79, R80). The list gathers the tickets built. -/
def buildTicket (ci : Nat) (remake : Bool) (course : Option Nat) (acc : Ev × List Nat) (p : Nat × List TicketLine) : Ev × List Nat :=
  match lowestTicket acc.1.tb with
  | none => acc
  | some i =>
    let o := newOrder acc.1.tb ci remake course p.1 p.2
    (joinQueue p.1 i o.cls (acc.1.updTicket i (fun k => { k with order := some o })), acc.2 ++ [i])

/-- Build a fire of lines of a check: none, and nothing changed, when ticket memory is short (R81); otherwise the effect of R82 and
the tickets built, in build order. -/
def buildFire (ci : Nat) (ids : List Nat) (remake : Bool) (course : Option Nat) (ev : Ev) : Option (Ev × List Nat) :=
  let plan := planFire ev.tb ids
  if plan.length ≤ freeTickets ev.tb then
    let (ev1, built) := plan.foldl (buildTicket ci remake course) (ev, [])
    let ev2 := ids.foldl (fun ev id => ev.updLine id (fun l => { l with fired := true })) ev1
    some (ev2.updCheck ci (fun c => { c with outstanding := c.outstanding + plan.length }), built)
  else none

/-- The lines of a check that a fire of `want` takes: UNFIRED and not voided, in line-list order (R15, R51, R133). -/
def unfiredLines (tb : Tables) (ci : Nat) (want : Line → Bool) : List Nat :=
  (tb.check ci).lines.filter (fun id =>
    match tb.line id with
    | some l => !l.fired && !l.voided && want l
    | none => false)

/-! ### Freeing, striking, withdrawal (R75, R86, R87) -/

/-- Free a ticket: it leaves its station, its record is freed with the next tag, its check's count falls (R75, R87, R89). -/
def freeTicket (i : Nat) (ev : Ev) : Ev :=
  match (ev.tb.ticket i).order with
  | none => ev
  | some o =>
    ((leaveStation o.station i ev).updTicket i (fun k => { tag := nextTag k.tag, order := none })).updCheck o.check
      (fun c => { c with outstanding := c.outstanding - 1 })

/-- The ticket lines of one ticket that a void of line `id` strikes (R86). -/
def struckBy (id : Nat) (o : Order) : List TicketLine := o.lines.filter (fun l => l.line == id && !l.struck)

/-- A ticket with its ticket lines built from line `id` struck (R86). -/
def Order.strike (id : Nat) (o : Order) : Order :=
  { o with lines := o.lines.map (fun l => if l.line = id then { l with struck := true } else l) }

/-- Strike the ticket lines built from line `id` on one ticket, and reach its station (R86, R104). -/
def strikeTicket (id : Nat) (ev : Ev) (i : Nat) : Ev :=
  match (ev.tb.ticket i).order with
  | none => ev
  | some o => (ev.updTicket i (fun k => { k with order := k.order.map (Order.strike id) })).reach o.station

/-- The tickets of a check in ticket memory, in ascending index order. -/
def ticketsOf (tb : Tables) (ci : Nat) : List Nat :=
  (tb.tickets.filter (fun p =>
    match p.2.order with
    | some o => o.check == ci
    | none => false)).map (·.1)

/-- Does a ticket have a line of `id` still to strike? -/
def hasStrike (tb : Tables) (id i : Nat) : Bool :=
  match (tb.ticket i).order with
  | some o => !(struckBy id o).isEmpty
  | none => false

/-- The ticket lines of a check that a void of line `id` strikes, in component order (R58, R66, R86). -/
def struckLines (tb : Tables) (ci id : Nat) : List TicketLine :=
  let ls := (ticketsOf tb ci).flatMap (fun i => (((tb.ticket i).order).map (struckBy id)).getD [])
  ls.filter (fun l => decide (l.pos ≤ 1)) ++ ls.filter (fun l => l.pos == 2) ++ ls.filter (fun l => decide (3 ≤ l.pos))

/-- Strike every ticket line built from line `id`: the portions are released in component order, and the ticket lines are struck
(R58, R66, R86). -/
def strikeLine (ci id : Nat) (ev : Ev) : Ev :=
  let ev1 := releaseDemand ev ((struckLines ev.tb ci id).map (fun l => (l.item, l.qty)))
  ((ticketsOf ev1.tb ci).filter (hasStrike ev1.tb id)).foldl (strikeTicket id) ev1

/-- Whether a line's position has its made mark set (R77). -/
def Line.made (l : Line) : Nat → Bool
  | 1 => l.made1
  | 2 => l.made2
  | 3 => l.made3
  | _ => false

/-- Set a position's made mark (R77). -/
def Line.setMade (l : Line) : Nat → Line
  | 1 => { l with made1 := true }
  | 2 => { l with made2 := true }
  | 3 => { l with made3 := true }
  | _ => l

/-- Count the made positions of a voided FIRED line (R86). -/
def countMadeMarks (ev : Ev) (l : Line) : Ev :=
  ((demandOf ev.tb l.item l.qty).zipIdx 1).foldl (fun ev d => if l.made d.2 then countMade ev d.1.1 d.1.2 else ev) ev

/-- The void of one line of check `ci` that is not yet voided (R14, R16, R86): an UNFIRED line releases its demand, a FIRED one is struck,
its portions released in component order (R58, R66). -/
def voidOneLine (ci : Nat) (ev : Ev) (id : Nat) : Ev :=
  match ev.tb.line id with
  | none => ev
  | some l =>
    let ev1 := ev.updLine id (fun l => { l with voided := true })
    if l.fired then countMadeMarks (strikeLine ci id ev1) l
    else releaseDemand ev1 (demandOf ev1.tb l.item l.qty)

/-- Is every ticket line of a ticket struck (R87)? -/
def fullyStruck (tb : Tables) (i : Nat) : Bool :=
  match (tb.ticket i).order with
  | some o => o.lines.all (·.struck)
  | none => false

/-- Withdraw one ticket, counted at its station (R87). -/
def withdrawTicket (ev : Ev) (i : Nat) : Ev :=
  match (ev.tb.ticket i).order with
  | none => ev
  | some o => (freeTicket i ev).countStation o.station (fun c => { c with withdrawn := satCount c.withdrawn 1 })

/-- The tickets of a check that a void has left fully struck, in ascending index order (R87). -/
def struckTickets (tb : Tables) (ci : Nat) : List Nat := (ticketsOf tb ci).filter (fullyStruck tb)

/-- Withdraw every fully struck ticket of a check (R87). -/
def withdrawAll (ci : Nat) (ev : Ev) : Ev := (struckTickets ev.tb ci).foldl withdrawTicket ev

/-! ### Bumping (R89) -/

/-- Consume one unstruck ticket line and set its made mark (R89 step 1). -/
def consumeLine (ev : Ev) (l : TicketLine) : Ev :=
  if l.struck then ev else (consumeOne ev l.item l.qty).updLine l.line (fun x => x.setMade l.pos)

/-- Steps 1 to 4 of a bump but for the freeing test (R89). -/
def bumpTicket (i : Nat) (o : Order) (ev : Ev) : Ev :=
  let ev1 := o.lines.foldl consumeLine ev
  let ev2 := ev1.countStation o.station (fun c =>
    if o.mark = .overdue then { c with overdue := satCount c.overdue 1 } else { c with onTime := satCount c.onTime 1 })
  freeTicket i ev2

end Sys2Proof.Machine
end

