-- ==== Sys2Proof/Machine/Checks.lean ====
section
/-!
DEFINITION. Checks (01, 03): naming a check and its lines, the hold test, the recomputation, the close test, entry to PAID, the end
of a check's chains, and freeing.
-/

namespace Sys2Proof.Machine

/-! ### Naming a check and a line (R9) -/

/-- Is a check reference current (R9)? -/
def refCurrent (tb : Tables) (w : Word) : Bool :=
  decide (lo16 w < Config.checkTotal) && (tb.check (lo16 w)).state != .free && refTag w == (tb.check (lo16 w)).tag

/-- NOCHECK, with the current tag when the index is in range and the record is not FREE (R9). That the bare tag takes a word of its own,
in bits 15:0, is the model's choice (log entry 12). -/
def nocheckAnswer (tb : Tables) (w : Word) : Answer :=
  if lo16 w < Config.checkTotal ∧ (tb.check (lo16 w)).state ≠ .free then answer .nocheck [wn (tb.check (lo16 w)).tag.toNat]
  else answer .nocheck []

/-- The reference test of a request that names a check in its first word (R9). -/
def withCheck (r : Req) (ev : Ev) (k : Nat → Ev × Answer) : Ev × Answer :=
  if refCurrent ev.tb (reqWord r 0) then k (lo16 (reqWord r 0)) else (ev, nocheckAnswer ev.tb (reqWord r 0))

/-- The test of a line named with its check: its record, when it is on the check's list (R9). -/
def lineOn (tb : Tables) (ci id : Nat) : Option Line := if id ∈ (tb.check ci).lines then tb.line id else none

/-- A refusal that carries nothing. -/
def refuse (ev : Ev) (c : ResultCode) : Ev × Answer := (ev, answer c [])

/-- Is a check in OPEN or SETTLING? -/
def Check.isLive (c : Check) : Bool := c.state == .opened || c.state == .settling

/-! ### Holds (R18) -/

/-- The hold test (R18). -/
def holdPasses (c : Check) (lane : Nat) (taken : Word) : Bool :=
  match c.holder with
  | none => true
  | some h => h == lane || isPast taken c.expiry

/-- HELD, with the holder and the expiry (R18). -/
def heldAnswer (c : Check) : Answer := answer .held [.b (optCode c.holder), .w c.expiry]

/-- The expiry of a hold taken or renewed at a take (R18). -/
def newExpiry (tb : Tables) (taken : Word) : Word := taken + BitVec.ofNat 32 tb.cfg.holdTime

/-- A lane becomes the holder, with a new expiry. -/
def giveHold (ci lane : Nat) (taken : Word) (ev : Ev) : Ev :=
  let e := newExpiry ev.tb taken
  ev.updCheck ci (fun c => { c with holder := some lane, expiry := e })

/-- What passing the hold test does: on an OPEN or SETTLING check the requesting lane holds it (R18). -/
def renewHold (ci lane : Nat) (taken : Word) (ev : Ev) : Ev :=
  if (ev.tb.check ci).isLive then giveHold ci lane taken ev else ev

/-- The hold test of a modifying request, before its other tests (R18). -/
def withHold (r : Req) (ci : Nat) (ev : Ev) (k : Ev → Ev × Answer) : Ev × Answer :=
  if holdPasses (ev.tb.check ci) r.lane r.takenAt then k (renewHold ci r.lane r.takenAt ev)
  else (ev, heldAnswer (ev.tb.check ci))

/-- The hold test and then the test that the check is OPEN or SETTLING. -/
def withHeldLive (r : Req) (ci : Nat) (ev : Ev) (k : Ev → Ev × Answer) : Ev × Answer :=
  withHold r ci ev (fun ev => if (ev.tb.check ci).isLive then k ev else refuse ev .state)

/-! ### The recomputation (R23, R24) -/

/-- Stage 1 writes the net of every line of the list (R24, R25). -/
def writeNets (ids : List Nat) (ev : Ev) : Ev := ids.foldl (fun ev id => ev.updLine id (fun l => { l with net := lineNet l })) ev

/-- The figures of a recomputation of a check as it stands (R24). -/
def figuresOf (tb : Tables) (ci : Nat) : Figures :=
  let c := tb.check ci
  computeBill c.split c.taxRates c.serviceRate c.payers (tb.linesOf c.lines)

/-- A check with the figures of a recomputation written (R24). -/
def Check.withFigures (c : Check) (f : Figures) : Check :=
  { c with subtotal := f.subtotal, taxes := f.taxes, service := f.service, total := f.total, refund := f.refund, payers := f.payers }

/-- The recomputation of a check (R23). -/
def recompute (ci : Nat) (ev : Ev) : Ev :=
  let f := figuresOf ev.tb ci
  (writeNets (ev.tb.check ci).lines ev).updCheck ci (fun c => c.withFigures f)

/-- Does a trial of stages 1 to 4 over a list of lines exceed the cap (R28)? -/
def overCap (c : Check) (ls : List Line) : Bool := decide (Config.amountTop < totalOf c.taxRates c.serviceRate ls)

/-! ### The line store (R5, R6) -/

/-- The free line record of the lowest id (R5). -/
def lowestLine (tb : Tables) : Option Nat := findFrom (fun i => (tb.line i).isNone) Config.lineTotal 0

/-- The record a new line would take, when the check's list has room and the store is not full (R11 step 3). -/
def roomFor (tb : Tables) (ci : Nat) : Option Nat :=
  if (tb.check ci).lines.length < Config.linesPerCheck then lowestLine tb else none

/-- Fill a line record and put it at the tail of its check's list (R12). -/
def appendLine (ci id : Nat) (l : Line) (ev : Ev) : Ev :=
  (ev.setLine id (some l)).updCheck ci (fun c => { c with lines := c.lines ++ [id] })

/-! ### Assignments (R8) -/

/-- What the test of an assignment byte finds (R8). -/
inductive AssignTest where
  | bad
  | frozen
  | ok (a : Assign)
  deriving DecidableEq, Repr

/-- Is payer `p` of a check PAID? -/
def payerPaid (c : Check) (p : Nat) : Bool :=
  match c.payers[p - 1]? with
  | some x => isPaid x
  | none => false

/-- The test of an assignment byte against a check's payers (R8, R174). -/
def testAssign (c : Check) (b : Nat) : AssignTest :=
  let ps := assignMembers b
  if ps.any (fun p => decide (c.payers.length < p)) then .bad
  else if ps.any (payerPaid c) then .frozen
  else .ok (assignOf ps)

/-- An assignment less the members that do not meet `keep` (R42, R134). -/
def Assign.reduce (keep : Nat → Bool) (a : Assign) : Assign := assignOf (a.members.filter keep)

/-! ### The end of a check's chains (R138) -/

/-- Is a slot in ARMED, FIRING, WAITING or STALLED? -/
def Slot.isActive (s : Slot) : Bool := s.state == .armed || s.state == .firing || s.state == .waiting || s.state == .stalled

/-- End a slot: DONE, its timer disarmed, the check's chain slot cleared if it named the slot (R138, R139). -/
def endSlot (n : Nat) (ev : Ev) : Ev :=
  let ci := (ev.tb.slot n).check
  (ev.updSlot n (fun s => { s with state := .done, timer := none })).updCheck ci
    (fun c => if c.chain = some n then { c with chain := none } else c)

/-- The slots a check leaving OPEN and SETTLING ends, in ascending order (R138). -/
def slotsOnCheck (tb : Tables) (ci : Nat) : List Nat :=
  (List.range Config.slotTotal).filter (fun n =>
    (tb.slot n).isActive && (tb.slot n).check == ci && (tb.slot n).tag == (tb.check ci).tag)

/-- End every active slot of a check, with its notice (R138). -/
def endChains (ci : Nat) (ev : Ev) : Ev :=
  (slotsOnCheck ev.tb ci).foldl (fun ev n => (endSlot n ev).note .chainEndCheck n ci) ev

/-! ### Freeing (R4) -/

/-- A line's part in the freeing of its check: the demand of an UNFIRED, unvoided line is released (R4). -/
def dropLine (ev : Ev) (id : Nat) : Ev :=
  match ev.tb.line id with
  | none => ev
  | some l => (if l.fired || l.voided then ev else releaseDemand ev (demandOf ev.tb l.item l.qty)).setLine id none

/-- Free a check (R4). -/
def freeCheckEv (ci : Nat) (ev : Ev) : Ev :=
  ((ev.tb.check ci).lines.foldl dropLine ev).updCheck ci (fun c => freeCheck (nextTag c.tag))

/-- Does the freeing condition hold (R4)? -/
def Check.isFreeable (c : Check) : Bool :=
  (c.state == .paid || c.state == .voided) && c.outstanding == 0 && !c.owed

/-- The freeing test, and whether it freed the check (R4). -/
def freeingTest (ci : Nat) (ev : Ev) : Ev × Bool :=
  if (ev.tb.check ci).isFreeable then (freeCheckEv ci ev, true) else (ev, false)

/-! ### Settlement (R49 to R51) -/

/-- A check becomes owed a fire: its flag, and its place at the tail of the owed list (R51, R83). -/
def oweFire (ci : Nat) (ev : Ev) : Ev :=
  (ev.updCheck ci (fun c => { c with owed := true })).setOwed (ev.tb.owed.filter (· ≠ ci) ++ [ci])

/-- The close fire of an ON_CLOSE check; in LOAD nothing is built (R51, R55). -/
def closeFire (ci : Nat) (ev : Ev) : Ev :=
  let ids := unfiredLines ev.tb ci (fun _ => true)
  if ids = [] then ev
  else if ev.inLoad then oweFire ci ev
  else
    match buildFire ci ids false none ev with
    | some (ev1, _) => ev1
    | none => oweFire ci ev

/-- Steps 1 to 4 of entry to PAID (R50). -/
def settleCheck (ci : Nat) (ev : Ev) : Ev :=
  let c := ev.tb.check ci
  let ev1 := ev.updCheck ci (fun c => { c with state := .paid, holder := none })
  let ev2 := if 0 < c.refund then ev1.note .checkRefund ci c.refund else ev1
  let ev3 := if c.policy = .onClose then closeFire ci ev2 else ev2
  endChains ci ev3

/-- Entry to PAID (R50). -/
def entryToPaid (ci : Nat) (ev : Ev) : Ev := (freeingTest ci (settleCheck ci ev)).1

/-- Is a payer done, for the close test (R49)? -/
def payerDone (p : Payer) : Bool := isPaid p || (p.share == 0 && p.tenders == 0)

/-- Does the close condition hold on a SETTLING check (R49)? -/
def Check.closes (c : Check) : Bool := c.state == .settling && c.payers.all payerDone

/-- The close test, and whether the check closed (R49). -/
def closeTest (ci : Nat) (ev : Ev) : Ev × Bool :=
  if (ev.tb.check ci).closes then (entryToPaid ci ev, true) else (ev, false)

end Sys2Proof.Machine
end

