-- ==== Sys2Proof/Machine/CheckRequests.lean ====
section
/-!
DEFINITION. The requests of 01_checks_lines_and_holds.md, as effects on the tables with their answers: OPEN_CHECK to READ_CHECK, and
the four hold requests.
-/

namespace Sys2Proof.Machine

/-! ### Lane permissions (R152, R153) -/

/-- VOID_FIRED: a SUPERVISOR holds it whatever its flags (R152). -/
def mayVoidFired (l : Lane) : Bool := l.role == .supervisor || l.voidFired

/-- DISCOUNT: a SUPERVISOR holds it whatever its flags (R152). -/
def mayDiscount (l : Lane) : Bool := l.role == .supervisor || l.discount

/-! ### OPEN_CHECK (R10) -/

/-- The FREE check record of the lowest index (R10). -/
def lowestCheck (tb : Tables) : Option Nat := findFrom (fun i => (tb.check i).state == .free) Config.checkTotal 0

/-- The record OPEN_CHECK fills (R10). -/
def openedCheck (tb : Tables) (r : Req) (tag : Tag) (policy : FirePolicy) (mode : SplitMode) : Check :=
  { freeCheck tag with
    state := .opened, holder := some r.lane, expiry := newExpiry tb r.takenAt, openedAt := r.takenAt, opener := r.lane,
    policy := policy, rush := reqFlag r 1 1, serviceRate := (reqWord r 2).toNat, taxRates := tb.cfg.taxRates, split := mode,
    payers := List.replicate (reqByte r 1 3) emptyPayer }

/-- The effect and the answer of an OPEN_CHECK that fills record `ci` (R10). -/
def openAt (r : Req) (ci : Nat) (tag : Tag) (policy : FirePolicy) (mode : SplitMode) (ev : Ev) : Ev × Answer :=
  let c := openedCheck ev.tb r tag policy mode
  ((ev.updCheck ci (fun _ => c)).countLane r.lane (fun x => { x with opened := satCount x.opened 1 }),
    answer .ok [.w (refWord ci tag), .w c.openedAt, .w c.expiry])

/-- Which record an OPEN_CHECK fills, or its refusal: the lowest FREE one, or in LOAD the one it names, NOCHECK where its index is outside
the check table (R10, R174; log entry 15). -/
def openTarget (r : Req) (ev : Ev) : ResultCode ⊕ (Nat × Tag) :=
  if ev.inLoad then
    let ci := lo16 (reqWord r 0)
    if Config.checkTotal ≤ ci then .inl .nocheck
    else if refTag (reqWord r 0) = 0 then .inl .range
    else if (ev.tb.check ci).state ≠ .free then .inl .state
    else .inr (ci, refTag (reqWord r 0))
  else
    match lowestCheck ev.tb with
    | some ci => .inr (ci, (ev.tb.check ci).tag)
    | none => .inl .full

/-- OPEN_CHECK (R10). -/
def openCheckReq (r : Req) (ev : Ev) : Ev × Answer :=
  if ev.mode = .parking then refuse ev .parking
  else
    match FirePolicy.ofCode (reqByte r 1 0), SplitMode.ofCode (reqByte r 1 2) with
    | some policy, some mode =>
      if 3000 < (reqWord r 2).toNat ∨ reqByte r 1 3 < 1 ∨ 8 < reqByte r 1 3 then refuse ev .range
      else if lowestCheck ev.tb = none then refuse ev .full
      else
        match openTarget r ev with
        | .inl c => refuse ev c
        | .inr (ci, tag) => openAt r ci tag policy mode ev
    | _, _ => refuse ev .range

/-! ### ADD_LINE (R11, R12) -/

/-- The new line of an ADD_LINE (R12). -/
def addedLine (tb : Tables) (r : Req) (ci : Nat) (a : Assign) (fired : Bool) : Line :=
  let item := lo16 (reqWord r 1)
  { check := ci, item := item, qty := reqByte r 1 2, price := (tb.item item).prices.get tb.band, taxClass := (tb.item item).taxClass,
    discount := 0, net := 0, modifier := reqByte r 1 3, group := reqByte r 2 0, assign := a, fired := fired, voided := false,
    isRemake := false, isCopy := false, isTemplate := decide (1 ≤ reqByte r 2 0), made1 := false, made2 := false, made3 := false }

/-- Is the restored-FIRED mark of an ADD_LINE set? -/
def restoredMark (r : Req) : Bool := bitOf (reqWord r 2) 24

/-- The assignment of an ADD_LINE: POOL when none is supplied (R8). -/
def addAssign (r : Req) (c : Check) : AssignTest :=
  if bitOf (reqWord r 2) 16 then testAssign c (reqByte r 2 1) else .ok .pool

/-- Is an item index 1 to 511 and defined? -/
def itemDefined (tb : Tables) (i : Nat) : Bool := decide (1 ≤ i ∧ i ≤ Config.itemTop) && (tb.item i).defined

/-- The argument tests of ADD_LINE but for its assignment (R11 step 4). -/
def addArgsOk (tb : Tables) (r : Req) (inLoad : Bool) : Bool :=
  itemDefined tb (lo16 (reqWord r 1)) && decide (1 ≤ reqByte r 1 2 ∧ reqByte r 1 2 ≤ 99) && decide (reqByte r 2 0 ≤ 7)
    && (inLoad || !restoredMark r)

/-- CLOSED, naming a station (R11). -/
def closedAnswer (n : Nat) : Answer := answer .closed [.b n]

/-- OUT, naming an item and its avail (R11, R64). -/
def outAnswer (tb : Tables) (i : Nat) : Answer := answer .out [wn i, wn (tb.item i).avail]

/-- Steps 5 and 6 of R11, which a restored-FIRED line skips: the refusal, if any. -/
def intakeAndStock (tb : Tables) (i qty : Nat) (openedAt : Word) : Option Answer :=
  match firstRefusing tb i openedAt with
  | some n => some (closedAnswer n)
  | none => (firstShort tb (demandOf tb i qty)).map (outAnswer tb)

/-- The effect of an ADD_LINE that passes its tests (R12). -/
def addLineEffect (ci id : Nat) (l : Line) (ev : Ev) : Ev :=
  let ev1 := appendLine ci id l ev
  let ev2 := if l.fired then ev1 else reserveAll ev1 (demandOf ev1.tb l.item l.qty)
  recompute ci ev2

/-- The net of a line as it stands. -/
def netOf (tb : Tables) (id : Nat) : Nat := ((tb.line id).map (·.net)).getD 0

/-- The refusal of a test that finds one, else what follows. -/
def unlessRefused (ev : Ev) (x : Option Answer) (k : Ev × Answer) : Ev × Answer :=
  match x with
  | some a => (ev, a)
  | none => k

/-- What the result of a request that has settled its check adds where its own rule names neither: that the check closed, and the
refund due (R50; that they stand after its own fields is log entry 44, the model's choice). -/
def settledFields (c : Check) (closed : Bool) : List Field := if closed then [.b 1, wn c.refund] else []

/-- ADD_LINE (R11, R12). -/
def addLineReq (r : Req) (ev : Ev) : Ev × Answer :=
  withCheck r ev fun ci => withHeldLive r ci ev fun ev =>
    let c := ev.tb.check ci
    match roomFor ev.tb ci with
    | none => refuse ev .full
    | some id =>
      if !addArgsOk ev.tb r ev.inLoad then refuse ev .range
      else
        match addAssign r c with
        | .bad => refuse ev .range
        | .frozen => refuse ev .frozen
        | .ok a =>
          let l := addedLine ev.tb r ci a (restoredMark r)
          unlessRefused ev (if l.fired then none else intakeAndStock ev.tb l.item l.qty c.openedAt)
            (if overCap c (ev.tb.linesOf c.lines ++ [l]) then refuse ev .limit
            else
              let ev1 := addLineEffect ci id l ev
              let c1 := ev1.tb.check ci
              let (ev2, closed) := closeTest ci ev1
              (ev2, answer .ok ([wn id, wn (netOf ev1.tb id), wn c1.subtotal, wn c1.total, .w c1.expiry] ++ settledFields c1 closed)))

/-! ### SET_LINE (R13) -/

/-- The presence marks of SET_LINE: group, assignment, modifier, discount (12). -/
def setLineMark (r : Req) (k : Nat) : Bool := (reqByte r 1 2).testBit k

/-- A line after a group change (R7). -/
def Line.setGroup (l : Line) (g : Nat) : Line :=
  { l with group := g,
           isTemplate := if l.isCopy || l.isRemake then l.isTemplate else if l.group = g then l.isTemplate else decide (1 ≤ g) }

/-- A line with the supplied fields of a SET_LINE written (R13). -/
def changedLine (r : Req) (a : Assign) (l : Line) : Line :=
  let l1 := if setLineMark r 0 then l.setGroup (reqByte r 2 0) else l
  let l2 := if setLineMark r 1 then { l1 with assign := a } else l1
  let l3 := if setLineMark r 2 then { l2 with modifier := reqByte r 2 2 } else l2
  if setLineMark r 3 then { l3 with discount := reqByte r 2 3 } else l3

/-- Are the supplied group and discount in range (R13 step 4)? -/
def setLineRangeOk (r : Req) : Bool :=
  (!setLineMark r 0 || decide (reqByte r 2 0 ≤ 7)) && (!setLineMark r 3 || decide (reqByte r 2 3 ≤ 100))

/-- The assignment a SET_LINE supplies, tested (R8); POOL stands for none supplied. -/
def setLineAssign (r : Req) (c : Check) : AssignTest := if setLineMark r 1 then testAssign c (reqByte r 2 1) else .ok .pool

/-- The lines of a check as a trial of a change to one of them sees them (R28). -/
def trialLines (tb : Tables) (ids : List Nat) (id : Nat) (f : Line → Line) : List Line :=
  ids.filterMap (fun k => (tb.line k).map (fun l => if k = id then f l else l))

/-- The tests of R13 from step 4 on, and the effect. -/
def setLineRest (r : Req) (ci id : Nat) (ev : Ev) : Ev × Answer :=
  let c := ev.tb.check ci
  if !setLineRangeOk r then refuse ev .range
  else
    match setLineAssign r c with
    | .bad => refuse ev .range
    | .frozen => refuse ev .frozen
    | .ok a =>
      if setLineMark r 3 && !mayDiscount (ev.tb.lane r.lane) then refuse ev .role
      else if overCap c (trialLines ev.tb c.lines id (changedLine r a)) then refuse ev .limit
      else if reqByte r 1 2 % 16 = 0 then (ev, answer .ok [wn (netOf ev.tb id), wn c.subtotal, wn c.total])
      else
        let ev1 := recompute ci (ev.updLine id (changedLine r a))
        let c1 := ev1.tb.check ci
        let (ev2, closed) := closeTest ci ev1
        (ev2, answer .ok ([wn (netOf ev1.tb id), wn c1.subtotal, wn c1.total] ++ settledFields c1 closed))

/-- SET_LINE (R13). -/
def setLineReq (r : Req) (ev : Ev) : Ev × Answer :=
  withCheck r ev fun ci =>
    let id := lo16 (reqWord r 1)
    match lineOn ev.tb ci id with
    | none => refuse ev .range
    | some l => withHeldLive r ci ev fun ev => if l.voided then refuse ev .state else setLineRest r ci id ev

/-! ### VOID_LINE (R14) -/

/-- The effect of a VOID_LINE but for the close test (R14, R86, R87). -/
def voidLineEffect (ci id : Nat) (ev : Ev) : Ev := recompute ci (withdrawAll ci (voidOneLine ci ev id))

/-- VOID_LINE (R14). -/
def voidLineReq (r : Req) (ev : Ev) : Ev × Answer :=
  withCheck r ev fun ci =>
    let id := (reqWord r 1).toNat
    match lineOn ev.tb ci id with
    | none => refuse ev .range
    | some l => withHeldLive r ci ev fun ev =>
      if l.voided then refuse ev .state
      else if l.fired && !mayVoidFired (ev.tb.lane r.lane) then refuse ev .role
      else
        let ev1 := voidLineEffect ci id ev
        let c1 := ev1.tb.check ci
        let (ev2, closed) := closeTest ci ev1
        (ev2, answer .ok [wn c1.subtotal, wn c1.total, wn c1.refund, .b (flagCode closed)])

/-! ### SEND (R15) -/

/-- Does a line belong to the group a SEND names, ALL being 0xFF (R15)? -/
def inSendGroup (g : Nat) (l : Line) : Bool := g == 0xFF || l.group == g

/-- SEND (R15); in LOAD it is refused STATE once its other tests have passed (R82, log entry 38). -/
def sendReq (r : Req) (ev : Ev) : Ev × Answer :=
  withCheck r ev fun ci => withHeldLive r ci ev fun ev =>
    let g := (reqWord r 1).toNat
    if 7 < g ∧ g ≠ 0xFF then refuse ev .range
    else if ev.inLoad then refuse ev .state
    else
      let ids := unfiredLines ev.tb ci (inSendGroup g)
      match buildFire ci ids false none ev with
      | none => refuse ev .full
      | some (ev1, built) => (ev1, answer .ok [wn ids.length, wn built.length])

/-! ### VOID_CHECK (R16) -/

/-- The lines of a check that are not voided. -/
def liveLines (tb : Tables) (ci : Nat) : List Nat :=
  (tb.check ci).lines.filter (fun id =>
    match tb.line id with
    | some l => !l.voided
    | none => false)

/-- Has a check a line that is FIRED and not voided (R16 step 3)? -/
def hasFired (tb : Tables) (ci : Nat) : Bool := (tb.linesOf (tb.check ci).lines).any (fun l => l.fired && !l.voided)

/-- The end of a VOID_CHECK: VOIDED, the holder cleared, its chains ended, the freeing test (R16, R138). -/
def enterVoided (ci : Nat) (ev : Ev) : Ev :=
  (freeingTest ci (endChains ci (ev.updCheck ci (fun c => { c with state := .voided, holder := none })))).1

/-- VOID_CHECK (R16). -/
def voidCheckReq (r : Req) (ev : Ev) : Ev × Answer :=
  withCheck r ev fun ci => withHold r ci ev fun ev =>
    if (ev.tb.check ci).state ≠ .opened then refuse ev .state
    else if hasFired ev.tb ci && !mayVoidFired (ev.tb.lane r.lane) then refuse ev .role
    else
      let ids := liveLines ev.tb ci
      let ev1 := ids.foldl (voidOneLine ci) ev
      let gone := (struckTickets ev1.tb ci).length
      (enterVoided ci (recompute ci (withdrawAll ci ev1)), answer .ok [wn ids.length, wn gone])

/-! ### READ_CHECK (R17) -/

/-- Has the hold lapsed at a take? Clear when there is no holder (log entry 35). -/
def holdLapsed (c : Check) (taken : Word) : Bool := c.holder.isSome && isPast taken c.expiry

/-- The result of part CHECK (R17, 12). -/
def checkPartWords (c : Check) (taken : Word) : List Word :=
  [bytes4 c.state.code (optCode c.holder) (flagCode (holdLapsed c taken)) c.opener, c.expiry, c.openedAt,
   bytes4 c.policy.code (flagCode c.rush) c.split.code c.payers.length,
   halves c.serviceRate c.outstanding, halves c.taxRates.c0 c.taxRates.c1, halves c.taxRates.c2 c.taxRates.c3,
   bytes4 c.lines.length (flagCode c.owed) (flagCode c.overdue) (optCode c.chain),
   BitVec.ofNat 32 c.subtotal, BitVec.ofNat 32 c.taxes.c0, BitVec.ofNat 32 c.taxes.c1, BitVec.ofNat 32 c.taxes.c2,
   BitVec.ofNat 32 c.taxes.c3, BitVec.ofNat 32 c.service, BitVec.ofNat 32 c.total, BitVec.ofNat 32 c.refund]

/-- One entry of part LINES (R17, 12). -/
def linePartWords (id : Nat) (l : Line) : List Word :=
  [BitVec.ofNat 32 (id % 8192 + l.group % 8 * 8192 + l.item % 512 * 65536 + l.taxClass % 4 * 33554432
     + flagCode l.fired * 134217728 + flagCode l.voided * 268435456 + flagCode l.isRemake * 536870912
     + flagCode l.isCopy * 1073741824 + flagCode l.isTemplate * 2147483648),
   BitVec.ofNat 32 l.price, BitVec.ofNat 32 l.net, bytes4 l.qty l.discount l.modifier l.assign.code]

/-- The result of part LINES: up to four lines from a starting position (R17, 12). -/
def linesPartWords (tb : Tables) (c : Check) (start : Nat) : List Word :=
  ((c.lines.drop start).take 4).flatMap (fun id =>
    match tb.line id with
    | some l => linePartWords id l
    | none => [0, 0, 0, 0])

/-- READ_CHECK (R17). -/
def readCheckReq (r : Req) (ev : Ev) : Ev × Answer :=
  withCheck r ev fun ci =>
    let c := ev.tb.check ci
    match reqByte r 1 2 with
    | 0 => (ev, { code := .ok, body := checkPartWords c r.takenAt })
    | 1 => (ev, { code := .ok, body := linesPartWords ev.tb c (lo16 (reqWord r 1)) })
    | _ => refuse ev .range

/-! ### Holds among tills (R19 to R21) -/

/-- The holder, or absent, and the expiry of a check. -/
def holdAnswer (c : Check) : Answer := answer .ok [.b (optCode c.holder), .w c.expiry]

/-- TAKE (R19). -/
def takeReq (r : Req) (ev : Ev) : Ev × Answer :=
  withCheck r ev fun ci => withHeldLive r ci ev fun ev => (ev, holdAnswer (ev.tb.check ci))

/-- RELEASE (R19). -/
def releaseReq (r : Req) (ev : Ev) : Ev × Answer :=
  withCheck r ev fun ci =>
    let c := ev.tb.check ci
    if holdPasses c r.lane r.takenAt then
      let ev1 := ev.updCheck ci (fun c => { c with holder := none })
      (ev1, holdAnswer (ev1.tb.check ci))
    else (ev, heldAnswer c)

/-- May a lane be the target of a TRANSFER (R20 step 3)? -/
def isTransferTarget (tb : Tables) (n : Nat) : Bool :=
  decide (n < tb.cfg.laneCount) && ((tb.lane n).role == .till || (tb.lane n).role == .supervisor)

/-- TRANSFER (R20); its hold test takes the hold as any other does (log entry 17). -/
def transferReq (r : Req) (ev : Ev) : Ev × Answer :=
  withCheck r ev fun ci => withHeldLive r ci ev fun ev =>
    let target := (reqWord r 1).toNat
    if isTransferTarget ev.tb target then
      let ev1 := giveHold ci target r.takenAt ev
      (ev1, holdAnswer (ev1.tb.check ci))
    else refuse ev .range

/-- BREAK (R21). -/
def breakReq (r : Req) (ev : Ev) : Ev × Answer :=
  withCheck r ev fun ci =>
    let h := (ev.tb.check ci).holder
    let ev1 := ev.updCheck ci (fun c => { c with holder := none })
    ((match h with
      | some l => ev1.note .holdBroken ci l
      | none => ev1), answer .ok [.b (optCode h)])

end Sys2Proof.Machine
end

