-- ==== Sys2Proof/Machine/StationRequests.lean ====
section
/-!
DEFINITION. The requests of 06_stations_intake_gates_and_rails.md: STEP_INTAKE and SET_STATION.
-/

namespace Sys2Proof.Machine

/-! ### STEP_INTAKE (R96) -/

/-- STEP_INTAKE (R96). -/
def stepIntakeReq (r : Req) (ev : Ev) : Ev × Answer :=
  let n := reqByte r 0 0
  let lane := ev.tb.lane r.lane
  match Direction.ofCode (reqByte r 0 1), StepMode.ofCode (reqByte r 0 2) with
  | some dir, some mode =>
    if Config.stationTotal ≤ n then refuse ev .range
    else if lane.role = .station ∧ n ≠ lane.station then refuse ev .role
    else
      let ev1 := stepIntakeEv n dir mode ev
      (ev1, answer .ok [.b (ev.tb.station n).intake.code, .b (ev1.tb.station n).intake.code, .w (ev1.tb.station n).stamp])
  | _, _ => refuse ev .range

/-! ### SET_STATION (R109, R110) -/

/-- The presence marks of SET_STATION: gate mode, threshold, hold, fast flag, rail limit, aging, restart policy (12). -/
def stationMark (r : Req) (k : Nat) : Bool := (reqByte r 0 1).testBit k

/-- A value brought into a range (R109). -/
def clampTo (lo hi v : Nat) : Nat := if v < lo then lo else if hi < v then hi else v

/-- The threshold, the hold, the rail limit and the aging a SET_STATION gives, in range (R109). -/
def givenThreshold (r : Req) : Nat := clampTo 1 32 (reqByte r 1 1)
def givenHold (r : Req) : Duration := ⟨min (reqByte r 2 0) 7, reqByte r 2 1⟩
def givenLimit (r : Req) : Nat := clampTo 1 12 (reqByte r 1 3)
def givenAging (r : Req) : Duration := ⟨min (reqByte r 2 2) 7, reqByte r 2 3⟩

/-- Was a supplied field brought into range (R109)? -/
def stationClamped (r : Req) : Bool :=
  (stationMark r 1 && decide (givenThreshold r ≠ reqByte r 1 1)) || (stationMark r 2 && decide (7 < reqByte r 2 0))
    || (stationMark r 4 && decide (givenLimit r ≠ reqByte r 1 3)) || (stationMark r 5 && decide (7 < reqByte r 2 2))

/-- A new threshold: it may open a closed GATHER gate (R102, R110). -/
def applyThreshold (n v : Nat) (ev : Ev) : Ev :=
  let ev1 := ev.updStation n (fun s => { s with threshold := v })
  let s := ev1.tb.station n
  if s.gateMode = .gather ∧ s.gateOpen = false ∧ v ≤ s.gathered then openGate n .threshold ev1 else ev1

/-- A new gate hold (R110). -/
def Station.applyHold (s : Station) (d : Duration) : Station :=
  let s1 := { s with hold := d }
  if d.count = 0 then { s1 with holdTimer := none }
  else if s.gateMode = .gather ∧ s.gateOpen = false ∧ s.gathered ≠ 0 ∧ s.holdTimer = none then { s1 with holdTimer := armTimer d }
  else s1

/-- A new aging duration (R106). -/
def Station.applyAging (s : Station) (d : Duration) : Station := { s with aging := d, agingTimer := armTimer d }

/-- An effect under a presence mark. -/
def underMark (b : Bool) (f : Ev → Ev) (ev : Ev) : Ev := if b then f ev else ev

/-- The supplied fields, and the arbiter when any is supplied (R110). That they take effect in the order in which R109 and R110 list them,
the gate mode before the threshold and the hold, is the model's choice, log entry 54. -/
def setStationEffect (r : Req) (n : Nat) (m : GateMode) (p : RestartPolicy) (ev : Ev) : Ev :=
  let ev1 := underMark (stationMark r 0) (fun ev => ev.showStation n (fun s => s.setMode m)) ev
  let ev2 := underMark (stationMark r 1) (applyThreshold n (givenThreshold r)) ev1
  let ev3 := underMark (stationMark r 2) (fun ev => ev.updStation n (fun s => s.applyHold (givenHold r))) ev2
  let ev4 := underMark (stationMark r 3) (fun ev => ev.updStation n (fun s => { s with fast := reqFlag r 1 2 })) ev3
  let ev5 := underMark (stationMark r 4) (fun ev => ev.updStation n (fun s => { s with railLimit := givenLimit r })) ev4
  let ev6 := underMark (stationMark r 5) (fun ev => ev.updStation n (fun s => s.applyAging (givenAging r))) ev5
  let ev7 := underMark (stationMark r 6) (fun ev => ev.updStation n (fun s => { s with policy := p })) ev6
  underMark (decide (reqByte r 0 1 % 128 ≠ 0)) (fun ev => ev.reach n) ev7

/-- The result of SET_STATION (R109). -/
def stationFields (s : Station) : List Field :=
  [.b s.gateMode.code, wn s.threshold, .b s.hold.level, wn s.hold.count, .b (flagCode s.fast), wn s.railLimit, .b s.aging.level,
   wn s.aging.count, .b s.policy.code, .b s.intake.code, .b (flagCode s.gateOpen), wn s.rail.length, wn s.rush0.length,
   wn s.rush1.length, wn s.normal.length]

/-- A value supplied under a mark, or a default where the mark is clear. -/
def suppliedOr {α : Type} (mark : Bool) (x : Option α) (d : α) : Option α := if mark then x else some d

/-- SET_STATION (R109, R110). Its result shows the station at the end of the event. -/
def setStationReq (r : Req) (ev : Ev) : Ev × Answer :=
  let n := reqByte r 0 0
  if Config.stationTotal ≤ n then refuse ev .range
  else
    match suppliedOr (stationMark r 0) (GateMode.ofCode (reqByte r 1 0)) .opened,
      suppliedOr (stationMark r 6) (RestartPolicy.ofCode (reqWord r 3).toNat) .closed with
    | some m, some p =>
      let ev1 := setStationEffect r n m p ev
      (ev1, answer (if stationClamped r then .clamped else .ok) (stationFields ((closeEv ev1).tb.station n)))
    | _, _ => refuse ev .range

end Sys2Proof.Machine
end

