-- ==== Sys2Proof/Machine/LaneRequests.lean ====
section
/-!
DEFINITION. SET_PROFILE (09) and VIEW (10).
-/

namespace Sys2Proof.Machine

/-! ### Holds of lanes (R153, R155) -/

/-- Is a check held by a lane of a kind? -/
def heldBy (p : Nat → Bool) (c : Check) : Bool :=
  match c.holder with
  | some l => p l
  | none => false

/-- Clear every hold of lanes of a kind, live or lapsed (R153, R155). -/
def clearHolds (p : Nat → Bool) (ev : Ev) : Ev :=
  ev.setTb (ev.tb.setChecks (tmap check0 ev.tb.checks (fun c => if heldBy p c then { c with holder := none } else c)))

/-- How many holds that clears (R155). -/
def holdsOf (p : Nat → Bool) (tb : Tables) : Nat := (tb.checks.filter (fun q => heldBy p q.2)).length

/-- A role whose lanes hold no check (R153, R155). -/
def Role.holdsNone (r : Role) : Bool := r == .off || r == .station

/-! ### SET_PROFILE (R154, R155) -/

/-- The permissions byte (12). -/
def permCode (l : Lane) : Nat := flagCode l.voidFired + flagCode l.discount * 2 + flagCode l.stockAdjust * 4

/-- The fields of a profile, its fault flag last (R153). -/
def profileFields (l : Lane) : List Field :=
  [.b l.role.code, .b l.station, .b (permCode l), .b (flagCode l.lock), .b (flagCode l.fault)]

/-- The profile a SET_PROFILE writes on an unlocked lane (R154). With a role other than STATION the station byte is kept as supplied,
above 15 too (log entry 24, the model's choice). -/
def givenProfile (r : Req) (role : Role) (l : Lane) : Lane :=
  { l with
    role := role, station := reqByte r 1 1, voidFired := (reqByte r 1 2).testBit 0, discount := (reqByte r 1 2).testBit 1,
    stockAdjust := (reqByte r 1 2).testBit 2, lock := bitOf (reqWord r 1) 24 }

/-- A SET_PROFILE with the write mark that passes its tests (R154, R155). -/
def profileWrite (r : Req) (n : Nat) (role : Role) (ev : Ev) : Ev × Answer :=
  let ev1 := ev.updLane n (fun l => { l with fault := false })
  let l := ev1.tb.lane n
  if l.lock then (ev1, answer .state (profileFields l))
  else
    let ev2 := ev1.updLane n (givenProfile r role)
    let p := fun k => role.holdsNone && k == n
    (clearHolds p ev2, answer .ok [wn (holdsOf p ev2.tb)])

/-- SET_PROFILE (R154, R155). -/
def setProfileReq (r : Req) (ev : Ev) : Ev × Answer :=
  let n := reqByte r 0 0
  if ev.tb.cfg.laneCount ≤ n then refuse ev .range
  else if reqFlag r 0 1 then
    match Role.ofCode (reqByte r 1 0) with
    | none => refuse ev .range
    | some role =>
      if role = .station ∧ Config.stationTotal ≤ reqByte r 1 1 then refuse ev .range else profileWrite r n role ev
  else (ev, answer .ok (profileFields (ev.tb.lane n) ++ [.b (ev.tb.lane n).pointer]))

/-! ### VIEW (R164) -/

/-- The four views (12). -/
inductive View where
  | station | item | lane | engine
  deriving DecidableEq, Repr

def View.ofCode : Nat → Option View
  | 0 => some .station
  | 1 => some .item
  | 2 => some .lane
  | 3 => some .engine
  | _ => none

/-- Is an index in range for a view (R164 step 1)? -/
def viewInRange (v : View) (i : Nat) : Bool :=
  match v with
  | .station => decide (i < Config.stationTotal)
  | .item => decide (1 ≤ i ∧ i ≤ Config.itemTop)
  | .lane => decide (i < Config.laneTotal)
  | .engine => true

/-- May a lane read a view (R164 step 2)? -/
def mayView (l : Lane) (own : Nat) (v : View) (i : Nat) : Bool :=
  match l.role with
  | .supervisor => true
  | .till => v == .lane && i == own
  | .station => v == .station && i == l.station
  | .off => false

/-- A 40-bit amount takes two words, the low 32 bits first (R175). -/
def amountFields (n : Nat) : List Field := [wn n, wn (n / 4294967296)]

/-- The values of one set (R163). -/
def viewFields (tb : Tables) (v : View) (i : Nat) : List Field :=
  match v with
  | .station =>
    let c := tb.cStation i
    [wn c.relRush0, wn c.relRush1, wn c.relNormal, wn c.onTime, wn c.overdue, wn c.withdrawn, wn c.remakes, wn c.byThreshold,
     wn c.byHold, wn c.byFast]
  | .item =>
    let c := tb.cItem i
    [wn c.consumed, wn c.unmade, wn c.afterMade, wn c.wasted, wn c.outs, wn c.yields, wn c.excess]
  | .lane =>
    let c := tb.cLane i
    [wn c.taken, wn c.refused, wn c.opened, wn c.tenders] ++ amountFields c.tenderTotal ++ amountFields c.tipTotal
  | .engine =>
    let c := tb.cEngine
    [wn c.notices, wn c.stalls, wn c.retries, wn c.laneFaults]

/-- Clear one set (R164); it clears in LOAD too (R163). -/
def clearView (v : View) (i : Nat) (ev : Ev) : Ev :=
  match v with
  | .station => ev.setTb (ev.tb.setCStations (tset stationCount0 ev.tb.cStations i stationCount0))
  | .item => ev.setTb (ev.tb.setCItems (tset itemCount0 ev.tb.cItems i itemCount0))
  | .lane => ev.setTb (ev.tb.setCLanes (tset laneCount0 ev.tb.cLanes i laneCount0))
  | .engine => ev.setTb (ev.tb.setCEngine engineCount0)

/-- VIEW (R164). -/
def viewReq (r : Req) (ev : Ev) : Ev × Answer :=
  let i := hi16 (reqWord r 0)
  let l := ev.tb.lane r.lane
  match View.ofCode (reqByte r 0 0) with
  | none => refuse ev .range
  | some v =>
    if !viewInRange v i then refuse ev .range
    else if !mayView l r.lane v i then refuse ev .role
    else if reqFlag r 0 1 && l.role != .supervisor then refuse ev .role
    else ((if reqFlag r 0 1 then clearView v i ev else ev), answer .ok (viewFields ev.tb v i))

end Sys2Proof.Machine
end

