-- ==== Sys2Proof/Machine/Chains.lean ====
section
/-!
DEFINITION. The course chain unit (08): paths, executions, reorder copies, passes, completion, stalls, and the run of a slot.
-/

namespace Sys2Proof.Machine

/-! ### Paths (R127) -/

/-- Walk a program from an entry: the entries visited in order, and whether END was reached without visiting one twice (R127). -/
def walkPath (tb : Tables) : Nat → List Nat → Nat → List Nat × Bool
  | 0, seen, _ => (seen, false)
  | fuel + 1, seen, e =>
    if e ∈ seen then (seen, false)
    else
      match (tb.entry e).next with
      | none => (seen ++ [e], true)
      | some k => walkPath tb fuel (seen ++ [e]) k

/-- The path from an entry: 257 steps are enough to reach END or to visit one of the 256 entries twice. -/
def pathOf (tb : Tables) (e : Nat) : List Nat × Bool := walkPath tb (Config.programTotal + 1) [] e

/-- The last FIRE entry of the path from an entry (R127). -/
def lastFire (tb : Tables) (first : Nat) : Option Nat :=
  ((pathOf tb first).1.filter (fun e => (tb.entry e).kind == .fire)).getLast?

/-- Is the pass a slot runs its final pass (R136)? -/
def Slot.onFinalPass (s : Slot) : Bool :=
  match s.mode with
  | .once => s.passesDone == 0
  | .count => s.passesDone + 1 == s.passCount
  | .loop => false

/-- The trailing wait is skipped on a pass whose phase is below the interval (R136). -/
def skipsWait (e : ProgEntry) (s : Slot) : Bool := e.next.isNone && decide (s.phase < s.interval)

/-! ### Copies (R134, R135) -/

/-- The template lines of a group, in line-list order (R134). -/
def templatesOf (tb : Tables) (ci g : Nat) : List Nat :=
  (tb.check ci).lines.filter (fun id =>
    match tb.line id with
    | some l => l.isTemplate && !l.voided && l.group == g
    | none => false)

/-- The copy of a template (R134). -/
def copyLine (tb : Tables) (ci : Nat) (l : Line) : Line :=
  { l with
    check := ci, price := (tb.item l.item).prices.get tb.band, taxClass := (tb.item l.item).taxClass, discount := 0, net := 0,
    assign := l.assign.reduce (fun p => !payerPaid (tb.check ci) p), fired := false, voided := false, isRemake := false,
    isCopy := true, isTemplate := false, made1 := false, made2 := false, made3 := false }

/-- Make one copy, a complete event for the catalogue and the bill (R134): level notices and the close test included. -/
def makeCopy (ci id : Nat) (l : Line) (ev : Ev) : Ev := settleLevels (closeTest ci (addLineEffect ci id l ev)).1

/-- What an execution's copying has gathered: the lines copied and the number skipped. -/
structure Copies where
  ev : Ev
  made : List Nat
  skipped : Nat
  deriving DecidableEq, Repr

/-- Skip a template (R135). -/
def Copies.skip (x : Copies) : Copies := { x with skipped := x.skipped + 1 }

/-- The tests and the copy of one template (R135). -/
def copyTemplate (ci : Nat) (x : Copies) (tid : Nat) : Copies :=
  match x.ev.tb.line tid, roomFor x.ev.tb ci with
  | some t, some id =>
    let c := x.ev.tb.check ci
    let l := copyLine x.ev.tb ci t
    if c.isLive && (intakeAndStock x.ev.tb l.item l.qty c.openedAt).isNone && !overCap c (x.ev.tb.linesOf c.lines ++ [l]) then
      { ev := makeCopy ci id l x.ev, made := x.made ++ [id], skipped := x.skipped }
    else x.skip
  | _, _ => x.skip

/-- The copies of an execution of slot `n`, and its CHAIN_SKIP notice (R135). -/
def makeCopies (n ci g : Nat) (ev : Ev) : Copies :=
  let x := (templatesOf ev.tb ci g).foldl (copyTemplate ci) { ev := ev, made := [], skipped := 0 }
  if x.skipped = 0 then x else { x with ev := x.ev.note .chainSkip n x.skipped }

/-! ### Executions (R133, R137) -/

/-- The lines an execution fires, copies made first where REORDER asks for them; a retry makes none (R133, R137). -/
def executionLines (n : Nat) (retry : Bool) (ev : Ev) : Ev × List Nat :=
  let s := ev.tb.slot n
  let e := ev.tb.entry s.cur
  let ids := unfiredLines ev.tb s.check (fun l => l.group == e.group)
  if ids = [] ∧ e.reorder ∧ retry = false then
    let x := makeCopies n s.check e.group ev
    (x.ev, x.made)
  else (ev, ids)

/-- A slot becomes STALLED (R137). -/
def stall (n : Nat) (ev : Ev) : Ev :=
  let e := (ev.tb.slot n).cur
  ((ev.updSlot n (fun s => { s with state := .stalled })).note .chainStall n e).countEngine
    (fun c => { c with stalls := satCount c.stalls 1 })

/-! ### The run of a slot (R131, R132, R136) -/

/-- Where a running slot stands between two steps of R132: at an entry just reached, at an execution (a retry of a stalled one or
not), after an execution that was built, or at the end of an entry. -/
inductive RunPoint where
  | reach
  | execute (retry : Bool)
  | built
  | advance
  deriving DecidableEq, Repr

/-- What follows one step of a run. -/
inductive RunStep where
  | rest (ev : Ev)
  | go (n : Nat) (fresh : Bool) (pt : RunPoint) (ev : Ev)
  deriving DecidableEq, Repr

/-- A start takes place when the slot is ARMED and its check has no running slot (R131). -/
def startable (tb : Tables) (n : Nat) : Bool := (tb.slot n).state == .armed && (tb.check (tb.slot n).check).chain.isNone

/-- A slot becomes FIRING and its check names it (R131). `ran` marks that it runs at this base tick (R132, log entry 7). -/
def markStarted (n : Nat) (ev : Ev) : Ev :=
  (ev.updSlot n (fun s => { s with state := .firing, ran := s.ran || !ev.inLoad })).updCheck (ev.tb.slot n).check
    (fun c => { c with chain := some n })

/-- Wait a duration, or go on at once when its count is 0 (R118, R132). -/
def waitOr (n : Nat) (d : Duration) (fresh : Bool) (pt : RunPoint) (ev : Ev) : RunStep :=
  match armTimer d with
  | none => .go n fresh pt ev
  | some t => .rest (ev.updSlot n (fun s => { s with state := .waiting, timer := some t }))

/-- An entry just reached (R132 steps 1 and 3). -/
def reachStep (n : Nat) (fresh : Bool) (ev : Ev) : RunStep :=
  let s := ev.tb.slot n
  let e := ev.tb.entry s.cur
  match e.kind with
  | .fire => .go n fresh (.execute false) (ev.updSlot n (fun s => { s with reps := e.repeats }))
  | .wait => if skipsWait e s then .go n fresh .advance ev else waitOr n e.dur fresh .advance ev

/-- An execution (R133, R137). -/
def executeStep (n : Nat) (fresh retry : Bool) (ev : Ev) : RunStep :=
  let s := ev.tb.slot n
  let (ev1, ids) := executionLines n retry ev
  match buildFire s.check ids false (some s.cur) ev1 with
  | some (ev2, _) => .go n fresh .built ev2
  | none => .rest (stall n ev1)

/-- Completion (R136): the slot is DONE, its check's field cleared, the notice, and the next chain started. -/
def completeStep (n : Nat) (ev : Ev) : RunStep :=
  let s := ev.tb.slot n
  let ev1 := (endSlot n (ev.updSlot n (fun s => { s with passesDone := min (s.passesDone + 1) 65535 }))).note .chainDone n s.check
  match s.next with
  | some m => if startable ev1.tb m then .go m true .reach (markStarted m ev1) else .rest ev1
  | none => .rest ev1

/-- The spacing wait of a FIRE entry (R127, R132): the duration of a WAIT that follows it directly. -/
def spacingWait (tb : Tables) (e : ProgEntry) : Option Duration :=
  match e.next with
  | some k => if (tb.entry k).kind = .wait then some (tb.entry k).dur else none
  | none => none

/-- After an execution that was built (R132 step 2). -/
def builtStep (n : Nat) (fresh : Bool) (ev : Ev) : RunStep :=
  let s := ev.tb.slot n
  let e := ev.tb.entry s.cur
  let ev1 := ev.updSlot n (fun s => { s with reps := s.reps - 1 })
  if 1 < s.reps then
    match spacingWait ev.tb e with
    | some d => waitOr n d fresh (.execute false) ev1
    | none => .go n fresh (.execute false) ev1
  else if s.onFinalPass ∧ lastFire ev.tb s.first = some s.cur then completeStep n ev1
  else .go n fresh .advance ev1

/-- The end of a pass that is not final (R136). -/
def endPass (s : Slot) : Slot :=
  { s with
    passesDone := min (s.passesDone + 1) 65535, phase := if s.interval ≤ s.phase then 1 else s.phase + 1, cur := s.first, reps := 0 }

/-- On to the next entry, or the end of the pass (R132 steps 2 to 4, R136). -/
def advanceStep (n : Nat) (fresh : Bool) (ev : Ev) : RunStep :=
  match (ev.tb.entry (ev.tb.slot n).cur).next with
  | some k => .go n fresh .reach (ev.updSlot n (fun s => { s with cur := k }))
  | none =>
    let ev1 := ev.updSlot n endPass
    if fresh then .rest ev1 else .go n true .reach ev1

/-- One step of a running slot; a slot that no longer runs rests. -/
def runStep (n : Nat) (fresh : Bool) (pt : RunPoint) (ev : Ev) : RunStep :=
  if (ev.tb.slot n).state ≠ .firing then .rest ev
  else
    match pt with
    | .reach => reachStep n fresh ev
    | .execute retry => executeStep n fresh retry ev
    | .built => builtStep n fresh ev
    | .advance => advanceStep n fresh ev

/-- Run a slot until it comes to rest (R132). Within one event a slot runs at most two passes of 256 entries of 15 executions, and
at most 16 slots follow one another, so the fuel of `runChain` is enough. -/
def runSlot : Nat → Nat → Bool → RunPoint → Ev → Ev
  | 0, _, _, _, ev => ev
  | fuel + 1, n, fresh, pt, ev =>
    match runStep n fresh pt ev with
    | .rest ev1 => ev1
    | .go m f p ev1 => runSlot fuel m f p ev1

def runChain (n : Nat) (fresh : Bool) (pt : RunPoint) (ev : Ev) : Ev := runSlot 400000 n fresh pt ev

/-- A start: in RUN and PARKING the slot runs at once, in LOAD it stays FIRING (R131). -/
def startSlot (n : Nat) (ev : Ev) : Ev :=
  let ev1 := markStarted n ev
  if ev.inLoad then ev1 else runChain n true .reach ev1

/-! ### The CCU's event at a base tick (R132, R137) -/

/-- A slot goes on running from rest, and has run at this base tick (R132). -/
def resume (n : Nat) (ev : Ev) : Ev := ev.updSlot n (fun s => { s with state := .firing, timer := none, ran := true })

/-- The wait of a WAITING slot has expired: a spacing wait leads to the next execution, an entry wait to the next entry (R132). -/
def waitExpiredEv (n : Nat) (ev : Ev) : Ev :=
  let pt := if (ev.tb.entry (ev.tb.slot n).cur).kind = .fire then RunPoint.execute false else .advance
  runChain n false pt (resume n ev)

/-- A slot resting in FIRING runs from its current entry (R132). -/
def firingRunEv (n : Nat) (ev : Ev) : Ev := runChain n true .reach (resume n ev)

/-- Does the fire of a stalled execution fit now (R137)? -/
def retryFits (tb : Tables) (n : Nat) : Bool :=
  let s := tb.slot n
  let ids := unfiredLines tb s.check (fun l => l.group == (tb.entry s.cur).group)
  decide ((planFire tb ids).length ≤ freeTickets tb)

/-- The retry of a STALLED slot (R137): one that does not fit changes nothing but that the slot has run at this base tick. -/
def stallRetryEv (n : Nat) (ev : Ev) : Ev :=
  if retryFits ev.tb n then runChain n false (.execute true) (resume n ev)
  else ev.updSlot n (fun s => { s with ran := true })

end Sys2Proof.Machine
end

