-- ==== Sys2Proof/Machine/Complete.lean ====
section
/-!
DEFINITION. The completion of the request in flight (09, R149, R152): which command completes it, the tests of kind and role, the
event's end, its exchange-memory side, and the answer.
-/

namespace Sys2Proof.Machine

/-- The request kinds a role may send (R152), by the numbers of 12_record_layouts.md. -/
def roleAllows (l : Lane) (kind : Nat) : Bool :=
  match l.role with
  | .off => false
  | .supervisor => true
  | .till =>
    [1, 2, 3, 4, 5, 6, 7, 8, 9, 10, 12, 13, 14, 15, 19, 24, 34].contains kind || ([20, 21, 22].contains kind && l.stockAdjust)
  | .station => [19, 20, 21, 23, 24, 25, 34].contains kind

/-- A completion comes in RUN, PARKING and LOAD (R151). -/
def completesIn (e : EngineState) : Bool := e == .run || e == .parking || e == .load

/-- The request in flight, when a command that completes kinds `p` finds one (log entry 1). -/
def completing (s : State) (p : Nat → Bool) : Option Req :=
  match s.rqu.inFlight with
  | some r => if p r.kind && completesIn s.engine then some r else none
  | none => none

/-- The tests of kind and role, then the request's own rule (R152). -/
def decideReq (h : Req → Ev → Ev × Answer) (r : Req) (ev : Ev) : Ev × Answer :=
  if roleAllows (ev.tb.lane r.lane) r.kind then h r ev else refuse ev .role

/-- The end of a completion: the event's end (R66, R104), its notices and windows, and, unless the engine has halted, the answer
(R149, R172). -/
def finishReq (io : Io) (r : Req) (x : Ev × Answer) : Io :=
  let io1 := commitEv (some x.2) io (closeEv x.1)
  if io1.st.halted then io1 else answerRequest io1 r x.2

/-- The event of a table effect that begins at a state. -/
def State.event (s : State) : Ev := Ev.ofTables s.tb s.engine

/-- A step that completes the request in flight of kinds `p` by the rule `h`; a command whose request is not in flight only lands
the hub's stores (log entry 1). -/
def completeStepFor (p : Nat → Bool) (h : Req → Ev → Ev × Answer) (bus : Bus) (s : State) : State :=
  let io := Io.start s bus
  match completing io.st p with
  | none => io.st
  | some r => (finishReq io r (h r io.st.event)).st

/-- The completion of a request of one kind. -/
def completeKind (kind : Nat) (h : Req → Ev → Ev × Answer) (bus : Bus) (s : State) : State :=
  completeStepFor (fun k => k == kind) (decideReq h) bus s

/-- A request kind that is none of the table's (R152, R174). -/
def isBadKind (k : Nat) : Bool := k == 0 || decide (34 < k)

/-- The answer to a request of no kind (R152). -/
def badreqReq (_ : Req) (ev : Ev) : Ev × Answer := refuse ev .badreq

end Sys2Proof.Machine
end

