-- ==== Sys2Proof/Machine/TimedRequests.lean ====
section
/-!
DEFINITION. The request of 07_timebase_and_timed_actions.md: SET_ACTION.
-/

namespace Sys2Proof.Machine

/-- The action a SET_ACTION gives: kind, then its arguments in the order of R119 (12, R124). -/
def givenAction (r : Req) : Option Action :=
  let a := reqByte r 2 1
  match reqByte r 2 0 with
  | 0 => if a ≤ 3 then some (.setBand a) else none
  | 1 =>
    match Direction.ofCode (reqByte r 2 2), StepMode.ofCode (reqByte r 2 3) with
    | some d, some m => if a < Config.stationTotal then some (.stepIntake a d m) else none
    | _, _ => none
  | 2 =>
    match GateMode.ofCode (reqByte r 2 2) with
    | some m => if a < Config.stationTotal then some (.setGate a m) else none
    | none => none
  | 3 => if a < Config.slotTotal then some (.startChain a) else none
  | 4 => some (.prompt a)
  | _ => none

/-- The countdown a SET_ACTION writes (R125). -/
def givenCountdown (r : Req) : Nat := if reqByte r 1 1 = 0 then 0 else clampTo 1 (reqByte r 1 1) (reqByte r 1 2)

/-- The entry a SET_ACTION writes (R125). -/
def givenEntry (r : Req) (a : Action) : TimedEntry :=
  { level := min (reqByte r 1 0) 7, period := reqByte r 1 1, countdown := givenCountdown r, jitter := reqByte r 1 3, action := a }

/-- Was the level or the countdown changed by clamping (R125)? -/
def actionClamped (r : Req) : Bool :=
  decide (7 < reqByte r 1 0) || (decide (reqByte r 1 1 ≠ 0) && decide (givenCountdown r ≠ reqByte r 1 2))

/-- The kind and the arguments of an action as bytes (12). -/
def actionBytes : Action → List Nat
  | .setBand b => [0, b]
  | .stepIntake s d m => [1, s, d.code, m.code]
  | .setGate s m => [2, s, m.code]
  | .startChain s => [3, s]
  | .prompt c => [4, c]

/-- The result of SET_ACTION (R124, R125). -/
def entryFields (e : TimedEntry) : List Field :=
  [.b e.level, wn e.period, wn e.countdown, .b e.jitter] ++ (actionBytes e.action).map Field.b

/-- SET_ACTION (R124, R125). -/
def setActionReq (r : Req) (ev : Ev) : Ev × Answer :=
  let e := reqByte r 0 0
  if Config.actionTotal ≤ e then refuse ev .range
  else if reqFlag r 0 1 then
    match givenAction r with
    | none => refuse ev .range
    | some a =>
      if 3 < reqByte r 1 3 then refuse ev .range
      else
        (ev.updAction e (fun _ => givenEntry r a), answer (if actionClamped r then .clamped else .ok) (entryFields (givenEntry r a)))
  else (ev, answer .ok (entryFields (ev.tb.action e)))

end Sys2Proof.Machine
end

