-- ==== Sys2Proof/Machine/Timed.lean ====
section
/-!
DEFINITION. The timed blocks (07, and the timed events of 05, 06, 08 and 10): the base tick, the events of its blocks, the timed
action table's walk.
-/

namespace Sys2Proof.Machine

/-- Ticks come in RUN and PARKING only (R116). -/
def ticksIn (e : EngineState) : Bool := e == .run || e == .parking

/-- An event of a timed block: its table effect, the event's end, and its exchange-memory side. -/
def timedEvent (f : Ev → Ev) (io : Io) : Io := commitEv none io (closeEv (f io.st.event))

/-! ### The timed action table (R120 to R123) -/

/-- An entry with a period is live (R119). -/
def TimedEntry.isLive (e : TimedEntry) : Bool := e.period != 0

/-- Does a base tick at which levels 0 to `ticked` - 1 ticked reach an entry (R120)? -/
def TimedEntry.ticks (e : TimedEntry) (ticked : Nat) : Bool := e.isLive && decide (e.level < ticked)

/-- Does the entry's countdown reach 0 at such a base tick (R120)? -/
def TimedEntry.acts (e : TimedEntry) (ticked : Nat) : Bool := e.ticks ticked && decide (e.countdown ≤ 1)

/-- The action of an entry (R122). -/
def actionEv (i : Nat) (a : Action) (ev : Ev) : Ev :=
  match a with
  | .setBand b => ev.setBand b
  | .stepIntake n d m => stepIntakeEv n d m ev
  | .setGate n m => setGateEv n m ev
  | .startChain n => if startable ev.tb n then startSlot n ev else ev
  | .prompt c => ev.note .timedPrompt i c

/-- The draw a reload takes: modes 1 to 3 advance the source (R121). -/
def drawFor (e : TimedEntry) (x : Word) : Word := if e.period = 255 ∨ e.jitter = 0 then x else drawNext x

/-- The entry after its action: reloaded, or off when it was ONCE (R120 steps 4 and 5, R121). `x` is the advanced source. -/
def TimedEntry.reload (e : TimedEntry) (x : Word) : TimedEntry :=
  if e.period = 255 then { e with period := 0, countdown := 0 }
  else { e with countdown := if e.jitter = 0 then e.period else jitterReload e.jitter e.period x }

/-- Reload an entry (R120, R121). -/
def reloadEv (i : Nat) (ev : Ev) : Ev :=
  let e := ev.tb.action i
  let x := drawFor e ev.tb.draw
  (ev.setTb (ev.tb.setDraw x)).updAction i (fun e => e.reload x)

/-- One entry of the walk (R120): its countdown falls by one; at 0 its action is taken and it is reloaded or goes off. -/
def walkEntry (ticked : Nat) (ev : Ev) (i : Nat) : Ev :=
  let e := ev.tb.action i
  if e.acts ticked then reloadEv i (actionEv i e.action ev)
  else if e.ticks ticked then ev.updAction i (fun e => { e with countdown := e.countdown - 1 })
  else ev

/-- The TAT's event: the walk of entries 0 to 63 (R120). -/
def walkEv (ticked : Nat) (ev : Ev) : Ev := (List.range Config.actionTotal).foldl (walkEntry ticked) ev

/-- Does any entry act at a base tick (R120)? -/
def anyActs (ticked : Nat) (tb : Tables) : Bool := (List.range Config.actionTotal).any (fun i => (tb.action i).acts ticked)

/-! ### Owed fires (R84) -/

/-- An owed fire has been built: the flag is cleared, the check leaves the list, and the freeing test runs (R52, R84). -/
def owedBuilt (ci : Nat) (ev : Ev) : Ev :=
  (freeingTest ci ((ev.updCheck ci (fun c => { c with owed := false })).setOwed (ev.tb.owed.filter (· ≠ ci)))).1

/-- Try the owed fires of a list in order, up to the first that does not fit (R84). -/
def retryOwed : List Nat → Ev → Ev
  | [], ev => ev
  | ci :: rest, ev =>
    match buildFire ci (unfiredLines ev.tb ci (fun _ => true)) false none ev with
    | some (ev1, _) => retryOwed rest (owedBuilt ci ev1)
    | none => ev.countEngine (fun c => { c with retries := satCount c.retries 1 })

/-! ### The CCU's event (R132) -/

/-- What the CCU's event does with a slot (R132). -/
inductive SlotEvent where
  | wait
  | firing
  | stalled
  deriving DecidableEq, Repr

/-- What the CCU's event does with a slot, if anything: a slot that has run at this base tick is passed over (R132). -/
def slotDue (s : Slot) : Option SlotEvent :=
  if s.ran then none
  else
    match s.state with
    | .firing => some .firing
    | .stalled => some .stalled
    | .waiting => if timerDue s.timer then some .wait else none
    | _ => none

/-- One slot of the CCU's walk (R132). -/
def walkSlot (ev : Ev) (n : Nat) : Ev :=
  match slotDue (ev.tb.slot n) with
  | some .wait => waitExpiredEv n ev
  | some .firing => firingRunEv n ev
  | some .stalled => stallRetryEv n ev
  | none => ev

/-- The CCU's event: its walk of slots 0 to 15 (R132). -/
def chainsEv (ev : Ev) : Ev := (List.range Config.slotTotal).foldl walkSlot ev

/-- Does the CCU's event find anything to do? -/
def anySlotDue (tb : Tables) : Bool := (List.range Config.slotTotal).any (fun n => (slotDue (tb.slot n)).isSome)

/-! ### A station's event (R102, R106, R116) -/

/-- The hold's part of a station's event, when its timer is at its last tick (R102). -/
def holdPart (n : Nat) (ev : Ev) : Ev := if timerDue (ev.tb.station n).holdTimer then gateHoldEv n ev else ev

/-- The aging part of a station's event, when its timer is at its last tick (R106). -/
def agingPart (n : Nat) (ev : Ev) : Ev := if timerDue (ev.tb.station n).agingTimer then agingEv n ev else ev

/-! ### What is due (log entries 4 to 7) -/

/-- A block's event of the latest base tick. A station's event has two names, by the part that comes first where both are due. -/
inductive DueEvent where
  | hold (station : Nat)
  | aging (station : Nat)
  | chains
  | actions
  | delay
  | owed
  deriving DecidableEq, Repr

/-- Is the delay timer's expiry due? -/
def delayDue (n : Ntw) : Bool :=
  match n.timer with
  | .armed t => t.due
  | _ => false

/-- Is an event due? -/
def isDue (s : State) (d : DueEvent) : Bool :=
  ticksIn s.engine &&
    (match d with
    | .hold n => decide (n < Config.stationTotal) && timerDue (s.tb.station n).holdTimer
    | .aging n => decide (n < Config.stationTotal) && timerDue (s.tb.station n).agingTimer
    | .chains => s.due.ccu && anySlotDue s.tb
    | .actions => s.engine == .run && s.due.tat
    | .delay => delayDue s.ntw
    | .owed => s.due.owed)

/-- Does the waiting event of the TAT take the action of entry `i`? -/
def entryDue (s : State) (i : Nat) : Bool := isDue s .actions && decide (i < Config.actionTotal) && (s.tb.action i).acts s.due.ticked

/-- Does the waiting event of the CCU handle slot `n` in the way `e`? -/
def slotIsDue (s : State) (n : Nat) (e : SlotEvent) : Bool :=
  isDue s .chains && decide (n < Config.slotTotal) && decide (slotDue (s.tb.slot n) = some e)

/-- The due marks of a base tick that stand for events to come are dropped (log entries 5 and 6). -/
def dropStation (s : Station) : Station := { s with holdTimer := dropDue s.holdTimer, agingTimer := dropDue s.agingTimer }

def dropSlot (s : Slot) : Slot := { s with timer := dropDue s.timer }

def dropDelay : DelayTimer → DelayTimer
  | .armed t => .armed { t with due := false }
  | t => t

/-- Drop everything that waits of the latest base tick (log entries 5 and 6). -/
def dropDues (s : State) : State :=
  (((s.setTb ((s.tb.setStations (tmap station0 s.tb.stations dropStation)).setSlots (tmap slot0 s.tb.slots dropSlot))).setDue
    due0).setNtw { s.ntw with timer := dropDelay s.ntw.timer })

/-! ### The events of the blocks -/

/-- The delay timer expires (R161). -/
def expireDelay (n : Ntw) : Ntw := evalLine { n with timer := .expired }

/-- A block's event takes place (R116): a station's, with both of its timers; the CCU's, with all its slots; the TAT's, with all its
entries; the attention delay's; the owed retries. -/
def runDue (d : DueEvent) (io : Io) : Io :=
  match d with
  | .hold n => timedEvent (fun ev => agingPart n (gateHoldEv n ev)) io
  | .aging n => timedEvent (fun ev => holdPart n (agingEv n ev)) io
  | .chains => timedEvent chainsEv (io.setSt (io.st.setDue { io.st.due with ccu := false }))
  | .actions => timedEvent (walkEv io.st.due.ticked) (io.setSt (io.st.setDue { io.st.due with tat := false }))
  | .delay => io.setSt (io.st.setNtw (expireDelay io.st.ntw))
  | .owed => timedEvent (fun ev => retryOwed ev.tb.owed ev) (io.setSt (io.st.setDue { io.st.due with owed := false }))

/-- An event takes place when it is due; else nothing (log entry 1). -/
def runIfDue (d : DueEvent) (io : Io) : Io := if isDue io.st d then runDue d io else io

/-- The CCU's event takes place when it handles slot `n` in the way `e` (log entry 7). -/
def runIfSlotDue (n : Nat) (e : SlotEvent) (io : Io) : Io := if slotIsDue io.st n e then runDue .chains io else io

/-- The TAT's event takes place when it takes the action of entry `i` (log entry 6). -/
def runIfEntryDue (i : Nat) (io : Io) : Io := if entryDue io.st i then runDue .actions io else io

/-- The order in which due events come when no command orders them: stations, chains, timed actions, attention delay, owed fires
(DESIGN CHOICE, log entry 4). -/
def dueOrder : List DueEvent :=
  (List.range Config.stationTotal).flatMap (fun n => [DueEvent.hold n, .aging n]) ++ [.chains, .actions, .delay, .owed]

/-- The next due event in that order. -/
def nextDue (s : State) : Option DueEvent := dueOrder.find? (isDue s)

/-- Take every event that is still due. One base tick makes at most 20 of them. -/
def drainDues : Nat → Io → Io
  | 0, io => io
  | fuel + 1, io =>
    match nextDue io.st with
    | some d => drainDues fuel (runDue d io)
    | none => io

/-! ### The base tick (R116, R117) -/

/-- The counters of levels 1 to 7 at a tick of level 0, and how many of these levels ticked (R116). -/
def carryLevels : List Nat → List Nat → List Nat × Nat
  | m :: ms, c :: cs =>
    if m ≤ c + 1 then
      let (rest, n) := carryLevels ms cs
      (0 :: rest, n + 1)
    else ((c + 1) :: cs, 0)
  | _, cs => (cs, 0)

/-- Level 0 ticks: the ladder after it, and how many levels ticked (R116). -/
def Tmb.tick (t : Tmb) : Tmb × Nat :=
  let (rest, n) := carryLevels t.mults t.counters.tail
  ({ t with counters := 0 :: rest }, n + 1)

def tickStation (ticked : Nat) (s : Station) : Station :=
  { s with holdTimer := s.holdTimer.map (tickTimer ticked), agingTimer := s.agingTimer.map (tickTimer ticked) }

def tickSlot (ticked : Nat) (s : Slot) : Slot := { s with timer := s.timer.map (tickTimer ticked), ran := false }

def tickDelay (ticked : Nat) : DelayTimer → DelayTimer
  | .armed t => .armed (tickTimer ticked t)
  | t => t

/-- The timers of every block take the ticks of a base tick, and the blocks' events become due (R116, R118). -/
def lowerTimers (ticked : Nat) (s : State) : State :=
  let tb := (s.tb.setStations (tmap station0 s.tb.stations (tickStation ticked))).setSlots (tmap slot0 s.tb.slots (tickSlot ticked))
  ((s.setTb tb).setNtw { s.ntw with timer := tickDelay ticked s.ntw.timer }).setDue
    { ticked := ticked, owed := true, tat := false, ccu := true }

/-- The TAT's part of a base tick in RUN: where no entry acts, the walk is made at once; else it waits for a TIMED_ACTION (R120, log
entry 6). -/
def tickActions (s : State) : State :=
  if s.engine = .run then
    if anyActs s.due.ticked s.tb then s.setDue { s.due with tat := true } else s.setTb (walkEv s.due.ticked s.event).tb
  else s

/-- A base tick: the counters, engine time, its word on the status page, then what the tick makes due (R116, R117, R120). Where the write
of that word fails, no timer and no entry of the timed action table counts the tick (log entry 50, the model's choice). -/
def tickNow (io : Io) : Io :=
  let (ladder, ticked) := io.st.tmb.tick
  let s1 := (io.st.setTmb ladder).setTb (io.st.tb.setTime (io.st.tb.time + 1))
  let io1 := io.setSt s1
  if io1.bad then haltIo .statusPage none (busWrite io1 (Config.statusAt + 4) s1.tb.time)
  else
    let io2 := busWrite io1 (Config.statusAt + 4) s1.tb.time
    io2.setSt (tickActions (lowerTimers ticked io2.st))

/-- A base tick of a running engine, the events of the tick before first (log entry 4). -/
def baseTickIo (io : Io) : Io :=
  if ticksIn io.engine then
    let io1 := drainDues 40 io
    if ticksIn io1.engine then tickNow io1 else io1
  else io

/-! ### The meanings -/

/-- BASE_TICK (R116). -/
def execBaseTick (bus : Bus) (s : State) : Host.Outcome State Fault Refusal := .next (baseTickIo (Io.start s bus)).st

/-- TIMED_ACTION (R120, R122). -/
def execTimedAction (entry : Nat) (bus : Bus) (s : State) : Host.Outcome State Fault Refusal :=
  .next (runIfEntryDue entry (Io.start s bus)).st

/-- OWED_RETRY (R84). -/
def execOwedRetry (bus : Bus) (s : State) : Host.Outcome State Fault Refusal := .next (runIfDue .owed (Io.start s bus)).st

/-- AGING_TICK (R106, R107). -/
def execAgingTick (station : Nat) (bus : Bus) (s : State) : Host.Outcome State Fault Refusal :=
  .next (runIfDue (.aging station) (Io.start s bus)).st

/-- GATE_HOLD_EXPIRY (R102). -/
def execGateHoldExpiry (station : Nat) (bus : Bus) (s : State) : Host.Outcome State Fault Refusal :=
  .next (runIfDue (.hold station) (Io.start s bus)).st

/-- ATTENTION_DELAY_EXPIRY (R161). -/
def execAttentionDelayExpiry (s : State) : Host.Outcome State Fault Refusal :=
  .next (if isDue s .delay then s.setNtw (expireDelay s.ntw) else s)

/-- CHAIN_WAIT_EXPIRY (R132). -/
def execChainWaitExpiry (slot : Nat) (bus : Bus) (s : State) : Host.Outcome State Fault Refusal :=
  .next (runIfSlotDue slot .wait (Io.start s bus)).st

/-- FIRING_SLOT_RUN (R132). -/
def execFiringSlotRun (slot : Nat) (bus : Bus) (s : State) : Host.Outcome State Fault Refusal :=
  .next (runIfSlotDue slot .firing (Io.start s bus)).st

/-- CHAIN_STALL_RETRY (R137). -/
def execChainStallRetry (slot : Nat) (bus : Bus) (s : State) : Host.Outcome State Fault Refusal :=
  .next (runIfSlotDue slot .stalled (Io.start s bus)).st

end Sys2Proof.Machine
end

