-- ==== Sys2Proof/Machine/Starting.lean ====
section
/-!
DEFINITION. START (11, R167) with the config block's fields (09, R144), as seven steps that a RESTART may come between (log entry
23).
-/

namespace Sys2Proof.Machine

/-! ### The config block (R144, 12) -/

/-- A word of the config block, by offset. -/
def blockWord (b : List Word) (off : Nat) : Word := b.getD (off / 4) 0

def blockLanes (b : List Word) : Nat := (blockWord b 0x000).toNat
def blockLength (b : List Word) : Nat := (blockWord b 0x004).toNat
def blockBase (b : List Word) : Nat := (blockWord b 0x008).toNat

/-- The seven multiplier bytes, level 1 first. -/
def blockMults (b : List Word) : List Nat :=
  [byteOf (blockWord b 0x00C) 0, byteOf (blockWord b 0x00C) 1, byteOf (blockWord b 0x00C) 2, byteOf (blockWord b 0x00C) 3,
   byteOf (blockWord b 0x010) 0, byteOf (blockWord b 0x010) 1, byteOf (blockWord b 0x010) 2]

def blockSeed (b : List Word) : Word := blockWord b 0x014

def blockTax (b : List Word) : Quad :=
  ⟨lo16 (blockWord b 0x018), hi16 (blockWord b 0x018), lo16 (blockWord b 0x01C), hi16 (blockWord b 0x01C)⟩

def blockHold (b : List Word) : Nat := lo16 (blockWord b 0x020)
def blockTip (b : List Word) : Nat := byteOf (blockWord b 0x020) 2
def blockWake (b : List Word) : Bool := bitOf (blockWord b 0x020) 24
def blockThreshold (b : List Word) : Nat := byteOf (blockWord b 0x024) 0
def blockDelay (b : List Word) : Duration := ⟨byteOf (blockWord b 0x024) 1, byteOf (blockWord b 0x024) 2⟩
def blockMask (b : List Word) : Word := blockWord b 0x028

/-- Calendar entry `e`: lane and quota as written. -/
def blockEntry (b : List Word) (e : Nat) : Nat × Nat :=
  let w := blockWord b (0x040 + e / 2 * 4)
  (byteOf w (e % 2 * 2), byteOf w (e % 2 * 2 + 1))

/-- The calendar entries within the calendar length. -/
def blockCalendar (b : List Word) : List (Nat × Nat) := (List.range (blockLength b)).map (blockEntry b)

/-- The profile word of a lane. -/
def blockProfile (b : List Word) (l : Nat) : Word := blockWord b (0x0C0 + l * 4)

/-! ### Structural tests (R144, R167 step 4) -/

/-- The error the structural tests find, if any. -/
def blockError (b : List Word) : Option ConfigError :=
  if blockLanes b < 1 ∨ Config.laneTotal < blockLanes b then some .cfgLanes
  else if blockLength b < 1 ∨ 64 < blockLength b then some .cfgCalendar
  else if (blockCalendar b).any (fun e => decide (blockLanes b ≤ e.1)) then some .cfgCalendar
  else none

/-! ### Tuning fields (R144) -/

/-- The calendar with its quotas in range (R144). -/
def tunedCalendar (b : List Word) : List (Nat × Nat) := (blockCalendar b).map (fun e => (e.1, clampTo 1 8 e.2))

/-- The urgent mask without the positions that name no notice kind (R160): kinds are 1 to 13. -/
def tunedMask (b : List Word) : Word := blockMask b &&& 0x3FFE

/-- The role a profile word gives: an undefined role, or STATION with a station above 15, is OFF (R144). -/
def tunedRole (w : Word) : Role :=
  match Role.ofCode (byteOf w 0) with
  | some .station => if byteOf w 1 < Config.stationTotal then .station else .off
  | some r => r
  | none => .off

/-- Is a profile word taken as OFF for being out of range (R144)? -/
def profileBad (w : Word) : Bool := decide ((tunedRole w).code ≠ byteOf w 0)

/-- The copies of the config block that START takes (R144). -/
def tunedCfg (b : List Word) : Cfg :=
  { laneCount := blockLanes b, calendar := tunedCalendar b, taxRates := (blockTax b).map (fun t => min t 2500),
    holdTime := max (blockHold b) 1, tipCap := min (blockTip b) 100, wakeEnable := blockWake b }

/-- The ladder that START takes, its counters at 0 (R115, R116). -/
def tunedTmb (b : List Word) : Tmb :=
  { base := clampTo 10 1000 (blockBase b), mults := (blockMults b).map (fun m => max m 1), counters := tmb0.counters }

/-- The attention settings that START takes (R160). -/
def tunedNtw (b : List Word) (n : Ntw) : Ntw :=
  { n with threshold := max (blockThreshold b) 1, delay := ⟨min (blockDelay b).level 7, (blockDelay b).count⟩, mask := tunedMask b }

/-- Was a tuning field brought into range (R144, log entry 20)? -/
def blockClamped (b : List Word) : Bool :=
  decide ((tunedTmb b).base ≠ blockBase b) || decide ((tunedTmb b).mults ≠ blockMults b)
    || decide ((tunedCfg b).taxRates ≠ blockTax b) || decide ((tunedCfg b).holdTime ≠ blockHold b)
    || decide ((tunedCfg b).tipCap ≠ blockTip b) || decide (blockThreshold b = 0) || decide (7 < (blockDelay b).level)
    || decide (tunedCalendar b ≠ blockCalendar b)
    || (List.range Config.laneTotal).any (fun l => profileBad (blockProfile b l))

/-! ### Profiles at START (R153) -/

/-- A lane's profile after START: an unlocked one is written, every fault flag is cleared (R153; log entry 24). -/
def startedLane (w : Word) (l : Lane) : Lane :=
  if l.lock then { l with fault := false }
  else
    { l with
      role := tunedRole w, station := byteOf w 1, voidFired := bitOf w 16, discount := bitOf w 17, stockAdjust := bitOf w 18,
      lock := bitOf w 24, fault := false }

/-- The profiles and the holds they clear (R153). -/
def startedTables (b : List Word) (tb : Tables) : Tables :=
  let tb1 := (tb.setCfg (tunedCfg b)).setLanes
    (tupdAll lane0 tb.lanes Config.laneTotal (fun l x => startedLane (blockProfile b l) x))
  let tb2 := tb1.setDraw (if blockSeed b = 0 then tb.draw else blockSeed b)
  (clearHolds (fun l => (tb2.lane l).role.holdsNone) (Ev.ofTables tb2 .stopped)).tb

/-! ### The seven steps (R167) -/

/-- The next step of the START in progress. -/
def advanceStart (f : StartOp → StartOp) (io : Io) : Io :=
  io.setSt (io.st.setEnc { io.st.enc with startOp := io.st.enc.startOp.map (fun op => f { op with next := op.next + 1 }) })

/-- A START ends: the flag falls and the attention line is evaluated (R161, R165). -/
def endStart (io : Io) : Io :=
  io.setSt ((io.st.setEnc { io.st.enc with startOp := none }).setNtw (evalLine io.st.ntw))

/-- A START fails with a code (R167; log entry 31). -/
def failStart (e : ConfigError) (io : Io) : Io := endStart (io.setSt (io.st.setEnc { io.st.enc with configError := e }))

/-- Step 1: BASE is a multiple of 128 KiB (R165, R167, 12). -/
def startBase (io : Io) : Io := if io.st.base.extractLsb' 0 17 = 0 then advanceStart id io else failStart .cfgBase io

/-- The writes of the pending answer; and whether all succeeded. Where the write of DONE fails the slot stays TAKEN, so its state word
keeps what it holds (R148, R167). -/
def writePending (io : Io) (p : Pending) : Io × Bool :=
  match writeBody io p.lane p.slot p.hubTag p.answer with
  | (io1, false) => (io1, false)
  | (io1, true) => if io1.bad then ({ io1 with acc := io1.acc + 1 }, false) else busWrites io1 (slotOff p.lane p.slot) [3]

/-- The answer is dropped: the exchange fault region becomes LANE_SLOT, and the START goes on (R167; log entry 19). -/
def dropAnswer (io : Io) : Io :=
  let s := io.st.setRqu { io.st.rqu with pending := none }
  advanceStart (fun op => { op with answerLost := true }) (io.setSt (s.setEnc { s.enc with faultRegion := .laneSlot }))

/-- Step 2: the pending answer (R167; log entries 19 and 37). -/
def startAnswer (io : Io) : Io :=
  match io.st.rqu.pending with
  | none => advanceStart id io
  | some p =>
    match writePending io p with
    | (io1, true) =>
      let s1 := countDone io1.st p.lane p.answer.code
      advanceStart id (io1.setSt (s1.setRqu { s1.rqu with pending := none }))
    | (io1, false) => dropAnswer io1

/-- Step 3: the whole config block (R143, R167). -/
def startRead (io : Io) : Io :=
  match busReads io Config.configAt 128 with
  | (io1, none) => failStart .cfgRead io1
  | (io1, some b) => advanceStart (fun op => { op with block := b }) io1

/-- Step 4: the structural tests (R167). -/
def startTest (op : StartOp) (io : Io) : Io :=
  match blockError op.block with
  | some e => failStart e io
  | none => advanceStart id io

/-- The settings of step 5 (R167). -/
def appliedState (op : StartOp) (s : State) : State :=
  let enc := { s.enc with
    configError := .noError, clampFlag := blockClamped op.block, faultRegion := if op.answerLost then .laneSlot else .noRegion }
  ((((s.setEnc enc).setTb (startedTables op.block s.tb)).setTmb (tunedTmb op.block)).setNtw (tunedNtw op.block s.ntw)).setSweep
    { entry := 0, taken := 0 }

/-- Step 5: apply (R167). -/
def startApply (op : StartOp) (io : Io) : Io := advanceStart id (io.setSt (appliedState op io.st))

/-- Step 6: the status page (R145, R167), its words in rising offset order (log entry 51, the model's choice). -/
def startPage (io : Io) : Io :=
  match busWrites io Config.statusAt (statusWords io.st.ntw.written io.st.tb.time io.st.doneCount) with
  | (io1, true) => advanceStart id io1
  | (io1, false) => haltIo .statusPage none io1

/-- Every station's arbiter runs (R104, R113). -/
def runArbiters (ev : Ev) : Ev := (List.range Config.stationTotal).foldl runArbiter ev

/-- The engine's state with one field of engine control changed. -/
def State.inEngine (s : State) (e : EngineState) : State := s.setEnc { s.enc with engine := e }

/-- Step 7: entry to LOAD or RUN, the arbiters, and all sixteen windows (R113, R167). -/
def startEnter (op : StartOp) (io : Io) : Io :=
  let s1 := (dropDues io.st).inEngine (if op.load then .load else .run)
  let s2 := s1.setTb (runArbiters s1.event).tb
  let io1 := writeWindows none (io.setSt s2) (List.range Config.stationTotal)
  if io1.st.halted then io1 else endStart io1

/-- Make the next step of the START in progress. -/
def startStep (op : StartOp) (io : Io) : Io :=
  match op.next with
  | 1 => startBase io
  | 2 => startAnswer io
  | 3 => startRead io
  | 4 => startTest op io
  | 5 => startApply op io
  | 6 => startPage io
  | _ => startEnter op io

/-- The START in progress keeps count of its accesses (log entry 23). -/
def keepAccesses (io : Io) : Io :=
  io.setSt (io.st.setEnc { io.st.enc with startOp := io.st.enc.startOp.map (fun op => { op with acc := io.acc }) })

/-- Make up to `k` steps of the START in progress. -/
def runStart : Nat → State → State
  | 0, s => s
  | k + 1, s =>
    match s.enc.startOp with
    | none => s
    | some op => runStart k (keepAccesses (startStep op { st := s, errs := op.errs, acc := op.acc })).st

end Sys2Proof.Machine
end

