-- ==== Sys2Proof/Machine/Control.lean ====
section
/-!
DEFINITION. Engine control (11): the commands written to the registers, the wake input, power-on, and the entries to RUN and PARKED
that wait for a completion.
-/

namespace Sys2Proof.Machine

/-! ### The command error flag (R166) -/

def setCommandError (b : Bool) (s : State) : State := s.setEnc { s.enc with commandError := b }

/-- A command that its state does not take is ignored and sets the flag; one that is taken clears it (R166). -/
def takeCommand (ok : Bool) (f : State → State) (s : State) : State :=
  if ok then f (setCommandError false s) else setCommandError true s

/-! ### Starting (R167) -/

/-- A START is accepted. -/
def acceptStart (load : Bool) (errs : List Nat) (s : State) : State :=
  s.setEnc { s.enc with startOp := some { load := load, next := 1, errs := errs, acc := 0, block := [], answerLost := false } }

/-- Is a START taken (R166)? -/
def startTaken (s : State) : Bool := s.engine == .stopped && s.enc.startOp.isNone

/-- START: accepted, then its seven steps, or as many as `cut` says (R167, log entry 23). -/
def doStart (load : Bool) (bus : Bus) (cut : Option Nat) (s : State) : State :=
  let s1 := s.afterHub bus
  takeCommand (startTaken s1) (fun s => runStart (cut.getD 7) (acceptStart load bus.errs s)) s1

/-! ### RUN (R168) -/

/-- The level counters at 0 (R116). -/
def zeroCounters (s : State) : State := s.setTmb { s.tmb with counters := tmb0.counters }

/-- Entry to RUN from LOAD (R168). -/
def enterRunNow (s : State) : State :=
  let s1 := (zeroCounters (dropDues s)).inEngine .run
  s1.setEnc { s1.enc with runPending := false }

/-- RUN in LOAD (R168). -/
def runFromLoad (s : State) : State :=
  if s.rqu.inFlight.isNone then enterRunNow s else s.setEnc { s.enc with runPending := true }

def doRun (s : State) : State := takeCommand (s.engine == .load) runFromLoad s

/-! ### Parking (R169) -/

/-- The first PARK (R98, R123, R169). -/
def beginPark (s : State) : State :=
  let tb := s.tb.setStations (tmap station0 s.tb.stations (fun x => { x with parkIntake := x.intake }))
  ((s.setTb tb).setDue { s.due with tat := false }).inEngine .parking

/-- Entry to PARKED (R169). -/
def enterParkedNow (s : State) : State :=
  let s1 := (dropDues s).inEngine .parked
  s1.setEnc { s1.enc with parkPending := false }

/-- The second PARK (R169). -/
def pendPark (s : State) : State :=
  if s.rqu.inFlight.isNone then enterParkedNow s else s.setEnc { s.enc with parkPending := true }

def doPark (s : State) : State :=
  takeCommand (s.engine == .run || s.engine == .parking) (fun s => if s.engine = .run then beginPark s else pendPark s) s

/-! ### Waking (R170) -/

/-- A station's restart policy at WAKE, with the notice of a change (R98). -/
def wakePolicy (ev : Ev) (n : Nat) : Ev :=
  let x := ev.tb.station n
  let new := policyIntake x.policy x.parkIntake
  if new = x.intake then ev else (ev.updStation n (fun s => { s with intake := new })).note .stationState n new.code

/-- The table effect of WAKE: policies, then arbiters (R170); the stations' notices in rising station number (log entry 47, the model's
choice). -/
def wakeEv (ev : Ev) : Ev := runArbiters ((List.range Config.stationTotal).foldl wakePolicy ev)

/-- WAKE (R170). -/
def wakeIo (io : Io) : Io :=
  let s1 := (zeroCounters io.st).inEngine .run
  let s2 := (s1.setSweep { s1.sweep with taken := 0 }).setDue due0
  commitEv none (io.setSt s2) (wakeEv s2.event)

def doWake (bus : Bus) (s : State) : State :=
  let io := Io.start s bus
  takeCommand (io.engine == .parked) (fun s => (wakeIo (io.setSt s)).st) io.st

/-! ### RESTART (R171) -/

/-- A station's restart policy at RESTART, without a notice (R98). -/
def restartPolicy (x : Station) : Station := { x with intake := policyIntake x.policy x.intake }

/-- RESTART (R171). -/
def doRestart (s : State) : State :=
  let s1 := zeroCounters (dropDues s)
  let s2 := s1.setTb (s1.tb.setStations (tmap station0 s1.tb.stations restartPolicy))
  let s3 := (s2.setRqu (keepAnswer s2.rqu none)).setNtw (attentionClear s2.ntw)
  s3.setEnc { s3.enc with engine := .stopped, startOp := none, parkPending := false, runPending := false, commandError := false }

/-! ### BASE and ATTN (R162, R165) -/

/-- BASE with one half written. -/
def newBase (b : Addr) (hi : Bool) (v : Word) : Addr :=
  if hi then v ++ b.extractLsb' 0 32 else b.extractLsb' 32 32 ++ v

/-- A write to BASE_LO or BASE_HI (R165). -/
def doBaseWrite (hi : Bool) (v : Word) (s : State) : State := if startTaken s then s.setBase (newBase s.base hi v) else s

/-- A write to ATTN (R162, 12). -/
def doAck (v : Word) (s : State) : State := s.setNtw (attentionAck s.ntw (lo16 v))

/-! ### Register writes (R165, R166) -/

/-- A write to CTRL (R166). -/
def ctrlWrite (v : Word) (bus : Bus) (s : State) : State :=
  match ctrlCommand v with
  | .nothing => s.afterHub bus
  | .start => doStart false bus none s
  | .startLoad => doStart true bus none s
  | .run => doRun (s.afterHub bus)
  | .park => doPark (s.afterHub bus)
  | .wake => doWake bus s
  | .restart => doRestart (s.afterHub bus)
  | .invalid => setCommandError true (s.afterHub bus)

/-- A write to any register (R165; log entry 28). -/
def registerWrite (reg : Reg) (v : Word) (bus : Bus) (s : State) : State :=
  match reg with
  | .baseLo => doBaseWrite false v (s.afterHub bus)
  | .baseHi => doBaseWrite true v (s.afterHub bus)
  | .ctrl => ctrlWrite v bus s
  | .stat => s.afterHub bus
  | .attn => doAck v (s.afterHub bus)

/-! ### The meanings -/

/-- POWER_ON (R173): board DRAM is not the engine's (log entry 10). -/
def execPowerOn (s : State) : Host.Outcome State Fault Refusal :=
  .next (((State.reset.setMem s.mem).setFreeCount s.freeCount).setPending s.pending)

/-- START (R167). -/
def execStart (bus : Bus) (cut : Option Nat) (s : State) : Host.Outcome State Fault Refusal := .next (doStart false bus cut s)

/-- START_LOAD (R167). -/
def execStartLoad (bus : Bus) (cut : Option Nat) (s : State) : Host.Outcome State Fault Refusal := .next (doStart true bus cut s)

/-- RUN (R168). -/
def execRun (s : State) : Host.Outcome State Fault Refusal := .next (doRun s)

/-- ENTER_RUN (R168). -/
def execEnterRun (s : State) : Host.Outcome State Fault Refusal :=
  .next (if s.engine = .load ∧ s.enc.runPending ∧ s.rqu.inFlight = none then enterRunNow s else s)

/-- PARK (R169). -/
def execPark (s : State) : Host.Outcome State Fault Refusal := .next (doPark s)

/-- ENTER_PARKED (R169). -/
def execEnterParked (s : State) : Host.Outcome State Fault Refusal :=
  .next (if s.engine = .parking ∧ s.enc.parkPending ∧ s.rqu.inFlight = none then enterParkedNow s else s)

/-- WAKE (R170). -/
def execWake (bus : Bus) (s : State) : Host.Outcome State Fault Refusal := .next (doWake bus s)

/-- WAKE_INPUT (R170). -/
def execWakeInput (bus : Bus) (s : State) : Host.Outcome State Fault Refusal :=
  let io := Io.start s bus
  .next (if io.st.tb.cfg.wakeEnable ∧ io.engine = .parked then (wakeIo io).st else io.st)

/-- RESTART (R171). -/
def execRestart (s : State) : Host.Outcome State Fault Refusal := .next (doRestart s)

/-- BASE_WRITE (R165). -/
def execBaseWrite (hi : Bool) (value : Word) (s : State) : Host.Outcome State Fault Refusal := .next (doBaseWrite hi value s)

/-- ATTN_ACK (R162). -/
def execAttnAck (value : Word) (s : State) : Host.Outcome State Fault Refusal := .next (doAck value s)

/-- REGISTER_WRITE (R165, R166). -/
def execRegisterWrite (reg : Reg) (value : Word) (bus : Bus) (s : State) : Host.Outcome State Fault Refusal :=
  .next (registerWrite reg value bus s)

end Sys2Proof.Machine
end

