-- ==== Sys2Proof/Machine/CatalogueRequests.lean ====
section
/-!
DEFINITION. The requests of 04_items_and_portion_counts.md: DEFINE_ITEM, SET_BAND, CLEAR_SHORT, READ_ITEM, YIELD, WASTE and
STOCK_COUNT.
-/

namespace Sys2Proof.Machine

/-! ### Reading an item (R73) -/

/-- The components of an item with their own records. -/
def compItems (tb : Tables) (it : Item) : List (Nat × Nat × Item) := it.comps.map (fun c => (c.1, c.2, tb.item c.1))

/-- The least of a list (0 for the empty list). -/
def leastOf : List Nat → Nat
  | [] => 0
  | [a] => a
  | a :: t => min a (leastOf t)

/-- The makeable count of a composite (R73); 0 for an item without components (log entry 55, the model's choice). -/
def makeable (tb : Tables) (it : Item) : Nat := leastOf ((compItems tb it).map (fun c => c.2.2.avail / c.2.1))

/-- The word of component `k` (12, READ_ITEM), 0 for none. That the count and level of an absent component are 0 as well is log entry 55. -/
def compWord (tb : Tables) (it : Item) (k : Nat) : Word :=
  match (compItems tb it)[k]? with
  | some c => BitVec.ofNat 32 (c.1 + c.2.1 * 65536 + c.2.2.level.code * 16777216)
  | none => 0

/-- The avail of component `k` (12, READ_ITEM); 0 where there is none (log entry 55, the model's choice). -/
def compAvail (tb : Tables) (it : Item) (k : Nat) : Nat :=
  match (compItems tb it)[k]? with
  | some c => c.2.2.avail
  | none => 0

/-- The result of READ_ITEM (R73, 12). Fields that an item's kind does not have hold 0: log entry 55. -/
def itemWords (tb : Tables) (i : Nat) : List Word :=
  let it := tb.item i
  [BitVec.ofNat 32 (i + it.kind.code * 65536 + flagCode it.defined * 16777216),
   bytes4 it.station it.taxClass it.level.code (flagCode it.short + flagCode it.wasShort * 2),
   halves tb.band it.low,
   BitVec.ofNat 32 it.prices.c0, BitVec.ofNat 32 it.prices.c1, BitVec.ofNat 32 it.prices.c2, BitVec.ofNat 32 it.prices.c3,
   halves it.onHand it.reserved, halves it.avail (makeable tb it),
   compWord tb it 0, compWord tb it 1, compWord tb it 2,
   halves (compAvail tb it 0) (compAvail tb it 1), halves (compAvail tb it 2) 0]

/-- Is an item index 1 to 511 (R56)? -/
def itemInRange (i : Nat) : Bool := decide (1 ≤ i ∧ i ≤ Config.itemTop)

/-- READ_ITEM (R73). -/
def readItemReq (r : Req) (ev : Ev) : Ev × Answer :=
  let i := (reqWord r 0).toNat
  if itemInRange i then (ev, { code := .ok, body := itemWords ev.tb i }) else refuse ev .range

/-! ### DEFINE_ITEM (R61, R62) -/

/-- What a DEFINE_ITEM carries (12). -/
structure ItemDef where
  kind : Option ItemKind
  station : Nat
  taxClass : Nat
  low : Nat
  prices : Quad
  comps : List (Nat × Nat)
  deriving DecidableEq, Repr

/-- The components a DEFINE_ITEM names; words with item 0 name none (log entry 25). -/
def defComps (r : Req) : List (Nat × Nat) :=
  ([6, 7, 8].map (fun k => (lo16 (reqWord r k), reqByte r k 2))).filter (fun c => decide (c.1 ≠ 0))

def itemDef (r : Req) : ItemDef :=
  { kind := ItemKind.ofCode (reqByte r 0 2), station := reqByte r 1 0, taxClass := reqByte r 1 1, low := hi16 (reqWord r 1),
    prices := ⟨(reqWord r 2).toNat, (reqWord r 3).toNat, (reqWord r 4).toNat, (reqWord r 5).toNat⟩, comps := defComps r }

/-- The component tests of a composite definition of item `i` (R58, R61). -/
def compsOk (tb : Tables) (i : Nat) (cs : List (Nat × Nat)) : Bool :=
  decide (1 ≤ cs.length ∧ cs.length ≤ 3) && decide ((cs.map (·.1)).Nodup)
    && cs.all (fun c => itemInRange c.1 && (tb.item c.1).isSimple && decide (c.1 ≠ i) && decide (1 ≤ c.2 ∧ c.2 ≤ 9))

/-- The field tests of a definition (R61 step 2). -/
def defFieldsOk (tb : Tables) (i : Nat) (d : ItemDef) : Bool :=
  let pricesOk := decide (d.prices.c0 ≤ 99999 ∧ d.prices.c1 ≤ 99999 ∧ d.prices.c2 ≤ 99999 ∧ d.prices.c3 ≤ 99999)
  decide (d.taxClass ≤ 3) && pricesOk &&
    (match d.kind with
    | some .simple => decide (d.station < Config.stationTotal) && decide (d.comps = [])
    | some .composite => compsOk tb i d.comps
    | none => false)

/-- Does a line record in use name the item (R61)? -/
def lineNames (tb : Tables) (i : Nat) : Bool :=
  tb.lines.any (fun p =>
    match p.2 with
    | some l => l.item == i
    | none => false)

/-- Is the item a component of a defined composite (R61)? -/
def isComponent (tb : Tables) (i : Nat) : Bool :=
  tb.items.any (fun p => p.2.defined && p.2.kind == .composite && p.2.comps.any (fun c => c.1 == i))

/-- The first reason that holds for REFERENCED, numbered as log entry 13 says (R61 step 3). -/
def refReason (tb : Tables) (i : Nat) : Option Nat :=
  let it := tb.item i
  if lineNames tb i then some 1
  else if it.kind = .simple ∧ 0 < it.reserved then some 2
  else if it.kind = .simple ∧ isComponent tb i then some 3
  else none

/-- Is a definition tested for references: does it change the kind or the components of a defined item (R61 step 3)? -/
def changesShape (it : Item) (d : ItemDef) : Bool :=
  it.defined && (decide (d.kind ≠ some it.kind) || (it.kind == .composite && decide (d.comps ≠ it.comps)))

/-- A new SIMPLE item: OUT, SHORT, WAS_SHORT clear (R62). -/
def newSimple (d : ItemDef) : Item :=
  { defined := true, kind := .simple, station := d.station, taxClass := d.taxClass, prices := d.prices, low := d.low, onHand := 0,
    reserved := 0, comps := [], level := .out, short := true, wasShort := false }

/-- A new COMPOSITE item (R62). -/
def newComposite (d : ItemDef) : Item :=
  { defined := true, kind := .composite, station := 0, taxClass := d.taxClass, prices := d.prices, low := d.low, onHand := 0,
    reserved := 0, comps := d.comps, level := .available, short := false, wasShort := false }

/-- The record a definition writes over the one before (R62). -/
def definedItem (it : Item) (d : ItemDef) (kind : ItemKind) : Item :=
  match kind with
  | .simple =>
    if it.isSimple then { it with station := d.station, taxClass := d.taxClass, prices := d.prices, low := d.low } else newSimple d
  | .composite => newComposite d

/-- The portions a definition or a removal throws away (R62). -/
def discarded (it : Item) (kept : Bool) : Nat := if it.isSimple && !kept then it.onHand else 0

/-- Write an item record, its discarded portions counted as wasted (R62). -/
def putItem (i : Nat) (new : Item) (lost : Nat) (ev : Ev) : Ev :=
  (ev.updItem i (fun _ => new)).countItem i (fun c => { c with wasted := satCount c.wasted lost })

/-- The effect of a definition (R62): a redefinition of a SIMPLE item is a stock change. -/
def defineEffect (i : Nat) (d : ItemDef) (kind : ItemKind) (ev : Ev) : Ev :=
  let it := ev.tb.item i
  let ev1 := putItem i (definedItem it d kind) (discarded it (kind == .simple)) ev
  if it.isSimple ∧ kind = .simple then ev1.touch i else ev1

/-- The result of a DEFINE_ITEM: the record at the end of the event (R62). -/
def definedAnswer (i : Nat) (ev : Ev) : Ev × Answer := (ev, { code := .ok, body := itemWords (settleLevels ev).tb i })

/-- REFERENCED, with its reason (R61, log entry 13). -/
def referencedAnswer (n : Nat) : Answer := answer .referenced [.b n]

/-- A DEFINE_ITEM with the remove mark (R61, R62). -/
def removeItem (i : Nat) (ev : Ev) : Ev × Answer :=
  let it := ev.tb.item i
  if !it.defined then refuse ev .range
  else
    match refReason ev.tb i with
    | some n => (ev, referencedAnswer n)
    | none => definedAnswer i (putItem i item0 (discarded it false) ev)

/-- DEFINE_ITEM (R61, R62). -/
def defineItemReq (r : Req) (ev : Ev) : Ev × Answer :=
  let i := lo16 (reqWord r 0)
  let d := itemDef r
  if !itemInRange i then refuse ev .range
  else if bitOf (reqWord r 0) 24 then removeItem i ev
  else
    match d.kind with
    | none => refuse ev .range
    | some kind =>
      if !defFieldsOk ev.tb i d then refuse ev .range
      else
        match (if changesShape (ev.tb.item i) d then refReason ev.tb i else none) with
        | some n => (ev, referencedAnswer n)
        | none => definedAnswer i (defineEffect i d kind ev)

/-! ### SET_BAND and CLEAR_SHORT (R59, R68) -/

/-- SET_BAND (R59). The bands before and after are packed as bytes (log entry 12, the model's choice). -/
def setBandReq (r : Req) (ev : Ev) : Ev × Answer :=
  let b := (reqWord r 0).toNat
  if 3 < b then refuse ev .range else (ev.setBand b, answer .ok [.b ev.tb.band, .b b])

/-- WAS_SHORT is cleared when SHORT is clear (R68). -/
def Item.clearShort (it : Item) : Item := { it with wasShort := it.wasShort && it.short }

/-- CLEAR_SHORT (R68). -/
def clearShortReq (r : Req) (ev : Ev) : Ev × Answer :=
  let i := (reqWord r 0).toNat
  if itemInRange i && (ev.tb.item i).isSimple then
    let ev1 := ev.updItem i Item.clearShort
    let it := ev1.tb.item i
    (ev1, answer .ok [.b (flagCode it.short), .b (flagCode it.wasShort), .b it.level.code, wn it.avail])
  else refuse ev .range

/-! ### Stock requests (R69 to R72) -/

/-- The tests of a stock request after its role test (R69, log entry 16). -/
def stockTest (r : Req) (ev : Ev) : Option ResultCode :=
  let i := (reqWord r 0).toNat
  let lane := ev.tb.lane r.lane
  if !(itemInRange i && (ev.tb.item i).isSimple) then some .range
  else if Config.portionTop < (reqWord r 1).toNat then some .range
  else if lane.role = .station ∧ (ev.tb.item i).station ≠ lane.station then some .role
  else none

/-- The result of a stock request: the figures at its end and the change of on_hand (R69), a signed word in two's complement, negative
where portions left, as for WASTE (log entry 46, the model's choice). -/
def stockAnswer (code : ResultCode) (before after : Item) : Answer :=
  let it := after.settle
  answer code [wn it.onHand, wn it.reserved, wn it.avail, .b it.level.code, .b (flagCode it.short),
    .w (BitVec.ofNat 32 it.onHand - BitVec.ofNat 32 before.onHand)]

/-- A stock request: its tests, then a change of the item and of its counters, as a stock change (R69). -/
def stockReq (r : Req) (ev : Ev) (code : Item → Nat → ResultCode) (f : Item → Nat → Item)
    (count : Item → Nat → ItemCount → ItemCount) : Ev × Answer :=
  match stockTest r ev with
  | some c => refuse ev c
  | none =>
    let i := (reqWord r 0).toNat
    let n := (reqWord r 1).toNat
    let it := ev.tb.item i
    (((ev.updItem i (fun x => f x n)).countItem i (count it n)).touch i, stockAnswer (code it n) it (f it n))

/-- YIELD (R70). -/
def yieldReq (r : Req) (ev : Ev) : Ev × Answer :=
  stockReq r ev (fun it n => if yieldAmount it n < n then .clamped else .ok) Item.yielded
    (fun it n c => { c with yields := satCount c.yields (yieldAmount it n), excess := satCount c.excess (n - yieldAmount it n) })

/-- WASTE (R71). -/
def wasteReq (r : Req) (ev : Ev) : Ev × Answer :=
  stockReq r ev (fun it n => if wasteAmount it n < n then .clamped else .ok) Item.wasted
    (fun it n c => { c with wasted := satCount c.wasted (wasteAmount it n) })

/-- STOCK_COUNT (R72). -/
def stockCountReq (r : Req) (ev : Ev) : Ev × Answer :=
  stockReq r ev (fun it n => if n < it.reserved then .clamped else .ok) Item.counted (fun _ _ c => c)

end Sys2Proof.Machine
end

