-- ==== Sys2Proof/Machine/ChainRequests.lean ====
section
/-!
DEFINITION. The requests of 08_course_chains.md: WRITE_PROGRAM, ARM_CHAIN, START_CHAIN, STOP_CHAIN and READ_CHAIN.
-/

namespace Sys2Proof.Machine

/-! ### WRITE_PROGRAM (R128) -/

/-- The lowest active slot whose path holds an entry (R128). -/
def slotHolding (tb : Tables) (e : Nat) : Option Nat :=
  (List.range Config.slotTotal).find? (fun n => (tb.slot n).isActive && (pathOf tb (tb.slot n).first).1.contains e)

/-- Are the fields of a program entry in range (R128 step 3)? -/
def programOk (r : Req) (k : EntryKind) : Bool :=
  decide (hi16 (reqWord r 1) ≤ 256) && (k == .wait || decide (1 ≤ reqByte r 2 0 ∧ reqByte r 2 0 ≤ 7))

/-- The repeat and the level a WRITE_PROGRAM writes: brought into range where the kind reads them, else as supplied (R128,
log entry 36). -/
def givenRepeat (r : Req) (k : EntryKind) : Nat := if k = .fire then clampTo 1 15 (reqByte r 2 1) else reqByte r 2 1
def givenLevel (r : Req) (k : EntryKind) : Nat := if k = .wait then min (reqByte r 3 0) 7 else reqByte r 3 0

/-- The entry a WRITE_PROGRAM writes (R128). -/
def givenProgram (r : Req) (k : EntryKind) : ProgEntry :=
  { kind := k, next := if hi16 (reqWord r 1) = 256 then none else some (hi16 (reqWord r 1)), group := reqByte r 2 0,
    repeats := givenRepeat r k, reorder := bitOf (reqWord r 2) 16, dur := ⟨givenLevel r k, reqByte r 3 1⟩ }

/-- Was the repeat or the level changed (R128)? -/
def programClamped (r : Req) (k : EntryKind) : Bool :=
  decide (givenRepeat r k ≠ reqByte r 2 1) || decide (givenLevel r k ≠ reqByte r 3 0)

/-- The result of WRITE_PROGRAM (R128). -/
def programFields (tb : Tables) (n : Nat) : List Field :=
  let e := tb.entry n
  [.b e.kind.code, wn (nextCode e.next), .b e.group, wn e.repeats, .b (flagCode e.reorder), .b e.dur.level, wn e.dur.count,
   .b (optCode (slotHolding tb n))]

/-- WRITE_PROGRAM (R128). -/
def writeProgramReq (r : Req) (ev : Ev) : Ev × Answer :=
  let n := reqByte r 0 0
  if reqFlag r 0 1 then
    match EntryKind.ofCode (reqByte r 1 0) with
    | none => refuse ev .range
    | some k =>
      if !programOk r k then refuse ev .range
      else
        match slotHolding ev.tb n with
        | some s => (ev, answer .state [.b s])
        | none =>
          let ev1 := ev.updEntry n (fun _ => givenProgram r k)
          (ev1, answer (if programClamped r k then .clamped else .ok) (programFields ev1.tb n))
  else (ev, answer .ok (programFields ev.tb n))

/-! ### Slots as results (R130, R140) -/

/-- A wait timer as result fields: a byte for armed or not, its level as a byte and its remaining count, 0 in all three when it is
disarmed (R129, R140; log entries 12 and 45, the model's choice). -/
def timerFields : Option Timer → List Field
  | some t => [.b 1, .b t.level, wn t.left]
  | none => [.b 0, .b 0, wn 0]

/-- The fields of a slot record, in the order of R129; the next chain takes a byte (log entry 12, the model's choice). -/
def slotRecord (s : Slot) : List Field :=
  [.b s.state.code, .w (refWord s.check s.tag), .b s.first, .b s.cur, wn s.reps, .b s.mode.code, wn s.passCount, wn s.passesDone,
   wn s.interval, wn s.phase, .b (optCode s.next)] ++ timerFields s.timer

/-- Is a slot in the spacing wait of a FIRE entry (R127, R132)? -/
def inSpacingWait (tb : Tables) (s : Slot) : Bool := s.state == .waiting && (tb.entry s.cur).kind == .fire

/-- The result of ARM_CHAIN: the slot as written and the number of entries on its path (R130). -/
def armFields (tb : Tables) (n : Nat) : List Field := slotRecord (tb.slot n) ++ [wn (pathOf tb (tb.slot n).first).1.length]

/-- The result of READ_CHAIN: the slot; a byte that is 1 in a spacing wait and 0 in an entry wait and where there is no wait; the number
of entries on the path (R140; log entries 12 and 45, the model's choice). -/
def slotFields (tb : Tables) (n : Nat) : List Field :=
  slotRecord (tb.slot n) ++ [.b (flagCode (inSpacingWait tb (tb.slot n))), wn (pathOf tb (tb.slot n).first).1.length]

/-! ### ARM_CHAIN (R130) -/

/-- The next chain a byte names: absent is 0xFF (12). -/
def givenNext (r : Req) : Option Nat := if reqByte r 2 1 = 0xFF then none else some (reqByte r 2 1)

/-- The slot an ARM_CHAIN writes (R130). -/
def armedSlot (r : Req) (m : ChainMode) (s : Slot) : Slot :=
  { s with
    state := .armed, check := lo16 (reqWord r 1), tag := refTag (reqWord r 1), first := reqByte r 0 1, cur := reqByte r 0 1, reps := 0,
    mode := m, passCount := clampTo 1 255 (reqByte r 2 0), passesDone := 0, interval := clampTo 1 15 (reqByte r 0 3), phase := 1,
    next := givenNext r, timer := none }

/-- Was the pass count or the trailing interval changed (R130)? -/
def armClamped (r : Req) : Bool :=
  decide (clampTo 1 255 (reqByte r 2 0) ≠ reqByte r 2 0) || decide (clampTo 1 15 (reqByte r 0 3) ≠ reqByte r 0 3)

/-- Why a path is not well formed: it loops (1) or it holds no FIRE entry (2) (R130, log entry 13). -/
def pathFault (tb : Tables) (e : Nat) : Option Nat :=
  if !(pathOf tb e).2 then some 1 else if lastFire tb e = none then some 2 else none

/-- The tests of R130 from the reference on, and the effect. -/
def armRest (r : Req) (n : Nat) (m : ChainMode) (ev : Ev) : Ev × Answer :=
  let w := reqWord r 1
  if !refCurrent ev.tb w then (ev, nocheckAnswer ev.tb w)
  else if (ev.tb.slot n).isActive then refuse ev .state
  else if !(ev.tb.check (lo16 w)).isLive then refuse ev .state
  else
    match pathFault ev.tb (reqByte r 0 1) with
    | some k => (ev, answer .range [.b k])
    | none =>
      let ev1 := ev.updSlot n (armedSlot r m)
      (ev1, answer (if armClamped r then .clamped else .ok) (armFields ev1.tb n))

/-- ARM_CHAIN (R130). -/
def armChainReq (r : Req) (ev : Ev) : Ev × Answer :=
  let n := reqByte r 0 0
  if Config.slotTotal ≤ n then refuse ev .range
  else
    match ChainMode.ofCode (reqByte r 0 2) with
    | none => refuse ev .range
    | some m => if Config.slotTotal ≤ (givenNext r).getD 0 then refuse ev .range else armRest r n m ev

/-! ### START_CHAIN, STOP_CHAIN, READ_CHAIN (R131, R139, R140) -/

/-- A request that names a slot in its first word (R131, R139, R140). -/
def withSlot (r : Req) (ev : Ev) (k : Nat → Ev × Answer) : Ev × Answer :=
  if (reqWord r 0).toNat < Config.slotTotal then k (reqWord r 0).toNat else refuse ev .range

/-- START_CHAIN (R131). -/
def startChainReq (r : Req) (ev : Ev) : Ev × Answer :=
  withSlot r ev fun n =>
    if startable ev.tb n then
      let ev1 := startSlot n ev
      (ev1, answer .ok [.b (ev1.tb.slot n).state.code])
    else refuse ev .state

/-- STOP_CHAIN (R139). -/
def stopChainReq (r : Req) (ev : Ev) : Ev × Answer :=
  withSlot r ev fun n =>
    let s := ev.tb.slot n
    let ev1 := if s.isActive then endSlot n ev else ev
    (ev1, answer .ok [.b s.state.code, .b (ev1.tb.slot n).state.code, wn s.passesDone, .b s.cur])

/-- READ_CHAIN (R140). -/
def readChainReq (r : Req) (ev : Ev) : Ev × Answer := withSlot r ev fun n => (ev, answer .ok (slotFields ev.tb n))

end Sys2Proof.Machine
end

