-- ==== Sys2Proof/Machine/KitchenRequests.lean ====
section
/-!
DEFINITION. The requests of 05_kitchen_tickets.md: BUMP and REMAKE.
-/

namespace Sys2Proof.Machine

/-! ### BUMP (R88, R89) -/

/-- GONE, with the current tag of a record in use (R75, R88), in bits 15:0 of a word of its own (log entry 12, the model's choice). -/
def goneAnswer (k : Ticket) : Answer := if k.order.isSome then answer .gone [wn k.tag.toNat] else answer .gone []

/-- The number of struck lines of a ticket. -/
def struckCount (o : Order) : Nat := (o.lines.filter (·.struck)).length

/-- A bump that passes its tests (R89). -/
def bumpTaken (i : Nat) (o : Order) (ev : Ev) : Ev × Answer :=
  let (ev1, freed) := freeingTest o.check (bumpTicket i o ev)
  (ev1, answer .ok [.w (refWord o.check o.checkTag), wn (o.lines.length - struckCount o), wn (struckCount o),
    .b (flagCode (o.mark == .overdue)), .b (flagCode freed)])

/-- BUMP (R88, R89). -/
def bumpReq (r : Req) (ev : Ev) : Ev × Answer :=
  let i := lo16 (reqWord r 0)
  let lane := ev.tb.lane r.lane
  if Config.ticketTotal ≤ i then refuse ev .range
  else
    match (ev.tb.ticket i).order with
    | none => (ev, goneAnswer (ev.tb.ticket i))
    | some o =>
      if refTag (reqWord r 0) ≠ (ev.tb.ticket i).tag then (ev, goneAnswer (ev.tb.ticket i))
      else if lane.role = .station ∧ o.station ≠ lane.station then refuse ev .role
      else bumpTaken i o ev

/-! ### REMAKE (R91, R92) -/

/-- The remake line (R92). -/
def remakeLine (tb : Tables) (ci : Nat) (l : Line) : Line :=
  { check := ci, item := l.item, qty := l.qty, price := 0, taxClass := (tb.item l.item).taxClass, discount := 0, net := 0,
    modifier := l.modifier, group := 0, assign := .pool, fired := false, voided := false, isRemake := true, isCopy := false,
    isTemplate := false, made1 := false, made2 := false, made3 := false }

/-- May a lane remake a line by its station (R91 step 3)? -/
def mayRemake (tb : Tables) (lane : Lane) (l : Line) : Bool :=
  lane.role != .station || (stationsOfItem tb l.item).contains lane.station

/-- Count remake tickets at their stations (R92 step 6). -/
def countRemakes (ev : Ev) (plan : List (Nat × List TicketLine)) : Ev :=
  plan.foldl (fun ev p => ev.countStation p.1 (fun c => { c with remakes := satCount c.remakes 1 })) ev

/-- Steps 1 to 4 of R92: the line is added and reserves, and a live check is recomputed. -/
def remakeAdd (ci id : Nat) (l : Line) (ev : Ev) : Ev :=
  let ev1 := appendLine ci id l ev
  let ev2 := reserveAll ev1 (demandOf ev1.tb l.item l.qty)
  if (ev2.tb.check ci).isLive then recompute ci ev2 else ev2

/-- The references of tickets. -/
def ticketRefs (tb : Tables) (is : List Nat) : List Field := is.map (fun i => .w (refWord i (tb.ticket i).tag))

/-- A remake that passes its tests but the last, which its fire makes (R91 step 9, R92; log entry 21). -/
def remakeTaken (ci id : Nat) (l : Line) (ev : Ev) : Ev × Answer :=
  let ev1 := remakeAdd ci id l ev
  match buildFire ci [id] true none ev1 with
  | none => refuse ev .full
  | some (ev2, built) =>
    let ev3 := countRemakes ev2 (planFire ev1.tb [id])
    let (ev4, closed) := closeTest ci ev3
    (ev4, answer .ok ([wn id, wn built.length] ++ ticketRefs ev3.tb built ++ settledFields (ev3.tb.check ci) closed))

/-- REMAKE (R91, R92). -/
def remakeReq (r : Req) (ev : Ev) : Ev × Answer :=
  withCheck r ev fun ci =>
    match lineOn ev.tb ci (reqWord r 1).toNat with
    | none => refuse ev .range
    | some l =>
      let c := ev.tb.check ci
      if !mayRemake ev.tb (ev.tb.lane r.lane) l then refuse ev .role
      else if !(c.isLive || c.state == .paid) || ev.inLoad then refuse ev .state
      else if !l.fired || l.voided then refuse ev .state
      else
        match roomFor ev.tb ci with
        | none => refuse ev .full
        | some id =>
          unlessRefused ev (intakeAndStock ev.tb l.item l.qty c.openedAt) (remakeTaken ci id (remakeLine ev.tb ci l) ev)

end Sys2Proof.Machine
end

