-- ==== Sys2Proof/Machine/PayRequests.lean ====
section
/-!
DEFINITION. The requests of 03_payers_tenders_and_settlement.md: SET_PAYERS, SET_SPLIT, TENDER and READ_SPLIT.
-/

namespace Sys2Proof.Machine

/-! ### SET_PAYERS (R41, R42) -/

/-- The payer records of a new count: those above it dropped, new ones empty (R42). -/
def resizePayers (ps : List Payer) (n : Nat) : List Payer := (List.range n).map (fun i => ps.getD i emptyPayer)

/-- The lowest payer above `n` that has tendered (R41 step 4). -/
def frozenAbove (ps : List Payer) (n : Nat) : Option Nat :=
  (((ps.zipIdx 1).drop n).find? (fun p => decide (p.1.tenders ≠ 0))).map (·.2)

/-- Does dropping payers above `n` rewrite a line's assignment (R42)? -/
def rewritesLine (tb : Tables) (n id : Nat) : Bool :=
  match tb.line id with
  | some l => l.assign.reduce (fun p => decide (p ≤ n)) != l.assign
  | none => false

/-- Rewrite one line's assignment to payers 1 to `n` (R42). -/
def rewriteLine (n : Nat) (ev : Ev) (id : Nat) : Ev :=
  ev.updLine id (fun l => { l with assign := l.assign.reduce (fun p => decide (p ≤ n)) })

/-- The change of a SET_PAYERS, before its recomputation (R42). -/
def setPayersEffect (ci n : Nat) (ev : Ev) : Ev :=
  let c := ev.tb.check ci
  let ev1 := if n < c.payers.length then c.lines.foldl (rewriteLine n) ev else ev
  ev1.updCheck ci (fun c => { c with payers := resizePayers c.payers n })

/-- How many lines a SET_PAYERS rewrites (R42). -/
def rewrittenLines (tb : Tables) (ci n : Nat) : Nat :=
  let c := tb.check ci
  if n < c.payers.length then (c.lines.filter (rewritesLine tb n)).length else 0

/-- SET_PAYERS (R41, R42). -/
def setPayersReq (r : Req) (ev : Ev) : Ev × Answer :=
  withCheck r ev fun ci => withHeldLive r ci ev fun ev =>
    let n := (reqWord r 1).toNat
    if n < 1 ∨ 8 < n then refuse ev .range
    else
      match frozenAbove (ev.tb.check ci).payers n with
      | some p => (ev, answer .frozen [.b p])
      | none =>
        let count := rewrittenLines ev.tb ci n
        let ev1 := recompute ci (setPayersEffect ci n ev)
        let c1 := ev1.tb.check ci
        let (ev2, closed) := closeTest ci ev1
        (ev2, answer .ok [wn c1.payers.length, wn c1.total, wn c1.refund, wn count, .b (flagCode closed)])

/-! ### SET_SPLIT (R43) -/

/-- SET_SPLIT (R43). -/
def setSplitReq (r : Req) (ev : Ev) : Ev × Answer :=
  withCheck r ev fun ci => withHeldLive r ci ev fun ev =>
    match SplitMode.ofCode (reqWord r 1).toNat with
    | none => refuse ev .range
    | some m =>
      let ev1 := recompute ci (ev.updCheck ci (fun c => { c with split := m }))
      let c1 := ev1.tb.check ci
      let (ev2, closed) := closeTest ci ev1
      (ev2, answer .ok ([.b m.code] ++ c1.payers.map (fun p => wn p.share) ++ [wn c1.refund, .b (flagCode closed)]))

/-! ### TENDER (R44 to R48) -/

/-- The tip a tender takes (R46). -/
def tipTaken (share cap tip : Nat) : Nat := min tip (tipCapAmount share cap)

/-- A payer with a tender added (R45 steps 2 and 3). -/
def Payer.addTender (p : Payer) (amount tip : Nat) : Payer :=
  { p with tendered := p.tendered + amount, tenders := min (p.tenders + 1) 255, tips := min (p.tips + tip) Config.amountTop }

/-- A payer that stage 7 left unpaid after its tender is PART (R45 step 5). -/
def Payer.markPart (p : Payer) : Payer := if isPaid p then p else { p with status := .part }

/-- Change payer `p` of a check. -/
def updPayer (ci p : Nat) (f : Payer → Payer) (ev : Ev) : Ev :=
  ev.updCheck ci (fun c => { c with payers := c.payers.modify (p - 1) f })

/-- Steps 1 to 5 of a tender (R45). -/
def tenderEffect (ci p amount tip : Nat) (ev : Ev) : Ev :=
  let ev1 := ev.updCheck ci (fun c => { c with state := .settling })
  updPayer ci p Payer.markPart (recompute ci (updPayer ci p (fun x => x.addTender amount tip) ev1))

/-- The counters of a tender (R45 step 7). -/
def countTender (amount tip : Nat) (x : LaneCount) : LaneCount :=
  { x with tenders := satCount x.tenders 1, tenderTotal := satAmount x.tenderTotal amount, tipTotal := satAmount x.tipTotal tip }

/-- Are the amount and the tip of a tender in range (R44 step 5)? -/
def tenderAmountsOk (x : Payer) (amount tip : Nat) : Bool :=
  decide (amount ≤ Config.amountTop ∧ tip ≤ Config.amountTop ∧ x.tendered + amount ≤ Config.amountTop)

/-- A tender that passes its tests, with its answer (R45, R46; log entry 22). -/
def tenderTaken (r : Req) (ci p amount tip : Nat) (x : Payer) (ev : Ev) : Ev × Answer :=
  let took := tipTaken x.share ev.tb.cfg.tipCap tip
  let ev1 := tenderEffect ci p amount took ev
  let c1 := ev1.tb.check ci
  let y := c1.payers.getD (p - 1) emptyPayer
  let (ev2, closed) := closeTest ci ev1
  (ev2.countLane r.lane (countTender amount took),
    answer (if took < tip then .clamped else .ok)
      [.b y.status.code, wn y.share, wn y.tendered, wn y.tenders, wn y.change, wn took,
       .b (if closed then CheckState.paid.code else c1.state.code), wn c1.refund, wn c1.total, .b (flagCode closed)])

/-- TENDER (R44, R45). -/
def tenderReq (r : Req) (ev : Ev) : Ev × Answer :=
  withCheck r ev fun ci => withHeldLive r ci ev fun ev =>
    let p := (reqWord r 1).toNat
    let amount := (reqWord r 2).toNat
    let tip := (reqWord r 3).toNat
    let c := ev.tb.check ci
    if p < 1 ∨ c.payers.length < p then refuse ev .range
    else
      let x := c.payers.getD (p - 1) emptyPayer
      if isPaid x then (ev, answer .frozen [wn x.share, wn x.tendered, wn x.change])
      else if !tenderAmountsOk x amount tip then refuse ev .range
      else if amount = 0 ∧ x.share ≠ 0 then refuse ev .range
      else tenderTaken r ci p amount tip x ev

/-! ### READ_SPLIT (R53) -/

/-- One payer entry (12, READ_SPLIT). -/
def payerWords (p : Nat) (x : Payer) : List Word :=
  [bytes4 p x.status.code x.tenders 0, BitVec.ofNat 32 x.share, BitVec.ofNat 32 x.tendered, BitVec.ofNat 32 x.tips,
   BitVec.ofNat 32 x.change]

/-- The result of READ_SPLIT: the header and up to three entries (R53, 12). It carries no refund due: R50 says that READ_SPLIT shows the
refund of a PAID check, and neither R53 nor the layout of 12 has a field for it (log entry 48, the model's choice). -/
def splitWords (c : Check) (first : Nat) : List Word :=
  bytes4 c.state.code c.split.code c.payers.length first ::
    (((c.payers.zipIdx 1).drop (first - 1)).take 3).flatMap (fun x => payerWords x.2 x.1)

/-- READ_SPLIT (R53). -/
def readSplitReq (r : Req) (ev : Ev) : Ev × Answer :=
  withCheck r ev fun ci =>
    let first := (reqWord r 1).toNat
    if first < 1 ∨ 8 < first then refuse ev .range
    else (ev, { code := .ok, body := splitWords (ev.tb.check ci) first })

end Sys2Proof.Machine
end

