-- ==== Sys2Proof/Machine/Requests.lean ====
section
/-!
DEFINITION. The meanings of the commands that complete a request: BADREQ and the request kinds of 12_record_layouts.md.
-/

namespace Sys2Proof.Machine

/-- BADREQ (R152). -/
def execBadreq (bus : Bus) (s : State) : Host.Outcome State Fault Refusal :=
  .next (completeStepFor isBadKind badreqReq bus s)

/-- OPEN_CHECK, kind 1 (R10). -/
def execOpenCheck (bus : Bus) (s : State) : Host.Outcome State Fault Refusal := .next (completeKind 1 openCheckReq bus s)

/-- ADD_LINE, kind 2 (R11, R12). -/
def execAddLine (bus : Bus) (s : State) : Host.Outcome State Fault Refusal := .next (completeKind 2 addLineReq bus s)

/-- SET_LINE, kind 3 (R13). -/
def execSetLine (bus : Bus) (s : State) : Host.Outcome State Fault Refusal := .next (completeKind 3 setLineReq bus s)

/-- VOID_LINE, kind 4 (R14). -/
def execVoidLine (bus : Bus) (s : State) : Host.Outcome State Fault Refusal := .next (completeKind 4 voidLineReq bus s)

/-- SEND, kind 5 (R15). -/
def execSend (bus : Bus) (s : State) : Host.Outcome State Fault Refusal := .next (completeKind 5 sendReq bus s)

/-- VOID_CHECK, kind 6 (R16). -/
def execVoidCheck (bus : Bus) (s : State) : Host.Outcome State Fault Refusal := .next (completeKind 6 voidCheckReq bus s)

/-- READ_CHECK, kind 7 (R17). -/
def execReadCheck (bus : Bus) (s : State) : Host.Outcome State Fault Refusal := .next (completeKind 7 readCheckReq bus s)

/-- TAKE, kind 8 (R19). -/
def execTakeHold (bus : Bus) (s : State) : Host.Outcome State Fault Refusal := .next (completeKind 8 takeReq bus s)

/-- RELEASE, kind 9 (R19). -/
def execReleaseHold (bus : Bus) (s : State) : Host.Outcome State Fault Refusal := .next (completeKind 9 releaseReq bus s)

/-- TRANSFER, kind 10 (R20). -/
def execTransfer (bus : Bus) (s : State) : Host.Outcome State Fault Refusal := .next (completeKind 10 transferReq bus s)

/-- BREAK, kind 11 (R21). -/
def execBreakHold (bus : Bus) (s : State) : Host.Outcome State Fault Refusal := .next (completeKind 11 breakReq bus s)

/-- SET_PAYERS, kind 12 (R41, R42). -/
def execSetPayers (bus : Bus) (s : State) : Host.Outcome State Fault Refusal := .next (completeKind 12 setPayersReq bus s)

/-- SET_SPLIT, kind 13 (R43). -/
def execSetSplit (bus : Bus) (s : State) : Host.Outcome State Fault Refusal := .next (completeKind 13 setSplitReq bus s)

/-- TENDER, kind 14 (R44 to R48). -/
def execTender (bus : Bus) (s : State) : Host.Outcome State Fault Refusal := .next (completeKind 14 tenderReq bus s)

/-- READ_SPLIT, kind 15 (R53). -/
def execReadSplit (bus : Bus) (s : State) : Host.Outcome State Fault Refusal := .next (completeKind 15 readSplitReq bus s)

/-- DEFINE_ITEM, kind 16 (R61, R62). -/
def execDefineItem (bus : Bus) (s : State) : Host.Outcome State Fault Refusal := .next (completeKind 16 defineItemReq bus s)

/-- SET_BAND, kind 17 (R59). -/
def execSetBand (bus : Bus) (s : State) : Host.Outcome State Fault Refusal := .next (completeKind 17 setBandReq bus s)

/-- CLEAR_SHORT, kind 18 (R68). -/
def execClearShort (bus : Bus) (s : State) : Host.Outcome State Fault Refusal := .next (completeKind 18 clearShortReq bus s)

/-- READ_ITEM, kind 19 (R73). -/
def execReadItem (bus : Bus) (s : State) : Host.Outcome State Fault Refusal := .next (completeKind 19 readItemReq bus s)

/-- YIELD, kind 20 (R70). -/
def execYieldItem (bus : Bus) (s : State) : Host.Outcome State Fault Refusal := .next (completeKind 20 yieldReq bus s)

/-- WASTE, kind 21 (R71). -/
def execWaste (bus : Bus) (s : State) : Host.Outcome State Fault Refusal := .next (completeKind 21 wasteReq bus s)

/-- STOCK_COUNT, kind 22 (R72). -/
def execStockCount (bus : Bus) (s : State) : Host.Outcome State Fault Refusal := .next (completeKind 22 stockCountReq bus s)

/-- BUMP, kind 23 (R88, R89). -/
def execBump (bus : Bus) (s : State) : Host.Outcome State Fault Refusal := .next (completeKind 23 bumpReq bus s)

/-- REMAKE, kind 24 (R91, R92). -/
def execRemake (bus : Bus) (s : State) : Host.Outcome State Fault Refusal := .next (completeKind 24 remakeReq bus s)

/-- STEP_INTAKE, kind 25 (R96). -/
def execStepIntake (bus : Bus) (s : State) : Host.Outcome State Fault Refusal := .next (completeKind 25 stepIntakeReq bus s)

/-- SET_STATION, kind 26 (R109, R110). -/
def execSetStation (bus : Bus) (s : State) : Host.Outcome State Fault Refusal := .next (completeKind 26 setStationReq bus s)

/-- SET_ACTION, kind 27 (R124, R125). -/
def execSetAction (bus : Bus) (s : State) : Host.Outcome State Fault Refusal := .next (completeKind 27 setActionReq bus s)

/-- WRITE_PROGRAM, kind 28 (R128). -/
def execWriteProgram (bus : Bus) (s : State) : Host.Outcome State Fault Refusal := .next (completeKind 28 writeProgramReq bus s)

/-- ARM_CHAIN, kind 29 (R130). -/
def execArmChain (bus : Bus) (s : State) : Host.Outcome State Fault Refusal := .next (completeKind 29 armChainReq bus s)

/-- START_CHAIN, kind 30 (R131). -/
def execStartChain (bus : Bus) (s : State) : Host.Outcome State Fault Refusal := .next (completeKind 30 startChainReq bus s)

/-- STOP_CHAIN, kind 31 (R139). -/
def execStopChain (bus : Bus) (s : State) : Host.Outcome State Fault Refusal := .next (completeKind 31 stopChainReq bus s)

/-- READ_CHAIN, kind 32 (R140). -/
def execReadChain (bus : Bus) (s : State) : Host.Outcome State Fault Refusal := .next (completeKind 32 readChainReq bus s)

/-- SET_PROFILE, kind 33 (R154, R155). -/
def execSetProfile (bus : Bus) (s : State) : Host.Outcome State Fault Refusal := .next (completeKind 33 setProfileReq bus s)

/-- VIEW, kind 34 (R164). -/
def execView (bus : Bus) (s : State) : Host.Outcome State Fault Refusal := .next (completeKind 34 viewReq bus s)

end Sys2Proof.Machine
end

