-- ==== Sys2Proof/Machine/SweepOps.lean ====
section
/-!
DEFINITION. The lane sweep (09, R147, R150, R151): one look at the slot the sweep stands at, with at most one take.
-/

namespace Sys2Proof.Machine

/-- May the sweep look at a lane now (R151, R168, R169)? It waits for the request in flight (R150 step 3). -/
def maySweep (s : State) : Bool :=
  s.rqu.inFlight.isNone &&
    (match s.engine with
    | .run => true
    | .parking => !s.enc.parkPending
    | .load => !s.enc.runPending
    | _ => false)

/-- The request a slot's words spell (R147, 12). -/
def requestOf (lane slot : Nat) (head body : List Word) (now : Word) : Req :=
  { lane := lane, slot := slot, kind := lo16 (head.getD 0 0), hubTag := head.getD 1 0, body := body, takenAt := now }

/-- The take is complete: the pointer advances, the request is handed over, the taken counter rises (R147). -/
def handOver (r : Req) (s : State) : State :=
  let ev := (s.event.updLane r.lane (fun l => { l with pointer := (l.pointer + 1) % Config.ringSlots })).countLane r.lane
    (fun c => { c with taken := satCount c.taken 1 })
  ((s.setTb ev.tb).setRqu { s.rqu with inFlight := some r }).setSweep { s.sweep with taken := s.sweep.taken + 1 }

/-- The reads of a posted slot: its kind and hub tag, then its body (R147 step 1). -/
def readPosted (io : Io) (off : Nat) : Io × Option (List Word × List Word) :=
  match busReads io (off + 0x04) 2 with
  | (io1, none) => (io1, none)
  | (io1, some head) =>
    match busReads io1 (off + 0x10) 12 with
    | (io2, none) => (io2, none)
    | (io2, some body) => (io2, some (head, body))

/-- Take the posted request at a lane's pointer (R147). -/
def takePosted (lane slot : Nat) (io : Io) : Io :=
  match readPosted io (slotOff lane slot) with
  | (io1, none) => faultLane none io1 lane slot
  | (io1, some (head, body)) =>
    if io1.bad then faultLane none (busWrite io1 (slotOff lane slot) 2) lane slot
    else
      let io2 := busWrite io1 (slotOff lane slot) 2
      io2.setSt (handOver (requestOf lane slot head body io2.st.tb.time) io2.st)

/-- Look at the slot at a lane's pointer (R146, R150 step 2). -/
def lookAt (lane : Nat) (io : Io) : Io :=
  let slot := (io.st.tb.lane lane).pointer
  match busReads io (slotOff lane slot) 1 with
  | (io1, some [w]) =>
    if w = 1 then takePosted lane slot io1
    else if w = 0 ∨ w = 2 ∨ w = 3 then io1.setSt (endVisit io1.st)
    else faultLane none io1 lane slot
  | (io1, _) => faultLane none io1 lane slot

/-- The lane the sweep would visit now. -/
def sweepLane (s : State) : Option Nat := if maySweep s then (currentVisit s).map (·.1) else none

/-- One look of the sweep (R150). -/
def sweepIo (io : Io) : Io :=
  match sweepLane io.st with
  | none => io
  | some l => if skipsLane io.st l then io.setSt (endVisit io.st) else lookAt l io

/-- SWEEP_VISIT (R150). -/
def execSweepVisit (bus : Bus) (s : State) : Host.Outcome State Fault Refusal := .next (sweepIo (Io.start s bus)).st

end Sys2Proof.Machine
end

