-- ==== Sys2Proof/Machine/Dispatch.lean ====
section
/-! DEFINITION. The dispatch of commands to their meanings, one arm for each row of spec/opcode_table.json. -/

namespace Sys2Proof.Machine

def exec (i : Instr) (s : State) : Host.Outcome State Fault Refusal :=
  match i with
  | .powerOn => Sys2Proof.Machine.execPowerOn s
  | .start bus cut => Sys2Proof.Machine.execStart bus cut s
  | .startLoad bus cut => Sys2Proof.Machine.execStartLoad bus cut s
  | .run => Sys2Proof.Machine.execRun s
  | .enterRun => Sys2Proof.Machine.execEnterRun s
  | .park => Sys2Proof.Machine.execPark s
  | .enterParked => Sys2Proof.Machine.execEnterParked s
  | .wake bus => Sys2Proof.Machine.execWake bus s
  | .wakeInput bus => Sys2Proof.Machine.execWakeInput bus s
  | .restart => Sys2Proof.Machine.execRestart s
  | .baseWrite hi value => Sys2Proof.Machine.execBaseWrite hi value s
  | .attnAck value => Sys2Proof.Machine.execAttnAck value s
  | .registerWrite reg value bus => Sys2Proof.Machine.execRegisterWrite reg value bus s
  | .sweepVisit bus => Sys2Proof.Machine.execSweepVisit bus s
  | .badreq bus => Sys2Proof.Machine.execBadreq bus s
  | .openCheck bus => Sys2Proof.Machine.execOpenCheck bus s
  | .addLine bus => Sys2Proof.Machine.execAddLine bus s
  | .setLine bus => Sys2Proof.Machine.execSetLine bus s
  | .voidLine bus => Sys2Proof.Machine.execVoidLine bus s
  | .send bus => Sys2Proof.Machine.execSend bus s
  | .voidCheck bus => Sys2Proof.Machine.execVoidCheck bus s
  | .readCheck bus => Sys2Proof.Machine.execReadCheck bus s
  | .takeHold bus => Sys2Proof.Machine.execTakeHold bus s
  | .releaseHold bus => Sys2Proof.Machine.execReleaseHold bus s
  | .transfer bus => Sys2Proof.Machine.execTransfer bus s
  | .breakHold bus => Sys2Proof.Machine.execBreakHold bus s
  | .setPayers bus => Sys2Proof.Machine.execSetPayers bus s
  | .setSplit bus => Sys2Proof.Machine.execSetSplit bus s
  | .tender bus => Sys2Proof.Machine.execTender bus s
  | .readSplit bus => Sys2Proof.Machine.execReadSplit bus s
  | .defineItem bus => Sys2Proof.Machine.execDefineItem bus s
  | .setBand bus => Sys2Proof.Machine.execSetBand bus s
  | .clearShort bus => Sys2Proof.Machine.execClearShort bus s
  | .readItem bus => Sys2Proof.Machine.execReadItem bus s
  | .yieldItem bus => Sys2Proof.Machine.execYieldItem bus s
  | .waste bus => Sys2Proof.Machine.execWaste bus s
  | .stockCount bus => Sys2Proof.Machine.execStockCount bus s
  | .bump bus => Sys2Proof.Machine.execBump bus s
  | .remake bus => Sys2Proof.Machine.execRemake bus s
  | .stepIntake bus => Sys2Proof.Machine.execStepIntake bus s
  | .setStation bus => Sys2Proof.Machine.execSetStation bus s
  | .setAction bus => Sys2Proof.Machine.execSetAction bus s
  | .writeProgram bus => Sys2Proof.Machine.execWriteProgram bus s
  | .armChain bus => Sys2Proof.Machine.execArmChain bus s
  | .startChain bus => Sys2Proof.Machine.execStartChain bus s
  | .stopChain bus => Sys2Proof.Machine.execStopChain bus s
  | .readChain bus => Sys2Proof.Machine.execReadChain bus s
  | .setProfile bus => Sys2Proof.Machine.execSetProfile bus s
  | .view bus => Sys2Proof.Machine.execView bus s
  | .baseTick bus => Sys2Proof.Machine.execBaseTick bus s
  | .timedAction entry bus => Sys2Proof.Machine.execTimedAction entry bus s
  | .owedRetry bus => Sys2Proof.Machine.execOwedRetry bus s
  | .agingTick station bus => Sys2Proof.Machine.execAgingTick station bus s
  | .gateHoldExpiry station bus => Sys2Proof.Machine.execGateHoldExpiry station bus s
  | .attentionDelayExpiry => Sys2Proof.Machine.execAttentionDelayExpiry s
  | .chainWaitExpiry slot bus => Sys2Proof.Machine.execChainWaitExpiry slot bus s
  | .firingSlotRun slot bus => Sys2Proof.Machine.execFiringSlotRun slot bus s
  | .chainStallRetry slot bus => Sys2Proof.Machine.execChainStallRetry slot bus s

end Sys2Proof.Machine
end

