-- ==== Sys2Proof/Machine/Idle.lean ====
section
/-!
DEFINITION. What the engine does while no command waits (log entry 3): it goes on with a START, enters RUN or PARKED where that
waits for nothing more, takes the next due event of the latest base tick, or lets a millisecond pass.
-/

namespace Sys2Proof.Machine

/-- A bus on which nothing happens: no store of the hub, no failing access. -/
def quietBus : Bus := { hub := [], errs := [] }

/-- A millisecond of the engine's clock (R116). -/
def millisecond (s : State) : State :=
  if ticksIn s.engine then
    let c := s.tmb.counters.headD 0 + 1
    if s.tmb.base ≤ c then (baseTickIo (Io.start s quietBus)).st
    else s.setTmb { s.tmb with counters := c :: s.tmb.counters.tail }
  else s

/-- Does the entry to RUN or to PARKED wait for nothing more (R168, R169)? -/
def entryReady (s : State) : Bool :=
  s.rqu.inFlight.isNone && ((s.engine == .load && s.enc.runPending) || (s.engine == .parking && s.enc.parkPending))

/-- A step on an empty queue. -/
def idle (s : State) : State :=
  if s.enc.startOp.isSome then runStart 1 s
  else if entryReady s then (if s.engine = .load then enterRunNow s else enterParkedNow s)
  else
    match nextDue s with
    | some d => (runDue d (Io.start s quietBus)).st
    | none => millisecond s

end Sys2Proof.Machine
end

