-- ==== Sys2Proof/Safety.lean ====
section
/-!
DEFINITION. The terms the statements use: a request ready to complete on a quiet bus, what an event and an answer leave in the state
and in exchange memory, and the invariants of the engine.
-/

namespace Sys2Proof.Machine

/-! ### Bytes of the exchange window -/

/-- BASE is a multiple of 128 KiB (R165, R167 step 1). -/
def State.aligned (s : State) : Bool := s.base.extractLsb' 0 17 == 0

/-- Address `a` is one of the `len` bytes from an offset of the exchange window on. -/
abbrev State.covers (s : State) (off len a : Nat) : Prop := s.at off ≤ a ∧ a < s.at off + len

/-- The word of exchange memory at an offset. -/
def State.wordAt (s : State) (off : Nat) : Word := readWord s.mem (s.at off)

/-- The bytes an answer writes (R149): slot state; hub tag and result code; result body; the lane's done count. -/
def answerBytes (s : State) (lane slot a : Nat) : Prop :=
  s.covers (slotOff lane slot) 4 a ∨ s.covers (slotOff lane slot + 0x08) 8 a ∨ s.covers (slotOff lane slot + 0x40) 64 a
    ∨ s.covers (doneCountOff lane) 4 a

/-- The offset of the notice record of a sequence number (R157). -/
def noticeOff (seq : Word) : Nat := Config.noticesAt + seq.toNat % 256 * 32

/-- The bytes `n` notices write (R157): their records, and the notices-written count. -/
def noticeBytes (s : State) (n a : Nat) : Prop :=
  (0 < n ∧ s.covers Config.statusAt 4 a) ∨ ∃ k, k < n ∧ s.covers (noticeOff (s.ntw.written + BitVec.ofNat 32 k)) 32 a

/-- The offset of a station's rail window (R143). -/
def windowOff (n : Nat) : Nat := Config.windowsAt + n * 1024

/-- The bytes the rewrites of some windows write (R111, R112). -/
def windowBytes (s : State) (ws : List Nat) (a : Nat) : Prop := ∃ n, n ∈ ws ∧ s.covers (windowOff n) 992 a

/-! ### An event's exchange-memory side -/

/-- What one notice does to the notice writer and the attention state (R157 steps 2 and 4). -/
def afterNotice (n : Ntw) (x : Notice) : Ntw := attentionItem { n with written := n.written + 1 } (isUrgent n x.kind)

/-- What one notice does to the engine counters (R157 step 3). -/
def countNotice (c : EngineCount) (_ : Notice) : EngineCount := { c with notices := satCount c.notices 1 }

/-- An event that has left the tables at `X` and raised the notices `ns` has written them and rewritten the windows `ws`, on a quiet bus:
`s` is the state before, `m` the state after (R112, R157). A rewrite leaves the change counter at the value after the next odd one, also
where a failed rewrite has left it odd: the model's choice, log entry 18. -/
structure CommittedTo (s m : State) (X : Tables) (ns : List Notice) (ws : List Nat) : Prop where
  tables : m.tb = (X.setStations m.tb.stations).setCEngine m.tb.cEngine
  stations : ∀ n, m.tb.station n =
    if n ∈ ws then { X.station n with winCount := oddAfter (X.station n).winCount + 1 } else X.station n
  engineCounts : m.tb.cEngine = ns.foldl countNotice X.cEngine
  attention : m.ntw = ns.foldl afterNotice s.ntw
  control : m.enc = s.enc ∧ m.base = s.base ∧ m.rqu = s.rqu ∧ m.sweep = s.sweep ∧ m.tmb = s.tmb ∧ m.due = s.due ∧
    m.doneCounts = s.doneCounts ∧ m.freeCount = s.freeCount ∧ m.pending = s.pending
  noticeRecords : ns.length ≤ 256 → ∀ k x, ns[k]? = some x → ∀ j, j < 8 →
    m.wordAt (noticeOff (s.ntw.written + BitVec.ofNat 32 k) + 4 * j)
      = (noticeWords (s.ntw.written + BitVec.ofNat 32 k) x).getD j 0
  noticeCount : ns ≠ [] → m.wordAt Config.statusAt = m.ntw.written
  windows : ∀ n, n ∈ ws →
    m.wordAt (windowOff n) = (m.tb.station n).winCount ∧
    ∀ j, j < 247 → m.wordAt (windowOff n + 4 + 4 * j) = (windowWords n (X.station n) (windowEntries X n)).getD j 0
  memory : ∀ a, ¬ noticeBytes s ns.length a → ¬ windowBytes s ws a → readByte m.mem a = readByte s.mem a

/-- `CommittedTo`, where the windows rewritten are those that show something else after the event than before it (R112): so wherever the
event does not change a field that a window shows and change it back. -/
abbrev Committed (s m : State) (X : Tables) (ns : List Notice) : Prop := CommittedTo s m X ns (changedWindows s.tb X)

/-! ### An answer -/

/-- The answer `a` to request `r` has been written on a quiet bus: `m` is the state after the request's event, `t` the state after
its completion (R149). -/
structure Answered (m t : State) (r : Req) (a : Answer) : Prop where
  ended : t.rqu = { m.rqu with inFlight := none }
  slotState : t.wordAt (slotOff r.lane r.slot) = 3
  hubTag : t.wordAt (slotOff r.lane r.slot + 0x08) = r.hubTag
  code : t.wordAt (slotOff r.lane r.slot + 0x0C) = BitVec.ofNat 32 a.code.code
  body : ∀ k, k < 16 → t.wordAt (slotOff r.lane r.slot + 0x40 + 4 * k) = a.body.getD k 0
  doneCount : t.doneCounts = tupd 0 m.doneCounts r.lane (· + 1)
  doneCountWord : t.wordAt (doneCountOff r.lane) = m.doneCount r.lane + 1
  attention : t.ntw = if m.engine = .load then m.ntw else attentionItem m.ntw false
  tables : t.tb =
    if m.engine ≠ .load ∧ isRefusal a.code = true then
      m.tb.setCLanes (tupd laneCount0 m.tb.cLanes r.lane (fun x => { x with refused := satCount x.refused 1 }))
    else m.tb
  sweep : t.sweep = (settleVisit m).sweep
  control : t.enc = m.enc ∧ t.base = m.base ∧ t.tmb = m.tmb ∧ t.due = m.due ∧ t.freeCount = m.freeCount ∧ t.pending = m.pending
  memory : ∀ b, ¬ answerBytes m r.lane r.slot b → readByte t.mem b = readByte m.mem b

/-- Request `r` of kind `k` is in flight in a state that completes requests, on a bus that fails no access of the completion. -/
abbrev Ready (k : Nat) (bus : Bus) (s : State) (r : Req) : Prop :=
  s.rqu.inFlight = some r ∧ r.kind = k ∧ completesIn s.engine = true ∧ bus.errs = [] ∧ s.aligned = true ∧ r.lane < 64 ∧ r.slot < 8

/-- `Ready`, and the lane's role may send the kind (R152). -/
abbrev Allowed (k : Nat) (bus : Bus) (s : State) (r : Req) : Prop := Ready k bus s r ∧ roleAllows (s.tb.lane r.lane) k = true

/-! ### Invariants -/

/-- R63: the bounds of an item; a COMPOSITE and an undefined item hold 0 in both counts. -/
def Item.bounded (it : Item) : Prop :=
  it.reserved ≤ it.onHand ∧ it.onHand ≤ Config.portionTop ∧
  (it.kind = .composite ∨ it.defined = false → it.onHand = 0 ∧ it.reserved = 0)

/-- R63 of every item. -/
def PortionBounds (tb : Tables) : Prop := ∀ i, (tb.item i).bounded

/-- The tables and memory in canonical form (log entry 30). -/
def Canonical (s : State) : Prop :=
  memWf s.mem = true ∧ twf lane0 s.tb.lanes = true ∧ twf check0 s.tb.checks = true ∧ twf none s.tb.lines = true ∧
  twf item0 s.tb.items = true ∧ twf ticket0 s.tb.tickets = true ∧ twf station0 s.tb.stations = true ∧
  twf timedEntry0 s.tb.actions = true ∧ twf progEntry0 s.tb.program = true ∧ twf slot0 s.tb.slots = true ∧
  twf stationCount0 s.tb.cStations = true ∧ twf itemCount0 s.tb.cItems = true ∧ twf laneCount0 s.tb.cLanes = true ∧
  twf 0 s.doneCounts = true

/-- The attention state (R160 to R162): the count has 16 bits, the threshold is at least 1, and a count of 0 means a clear urgent
flag and a low line. -/
def AttentionOk (n : Ntw) : Prop := n.count ≤ 65535 ∧ 1 ≤ n.threshold ∧ (n.count = 0 → n.urgent = false ∧ n.line = false)

/-- Rails and rail limits (R94, R104). -/
def RailsOk (tb : Tables) : Prop :=
  ∀ n, 1 ≤ (tb.station n).railLimit ∧ (tb.station n).railLimit ≤ 12 ∧ (tb.station n).rail.length ≤ 12

/-- No check or ticket tag is 0 (R1, R75). -/
def TagsOk (tb : Tables) : Prop := ∀ i, (tb.check i).tag ≠ 0 ∧ (tb.ticket i).tag ≠ 0

/-- The lanes and slots the engine works with exist, and BASE is a multiple of 128 KiB wherever the engine reads or writes exchange
memory (R143, R146, R147, R165, R167). -/
def Placed (s : State) : Prop :=
  (∀ r, s.rqu.inFlight = some r → r.lane < 64 ∧ r.slot < 8) ∧
  (∀ p, s.rqu.pending = some p → p.lane < 64 ∧ p.slot < 8) ∧
  (∀ l, (s.tb.lane l).pointer < 8) ∧
  (∀ e, e ∈ s.tb.cfg.calendar → e.1 < 64) ∧
  (∀ op, s.enc.startOp = some op →
    s.engine = .stopped ∧ 1 ≤ op.next ∧ (2 ≤ op.next → s.aligned = true) ∧ (5 ≤ op.next → blockError op.block = none)) ∧
  (s.engine ≠ .stopped → s.engine ≠ .halted → s.aligned = true)

/-- An address the engine may write: the status page, or the lane slots, rail windows and notice log (R143). -/
def engineRegion (s : State) (a : Nat) : Prop := s.covers Config.statusAt 0x200 a ∨ s.covers Config.slotsAt 0x16000 a

/-- The bytes a command's hub stores write. -/
def storeBytes (b : Bus) (a : Nat) : Prop := ∃ h, h ∈ b.hub ∧ h.addr.toNat ≤ a ∧ a < h.addr.toNat + h.data.length

/-- The profile of a lane, which a lock keeps (R153). -/
def Lane.profile (l : Lane) : Role × Nat × Bool × Bool × Bool × Bool :=
  (l.role, l.station, l.voidFired, l.discount, l.stockAdjust, l.lock)

/-- The counters the engine keeps (R163). -/
def Tables.counters (t : Tables) :
    List (Nat × StationCount) × List (Nat × ItemCount) × List (Nat × LaneCount) × EngineCount :=
  (t.cStations, t.cItems, t.cLanes, t.cEngine)

/-! ### Checks and holds -/

/-- A reference word names check `ci` (R9). -/
abbrev Names (tb : Tables) (w : Word) (ci : Nat) : Prop :=
  lo16 w = ci ∧ ci < Config.checkTotal ∧ (tb.check ci).state ≠ .free ∧ refTag w = (tb.check ci).tag

/-- A check is OPEN or SETTLING. -/
abbrev Live (c : Check) : Prop := c.state = .opened ∨ c.state = .settling

/-- The hold test passes (R18). -/
abbrev PassesHold (c : Check) (lane : Nat) (taken : Word) : Prop :=
  c.holder = none ∨ c.holder = some lane ∨ (1 ≤ (taken - c.expiry).toNat ∧ (taken - c.expiry).toNat ≤ 2147483647)

/-- A check held by a lane from a take on (R18). -/
def heldCheck (tb : Tables) (c : Check) (lane : Nat) (taken : Word) : Check :=
  { c with holder := some lane, expiry := taken + BitVec.ofNat 32 tb.cfg.holdTime }

/-- The tables with one check record written. -/
def putCheck (tb : Tables) (ci : Nat) (c : Check) : Tables := tb.setChecks (tset check0 tb.checks ci c)

/-- The tables after the requesting lane has taken or renewed its hold (R18). -/
def heldTables (tb : Tables) (r : Req) (ci : Nat) : Tables := putCheck tb ci (heldCheck tb (tb.check ci) r.lane r.takenAt)

/-! ### What stops leave -/

/-- Marks of the latest base tick's events may have been dropped (log entry 5); nothing else of the tables and of attention changed. -/
def SameButDues (s t : State) : Prop :=
  t.tb = (s.tb.setStations t.tb.stations).setSlots t.tb.slots ∧
  (∀ n, dropStation (t.tb.station n) = dropStation (s.tb.station n)) ∧
  (∀ n, dropSlot (t.tb.slot n) = dropSlot (s.tb.slot n)) ∧
  t.ntw = { s.ntw with timer := t.ntw.timer } ∧ dropDelay t.ntw.timer = dropDelay s.ntw.timer

/-! ### Queues, gate and arbiter (R99 to R104) -/

/-- A counter raised by `n`, saturating (R163); one that does not move stays as it is. -/
def raised (c n : Nat) : Nat := if n = 0 then c else min (c + n) 4294967295

/-- In GATHER mode a station whose queues RUSH1 and NORMAL are empty closes its gate and disarms the hold (R101). -/
def closedWhenEmpty (x : Station) : Station :=
  if x.gateMode = .gather ∧ x.rush1 = [] ∧ x.normal = [] then { x with gateOpen := false, holdTimer := none } else x

/-- A station's queues without the tickets of a list. -/
def dequeued (x : Station) (is : List Nat) : Station :=
  { x with rush0 := x.rush0.filter (fun i => decide (i ∉ is)), rush1 := x.rush1.filter (fun i => decide (i ∉ is)),
           normal := x.normal.filter (fun i => decide (i ∉ is)) }

/-- The tickets a station's arbiter releases, in order (R104): RUSH0, then, where the gate is open, RUSH1 and NORMAL, as far as the rail
limit, which is at most 12, leaves room. -/
def outgoing (x : Station) : List Nat :=
  ((x.rush0 ++ (if x.gateOpen = true then x.rush1 ++ x.normal else [])).eraseDups).take (min 12 (x.railLimit - x.rail.length))

/-- A station after its arbiter has run (R101, R104). -/
def afterArbiter (x : Station) : Station :=
  if outgoing x = [] then x else closedWhenEmpty { dequeued x (outgoing x) with rail := x.rail ++ outgoing x }

/-- The releases an arbiter's run counts, by class (R104, R163). -/
def releasesCounted (x : Station) (c : StationCount) : StationCount :=
  let rush0 := (outgoing x).filter (fun i => decide (i ∈ x.rush0))
  let rush1 := (outgoing x).filter (fun i => decide (i ∉ x.rush0 ∧ i ∈ x.rush1))
  let normal := (outgoing x).filter (fun i => decide (i ∉ x.rush0 ∧ i ∉ x.rush1))
  { c with relRush0 := raised c.relRush0 rush0.length, relRush1 := raised c.relRush1 rush1.length,
           relNormal := raised c.relNormal normal.length }

/-- A ticket released to the rail at a time (R104). -/
def releasedTicket (time : Word) (k : Ticket) : Ticket :=
  { k with order := k.order.map (fun o => { o with onRail := true, releasedAt := some time }) }

/-- An event that has left stations, tickets and station counters as `y`, `k` and `c` has ended with the arbiters of the stations `ns`
(R104): `X` are the tables after it. In LOAD nothing counts (R168). -/
structure Arbitrated (load : Bool) (time : Word) (ns : List Nat) (y : Nat → Station) (k : Nat → Ticket) (c : Nat → StationCount)
    (X : Tables) : Prop where
  stations : ∀ n, X.station n = if n < 16 ∧ n ∈ ns then afterArbiter (y n) else y n
  tickets : ∀ j, X.ticket j = if ∃ n, n ∈ ns ∧ n < 16 ∧ j ∈ outgoing (y n) then releasedTicket time (k j) else k j
  counts : ∀ n, X.cStation n = if n < 16 ∧ n ∈ ns ∧ load = false then releasesCounted (y n) (c n) else c n

/-- A station that tickets have left, from their queues or the rail (R99 to R101). -/
def afterLeaving (x : Station) (is : List Nat) : Station :=
  if is = [] then x else closedWhenEmpty { dequeued x is with rail := x.rail.filter (fun i => decide (i ∉ is)) }

/-- Why the gate of a station opens when `k` tickets of a class join it, if it does (R102): fast rush before threshold. -/
def gateOpenedBy (c : TicketClass) (x : Station) (k : Nat) : Option GateCause :=
  if x.gateMode = .gather ∧ x.gateOpen = false ∧ c ≠ .rush0 ∧ 0 < k then
    if c = .rush1 ∧ x.fast = true then some .fast
    else if x.threshold ≤ x.rush1.length + x.normal.length + k then some .threshold
    else none
  else none

/-- A station that tickets of one class have joined, in order, each at the tail of its queue (R99): the first to join an empty gathered
set arms the hold (R101), and a gate that opens disarms it (R102). -/
def afterJoining (c : TicketClass) (x : Station) (is : List Nat) : Station :=
  if is = [] then x
  else
    let arms := x.gateMode = .gather ∧ c ≠ .rush0 ∧ x.rush1 = [] ∧ x.normal = []
    let opens := (gateOpenedBy c x is.length).isSome
    { x with
      rush0 := if c = .rush0 then x.rush0 ++ is else x.rush0,
      rush1 := if c = .rush1 then x.rush1 ++ is else x.rush1,
      normal := if c = .normal then x.normal ++ is else x.normal,
      gateOpen := x.gateOpen || opens,
      holdTimer := if opens = true then none else if arms then armTimer x.hold else x.holdTimer }

/-- The opening of a gate counted by its cause (R102, R163). -/
def openingCounted (cause : Option GateCause) (c : StationCount) : StationCount :=
  match cause with
  | none => c
  | some .threshold => { c with byThreshold := raised c.byThreshold 1 }
  | some .hold => { c with byHold := raised c.byHold 1 }
  | some .fast => { c with byFast := raised c.byFast 1 }

/-! ### Fires -/

/-- The free ticket records, lowest first, each with the ticket of a plan (its station and its ticket lines) that a fire builds in it
(R75, R79). -/
def firedTickets (tb : Tables) (plan : List (Nat × List TicketLine)) : List (Nat × Nat × List TicketLine) :=
  ((List.range 2048).filter (fun i => (tb.ticket i).order.isNone)).zip plan

/-- The tickets of a fire that join a station, in build order (R79, R80). -/
def joinersOf (tb : Tables) (plan : List (Nat × List TicketLine)) (n : Nat) : List Nat :=
  ((firedTickets tb plan).filter (fun q => q.2.1 == n)).map (·.1)

/-- A fire of check `ci` has built every ticket of `plan` once, in plan order and in the lowest free records; each has joined its class's
queue and may have opened the gate; the arbiters of its stations have run; no other record and no other station has changed (R75, R78
to R82, R99 to R104). A remake's tickets are RUSH0 and are counted (R92). -/
def Fired (tb X : Tables) (ci : Nat) (remake : Bool) (course : Option Nat) (plan : List (Nat × List TicketLine)) : Prop :=
  let c := tb.check ci
  let cls : TicketClass := if remake = true then .rush0 else if c.rush = true then .rush1 else .normal
  Arbitrated false tb.time (plan.map (·.1)) (fun n => afterJoining cls (tb.station n) (joinersOf tb plan n))
    (fun j => match (firedTickets tb plan).find? (fun q => q.1 == j) with
      | some q =>
        { tag := (tb.ticket j).tag,
          order := some { check := ci, checkTag := c.tag, station := q.2.1, cls := cls, onRail := false, mark := .unmarked,
                          firedAt := tb.time, releasedAt := none, isRemake := remake, course := course, lines := q.2.2 } }
      | none => tb.ticket j)
    (fun n =>
      let k := (joinersOf tb plan n).length
      let x := openingCounted (gateOpenedBy cls (tb.station n) k) (tb.cStation n)
      { x with remakes := if remake = true then raised x.remakes k else x.remakes })
    X

/-! ### Voids of fired lines -/

/-- The ticket lines of check `ci` built from line `id` and not yet struck, in component order (R58, R66, R86). -/
def toStrike (tb : Tables) (ci id : Nat) : List TicketLine :=
  let ls := tb.tickets.flatMap (fun p => match p.2.order with
    | some o => if o.check = ci then o.lines.filter (fun x => x.line == id && !x.struck) else []
    | none => [])
  ls.filter (fun x => decide (x.pos ≤ 1)) ++ ls.filter (fun x => decide (x.pos = 2)) ++ ls.filter (fun x => decide (3 ≤ x.pos))

/-- A ticket record once the lines `ids` of check `ci` are struck (R86). -/
def struckRecord (ci : Nat) (ids : List Nat) (k : Ticket) : Ticket :=
  { k with order := k.order.map (fun o =>
      if o.check = ci then { o with lines := o.lines.map (fun x => if x.line ∈ ids then { x with struck := true } else x) } else o) }

/-- The tickets of check `ci` of which a strike of the lines `ids` leaves no line unstruck, in ascending order (R87). -/
def fullyStruckBy (tb : Tables) (ci : Nat) (ids : List Nat) : List Nat :=
  (tb.tickets.filter (fun p => match (struckRecord ci ids p.2).order with
    | some o => o.check == ci && o.lines.all (·.struck)
    | none => false)).map (·.1)

/-- The stations a strike of the lines `ids` reaches: those of a ticket it strikes a line of, or that is withdrawn (R86, R87, R104). -/
def strikeReaches (tb : Tables) (ci : Nat) (ids : List Nat) : List Nat :=
  tb.tickets.filterMap (fun p => match p.2.order with
    | some o =>
      if o.check = ci ∧ (p.1 ∈ fullyStruckBy tb ci ids ∨ ∃ x, x ∈ o.lines ∧ x.line ∈ ids ∧ x.struck = false) then some o.station
      else none
    | none => none)

/-- The lines `ids` of check `ci` have been struck on every ticket; the tickets without an unstruck line are withdrawn: they have left
their stations, their records are free with the next tag, and each is counted; the arbiters of the stations reached have run; no other
ticket and no other station has changed (R75, R86, R87, R101, R104). -/
def Struck (load : Bool) (tb X : Tables) (ci : Nat) (ids : List Nat) : Prop :=
  let gone := fullyStruckBy tb ci ids
  let goneAt := fun n => gone.filter (fun j => decide ((tb.ticket j).order.map (·.station) = some n))
  Arbitrated load tb.time (strikeReaches tb ci ids) (fun n => afterLeaving (tb.station n) (goneAt n))
    (fun j => if j ∈ gone then { tag := nextTag (tb.ticket j).tag, order := none } else struckRecord ci ids (tb.ticket j))
    (fun n => if load = true then tb.cStation n
      else { tb.cStation n with withdrawn := raised (tb.cStation n).withdrawn (goneAt n).length })
    X

/-- The made positions of a line, as demands (R77, R86). -/
def madeDemand (tb : Tables) (l : Line) : List (Nat × Nat) :=
  (((demandOf tb l.item l.qty).zipIdx 1).filter (fun d =>
    (d.2 == 1 && l.made1) || (d.2 == 2 && l.made2) || (d.2 == 3 && l.made3))).map (·.1)

/-! ### Chains of a check -/

/-- The slots with a chain in progress on check `ci`, ascending (R138). -/
def chainsOn (tb : Tables) (ci : Nat) : List Nat :=
  (List.range 16).filter (fun n =>
    let y := tb.slot n
    decide ((y.state = .armed ∨ y.state = .firing ∨ y.state = .waiting ∨ y.state = .stalled) ∧ y.check = ci ∧
      y.tag = (tb.check ci).tag))

/-- The chains of a check have ended: each slot is DONE with its timer disarmed (R138). -/
def ChainsEnded (tb X : Tables) (ns : List Nat) : Prop :=
  ∀ n, X.slot n = if n ∈ ns then { tb.slot n with state := .done, timer := none } else tb.slot n

/-- The CHAIN_END_CHECK notices of the slots `ns`, none in LOAD (R138, R168). -/
def chainEndNotices (s : State) (ci : Nat) (ns : List Nat) : List Notice :=
  if s.engine = .load then [] else ns.map (fun n => { kind := .chainEndCheck, time := s.tb.time, a := n, b := ci })

/-! ### Stock -/

/-- The level notices of an event that touched the items `is` in this order and left the catalogue as in `X` (R66). -/
def levelNotices (tb X : Tables) (is : List Nat) : List Notice :=
  is.filterMap (fun i => (levelNotice (tb.item i).level (X.item i).level).map
    (fun k => { kind := k, time := tb.time, a := i, b := (X.item i).avail }))

/-- An entry to OUT counts one out event, but in LOAD (R66, R163). -/
def outCounted (load : Bool) (before after : Item) (c : ItemCount) : ItemCount :=
  if load = false ∧ before.level ≠ .out ∧ after.level = .out then { c with outs := satCount c.outs 1 } else c

/-- An event that changed the items `is` by `f` and the counters by `g` (no counter in LOAD) has ended as R66 and R67 say: `X` are
the tables after it, and the level notices of R66 are `ns`. -/
structure StockMoved (s : State) (X : Tables) (is : List Nat) (f : Nat → Item → Item) (g : Nat → ItemCount → ItemCount)
    (ns : List Notice) : Prop where
  items : ∀ k, X.item k = if k ∈ is then (f k (s.tb.item k)).settle else s.tb.item k
  counts : ∀ k, X.cItem k = outCounted (s.engine == .load) (s.tb.item k) (X.item k)
    (if s.engine ≠ .load then g k (s.tb.cItem k) else s.tb.cItem k)
  notices : ns = if s.engine = .load then [] else levelNotices s.tb X is

/-- A list of items in the order in which an event first touched them (R66). -/
def firstTouches (is : List Nat) : List Nat := is.foldl (fun acc i => if i ∈ acc then acc else acc ++ [i]) []

/-- The quantity a list of demands places on item `k` (R58). -/
def demandOn (ds : List (Nat × Nat)) (k : Nat) : Nat := ((ds.filter (fun d => d.1 == k)).map (·.2)).sum

/-- A counter of item `k` raised by what a list of demands places on it; an item the list does not name keeps its count (R163). -/
def tally (ds : List (Nat × Nat)) (k n : Nat) : Nat := if k ∈ ds.map (·.1) then satCount n (demandOn ds k) else n

/-- The demand of a list of lines that is released when their check is freed or they are voided unfired (R4, R65). -/
def demandOfLines (tb : Tables) (ids : List Nat) : List (Nat × Nat) :=
  ids.flatMap (fun id => match tb.line id with
    | some l => demandOf tb l.item l.qty
    | none => [])

/-! ### Lines of a check -/

/-- The lines of a check's list, line `id` changed by `f`. -/
def linesWith (tb : Tables) (ids : List Nat) (id : Nat) (f : Line → Line) : List Line :=
  ids.filterMap (fun k => (tb.line k).map (fun l => if k = id then f l else l))

/-- A recomputation has written the nets of the lines of a list, the line `id` having been changed by `f`; no other line has changed
(R24, R25). -/
def NetsWritten (tb X : Tables) (ids : List Nat) (id : Nat) (f : Line → Line) : Prop :=
  ∀ j, X.line j = if j ∈ ids then (tb.line j).map (fun l => let x := if j = id then f l else l; { x with net := lineNet x })
    else tb.line j

/-- The nets of a list of lines have been written, each line otherwise as `g` leaves it; no other line has changed (R24). -/
def LinesWritten (tb X : Tables) (ids : List Nat) (g : Line → Line) : Prop :=
  ∀ j, X.line j = if j ∈ ids then (tb.line j).map (fun l => { g l with net := lineNet (g l) }) else tb.line j

/-- The lines of a check that are neither FIRED nor voided (R51). -/
def unsent (tb : Tables) (ids : List Nat) : List Nat :=
  ids.filter (fun id => match tb.line id with
    | some l => !l.fired && !l.voided
    | none => false)

/-- Would a check in SETTLING with these payers close (R49)? -/
def allDone (ps : List Payer) : Bool := ps.all payerDone

/-- The tables no request on a check, a ticket or the stock changes. -/
abbrev SameSettings (tb X : Tables) : Prop :=
  X.cfg = tb.cfg ∧ X.lanes = tb.lanes ∧ X.band = tb.band ∧ X.time = tb.time ∧ X.actions = tb.actions ∧ X.draw = tb.draw ∧
  X.program = tb.program

/-- The tables a request on the bill of one check leaves alone besides: kitchen, stations, chains, owed list, and all counters but
the items'. -/
abbrev SameKitchen (tb X : Tables) : Prop :=
  X.owed = tb.owed ∧ X.tickets = tb.tickets ∧ X.stations = tb.stations ∧ X.slots = tb.slots ∧ X.cStations = tb.cStations ∧
  X.cLanes = tb.cLanes ∧ X.cEngine = tb.cEngine

/-- The catalogue stays. -/
abbrev SameStock (tb X : Tables) : Prop := X.items = tb.items ∧ X.cItems = tb.cItems

end Sys2Proof.Machine

namespace Sys2Proof

/-! ### Commands -/

/-- The bus of a command that has one: the hub's stores that land with it (log entry 2). -/
def Instr.bus : Instr → Bus
  | .powerOn => { hub := [], errs := [] }
  | .start b _ => b
  | .startLoad b _ => b
  | .run => { hub := [], errs := [] }
  | .enterRun => { hub := [], errs := [] }
  | .park => { hub := [], errs := [] }
  | .enterParked => { hub := [], errs := [] }
  | .wake b => b
  | .wakeInput b => b
  | .restart => { hub := [], errs := [] }
  | .baseWrite _ _ => { hub := [], errs := [] }
  | .attnAck _ => { hub := [], errs := [] }
  | .registerWrite _ _ b => b
  | .sweepVisit b => b
  | .badreq b => b
  | .openCheck b => b
  | .addLine b => b
  | .setLine b => b
  | .voidLine b => b
  | .send b => b
  | .voidCheck b => b
  | .readCheck b => b
  | .takeHold b => b
  | .releaseHold b => b
  | .transfer b => b
  | .breakHold b => b
  | .setPayers b => b
  | .setSplit b => b
  | .tender b => b
  | .readSplit b => b
  | .defineItem b => b
  | .setBand b => b
  | .clearShort b => b
  | .readItem b => b
  | .yieldItem b => b
  | .waste b => b
  | .stockCount b => b
  | .bump b => b
  | .remake b => b
  | .stepIntake b => b
  | .setStation b => b
  | .setAction b => b
  | .writeProgram b => b
  | .armChain b => b
  | .startChain b => b
  | .stopChain b => b
  | .readChain b => b
  | .setProfile b => b
  | .view b => b
  | .baseTick b => b
  | .timedAction _ b => b
  | .owedRetry b => b
  | .agingTick _ b => b
  | .gateHoldExpiry _ b => b
  | .attentionDelayExpiry => { hub := [], errs := [] }
  | .chainWaitExpiry _ b => b
  | .firingSlotRun _ b => b
  | .chainStallRetry _ b => b

/-- The request rows: the kind a row completes (12) and its bus. -/
def Instr.request : Instr → Option (Nat × Bus)
  | .powerOn => none
  | .start _ _ => none
  | .startLoad _ _ => none
  | .run => none
  | .enterRun => none
  | .park => none
  | .enterParked => none
  | .wake _ => none
  | .wakeInput _ => none
  | .restart => none
  | .baseWrite _ _ => none
  | .attnAck _ => none
  | .registerWrite _ _ _ => none
  | .sweepVisit _ => none
  | .badreq _ => none
  | .openCheck b => some (1, b)
  | .addLine b => some (2, b)
  | .setLine b => some (3, b)
  | .voidLine b => some (4, b)
  | .send b => some (5, b)
  | .voidCheck b => some (6, b)
  | .readCheck b => some (7, b)
  | .takeHold b => some (8, b)
  | .releaseHold b => some (9, b)
  | .transfer b => some (10, b)
  | .breakHold b => some (11, b)
  | .setPayers b => some (12, b)
  | .setSplit b => some (13, b)
  | .tender b => some (14, b)
  | .readSplit b => some (15, b)
  | .defineItem b => some (16, b)
  | .setBand b => some (17, b)
  | .clearShort b => some (18, b)
  | .readItem b => some (19, b)
  | .yieldItem b => some (20, b)
  | .waste b => some (21, b)
  | .stockCount b => some (22, b)
  | .bump b => some (23, b)
  | .remake b => some (24, b)
  | .stepIntake b => some (25, b)
  | .setStation b => some (26, b)
  | .setAction b => some (27, b)
  | .writeProgram b => some (28, b)
  | .armChain b => some (29, b)
  | .startChain b => some (30, b)
  | .stopChain b => some (31, b)
  | .readChain b => some (32, b)
  | .setProfile b => some (33, b)
  | .view b => some (34, b)
  | .baseTick _ => none
  | .timedAction _ _ => none
  | .owedRetry _ => none
  | .agingTick _ _ => none
  | .gateHoldExpiry _ _ => none
  | .attentionDelayExpiry => none
  | .chainWaitExpiry _ _ => none
  | .firingSlotRun _ _ => none
  | .chainStallRetry _ _ => none

end Sys2Proof
end

