-- ==== Sys2Proof/Certificates/Slice0/Obligations.lean ====
section
/-!
DEFINITION. The statements for the provers. Each docstring names the rules of spec/ it formalises; "log entry <n>" is a row of
notes/assumptions/.
-/

open Sys2Proof Sys2Proof.Machine

/-! ### The machine -/

/-- Log entry 1: a step with command `c` at the front of the queue is `exec c` with the queue's rest. -/
def Obligations.StepRunsFrontCommand : Prop :=
  ∀ (c : Instr) (rest : List Instr) (s : State), s.pending = c :: rest → step s = exec c (s.setPending rest)

/-- Every command answers a next state in every state (no fault, no refusal) and leaves the queue alone. -/
def Obligations.EveryCommandAnswersNextAndKeepsQueue : Prop :=
  ∀ (c : Instr) (s : State), ∃ t, exec c s = .next t ∧ t.pending = s.pending

/-- R173 with the power-on values of R1, R5, R57, R75, R94, R115, R119, R121, R127, R129, R153, R160, R163 and R165: POWER_ON in any
state, every record whole. Board DRAM is not the engine's and stays (log entry 10); the copies of the config block before the first
START are log entry 11, and what waits of a base tick (`due`, `ran`) is the model's own state (log entries 5 and 7). -/
def Obligations.PowerOnResetsEverything : Prop :=
  ∀ s : State, ∃ t, exec .powerOn s = .next t ∧
    t.engine = .stopped ∧ t.base = 0 ∧ (∀ reg, readRegister t reg = 0) ∧
    t.rqu = { inFlight := none, pending := none } ∧ t.sweep = { entry := 0, taken := 0 } ∧
    (∀ i, t.tb.check i = freeCheck 1) ∧ (∀ i, t.tb.line i = none) ∧
    (∀ i, t.tb.item i = { defined := false, kind := .simple, station := 0, taxClass := 0, prices := ⟨0, 0, 0, 0⟩, low := 0,
                          onHand := 0, reserved := 0, comps := [], level := .out, short := false, wasShort := false }) ∧
    t.tb.band = 0 ∧ (∀ i, t.tb.ticket i = { tag := 1, order := none }) ∧ t.tb.owed = [] ∧
    (∀ n, t.tb.station n = station0) ∧ t.tb.time = 0 ∧
    t.tmb = { base := 100, mults := [1, 1, 1, 1, 1, 1, 1], counters := [0, 0, 0, 0, 0, 0, 0, 0] } ∧
    (∀ i, t.tb.action i = { level := 0, period := 0, countdown := 0, jitter := 0, action := .prompt 0 }) ∧ t.tb.draw = 1 ∧
    (∀ i, t.tb.entry i = { kind := .wait, next := none, group := 1, repeats := 1, reorder := false, dur := ⟨0, 0⟩ }) ∧
    (∀ i, t.tb.slot i = { state := .idle, check := 0, tag := 0, first := 0, cur := 0, reps := 0, mode := .once, passCount := 1,
                          passesDone := 0, interval := 1, phase := 1, next := none, timer := none, ran := false }) ∧
    (∀ l, t.tb.lane l = { role := .off, station := 0, voidFired := false, discount := false, stockAdjust := false, lock := false,
                          fault := false, pointer := 0 }) ∧
    t.tb.cfg = { laneCount := 0, calendar := [], taxRates := ⟨0, 0, 0, 0⟩, holdTime := 0, tipCap := 0, wakeEnable := false } ∧
    t.due = { ticked := 0, owed := false, tat := false, ccu := false } ∧
    t.enc = { engine := .stopped, configError := .noError, clampFlag := false, faultRegion := .noRegion, commandError := false,
              startOp := none, parkPending := false, runPending := false } ∧
    (∀ n, t.tb.cStation n = stationCount0) ∧ (∀ i, t.tb.cItem i = itemCount0) ∧ (∀ l, t.tb.cLane l = laneCount0) ∧
    t.tb.cEngine = engineCount0 ∧
    t.ntw = { written := 0, count := 0, threshold := 1, delay := ⟨0, 0⟩, timer := .disarmed, mask := 0, urgent := false,
              line := false } ∧
    (∀ l, t.doneCount l = 0) ∧ t.mem = s.mem ∧ t.pending = s.pending

/-- The invariants of the next statements hold at power-on. -/
def Obligations.InvariantsHoldAtPowerOn : Prop :=
  Canonical State.reset ∧ PortionBounds State.reset.tb ∧ AttentionOk State.reset.ntw ∧ RailsOk State.reset.tb ∧
  TagsOk State.reset.tb ∧ State.reset.tb.draw ≠ 0 ∧ Placed State.reset

/-! ### Invariants every step keeps -/

/-- Log entry 30 (the model's choice): memory and every table stay in canonical form. -/
def Obligations.CanonicalFormKept : Prop := ∀ s t : State, Canonical s → step s = .next t → Canonical t

/-- R63: for every SIMPLE item 0 ≤ reserved ≤ on_hand ≤ 65535; a COMPOSITE and an undefined item hold 0 in both counts. -/
def Obligations.PortionBoundsKept : Prop := ∀ s t : State, PortionBounds s.tb → step s = .next t → PortionBounds t.tb

/-- R1, R75, R100, R104, R109, R121, R160, R161: the attention count never exceeds 65535, the threshold is at least 1, and while the count
is 0 the urgent flag is clear and the line is low; the rail limit is 1 to 12, and a rail never holds more than 12 tickets; no check or
ticket tag becomes 0, and the draw source never becomes 0. Each of the three is kept on its own. -/
def Obligations.BoundsKept : Prop :=
  ∀ s t : State, step s = .next t →
    (AttentionOk s.ntw → AttentionOk t.ntw) ∧ (RailsOk s.tb → RailsOk t.tb) ∧
    (TagsOk s.tb → s.tb.draw ≠ 0 → TagsOk t.tb ∧ t.tb.draw ≠ 0)

/-- R49: after every event no check in SETTLING meets the close condition, when none did before. -/
def Obligations.NoCheckLeftToClose : Prop :=
  ∀ s t : State, (∀ i, (s.tb.check i).state = .settling → allDone (s.tb.check i).payers = false) → step s = .next t →
    ∀ i, (t.tb.check i).state = .settling → allDone (t.tb.check i).payers = false

/-- R1, R3, R4, R10: a check record keeps its tag but where it is freed, which advances it, or restored in LOAD; and its state moves as the
table of R3 gives, by one or more of its rows, in no other way but POWER_ON. -/
def Obligations.CheckStatesMoveAsTable : Prop :=
  ∀ (s t : State) (i : Nat), s.pending.head? ≠ some .powerOn → step s = .next t →
    let c := s.tb.check i
    let d := t.tb.check i
    (d.tag = c.tag ∧
      (d.state = c.state ∨ (c.state = .free ∧ d.state = .opened) ∨
       (c.state = .opened ∧ (d.state = .settling ∨ d.state = .paid ∨ d.state = .voided)) ∨
       (c.state = .settling ∧ d.state = .paid))) ∨
    (d.tag = nextTag c.tag ∧ d.state = .free ∧ c.state ≠ .free) ∨
    (s.engine = .load ∧ c.state = .free ∧ d.state = .opened)

/-- R143, R147, R165, R167: requests, pending answers, pointers and the calendar name lanes and slots that exist, and BASE is a
multiple of 128 KiB wherever the engine accesses exchange memory. -/
def Obligations.PlacesKept : Prop := ∀ s t : State, Placed s → step s = .next t → Placed t

/-- R143: whatever a step does, and whatever the bus does to it, the engine writes no byte of memory outside the status page, the lane
slots, the rail windows and the notice log; only the hub's own stores reach any other. -/
def Obligations.EngineWritesOnlyItsRegions : Prop :=
  ∀ s t : State, Placed s → step s = .next t → ∀ a, ¬ engineRegion s a →
    (∀ c rest, s.pending = c :: rest → ¬ storeBytes c.bus a) → readByte t.mem a = readByte s.mem a

/-- R153: a locked profile keeps its role, station, permissions and lock through everything but POWER_ON. -/
def Obligations.LockedProfileKept : Prop :=
  ∀ (s t : State) (l : Nat), (s.tb.lane l).lock = true → s.pending.head? ≠ some .powerOn → step s = .next t →
    (t.tb.lane l).profile = (s.tb.lane l).profile

/-- R117, R165: engine time moves by one, at a base tick in RUN or PARKING (the base tick of a millisecond is the step on an empty queue,
log entry 3), and BASE changes only by a write to BASE_LO or BASE_HI in STOPPED with no START in progress; but for POWER_ON. -/
def Obligations.TimeAndBaseMoveOnlyAsRuled : Prop :=
  ∀ s t : State, s.pending.head? ≠ some .powerOn → step s = .next t →
    (t.tb.time = s.tb.time ∨
      (t.tb.time = s.tb.time + 1 ∧ ticksIn s.engine = true ∧
        (s.pending = [] ∨ ∃ bus rest, s.pending = .baseTick bus :: rest))) ∧
    (t.base ≠ s.base → s.engine = .stopped ∧ s.enc.startOp = none ∧
      ((∃ hi v rest, s.pending = .baseWrite hi v :: rest) ∨ (∃ v b rest, s.pending = .registerWrite .baseLo v b :: rest) ∨
        ∃ v b rest, s.pending = .registerWrite .baseHi v b :: rest))

/-- R168: in LOAD no notice is written, no counter counts (a VIEW may clear) and nothing counts toward attention, whatever the step;
only POWER_ON is left out. `Placed` rules out a START in progress in LOAD, which no run reaches. -/
def Obligations.LoadWritesNoNoticeAndCountsNothing : Prop :=
  ∀ s t : State, Placed s → s.engine = .load → s.pending.head? ≠ some .powerOn → step s = .next t →
    t.ntw.written = s.ntw.written ∧ t.ntw.count ≤ s.ntw.count ∧
    ((∀ b, s.pending.head? ≠ some (.view b)) → t.tb.counters = s.tb.counters)

/-! ### Engine control -/

/-- R104, R144, R145, R165, R167 (with R101, R113, R115, R121, R153, R160): a START taken with BASE a multiple of 128 KiB, no pending
answer, a bus without errors and a config block `b` that passes the structural tests. The calendar's and the profiles' bytes are those
of 12. Every station's arbiter runs at the entry, as `afterArbiter` says. The model's choices in it: which fields count for the clamp
flag is log entry 20; the other fields of a profile taken as OFF, and a station byte without the role STATION, log entry 24; the marks of
events that were due, which the entry drops (of the stations, the slots and the attention delay, whose timers otherwise stay), log entry
5; that a change counter which a failed rewrite has left odd goes on from the next odd value, log entry 18. -/
def Obligations.StartReadsConfigAndEnters : Prop :=
  ∀ (load : Bool) (bus : Bus) (s : State),
    let b := (List.range 128).map (fun k => (s.afterHub bus).wordAt (4 * k))
    s.engine = .stopped → s.enc.startOp = none → s.aligned = true → s.rqu.pending = none → bus.errs = [] →
    twf check0 s.tb.checks = true →
    1 ≤ blockLanes b → blockLanes b ≤ 64 → 1 ≤ blockLength b → blockLength b ≤ 64 →
    (∀ e, e < blockLength b → (blockEntry b e).1 < blockLanes b) →
    ∃ t, exec (if load then .startLoad bus none else .start bus none) s = .next t ∧
      t.enc = { s.enc with engine := if load then .load else .run, configError := .noError, clampFlag := blockClamped b,
                           faultRegion := .noRegion, commandError := false, startOp := none } ∧
      t.tb.cfg.laneCount = blockLanes b ∧
      t.tb.cfg.calendar = (List.range (blockLength b)).map
        (fun e => ((blockEntry b e).1, max 1 (min 8 (blockEntry b e).2))) ∧
      t.tb.cfg.taxRates = (blockTax b).map (fun x => min x 2500) ∧ t.tb.cfg.holdTime = max (blockHold b) 1 ∧
      t.tb.cfg.tipCap = min (blockTip b) 100 ∧ t.tb.cfg.wakeEnable = blockWake b ∧
      t.sweep = { entry := 0, taken := 0 } ∧
      t.tmb = { base := max 10 (min 1000 (blockBase b)), mults := (blockMults b).map (fun m => max m 1),
                counters := [0, 0, 0, 0, 0, 0, 0, 0] } ∧
      t.tb.draw = (if blockSeed b = 0 then s.tb.draw else blockSeed b) ∧
      (∀ l, l < 64 → t.tb.lane l =
        if (s.tb.lane l).lock = true then { s.tb.lane l with fault := false }
        else { s.tb.lane l with
               role := tunedRole (blockProfile b l), station := byteOf (blockProfile b l) 1,
               voidFired := bitOf (blockProfile b l) 16, discount := bitOf (blockProfile b l) 17,
               stockAdjust := bitOf (blockProfile b l) 18, lock := bitOf (blockProfile b l) 24, fault := false }) ∧
      (∀ i, t.tb.check i =
        match (s.tb.check i).holder with
        | some l => if (t.tb.lane l).role = .off ∨ (t.tb.lane l).role = .station then { s.tb.check i with holder := none }
                    else s.tb.check i
        | none => s.tb.check i) ∧
      t.tb.lines = s.tb.lines ∧ t.tb.items = s.tb.items ∧ t.tb.band = s.tb.band ∧ t.tb.owed = s.tb.owed ∧ t.tb.time = s.tb.time ∧
      t.tb.actions = s.tb.actions ∧ t.tb.program = s.tb.program ∧ t.tb.cItems = s.tb.cItems ∧ t.tb.cLanes = s.tb.cLanes ∧
      t.tb.cEngine = s.tb.cEngine ∧ t.rqu = s.rqu ∧ t.doneCounts = s.doneCounts ∧ t.base = s.base ∧
      (∀ n, n < 16 → t.tb.station n =
        { afterArbiter (dropStation (s.tb.station n)) with winCount := oddAfter (s.tb.station n).winCount + 1 }) ∧
      (∀ j, t.tb.ticket j = if ∃ n, n ∈ List.range 16 ∧ j ∈ outgoing (s.tb.station n) then
        releasedTicket s.tb.time (s.tb.ticket j) else s.tb.ticket j) ∧
      (∀ n, n < 16 → t.tb.cStation n =
        if load = true then s.tb.cStation n else releasesCounted (s.tb.station n) (s.tb.cStation n)) ∧
      (∀ n, dropSlot (t.tb.slot n) = dropSlot (s.tb.slot n)) ∧
      t.ntw.count = s.ntw.count ∧ t.ntw.written = s.ntw.written ∧ t.ntw.urgent = s.ntw.urgent ∧
      t.ntw.threshold = max (blockThreshold b) 1 ∧ t.ntw.delay = ⟨min (blockDelay b).level 7, (blockDelay b).count⟩ ∧
      (∀ k, t.ntw.mask.getLsbD k = (decide (1 ≤ k ∧ k ≤ 13) && (blockMask b).getLsbD k)) ∧
      t.ntw.timer = dropDelay s.ntw.timer ∧ t.ntw.line = lineLevel t.ntw ∧
      t.wordAt Config.statusAt = s.ntw.written ∧ t.wordAt (Config.statusAt + 4) = s.tb.time ∧
      (∀ l, l < 64 → t.wordAt (doneCountOff l) = s.doneCount l) ∧
      (∀ n, n < 16 → t.wordAt (windowOff n) = (t.tb.station n).winCount ∧
        ∀ j, j < 247 → t.wordAt (windowOff n + 4 + 4 * j) = (windowWords n (t.tb.station n) (windowEntries t.tb n)).getD j 0) ∧
      (∀ a, ¬ s.covers Config.statusAt 0x200 a → (∀ n, n < 16 → ¬ s.covers (windowOff n) 992 a) →
        readByte t.mem a = readByte (s.afterHub bus).mem a)

/-- The state a START that fails leaves: STOPPED with the code in STAT, the line evaluated, and nothing else changed (R161, R165,
R167; log entry 31). A START that is taken clears the command error flag (R166). -/
def Obligations.FailedStartChangesNothing : Prop :=
  ∀ (load : Bool) (bus : Bus) (s : State),
    let b := (List.range 128).map (fun k => (s.afterHub bus).wordAt (4 * k))
    let failed := fun (e : ConfigError) =>
      ((s.afterHub bus).setEnc { s.enc with configError := e, commandError := false, startOp := none }).setNtw
        { s.ntw with line := lineLevel s.ntw }
    let cmd : Instr := if load then .startLoad bus none else .start bus none
    s.engine = .stopped → s.enc.startOp = none →
    (s.aligned = false → exec cmd s = .next (failed .cfgBase)) ∧
    (s.aligned = true → s.rqu.pending = none → (∃ k, k < 128 ∧ k ∈ bus.errs) → exec cmd s = .next (failed .cfgRead)) ∧
    (s.aligned = true → s.rqu.pending = none → bus.errs = [] → (blockLanes b < 1 ∨ 64 < blockLanes b) →
      exec cmd s = .next (failed .cfgLanes)) ∧
    (s.aligned = true → s.rqu.pending = none → bus.errs = [] → 1 ≤ blockLanes b → blockLanes b ≤ 64 →
      (blockLength b < 1 ∨ 64 < blockLength b ∨ ∃ e, e < blockLength b ∧ blockLanes b ≤ (blockEntry b e).1) →
      exec cmd s = .next (failed .cfgCalendar))

/-- R145, R148, R149, R167 step 2, R171: a START that ends with the step that writes the pending answer (`cut` 2, log entry 23) has written
it into its slot with DONE, counted the DONE and cleared the pending answer; where any of the answer's 19 writes fails (result code,
result body, hub tag, DONE) the answer is dropped, STAT shows LANE_SLOT, and the slot's state word is left as it was. That no lane is
faulted and no notice written by it is log entry 19. -/
def Obligations.StartWritesPendingAnswer : Prop :=
  ∀ (load : Bool) (bus : Bus) (s : State) (p : Pending),
    s.engine = .stopped → s.enc.startOp = none → s.aligned = true → s.rqu.pending = some p → p.lane < 64 → p.slot < 8 →
    (bus.errs = [] → ∃ t, exec (if load then .startLoad bus (some 2) else .start bus (some 2)) s = .next t ∧
      t.rqu.pending = none ∧ t.engine = .stopped ∧ t.enc.startOp.isSome = true ∧
      t.wordAt (slotOff p.lane p.slot) = 3 ∧ t.wordAt (slotOff p.lane p.slot + 0x08) = p.hubTag ∧
      t.wordAt (slotOff p.lane p.slot + 0x0C) = BitVec.ofNat 32 p.answer.code.code ∧
      (∀ k, k < 16 → t.wordAt (slotOff p.lane p.slot + 0x40 + 4 * k) = p.answer.body.getD k 0) ∧
      t.doneCounts = tupd 0 s.doneCounts p.lane (· + 1) ∧ t.ntw = attentionItem s.ntw false ∧
      t.tb = (if isRefusal p.answer.code = true then
          s.tb.setCLanes (tupd laneCount0 s.tb.cLanes p.lane (fun x => { x with refused := satCount x.refused 1 }))
        else s.tb) ∧
      t.sweep = s.sweep ∧ t.tmb = s.tmb ∧ t.due = s.due ∧ t.base = s.base ∧ t.rqu.inFlight = s.rqu.inFlight ∧
      (∀ a, ¬ answerBytes s p.lane p.slot a → readByte t.mem a = readByte (s.afterHub bus).mem a)) ∧
    ((∃ k, k < 19 ∧ k ∈ bus.errs) → ∃ t, exec (if load then .startLoad bus (some 2) else .start bus (some 2)) s = .next t ∧
      t.rqu.pending = none ∧ t.engine = .stopped ∧ t.enc.faultRegion = .laneSlot ∧ t.enc.startOp.isSome = true ∧ t.tb = s.tb ∧
      t.ntw = s.ntw ∧ t.doneCounts = s.doneCounts ∧ t.sweep = s.sweep ∧ t.tmb = s.tmb ∧ t.due = s.due ∧ t.base = s.base ∧
      t.rqu.inFlight = s.rqu.inFlight ∧ t.wordAt (slotOff p.lane p.slot) = (s.afterHub bus).wordAt (slotOff p.lane p.slot) ∧
      (∀ a, ¬ answerBytes s p.lane p.slot a → readByte t.mem a = readByte (s.afterHub bus).mem a))

/-- R116, R168: RUN in LOAD, and the entry to RUN that waits for the completion of the request in flight: the level counters restart
at 0, and nothing else changes but marks of events that were due (log entry 5). -/
def Obligations.RunEntersRunFromLoad : Prop :=
  ∀ s : State, s.engine = .load →
    let entered := fun (enc : Enc) (t : State) =>
      t.enc = { enc with engine := .run, runPending := false } ∧ t.tmb = { s.tmb with counters := [0, 0, 0, 0, 0, 0, 0, 0] } ∧
      t = (((((s.setEnc t.enc).setTb t.tb).setTmb t.tmb).setDue due0).setNtw t.ntw) ∧ SameButDues s t
    (s.rqu.inFlight = none → ∃ t, exec .run s = .next t ∧ entered { s.enc with commandError := false } t) ∧
    (s.rqu.inFlight ≠ none → exec .run s = .next (s.setEnc { s.enc with commandError := false, runPending := true })) ∧
    (s.enc.runPending = true → maySweep s = false) ∧
    (s.enc.runPending = true → s.rqu.inFlight = none → ∃ t, exec .enterRun s = .next t ∧ entered s.enc t) ∧
    (s.rqu.inFlight ≠ none → exec .enterRun s = .next s)

/-- R98, R123, R169: the first PARK, the second PARK, and the entry to PARKED that waits for a completion; an entry changes nothing but
the engine state and marks of events that were due (log entries 5 and 6). -/
def Obligations.ParkParksInTwoWrites : Prop :=
  ∀ s : State, twf station0 s.tb.stations = true →
    let parked := fun (enc : Enc) (t : State) =>
      t.enc = { enc with engine := .parked, parkPending := false } ∧
      t = ((((s.setEnc t.enc).setTb t.tb).setDue due0).setNtw t.ntw) ∧ SameButDues s t
    (s.engine = .run → ∃ t, exec .park s = .next t ∧ t.enc = { s.enc with engine := .parking, commandError := false } ∧
      (∀ n, t.tb.station n = { s.tb.station n with parkIntake := (s.tb.station n).intake }) ∧
      t = (((s.setEnc t.enc).setTb (s.tb.setStations t.tb.stations)).setDue { s.due with tat := false })) ∧
    (s.engine = .parking → s.rqu.inFlight ≠ none →
      exec .park s = .next (s.setEnc { s.enc with commandError := false, parkPending := true })) ∧
    (s.engine = .parking → s.rqu.inFlight = none →
      ∃ t, exec .park s = .next t ∧ parked { s.enc with commandError := false } t) ∧
    (s.engine = .parking → s.enc.parkPending = true → s.rqu.inFlight = none → ∃ t, exec .enterParked s = .next t ∧ parked s.enc t) ∧
    (s.enc.parkPending = true → s.engine = .parking → maySweep s = false) ∧
    (s.engine = .parking → s.rqu.inFlight ≠ none → exec .enterParked s = .next s)

/-- R98, R101, R104, R116, R170: WAKE in PARKED, by the register or by the wake input, on a bus without errors: the restart policies with
their notices (in rising station order: log entry 47), every station's arbiter, the changed windows, and the visit afresh. The input
leaves the command error flag alone. -/
def Obligations.WakeAppliesRestartPolicies : Prop :=
  ∀ (byInput : Bool) (bus : Bus) (s : State), s.engine = .parked → s.aligned = true → bus.errs = [] →
    (byInput = true → s.tb.cfg.wakeEnable = true) →
    let s1 := (((((s.afterHub bus).setEnc
      { s.enc with engine := .run, commandError := if byInput then s.enc.commandError else false }).setTmb
      { s.tmb with counters := [0, 0, 0, 0, 0, 0, 0, 0] }).setSweep { entry := s.sweep.entry, taken := 0 }).setDue
      { ticked := 0, owed := false, tat := false, ccu := false })
    let woken := fun n => policyIntake (s.tb.station n).policy (s.tb.station n).parkIntake
    ∃ t X, exec (if byInput then .wakeInput bus else .wake bus) s = .next t ∧
      Committed s1 t X ((List.range 16).filterMap (fun n =>
        if woken n = (s.tb.station n).intake then none
        else some { kind := .stationState, time := s.tb.time, a := n, b := (woken n).code })) ∧
      Arbitrated false s.tb.time (List.range 16)
        (fun n => if n < 16 then { s.tb.station n with intake := woken n } else s.tb.station n) s.tb.ticket s.tb.cStation X ∧
      X.checks = s.tb.checks ∧ X.lines = s.tb.lines ∧ SameStock s.tb X ∧ SameSettings s.tb X ∧ X.owed = s.tb.owed ∧
      X.slots = s.tb.slots ∧ X.cLanes = s.tb.cLanes ∧ X.cEngine = s.tb.cEngine

/-- R98, R116, R160, R166, R171: RESTART in any state: the tables stay but for the intakes, and marks of events that were due are dropped
(log entry 5). -/
def Obligations.RestartStopsAndKeepsTables : Prop :=
  ∀ s : State, twf station0 s.tb.stations = true → 1 ≤ s.ntw.threshold → ∃ t, exec .restart s = .next t ∧
    t.enc = { s.enc with engine := .stopped, startOp := none, parkPending := false, runPending := false, commandError := false } ∧
    t.rqu.inFlight = none ∧
    t.rqu.pending = (match s.rqu.inFlight with
      | none => s.rqu.pending
      | some r => some { lane := r.lane, slot := r.slot, hubTag := r.hubTag, answer := { code := .aborted, body := [] } }) ∧
    t.ntw = { s.ntw with count := 0, urgent := false, timer := .disarmed, line := false } ∧
    t.tmb = { s.tmb with counters := [0, 0, 0, 0, 0, 0, 0, 0] } ∧
    (∀ n, dropStation (t.tb.station n) = dropStation { s.tb.station n with
        intake := (match (s.tb.station n).policy with
          | .closed => .closed
          | .opened => .opened
          | .previous => (s.tb.station n).intake) }) ∧
    (∀ n, dropSlot (t.tb.slot n) = dropSlot (s.tb.slot n)) ∧
    t.tb = (s.tb.setStations t.tb.stations).setSlots t.tb.slots ∧
    t = ((((((s.setEnc t.enc).setTb t.tb).setTmb t.tmb).setDue due0).setNtw t.ntw).setRqu t.rqu)

/-- R165, R166, R170: what a write to CTRL does, by its bits, in the terms of the commands (bits 31:6 are ignored); a command in a state
that does not take it is ignored and sets the command error flag; the wake input in such a state, or with the enable clear, does
nothing. -/
def Obligations.CtrlWritesAndUntakenCommands : Prop :=
  (∀ (v : Word) (bus : Bus) (s : State),
     let bit := fun k => v.getLsbD k
     let none5 := fun (on : List Nat) => ∀ k, k < 5 → (bit k = true ↔ k ∈ on)
     (bit 5 = true → exec (.registerWrite .ctrl v bus) s = exec .restart (s.afterHub bus)) ∧
     (bit 5 = false → none5 [] → exec (.registerWrite .ctrl v bus) s = .next (s.afterHub bus)) ∧
     (bit 5 = false → none5 [0] → exec (.registerWrite .ctrl v bus) s = exec (.start bus none) s) ∧
     (bit 5 = false → none5 [0, 1] → exec (.registerWrite .ctrl v bus) s = exec (.startLoad bus none) s) ∧
     (bit 5 = false → none5 [2] → exec (.registerWrite .ctrl v bus) s = exec .run (s.afterHub bus)) ∧
     (bit 5 = false → none5 [3] → exec (.registerWrite .ctrl v bus) s = exec .park (s.afterHub bus)) ∧
     (bit 5 = false → none5 [4] → exec (.registerWrite .ctrl v bus) s = exec (.wake bus) s) ∧
     (bit 5 = false → ¬ none5 [] → ¬ none5 [0] → ¬ none5 [0, 1] → ¬ none5 [2] → ¬ none5 [3] → ¬ none5 [4] →
       exec (.registerWrite .ctrl v bus) s = .next ((s.afterHub bus).setEnc { s.enc with commandError := true }))) ∧
  (∀ (bus : Bus) (cut : Option Nat) (s : State),
     let ignored := fun (u : State) => Host.Outcome.next (φ := Fault) (ρ := Refusal) (u.setEnc { s.enc with commandError := true })
     ((s.engine ≠ .stopped ∨ s.enc.startOp ≠ none) →
       exec (.start bus cut) s = ignored (s.afterHub bus) ∧ exec (.startLoad bus cut) s = ignored (s.afterHub bus)) ∧
     (s.engine ≠ .load → exec .run s = ignored s) ∧
     (s.engine ≠ .run → s.engine ≠ .parking → exec .park s = ignored s) ∧
     (s.engine ≠ .parked → exec (.wake bus) s = ignored (s.afterHub bus)) ∧
     ((s.engine ≠ .parked ∨ s.tb.cfg.wakeEnable = false) → exec (.wakeInput bus) s = .next (s.afterHub bus)))

/-- R165: writes to BASE_LO and BASE_HI, by their own row or as register writes, and writes to STAT; reads of BASE, CTRL and, in every
state, STAT, whose seven fields stand where 12 places them (engine state, start in progress, config error, clamp flag, fault region,
command error, request in flight). That the bits above them read 0 is log entry 14; that after a halt no request is in flight, log entry
52. -/
def Obligations.BaseAndStatWrites : Prop :=
  ∀ (hi : Bool) (v : Word) (bus : Bus) (s : State),
    (s.engine = .stopped → s.enc.startOp = none → ∃ t, exec (.baseWrite hi v) s = .next t ∧ t = s.setBase t.base ∧
      readRegister t .baseHi = (if hi then v else readRegister s .baseHi) ∧
      readRegister t .baseLo = (if hi then readRegister s .baseLo else v)) ∧
    ((s.engine ≠ .stopped ∨ s.enc.startOp ≠ none) → exec (.baseWrite hi v) s = .next s) ∧
    exec (.registerWrite (if hi then .baseHi else .baseLo) v bus) s = exec (.baseWrite hi v) (s.afterHub bus) ∧
    exec (.registerWrite .stat v bus) s = .next (s.afterHub bus) ∧ readRegister s .ctrl = 0 ∧
    (let w := readRegister s .stat
     (w.extractLsb' 0 3).toNat =
       (match s.engine with | .stopped => 0 | .load => 1 | .run => 2 | .parking => 3 | .parked => 4 | .halted => 5) ∧
     w.getLsbD 3 = s.enc.startOp.isSome ∧
     (w.extractLsb' 4 4).toNat =
       (match s.enc.configError with | .noError => 0 | .cfgBase => 1 | .cfgLanes => 2 | .cfgCalendar => 3 | .cfgRead => 4) ∧
     w.getLsbD 8 = s.enc.clampFlag ∧
     (w.extractLsb' 9 3).toNat =
       (match s.enc.faultRegion with | .noRegion => 0 | .statusPage => 1 | .railWindow => 2 | .noticeLog => 3 | .laneSlot => 4) ∧
     w.getLsbD 12 = s.enc.commandError ∧ w.getLsbD 13 = s.rqu.inFlight.isSome ∧ w.extractLsb' 14 18 = 0)

/-- R162: a write of `v` to ATTN acknowledges in any engine state, by its own row or as a register write; a read of ATTN returns the
count and the line. The write carries its count in bits 15:0 (12). -/
def Obligations.AttnWriteAcknowledges : Prop :=
  ∀ (v : Word) (bus : Bus) (s : State), ∃ t, exec (.attnAck v) s = .next t ∧ t = s.setNtw t.ntw ∧
    t.ntw.count = s.ntw.count - min (v.toNat % 65536) s.ntw.count ∧ t.ntw.urgent = false ∧
    (0 < t.ntw.count → 0 < s.ntw.delay.count →
      t.ntw.timer = .armed { level := s.ntw.delay.level, left := s.ntw.delay.count, due := false }) ∧
    (0 < t.ntw.count → s.ntw.delay.count = 0 → t.ntw.timer ≠ .expired ∧ (s.ntw.timer ≠ .expired → t.ntw.timer = s.ntw.timer)) ∧
    (t.ntw.count = 0 → t.ntw.timer = .disarmed) ∧
    (t.ntw.line = true ↔ t.ntw.threshold ≤ t.ntw.count ∨ (0 < t.ntw.count ∧ t.ntw.timer = .expired)) ∧
    t.ntw.written = s.ntw.written ∧ t.ntw.threshold = s.ntw.threshold ∧ t.ntw.delay = s.ntw.delay ∧ t.ntw.mask = s.ntw.mask ∧
    exec (.registerWrite .attn v bus) s = exec (.attnAck v) (s.afterHub bus) ∧
    (s.ntw.count ≤ 65535 → (readRegister s .attn).toNat = s.ntw.count + (if s.ntw.line then 65536 else 0))

/-! ### The sweep -/

/-- R146, R147, R150: a look at a lane that is not skipped and whose slot at the pointer is POSTED, on a bus without errors, takes the
request as memory holds it, writes TAKEN and advances the pointer; nothing else changes. -/
def Obligations.SweepTakesPostedRequest : Prop :=
  ∀ (bus : Bus) (s : State) (l q : Nat),
    let m := s.afterHub bus
    let p := (s.tb.lane l).pointer
    let req : Req :=
      { lane := l, slot := p, kind := lo16 (m.wordAt (slotOff l p + 0x04)), hubTag := m.wordAt (slotOff l p + 0x08),
        body := (List.range 12).map (fun k => m.wordAt (slotOff l p + 0x10 + 4 * k)), takenAt := s.tb.time }
    maySweep s = true → s.tb.cfg.calendar[s.sweep.entry]? = some (l, q) → (s.tb.lane l).role ≠ .off → (s.tb.lane l).fault = false →
    (s.engine = .load → (s.tb.lane l).role = .supervisor) → s.aligned = true → l < 64 → p < 8 → bus.errs = [] →
    m.wordAt (slotOff l p) = 1 →
    ∃ t, exec (.sweepVisit bus) s = .next t ∧
      t.rqu = { s.rqu with inFlight := some req } ∧
      t.tb = (let tb := s.tb.setLanes (tset lane0 s.tb.lanes l { s.tb.lane l with pointer := (p + 1) % 8 })
              if s.engine = .load then tb
              else tb.setCLanes (tset laneCount0 s.tb.cLanes l { s.tb.cLane l with taken := satCount (s.tb.cLane l).taken 1 })) ∧
      t.sweep = { s.sweep with taken := s.sweep.taken + 1 } ∧
      t.wordAt (slotOff l p) = 2 ∧
      (∀ a, ¬ s.covers (slotOff l p) 4 a → readByte t.mem a = readByte m.mem a) ∧
      t = ((((m.setTb t.tb).setRqu t.rqu).setSweep t.sweep).setMem t.mem)

/-- R146, R150, R151, R156, R159, R172, R174: a look at a lane that is skipped, or whose slot at the pointer is FREE, TAKEN or DONE, ends the visit;
where the sweep does not walk or waits for a completion, nothing happens; a state word that is not one of the four values, or a read of
it that fails on the bus, faults the lane: flag, end of the visit, and, outside LOAD, the LANE_FAULT notice and then its counter. Where
that notice cannot be written, the engine halts before the counter rises (R159, R172): HALTED with NOTICE_LOG for a write of the record
(accesses 1 to 8 of the look), with STATUS_PAGE for the write of the count (access 9). -/
def Obligations.SweepEndsVisitOrFaultsLane : Prop :=
  (∀ (bus : Bus) (s : State) (l q : Nat),
     let m := s.afterHub bus
     let n := s.sweep.entry + 1
     let ended := m.setSweep { entry := if n < s.tb.cfg.calendar.length then n else 0, taken := 0 }
     let skipped := (s.tb.lane l).role = .off ∨ (s.tb.lane l).fault = true ∨
       (s.engine = .load ∧ (s.tb.lane l).role ≠ .supervisor)
     ((s.rqu.inFlight ≠ none ∨ s.engine = .stopped ∨ s.engine = .parked ∨ s.engine = .halted) →
       exec (.sweepVisit bus) s = .next m) ∧
     (maySweep s = true → s.tb.cfg.calendar[s.sweep.entry]? = some (l, q) → skipped → exec (.sweepVisit bus) s = .next ended) ∧
     (maySweep s = true → s.tb.cfg.calendar[s.sweep.entry]? = some (l, q) → ¬ skipped → bus.errs = [] →
       (m.wordAt (slotOff l (s.tb.lane l).pointer) = 0 ∨ m.wordAt (slotOff l (s.tb.lane l).pointer) = 2 ∨
         m.wordAt (slotOff l (s.tb.lane l).pointer) = 3) → exec (.sweepVisit bus) s = .next ended)) ∧
  (∀ (bus : Bus) (s : State) (l q : Nat),
     let m := s.afterHub bus
     let p := (s.tb.lane l).pointer
     let note : Notice := { kind := .laneFault, time := s.tb.time, a := l, b := p }
     maySweep s = true → s.tb.cfg.calendar[s.sweep.entry]? = some (l, q) → skipsLane s l = false → s.aligned = true →
     ((bus.errs = [] ∧ 4 ≤ (m.wordAt (slotOff l p)).toNat) ∨ bus.errs = [0]) →
     ∃ t, exec (.sweepVisit bus) s = .next t ∧
       t.tb.lanes = tset lane0 s.tb.lanes l { s.tb.lane l with fault := true } ∧
       t.sweep = { entry := if s.sweep.entry + 1 < s.tb.cfg.calendar.length then s.sweep.entry + 1 else 0, taken := 0 } ∧
       t.rqu = s.rqu ∧ t.tb.checks = s.tb.checks ∧ t.tb.cLanes = s.tb.cLanes ∧ t.enc = s.enc ∧
       (s.engine = .load → t.ntw = s.ntw ∧ t.tb.cEngine = s.tb.cEngine ∧ t.mem = m.mem) ∧
       (s.engine ≠ .load → t.ntw = afterNotice s.ntw note ∧
         t.tb.cEngine.laneFaults = satCount s.tb.cEngine.laneFaults 1 ∧
         (∀ j, j < 8 → t.wordAt (noticeOff s.ntw.written + 4 * j) = (noticeWords s.ntw.written note).getD j 0) ∧
         t.wordAt Config.statusAt = s.ntw.written + 1 ∧
         (∀ a, ¬ s.covers (noticeOff s.ntw.written) 32 a → ¬ s.covers Config.statusAt 4 a →
           readByte t.mem a = readByte m.mem a))) ∧
  (∀ (bus : Bus) (s : State) (l q k : Nat),
     let m := s.afterHub bus
     let p := (s.tb.lane l).pointer
     maySweep s = true → s.tb.cfg.calendar[s.sweep.entry]? = some (l, q) → skipsLane s l = false → s.aligned = true →
     s.engine ≠ .load → bus.errs = [k] → 1 ≤ k → k ≤ 9 → 4 ≤ (m.wordAt (slotOff l p)).toNat →
     ∃ t, exec (.sweepVisit bus) s = .next t ∧
       t.enc = { s.enc with engine := .halted, faultRegion := if k = 9 then .statusPage else .noticeLog, startOp := none } ∧
       t.tb = s.tb.setLanes (tset lane0 s.tb.lanes l { s.tb.lane l with fault := true }) ∧
       t.sweep = { entry := if s.sweep.entry + 1 < s.tb.cfg.calendar.length then s.sweep.entry + 1 else 0, taken := 0 } ∧
       t.ntw = { s.ntw with written := if k = 9 then s.ntw.written + 1 else s.ntw.written } ∧ t.rqu = s.rqu ∧ t.tmb = s.tmb ∧
       t.doneCounts = s.doneCounts ∧
       (∀ a, ¬ s.covers (noticeOff s.ntw.written) 32 a → ¬ s.covers Config.statusAt 4 a → readByte t.mem a = readByte m.mem a))

/-! ### The completion of any request -/

/-- R149, R152, R156, R172: a request of a kind that the lane's role may not send is refused ROLE, and one of no kind BADREQ, and nothing
else changes; `may` is the table of R152. Where a write of such an answer fails on the bus (accesses 0 to 18 are the result and DONE) the
lane is faulted and nothing is counted; where the write of the done count fails (access 19), DONE stands and the engine halts. And where
a completion halts at a notice, before its DONE, its own result becomes the pending answer: BREAK of a held check (that nothing is in
flight after such a halt is log entry 52's choice). -/
def Obligations.BadKindAndRoleRefused : Prop :=
  (∀ (bus : Bus) (s : State) (r : Req) (k : Nat) (c : Instr) (a : Answer),
     let lane := s.tb.lane r.lane
     let may := lane.role = .supervisor ∨
       (lane.role = .till ∧ (k ∈ [1, 2, 3, 4, 5, 6, 7, 8, 9, 10, 12, 13, 14, 15, 19, 24, 34] ∨
         (k ∈ [20, 21, 22] ∧ lane.stockAdjust = true))) ∨
       (lane.role = .station ∧ k ∈ [19, 20, 21, 23, 24, 25, 34])
     let refused := (c = .badreq bus ∧ (k = 0 ∨ 34 < k) ∧ a = { code := .badreq, body := [] }) ∨
       (c.request = some (k, bus) ∧ ¬ may ∧ a = { code := .role, body := [] })
     let m := s.afterHub bus
     (roleAllows lane k = true ↔ may) ∧
     (Ready k bus s r → refused → ∃ t, exec c s = .next t ∧ Answered m t r a) ∧
     (∀ j, s.rqu.inFlight = some r → r.kind = k → completesIn s.engine = true → s.aligned = true → r.lane < 64 → r.slot < 8 →
       refused → bus.errs = [j] →
       (j < 19 → ∃ t, exec c s = .next t ∧ t.rqu = { s.rqu with inFlight := none } ∧
         t.tb.lanes = tset lane0 s.tb.lanes r.lane { lane with fault := true } ∧ t.doneCounts = s.doneCounts ∧
         t.ntw = (if s.engine = .load then s.ntw
           else afterNotice s.ntw { kind := .laneFault, time := s.tb.time, a := r.lane, b := r.slot }) ∧
         t.tb.cEngine = (if s.engine = .load then s.tb.cEngine
           else { s.tb.cEngine with notices := satCount s.tb.cEngine.notices 1,
                                    laneFaults := satCount s.tb.cEngine.laneFaults 1 }) ∧
         t.tb = (s.tb.setLanes t.tb.lanes).setCEngine t.tb.cEngine ∧ t.enc = s.enc ∧ t.tmb = s.tmb ∧
         t.sweep = { entry := if s.sweep.entry + 1 < s.tb.cfg.calendar.length then s.sweep.entry + 1 else 0, taken := 0 }) ∧
       (j = 19 → ∃ t, exec c s = .next t ∧ t.rqu = { s.rqu with inFlight := none } ∧
         t.enc = { s.enc with engine := .halted, faultRegion := .statusPage, startOp := none } ∧
         t.wordAt (slotOff r.lane r.slot) = 3 ∧ t.wordAt (slotOff r.lane r.slot + 0x0C) = BitVec.ofNat 32 a.code.code ∧
         t.doneCounts = tupd 0 s.doneCounts r.lane (· + 1) ∧
         t.ntw = (if s.engine = .load then s.ntw else attentionItem s.ntw false) ∧
         t.tb = (if s.engine = .load then s.tb
           else s.tb.setCLanes (tupd laneCount0 s.tb.cLanes r.lane (fun x => { x with refused := satCount x.refused 1 }))) ∧
         t.sweep = s.sweep ∧ t.tmb = s.tmb))) ∧
  (∀ (bus : Bus) (s : State) (r : Req) (ci h j : Nat),
     s.rqu.inFlight = some r → r.kind = 11 → completesIn s.engine = true → s.engine ≠ .load → s.aligned = true →
     (s.tb.lane r.lane).role = .supervisor → Names s.tb (reqWord r 0) ci → (s.tb.check ci).holder = some h → bus.errs = [j] → j ≤ 8 →
     ∃ t, exec (.breakHold bus) s = .next t ∧
       t.enc = { s.enc with engine := .halted, faultRegion := if j = 8 then .statusPage else .noticeLog, startOp := none } ∧
       t.rqu = { inFlight := none,
                 pending := some { lane := r.lane, slot := r.slot, hubTag := r.hubTag,
                                   answer := { code := .ok, body := [BitVec.ofNat 32 (h % 256)] } } } ∧
       t.tb = putCheck s.tb ci { s.tb.check ci with holder := none } ∧ t.doneCounts = s.doneCounts ∧ t.sweep = s.sweep ∧ t.tmb = s.tmb ∧
       t.ntw = { s.ntw with written := if j = 8 then s.ntw.written + 1 else s.ntw.written })

/-- Log entry 1 (the model's choice): a request row when no request of its kind is in flight, or in an engine state in which no request
completes, and a timed row whose moment has not come, do nothing but land the hub's stores. -/
def Obligations.RowBeforeItsMomentDoesNothing : Prop :=
  ∀ (bus : Bus) (s : State),
    let nothing := fun (c : Instr) => exec c s = .next (s.afterHub bus)
    (∀ c k, c.request = some (k, bus) →
      ((∀ r, s.rqu.inFlight = some r → r.kind ≠ k) ∨ completesIn s.engine = false) → nothing c) ∧
    (((∀ r, s.rqu.inFlight = some r → 1 ≤ r.kind ∧ r.kind ≤ 34) ∨ completesIn s.engine = false) → nothing (.badreq bus)) ∧
    (ticksIn s.engine = false → nothing (.baseTick bus)) ∧
    (∀ n, (entryDue s n = false → nothing (.timedAction n bus)) ∧
      (isDue s (.aging n) = false → nothing (.agingTick n bus)) ∧
      (isDue s (.hold n) = false → nothing (.gateHoldExpiry n bus)) ∧
      (slotIsDue s n .wait = false → nothing (.chainWaitExpiry n bus)) ∧
      (slotIsDue s n .firing = false → nothing (.firingSlotRun n bus)) ∧
      (slotIsDue s n .stalled = false → nothing (.chainStallRetry n bus))) ∧
    (isDue s .owed = false → nothing (.owedRetry bus)) ∧
    (isDue s .delay = false → exec .attentionDelayExpiry s = .next s)

/-- R9, R18: of the kinds that name a check in their first word, a reference that is not current is refused NOCHECK, with the record's tag
only when the index is in range and the record is not FREE; of the modifying kinds, a live hold of another lane is refused HELD, with
the holder and the expiry; neither changes anything else. A modifying request that passes the hold test on an OPEN or SETTLING check and
is then refused leaves the requesting lane holding the check with a new expiry, and changes nothing else; SET_LINE and VOID_LINE name a
line of the check's list besides. A SET_LINE, VOID_LINE or REMAKE of a line that is not on the check's list is refused RANGE, and a
modifying request that passes the hold test on a PAID or VOIDED check is refused STATE (R9, R50); neither changes anything else. That a
TRANSFER (kind 10) refused RANGE still takes or renews the hold is log entry 17; that the bare tag of NOCHECK stands in bits 15:0 of the
first word is log entry 12. -/
def Obligations.ReferencesAndHoldsTested : Prop :=
  (∀ (c : Instr) (k : Nat) (bus : Bus) (s : State) (r : Req), c.request = some (k, bus) → Allowed k bus s r →
     let ref := reqWord r 0
     let rec_ := s.tb.check (lo16 ref)
     (k ∈ [2, 3, 4, 5, 6, 7, 8, 9, 10, 11, 12, 13, 14, 15, 24] →
       (1024 ≤ lo16 ref ∨ rec_.state = .free ∨ refTag ref ≠ rec_.tag) →
       ∃ t, exec c s = .next t ∧ Answered (s.afterHub bus) t r
         { code := .nocheck,
           body := if lo16 ref < 1024 ∧ rec_.state ≠ .free then [BitVec.ofNat 32 rec_.tag.toNat] else [] }) ∧
     (k ∈ [2, 3, 4, 5, 6, 8, 9, 10, 12, 13, 14] → Names s.tb ref (lo16 ref) → ¬ PassesHold rec_ r.lane r.takenAt →
       (k = 3 → lo16 (reqWord r 1) ∈ rec_.lines ∧ (s.tb.line (lo16 (reqWord r 1))).isSome = true) →
       (k = 4 → (reqWord r 1).toNat ∈ rec_.lines ∧ (s.tb.line (reqWord r 1).toNat).isSome = true) →
       ∃ t h, rec_.holder = some h ∧ exec c s = .next t ∧ Answered (s.afterHub bus) t r
         { code := .held, body := [BitVec.ofNat 32 (h % 256), rec_.expiry] }) ∧
     (k ∈ [3, 4, 24] → Names s.tb ref (lo16 ref) → (if k = 3 then lo16 (reqWord r 1) else (reqWord r 1).toNat) ∉ rec_.lines →
       ∃ t, exec c s = .next t ∧ Answered (s.afterHub bus) t r { code := .range, body := [] }) ∧
     (k ∈ [2, 3, 4, 5, 6, 8, 10, 12, 13, 14] → Names s.tb ref (lo16 ref) → (rec_.state = .paid ∨ rec_.state = .voided) →
       PassesHold rec_ r.lane r.takenAt →
       (k = 3 → lo16 (reqWord r 1) ∈ rec_.lines ∧ (s.tb.line (lo16 (reqWord r 1))).isSome = true) →
       (k = 4 → (reqWord r 1).toNat ∈ rec_.lines ∧ (s.tb.line (reqWord r 1).toNat).isSome = true) →
       ∃ t, exec c s = .next t ∧ Answered (s.afterHub bus) t r { code := .state, body := [] })) ∧
  (∀ (c : Instr) (k ci : Nat) (bus : Bus) (s : State) (r : Req), c.request = some (k, bus) → Allowed k bus s r →
     k ∈ [2, 3, 4, 5, 6, 8, 10, 12, 13, 14] → Names s.tb (reqWord r 0) ci → Live (s.tb.check ci) →
     PassesHold (s.tb.check ci) r.lane r.takenAt →
     (k = 3 → lo16 (reqWord r 1) ∈ (s.tb.check ci).lines ∧ (s.tb.line (lo16 (reqWord r 1))).isSome = true) →
     (k = 4 → (reqWord r 1).toNat ∈ (s.tb.check ci).lines ∧ (s.tb.line (reqWord r 1).toNat).isSome = true) →
     ∃ m t a, exec c s = .next t ∧ Answered m t r a ∧
       (isRefusal a.code = true → m = (s.afterHub bus).setTb (heldTables s.tb r ci)))

/-! ### Checks, lines and holds -/

/-- R1, R2, R10, R18: OPEN_CHECK in RUN (the lowest FREE record, its tag kept, counted), in LOAD (the record and the tag it names) and in
PARKING (refused PARKING), with its refusals: in LOAD, after the others, NOCHECK for an index outside the check table, RANGE for a tag of
0 and STATE for a record that is not FREE, in this order (log entry 15). That any rush byte but 0 sets the rush flag is log entry 14. -/
def Obligations.OpenCheckFillsRecord : Prop :=
  ∀ (bus : Bus) (s : State) (r : Req) (ci : Nat), Allowed 1 bus s r →
    let tag := if s.engine = .load then refTag (reqWord r 0) else (s.tb.check ci).tag
    let expiry := r.takenAt + BitVec.ofNat 32 s.tb.cfg.holdTime
    let c : Check :=
      { tag := tag, state := .opened, holder := some r.lane, expiry := expiry, openedAt := r.takenAt, opener := r.lane,
        policy := if reqByte r 1 0 = 0 then .onSend else .onClose, rush := reqByte r 1 1 != 0,
        serviceRate := (reqWord r 2).toNat, taxRates := s.tb.cfg.taxRates,
        split := if reqByte r 1 2 = 0 then .even else .byLine, payers := List.replicate (reqByte r 1 3) emptyPayer, lines := [],
        subtotal := 0, taxes := ⟨0, 0, 0, 0⟩, service := 0, total := 0, refund := 0, outstanding := 0, owed := false, chain := none,
        overdue := false }
    let a : Answer := { code := .ok, body := [refWord ci tag, r.takenAt, expiry] }
    let argsOk := reqByte r 1 0 ≤ 1 ∧ reqByte r 1 2 ≤ 1 ∧ (reqWord r 2).toNat ≤ 3000 ∧ 1 ≤ reqByte r 1 3 ∧ reqByte r 1 3 ≤ 8
    (s.engine = .parking →
      ∃ t, exec (.openCheck bus) s = .next t ∧ Answered (s.afterHub bus) t r { code := .parking, body := [] }) ∧
    (s.engine = .run → argsOk → ci < 1024 → (s.tb.check ci).state = .free → (∀ j, j < ci → (s.tb.check j).state ≠ .free) →
      ∃ t, exec (.openCheck bus) s = .next t ∧
        Answered ((s.afterHub bus).setTb ((putCheck s.tb ci c).setCLanes
          (tset laneCount0 s.tb.cLanes r.lane { s.tb.cLane r.lane with opened := satCount (s.tb.cLane r.lane).opened 1 }))) t r a) ∧
    (s.engine = .load → argsOk → lo16 (reqWord r 0) = ci → refTag (reqWord r 0) ≠ 0 → ci < 1024 → (s.tb.check ci).state = .free →
      ∃ t, exec (.openCheck bus) s = .next t ∧ Answered ((s.afterHub bus).setTb (putCheck s.tb ci c)) t r a) ∧
    (s.engine ≠ .parking → argsOk → (∀ j, j < 1024 → (s.tb.check j).state ≠ .free) →
      ∃ t, exec (.openCheck bus) s = .next t ∧ Answered (s.afterHub bus) t r { code := .full, body := [] }) ∧
    (s.engine ≠ .parking → ¬ argsOk →
      ∃ t, exec (.openCheck bus) s = .next t ∧ Answered (s.afterHub bus) t r { code := .range, body := [] }) ∧
    (let refuses := fun (code : ResultCode) => ∃ t, exec (.openCheck bus) s = .next t ∧
       Answered (s.afterHub bus) t r { code := code, body := [] }
     s.engine = .load → argsOk → (∃ j, j < 1024 ∧ (s.tb.check j).state = .free) → lo16 (reqWord r 0) = ci →
       (1024 ≤ ci → refuses .nocheck) ∧
       (ci < 1024 → refTag (reqWord r 0) = 0 → refuses .range) ∧
       (ci < 1024 → refTag (reqWord r 0) ≠ 0 → (s.tb.check ci).state ≠ .free → refuses .state))

/-- R5, R8, R11, R12, R18, R23, R28, R58, R64, R66, R95: ADD_LINE that passes its tests, on a check that does not close by it. A line
carrying the restored-FIRED mark (LOAD only) skips the intake and stock tests and reserves nothing. And its refusals from the room test on:
FULL, RANGE and FROZEN for its arguments, CLOSED with the first station that refuses the line, OUT with the first item that is short and
its avail, LIMIT; each leaves only the hold. That CLOSED names the station in a byte is log entry 12. -/
def Obligations.AddLineAppendsReservesAndRecomputes : Prop :=
  ∀ (bus : Bus) (s : State) (r : Req) (ci id : Nat) (a : Assign), Allowed 2 bus s r → Names s.tb (reqWord r 0) ci →
    let c := s.tb.check ci
    let i := lo16 (reqWord r 1)
    let qty := reqByte r 1 2
    let restored := (reqWord r 2).getLsbD 24
    let demand := if restored then [] else demandOf s.tb i qty
    let l : Line :=
      { check := ci, item := i, qty := qty, price := (s.tb.item i).prices.get s.tb.band, taxClass := (s.tb.item i).taxClass,
        discount := 0, net := 0, modifier := reqByte r 1 3, group := reqByte r 2 0, assign := a, fired := restored, voided := false,
        isRemake := false, isCopy := false, isTemplate := decide (1 ≤ reqByte r 2 0), made1 := false, made2 := false,
        made3 := false }
    let ls := s.tb.linesOf c.lines ++ [l]
    let f := computeBill c.split c.taxRates c.serviceRate c.payers ls
    let refuses := fun (a : Answer) => ∃ t, exec (.addLine bus) s = .next t ∧
      Answered ((s.afterHub bus).setTb (heldTables s.tb r ci)) t r a
    let argsOk := 1 ≤ i ∧ i ≤ 511 ∧ (s.tb.item i).defined = true ∧ 1 ≤ qty ∧ qty ≤ 99 ∧ reqByte r 2 0 ≤ 7 ∧
      (restored = true → s.engine = .load)
    let named := assignMembers (reqByte r 2 1)
    Live c → PassesHold c r.lane r.takenAt →
    ((64 ≤ c.lines.length ∨ ∀ j, j < 8192 → (s.tb.line j).isSome = true) → refuses { code := .full, body := [] }) ∧
    (c.lines.length < 64 → id < 8192 → s.tb.line id = none →
      (¬ argsOk → refuses { code := .range, body := [] }) ∧
      (argsOk → (reqWord r 2).getLsbD 16 = true →
        ((∃ p, p ∈ named ∧ c.payers.length < p) → refuses { code := .range, body := [] }) ∧
        ((∀ p, p ∈ named → p ≤ c.payers.length) → (∃ p, p ∈ named ∧ (c.payers[p - 1]?).map (·.status) = some .paid) →
          refuses { code := .frozen, body := [] }))) ∧
    (c.lines.length < 64 → id ∉ c.lines → id < 8192 → s.tb.line id = none → (∀ j, j < id → (s.tb.line j).isSome = true) → argsOk →
    (if (reqWord r 2).getLsbD 16 then testAssign c (reqByte r 2 1) = .ok a else a = .pool) →
    let shut := (stationsOfItem s.tb i).find? (fun n => !acceptsLine (s.tb.station n) c.openedAt)
    let short := demand.find? (fun d => decide ((s.tb.item d.1).avail < d.2))
    (∀ n, restored = false → shut = some n → refuses { code := .closed, body := [BitVec.ofNat 32 (n % 256)] }) ∧
    (∀ d, restored = false → shut = none → short = some d →
      refuses { code := .out, body := [BitVec.ofNat 32 d.1, BitVec.ofNat 32 (s.tb.item d.1).avail] }) ∧
    ((restored = false → shut = none) → short = none → 99999999 < totalOf c.taxRates c.serviceRate ls →
      refuses { code := .limit, body := [] }) ∧
    ((restored = false → (∀ n, n ∈ stationsOfItem s.tb i → acceptsLine (s.tb.station n) c.openedAt = true) ∧
      (demand.map (·.1)).Nodup ∧ ∀ d, d ∈ demand → d.2 ≤ (s.tb.item d.1).avail) →
    totalOf c.taxRates c.serviceRate ls ≤ 99999999 → (c.state = .settling → allDone f.payers = false) →
    ∃ m t X ns, exec (.addLine bus) s = .next t ∧ Committed (s.afterHub bus) m X ns ∧
      Answered m t r { code := .ok, body := [BitVec.ofNat 32 id, BitVec.ofNat 32 (lineNet l), BitVec.ofNat 32 f.subtotal,
        BitVec.ofNat 32 f.total, r.takenAt + BitVec.ofNat 32 s.tb.cfg.holdTime] } ∧
      X.checks = tset check0 s.tb.checks ci
        (Check.withFigures { heldCheck s.tb c r.lane r.takenAt with lines := c.lines ++ [id] } f) ∧
      X.line id = some { l with net := lineNet l } ∧
      (∀ j, j ≠ id → X.line j =
        if j ∈ c.lines then (s.tb.line j).map (fun x => { x with net := lineNet x }) else s.tb.line j) ∧
      StockMoved s X (demand.map (·.1)) (fun k x => { x with reserved := x.reserved + demandOn demand k }) (fun _ x => x) ns ∧
      SameSettings s.tb X ∧ SameKitchen s.tb X))

/-- R4, R7, R8, R13, R18, R23, R28, R49, R50, R152: SET_LINE that passes its tests with at least one change mark; SET_LINE with no mark,
which changes nothing but the hold; and its refusals from the voided line on: STATE, RANGE, FROZEN, ROLE, LIMIT, each of which leaves only
the hold. A check in SETTLING whose payers are then all done closes by it, where it has no line left to send and no chain: the refund
notice, the freeing, and in the result that it closed and the refund due (after R13's own fields: log entry 44). -/
def Obligations.SetLineChangesAndRecomputes : Prop :=
  ∀ (bus : Bus) (s : State) (r : Req) (ci : Nat) (l : Line) (a : Assign), Allowed 3 bus s r → Names s.tb (reqWord r 0) ci →
    let c := s.tb.check ci
    let id := lo16 (reqWord r 1)
    let mark := fun k => (reqByte r 1 2).testBit k
    let g := reqByte r 2 0
    let l1 : Line := if mark 0 then
      { l with group := g, isTemplate := if l.isCopy ∨ l.isRemake ∨ l.group = g then l.isTemplate else decide (1 ≤ g) } else l
    let l2 : Line :=
      { l1 with assign := if mark 1 then a else l.assign, modifier := if mark 2 then reqByte r 2 2 else l.modifier,
                discount := if mark 3 then reqByte r 2 3 else l.discount }
    let ls := linesWith s.tb c.lines id (fun _ => l2)
    let f := computeBill c.split c.taxRates c.serviceRate c.payers ls
    let refuses := fun (code : ResultCode) => ∃ t, exec (.setLine bus) s = .next t ∧
      Answered ((s.afterHub bus).setTb (heldTables s.tb r ci)) t r { code := code, body := [] }
    let named := assignMembers (reqByte r 2 1)
    let inRange := (mark 0 = true → g ≤ 7) ∧ (mark 3 = true → reqByte r 2 3 ≤ 100)
    let mayDisc := (s.tb.lane r.lane).role = .supervisor ∨ (s.tb.lane r.lane).discount = true
    Live c → PassesHold c r.lane r.takenAt → id ∈ c.lines → s.tb.line id = some l →
    (l.voided = true → refuses .state) ∧
    (l.voided = false →
      ((¬ inRange ∨ (mark 1 = true ∧ ∃ p, p ∈ named ∧ c.payers.length < p)) → refuses .range) ∧
      (inRange → mark 1 = true → (∀ p, p ∈ named → p ≤ c.payers.length) →
        (∃ p, p ∈ named ∧ (c.payers[p - 1]?).map (·.status) = some .paid) → refuses .frozen) ∧
      (inRange → (mark 1 = true → testAssign c (reqByte r 2 1) = .ok a) → mark 3 = true → ¬ mayDisc → refuses .role)) ∧
    (l.voided = false → inRange → (mark 1 = true → testAssign c (reqByte r 2 1) = .ok a) → (mark 3 = true → mayDisc) →
    (99999999 < totalOf c.taxRates c.serviceRate ls →
      ∃ t, exec (.setLine bus) s = .next t ∧ Answered ((s.afterHub bus).setTb (heldTables s.tb r ci)) t r { code := .limit, body := [] }) ∧
    (totalOf c.taxRates c.serviceRate ls ≤ 99999999 → reqByte r 1 2 % 16 = 0 →
      ∃ t, exec (.setLine bus) s = .next t ∧ Answered ((s.afterHub bus).setTb (heldTables s.tb r ci)) t r
        { code := .ok, body := [BitVec.ofNat 32 l.net, BitVec.ofNat 32 c.subtotal, BitVec.ofNat 32 c.total] }) ∧
    (totalOf c.taxRates c.serviceRate ls ≤ 99999999 → reqByte r 1 2 % 16 ≠ 0 → c.state = .settling → allDone f.payers = true →
      unsent s.tb c.lines = [] → chainsOn s.tb ci = [] →
      let freed := c.outstanding = 0 ∧ c.owed = false
      ∃ m t X, exec (.setLine bus) s = .next t ∧
        Committed (s.afterHub bus) m X (if 0 < f.refund ∧ s.engine ≠ .load then
          [{ kind := .checkRefund, time := s.tb.time, a := ci, b := f.refund }] else []) ∧
        Answered m t r { code := .ok, body := [BitVec.ofNat 32 (lineNet l2), BitVec.ofNat 32 f.subtotal, BitVec.ofNat 32 f.total, 1,
                                               BitVec.ofNat 32 f.refund] } ∧
        X.checks = tset check0 s.tb.checks ci
          (if freed then freeCheck (nextTag c.tag)
           else { (heldCheck s.tb c r.lane r.takenAt).withFigures f with state := .paid, holder := none }) ∧
        (freed → ∀ j, X.line j = if j ∈ c.lines then none else s.tb.line j) ∧
        (¬ freed → NetsWritten s.tb X c.lines id (fun _ => l2)) ∧ SameSettings s.tb X ∧ SameKitchen s.tb X ∧ SameStock s.tb X) ∧
    (totalOf c.taxRates c.serviceRate ls ≤ 99999999 → reqByte r 1 2 % 16 ≠ 0 → (c.state = .settling → allDone f.payers = false) →
      ∃ t X, exec (.setLine bus) s = .next t ∧ Answered ((s.afterHub bus).setTb X) t r
        { code := .ok, body := [BitVec.ofNat 32 (lineNet l2), BitVec.ofNat 32 f.subtotal, BitVec.ofNat 32 f.total] } ∧
        X.checks = tset check0 s.tb.checks ci ((heldCheck s.tb c r.lane r.takenAt).withFigures f) ∧
        NetsWritten s.tb X c.lines id (fun _ => l2) ∧ SameSettings s.tb X ∧ SameKitchen s.tb X ∧ SameStock s.tb X))

/-- R4, R14, R18, R23, R49, R50, R58, R65, R66, R75, R86, R87: VOID_LINE, with what R101 and R104 make of its withdrawals. An UNFIRED line
releases its demand. A FIRED line needs VOID_FIRED: its ticket lines that no bump has consumed are struck and their portions released in component
order, tickets left without an unstruck line are withdrawn, and the positions a bump has made are counted as voided after made. A check in
SETTLING whose payers are then all done closes by it, where it has no other line left to send and no chain: the refund notice before the
level notices (log entry 27), and the freeing where no ticket and no owed fire is left. -/
def Obligations.VoidLineReleasesAndRecomputes : Prop :=
  ∀ (bus : Bus) (s : State) (r : Req) (ci : Nat) (l : Line), Canonical s → Allowed 4 bus s r → Names s.tb (reqWord r 0) ci →
    let c := s.tb.check ci
    let id := (reqWord r 1).toNat
    let ls := linesWith s.tb c.lines id (fun l => { l with voided := true })
    let f := computeBill c.split c.taxRates c.serviceRate c.payers ls
    let struck := if l.fired = true then [id] else []
    let demand := if l.fired = true then (toStrike s.tb ci id).map (fun x => (x.item, x.qty)) else demandOf s.tb l.item l.qty
    let made := if l.fired = true then madeDemand s.tb l else []
    Live c → PassesHold c r.lane r.takenAt → id ∈ c.lines → s.tb.line id = some l →
    (l.voided = true → ∃ t, exec (.voidLine bus) s = .next t ∧
      Answered ((s.afterHub bus).setTb (heldTables s.tb r ci)) t r { code := .state, body := [] }) ∧
    (l.voided = false → l.fired = true → (s.tb.lane r.lane).role ≠ .supervisor → (s.tb.lane r.lane).voidFired = false →
      ∃ t, exec (.voidLine bus) s = .next t ∧
        Answered ((s.afterHub bus).setTb (heldTables s.tb r ci)) t r { code := .role, body := [] }) ∧
    (l.voided = false → (l.fired = true → (s.tb.lane r.lane).role = .supervisor ∨ (s.tb.lane r.lane).voidFired = true) →
      let closed := c.state = .settling ∧ allDone f.payers = true
      let left := c.outstanding - (fullyStruckBy s.tb ci struck).length
      let freed := closed ∧ left = 0 ∧ c.owed = false
      (closed → (∀ j, j ∈ unsent s.tb c.lines → j = id) ∧ chainsOn s.tb ci = []) →
      ∃ m t X ns, exec (.voidLine bus) s = .next t ∧
        Committed (s.afterHub bus) m X
          ((if closed ∧ 0 < f.refund ∧ s.engine ≠ .load then
            [{ kind := .checkRefund, time := s.tb.time, a := ci, b := f.refund }] else []) ++ ns) ∧
        Answered m t r { code := .ok, body := [BitVec.ofNat 32 f.subtotal, BitVec.ofNat 32 f.total, BitVec.ofNat 32 f.refund,
                                               if closed then 1 else 0] } ∧
        X.checks = tset check0 s.tb.checks ci
          (let c1 : Check := { (heldCheck s.tb c r.lane r.takenAt).withFigures f with outstanding := left }
           if freed then freeCheck (nextTag c.tag) else if closed then { c1 with state := .paid, holder := none } else c1) ∧
        (freed → ∀ j, X.line j = if j ∈ c.lines then none else s.tb.line j) ∧
        (¬ freed → NetsWritten s.tb X c.lines id (fun l => { l with voided := true })) ∧
        StockMoved s X (firstTouches (demand.map (·.1))) (fun k x => { x with reserved := x.reserved - demandOn demand k })
          (fun k x => { x with unmade := tally demand k x.unmade, afterMade := tally made k x.afterMade }) ns ∧
        Struck (s.engine == .load) s.tb X ci struck ∧
        SameSettings s.tb X ∧ X.owed = s.tb.owed ∧ X.slots = s.tb.slots ∧ X.cLanes = s.tb.cLanes ∧ X.cEngine = s.tb.cEngine)

/-- R15, R18, R75, R78 to R82, R99 to R104: SEND fires the UNFIRED, unvoided lines of the group it names (ALL is 0xFF): whole when ticket
memory holds its tickets, each built once in the lowest free records, with what the queues, gates and arbiters do; else not at all; in
LOAD it is refused STATE, after its group has been tested (log entry 38). -/
def Obligations.SendFiresWholeOrNotAtAll : Prop :=
  ∀ (bus : Bus) (s : State) (r : Req) (ci : Nat), Allowed 5 bus s r → Names s.tb (reqWord r 0) ci →
    let c := s.tb.check ci
    let g := (reqWord r 1).toNat
    let ids := c.lines.filter (fun id => match s.tb.line id with
      | some l => !l.fired && !l.voided && (g == 0xFF || l.group == g)
      | none => false)
    let plan := planFire s.tb ids
    let held := (s.afterHub bus).setTb (heldTables s.tb r ci)
    Live c → PassesHold c r.lane r.takenAt →
    (7 < g → g ≠ 0xFF → ∃ t, exec (.send bus) s = .next t ∧ Answered held t r { code := .range, body := [] }) ∧
    ((g ≤ 7 ∨ g = 0xFF) → s.engine = .load →
      ∃ t, exec (.send bus) s = .next t ∧ Answered held t r { code := .state, body := [] }) ∧
    ((g ≤ 7 ∨ g = 0xFF) → s.engine ≠ .load → freeTickets s.tb < plan.length →
      ∃ t, exec (.send bus) s = .next t ∧ Answered held t r { code := .full, body := [] }) ∧
    ((g ≤ 7 ∨ g = 0xFF) → s.engine ≠ .load → plan.length ≤ freeTickets s.tb →
      ∃ m t X, exec (.send bus) s = .next t ∧ Committed (s.afterHub bus) m X [] ∧
        Answered m t r { code := .ok, body := [BitVec.ofNat 32 ids.length, BitVec.ofNat 32 plan.length] } ∧
        X.checks = tset check0 s.tb.checks ci
          { heldCheck s.tb c r.lane r.takenAt with outstanding := c.outstanding + plan.length } ∧
        (∀ j, X.line j = if j ∈ ids then (s.tb.line j).map (fun l => { l with fired := true }) else s.tb.line j) ∧
        Fired s.tb X ci false none plan ∧
        SameSettings s.tb X ∧ SameStock s.tb X ∧ X.owed = s.tb.owed ∧ X.slots = s.tb.slots ∧ X.cLanes = s.tb.cLanes ∧
        X.cEngine = s.tb.cEngine)

/-- R4, R16, R18, R58, R65, R66, R75, R86, R87, R101, R104, R138: VOID_CHECK. A check that is not OPEN is refused STATE, from SETTLING with the
hold renewed; one with a FIRED, unvoided line needs VOID_FIRED. An OPEN check is voided: every unvoided line is voided as a VOID_LINE
would void it, its chains end with their notices before the level notices (log entry 27), and it is freed at once where no ticket and no
owed fire is left, else stays VOIDED. -/
def Obligations.VoidCheckFreesCheck : Prop :=
  ∀ (bus : Bus) (s : State) (r : Req) (ci : Nat), Canonical s → Allowed 6 bus s r → Names s.tb (reqWord r 0) ci →
    let c := s.tb.check ci
    let ids := c.lines.filter (fun id => match s.tb.line id with
      | some l => !l.voided
      | none => false)
    let struck := ids.filter (fun id => match s.tb.line id with
      | some l => l.fired
      | none => false)
    let demand := ids.flatMap (fun id => match s.tb.line id with
      | some l => if l.fired = true then (toStrike s.tb ci id).map (fun x => (x.item, x.qty)) else demandOf s.tb l.item l.qty
      | none => [])
    let made := struck.flatMap (fun id => match s.tb.line id with
      | some l => madeDemand s.tb l
      | none => [])
    let gone := fullyStruckBy s.tb ci struck
    let ends := chainsOn s.tb ci
    let freed := c.outstanding ≤ gone.length ∧ c.owed = false
    let f := computeBill c.split c.taxRates c.serviceRate c.payers
      ((s.tb.linesOf c.lines).map (fun l => { l with voided := true }))
    PassesHold c r.lane r.takenAt →
    (c.state = .settling → ∃ t, exec (.voidCheck bus) s = .next t ∧
      Answered ((s.afterHub bus).setTb (heldTables s.tb r ci)) t r { code := .state, body := [] }) ∧
    (c.state = .paid ∨ c.state = .voided → ∃ t, exec (.voidCheck bus) s = .next t ∧
      Answered (s.afterHub bus) t r { code := .state, body := [] }) ∧
    (c.state = .opened → struck ≠ [] → (s.tb.lane r.lane).role ≠ .supervisor → (s.tb.lane r.lane).voidFired = false →
      ∃ t, exec (.voidCheck bus) s = .next t ∧
        Answered ((s.afterHub bus).setTb (heldTables s.tb r ci)) t r { code := .role, body := [] }) ∧
    (c.state = .opened → (struck ≠ [] → (s.tb.lane r.lane).role = .supervisor ∨ (s.tb.lane r.lane).voidFired = true) → c.lines.Nodup →
      ∃ m t X ns, exec (.voidCheck bus) s = .next t ∧ Committed (s.afterHub bus) m X (chainEndNotices s ci ends ++ ns) ∧
        Answered m t r { code := .ok, body := [BitVec.ofNat 32 ids.length, BitVec.ofNat 32 gone.length] } ∧
        X.check ci = (if freed then freeCheck (nextTag c.tag)
          else { (heldCheck s.tb c r.lane r.takenAt).withFigures f with
                 state := .voided, holder := none, outstanding := c.outstanding - gone.length,
                 chain := if c.chain ∈ ends.map some then none else c.chain }) ∧
        (∀ j, j ≠ ci → X.check j = s.tb.check j) ∧
        (∀ j, X.line j = if j ∈ c.lines then
            (if freed then none else (s.tb.line j).map (fun l => { l with voided := true, net := 0 })) else s.tb.line j) ∧
        StockMoved s X (firstTouches (demand.map (·.1))) (fun k x => { x with reserved := x.reserved - demandOn demand k })
          (fun k x => { x with unmade := tally demand k x.unmade, afterMade := tally made k x.afterMade }) ns ∧
        Struck (s.engine == .load) s.tb X ci struck ∧ ChainsEnded s.tb X ends ∧
        SameSettings s.tb X ∧ X.owed = s.tb.owed ∧ X.cLanes = s.tb.cLanes ∧ X.cEngine = s.tb.cEngine)

/-- R17, R53, R73, R140 with the layouts of 12: the four reading requests answer from the tables as they stand and change nothing, each
body word by word. The model's choices in them: the lapsed mark without a holder, and what the count of a path counts, are log entry 35;
that READ_SPLIT carries no refund due is log entry 48; that READ_ITEM's fields hold 0 where the item's kind has none is log entry 55;
READ_CHAIN's packing is log entry 12, and its timer and its mark of a spacing wait
log entry 45. -/
def Obligations.ReadsChangeNothing : Prop :=
  (∀ (bus : Bus) (s : State) (r : Req) (ci : Nat),
    let m := s.afterHub bus
    let c := s.tb.check ci
    let word := fun (n : Nat) => BitVec.ofNat 32 n
    let bytes := fun (b0 b1 b2 b3 : Nat) => word (b0 % 256 + b1 % 256 * 256 + b2 % 256 * 65536 + b3 % 256 * 16777216)
    let halfs := fun (lo hi : Nat) => word (lo % 65536 + hi % 65536 * 65536)
    let bit := fun (b : Bool) => if b = true then 1 else 0
    let isLate := 1 ≤ (r.takenAt - c.expiry).toNat ∧ (r.takenAt - c.expiry).toNat ≤ 2147483647
    let lineAt := fun (id : Nat) => match s.tb.line id with
      | some l =>
        [word (id % 8192 + l.group % 8 * 8192 + l.item % 512 * 65536 + l.taxClass % 4 * 33554432 + bit l.fired * 134217728 +
           bit l.voided * 268435456 + bit l.isRemake * 536870912 + bit l.isCopy * 1073741824 + bit l.isTemplate * 2147483648),
         word l.price, word l.net, bytes l.qty l.discount l.modifier ((l.assign.members.map (fun p => 2 ^ (p - 1))).sum)]
      | none => [0, 0, 0, 0]
    let payerAt := fun (x : Payer × Nat) =>
      [bytes x.2 x.1.status.code x.1.tenders 0, word x.1.share, word x.1.tendered, word x.1.tips, word x.1.change]
    (Allowed 7 bus s r → Names s.tb (reqWord r 0) ci →
      (reqByte r 1 2 = 0 → ∃ t, exec (.readCheck bus) s = .next t ∧ Answered m t r
        { code := .ok,
          body := [bytes c.state.code (c.holder.getD 255) (if c.holder ≠ none ∧ isLate then 1 else 0) c.opener, c.expiry, c.openedAt,
                   bytes c.policy.code (bit c.rush) c.split.code c.payers.length, halfs c.serviceRate c.outstanding,
                   halfs c.taxRates.c0 c.taxRates.c1, halfs c.taxRates.c2 c.taxRates.c3,
                   bytes c.lines.length (bit c.owed) (bit c.overdue) (c.chain.getD 255), word c.subtotal, word c.taxes.c0,
                   word c.taxes.c1, word c.taxes.c2, word c.taxes.c3, word c.service, word c.total, word c.refund] }) ∧
      (reqByte r 1 2 = 1 → ∃ t, exec (.readCheck bus) s = .next t ∧
        Answered m t r { code := .ok, body := ((c.lines.drop (lo16 (reqWord r 1))).take 4).flatMap lineAt }) ∧
      (2 ≤ reqByte r 1 2 → ∃ t, exec (.readCheck bus) s = .next t ∧ Answered m t r { code := .range, body := [] })) ∧
    (let first := (reqWord r 1).toNat
     Allowed 15 bus s r → Names s.tb (reqWord r 0) ci →
      (1 ≤ first → first ≤ 8 → ∃ t, exec (.readSplit bus) s = .next t ∧ Answered m t r
        { code := .ok,
          body := bytes c.state.code c.split.code c.payers.length first ::
            (((c.payers.zipIdx 1).drop (first - 1)).take 3).flatMap payerAt }) ∧
      (first = 0 ∨ 8 < first → ∃ t, exec (.readSplit bus) s = .next t ∧ Answered m t r { code := .range, body := [] })) ∧
    (let i := (reqWord r 0).toNat
     let it := s.tb.item i
     let part := fun (k : Nat) => (it.comps[k]?).map (fun x => (x, s.tb.item x.1))
     let partWord := fun (k : Nat) => word (((part k).map (fun x => x.1.1 + x.1.2 * 65536 + x.2.level.code * 16777216)).getD 0)
     let partAvail := fun (k : Nat) => ((part k).map (fun x => x.2.onHand - x.2.reserved)).getD 0
     let makes := ((it.comps.map (fun x => ((s.tb.item x.1).onHand - (s.tb.item x.1).reserved) / x.2)).min?).getD 0
     Allowed 19 bus s r →
      (1 ≤ i → i ≤ 511 → ∃ t, exec (.readItem bus) s = .next t ∧ Answered m t r
        { code := .ok,
          body := [word (i + it.kind.code * 65536 + bit it.defined * 16777216),
                   bytes it.station it.taxClass it.level.code (bit it.short + bit it.wasShort * 2), halfs s.tb.band it.low,
                   word it.prices.c0, word it.prices.c1, word it.prices.c2, word it.prices.c3, halfs it.onHand it.reserved,
                   halfs (it.onHand - it.reserved) makes, partWord 0, partWord 1, partWord 2, halfs (partAvail 0) (partAvail 1),
                   halfs (partAvail 2) 0] }) ∧
      (i = 0 ∨ 511 < i → ∃ t, exec (.readItem bus) s = .next t ∧ Answered m t r { code := .range, body := [] })) ∧
    (let n := (reqWord r 0).toNat
     let y := s.tb.slot n
     Allowed 32 bus s r →
      (n < 16 → ∃ t, exec (.readChain bus) s = .next t ∧ Answered m t r
        { code := .ok,
          body := [bytes y.state.code 0 0 0, refWord y.check y.tag, bytes y.first y.cur 0 0, word y.reps, bytes y.mode.code 0 0 0,
                   word y.passCount, word y.passesDone, word y.interval, word y.phase,
                   bytes (y.next.getD 255) (bit y.timer.isSome) ((y.timer.map (·.level)).getD 0) 0, word ((y.timer.map (·.left)).getD 0),
                   word (if y.state = .waiting ∧ (s.tb.entry y.cur).kind = .fire then 1 else 0),
                   word (pathOf s.tb y.first).1.length] }) ∧
      (16 ≤ n → ∃ t, exec (.readChain bus) s = .next t ∧ Answered m t r { code := .range, body := [] }))) ∧
  [CheckState.free, .opened, .settling, .paid, .voided].map CheckState.code = [0, 1, 2, 3, 4] ∧
  [PayerStatus.unpaid, .part, .paid].map PayerStatus.code = [0, 1, 2] ∧ [FirePolicy.onSend, .onClose].map FirePolicy.code = [0, 1] ∧
  [SplitMode.even, .byLine].map SplitMode.code = [0, 1] ∧ [ItemKind.simple, .composite].map ItemKind.code = [0, 1] ∧
  [Level.available, .low, .out].map Level.code = [0, 1, 2] ∧ [ChainMode.once, .count, .loop].map ChainMode.code = [0, 1, 2] ∧
  [ChainState.idle, .armed, .firing, .waiting, .stalled, .done].map ChainState.code = [0, 1, 2, 3, 4, 5]

/-- R18 to R21: TAKE, RELEASE and TRANSFER of a check, and BREAK of one with a holder and of one without. A TRANSFER to a lane that may hold
no check is refused RANGE; that it takes or renews the hold all the same is log entry 17. That the results give the holder as a byte,
0xFF for none, is log entry 12. -/
def Obligations.HoldRequestsMoveTheHold : Prop :=
  ∀ (bus : Bus) (s : State) (r : Req) (ci : Nat), Names s.tb (reqWord r 0) ci →
    let m := s.afterHub bus
    let c := s.tb.check ci
    let expiry := r.takenAt + BitVec.ofNat 32 s.tb.cfg.holdTime
    let target := (reqWord r 1).toNat
    let freed := putCheck s.tb ci { c with holder := none }
    let brk : Nat → Notice := fun h => { kind := .holdBroken, time := s.tb.time, a := ci, b := h }
    (Allowed 8 bus s r → Live c → PassesHold c r.lane r.takenAt → ∃ t, exec (.takeHold bus) s = .next t ∧
      Answered (m.setTb (putCheck s.tb ci { c with holder := some r.lane, expiry := expiry })) t r
        { code := .ok, body := [BitVec.ofNat 32 r.lane, expiry] }) ∧
    (Allowed 9 bus s r → PassesHold c r.lane r.takenAt → ∃ t, exec (.releaseHold bus) s = .next t ∧
      Answered (m.setTb freed) t r { code := .ok, body := [0xFF, c.expiry] }) ∧
    (Allowed 10 bus s r → Live c → PassesHold c r.lane r.takenAt → target < s.tb.cfg.laneCount →
      ((s.tb.lane target).role = .till ∨ (s.tb.lane target).role = .supervisor) → ∃ t, exec (.transfer bus) s = .next t ∧
      Answered (m.setTb (putCheck s.tb ci { c with holder := some target, expiry := expiry })) t r
        { code := .ok, body := [BitVec.ofNat 32 (target % 256), expiry] }) ∧
    (Allowed 10 bus s r → Live c → PassesHold c r.lane r.takenAt →
      (s.tb.cfg.laneCount ≤ target ∨ (s.tb.lane target).role = .off ∨ (s.tb.lane target).role = .station) →
      ∃ t, exec (.transfer bus) s = .next t ∧ Answered (m.setTb (heldTables s.tb r ci)) t r { code := .range, body := [] }) ∧
    (Allowed 11 bus s r → c.holder = none → ∃ t, exec (.breakHold bus) s = .next t ∧
      Answered (m.setTb freed) t r { code := .ok, body := [0xFF] }) ∧
    (∀ h, Allowed 11 bus s r → c.holder = some h → ∃ m' t, exec (.breakHold bus) s = .next t ∧
      Committed m m' freed (if s.engine = .load then [] else [brk h]) ∧
      Answered m' t r { code := .ok, body := [BitVec.ofNat 32 (h % 256)] })

/-! ### Payers and settlement -/

/-- R4, R18, R23, R24, R41 to R43, R49, R50: SET_PAYERS and SET_SPLIT and their refusals. A lowered count rewrites the assignments that name
a dropped payer; a change of mode keeps them. A check in SETTLING whose payers are then all done closes by either, where it has no line
left to send and no chain: the refund notice, the freeing where no ticket and no owed fire is left, and in the result that it closed.
That FROZEN names the payer in a byte is log entry 12; the figures of a check whose payers are all PAID once the others are dropped are log
entry 53. -/
def Obligations.SetPayersAndSetSplitRecompute : Prop :=
  (∀ (bus : Bus) (s : State) (r : Req) (ci : Nat), Allowed 12 bus s r → Names s.tb (reqWord r 0) ci →
     let c := s.tb.check ci
     let n := (reqWord r 1).toNat
     let keep : Line → Line := fun l =>
       { l with assign := if n < c.payers.length then assignOf (l.assign.members.filter (fun p => decide (p ≤ n))) else l.assign }
     let f := computeBill c.split c.taxRates c.serviceRate ((List.range n).map (fun i => c.payers.getD i emptyPayer))
       ((s.tb.linesOf c.lines).map keep)
     let rewritten := c.lines.filter (fun id => match s.tb.line id with
       | some l => (keep l).assign != l.assign
       | none => false)
     let held := (s.afterHub bus).setTb (heldTables s.tb r ci)
     let closed := c.state = .settling ∧ allDone f.payers = true
     let freed := c.outstanding = 0 ∧ c.owed = false
     Live c → PassesHold c r.lane r.takenAt →
     ((n = 0 ∨ 8 < n) → ∃ t, exec (.setPayers bus) s = .next t ∧ Answered held t r { code := .range, body := [] }) ∧
     (∀ i x, 1 ≤ n → n ≤ 8 → n ≤ i → c.payers[i]? = some x → x.tenders ≠ 0 →
       (∀ j y, n ≤ j → j < i → c.payers[j]? = some y → y.tenders = 0) →
       ∃ t, exec (.setPayers bus) s = .next t ∧
         Answered held t r { code := .frozen, body := [BitVec.ofNat 32 ((i + 1) % 256)] }) ∧
     (1 ≤ n → n ≤ 8 → (∀ i x, n ≤ i → c.payers[i]? = some x → x.tenders = 0) → closed → unsent s.tb c.lines = [] →
       chainsOn s.tb ci = [] →
       ∃ m t X, exec (.setPayers bus) s = .next t ∧
         Committed (s.afterHub bus) m X (if 0 < f.refund ∧ s.engine ≠ .load then
           [{ kind := .checkRefund, time := s.tb.time, a := ci, b := f.refund }] else []) ∧
         Answered m t r { code := .ok, body := [BitVec.ofNat 32 n, BitVec.ofNat 32 f.total, BitVec.ofNat 32 f.refund,
                                                BitVec.ofNat 32 rewritten.length, 1] } ∧
         X.checks = tset check0 s.tb.checks ci
           (if freed then freeCheck (nextTag c.tag)
            else { (heldCheck s.tb c r.lane r.takenAt).withFigures f with state := .paid, holder := none }) ∧
         (freed → ∀ j, X.line j = if j ∈ c.lines then none else s.tb.line j) ∧ (¬ freed → LinesWritten s.tb X c.lines keep) ∧
         SameSettings s.tb X ∧ SameKitchen s.tb X ∧ SameStock s.tb X) ∧
     (1 ≤ n → n ≤ 8 → (∀ i x, n ≤ i → c.payers[i]? = some x → x.tenders = 0) → ¬ closed →
       ∃ t X, exec (.setPayers bus) s = .next t ∧ Answered ((s.afterHub bus).setTb X) t r
         { code := .ok, body := [BitVec.ofNat 32 n, BitVec.ofNat 32 f.total, BitVec.ofNat 32 f.refund,
                                 BitVec.ofNat 32 rewritten.length, 0] } ∧
         X.checks = tset check0 s.tb.checks ci ((heldCheck s.tb c r.lane r.takenAt).withFigures f) ∧
         LinesWritten s.tb X c.lines keep ∧ SameSettings s.tb X ∧ SameKitchen s.tb X ∧ SameStock s.tb X)) ∧
  (∀ (bus : Bus) (s : State) (r : Req) (ci : Nat) (mode : SplitMode), Allowed 13 bus s r → Names s.tb (reqWord r 0) ci →
     let c := s.tb.check ci
     let f := computeBill mode c.taxRates c.serviceRate c.payers (s.tb.linesOf c.lines)
     let asks := (reqWord r 1).toNat = (match mode with | .even => 0 | .byLine => 1)
     let closed := c.state = .settling ∧ allDone f.payers = true
     let freed := c.outstanding = 0 ∧ c.owed = false
     Live c → PassesHold c r.lane r.takenAt →
     (2 ≤ (reqWord r 1).toNat → ∃ t, exec (.setSplit bus) s = .next t ∧
       Answered ((s.afterHub bus).setTb (heldTables s.tb r ci)) t r { code := .range, body := [] }) ∧
     (asks → closed → unsent s.tb c.lines = [] → chainsOn s.tb ci = [] →
       ∃ m t X, exec (.setSplit bus) s = .next t ∧
         Committed (s.afterHub bus) m X (if 0 < f.refund ∧ s.engine ≠ .load then
           [{ kind := .checkRefund, time := s.tb.time, a := ci, b := f.refund }] else []) ∧
         Answered m t r
           { code := .ok, body := (reqWord r 1) :: f.payers.map (fun p => BitVec.ofNat 32 p.share) ++ [BitVec.ofNat 32 f.refund, 1] } ∧
         X.checks = tset check0 s.tb.checks ci
           (if freed then freeCheck (nextTag c.tag)
            else { (Check.withFigures { heldCheck s.tb c r.lane r.takenAt with split := mode } f) with
                   state := .paid, holder := none }) ∧
         (freed → ∀ j, X.line j = if j ∈ c.lines then none else s.tb.line j) ∧
         (¬ freed → LinesWritten s.tb X c.lines (fun l => l)) ∧ SameSettings s.tb X ∧ SameKitchen s.tb X ∧ SameStock s.tb X) ∧
     (asks → ¬ closed →
       ∃ t X, exec (.setSplit bus) s = .next t ∧ Answered ((s.afterHub bus).setTb X) t r
         { code := .ok, body := (reqWord r 1) :: f.payers.map (fun p => BitVec.ofNat 32 p.share) ++ [BitVec.ofNat 32 f.refund, 0] } ∧
         X.checks = tset check0 s.tb.checks ci
           (Check.withFigures { heldCheck s.tb c r.lane r.takenAt with split := mode } f) ∧
         LinesWritten s.tb X c.lines (fun l => l) ∧ SameSettings s.tb X ∧ SameKitchen s.tb X ∧ SameStock s.tb X))

/-- R4, R18, R40, R44 to R50, R65, R138: TENDER, with its refusals from the payer number on, each of which leaves only the hold; and one that
passes its tests: the payer's record, the tip cap, the recomputation, PART or PAID, the lane's counters, and, where every payer is then
done, the entry to PAID with the end of the check's chains, and the freeing, which releases the demand of lines an ON_SEND check never
sent. The close of an ON_CLOSE check with lines left to fire is the next statement's. That the result shows PAID (3) for a check freed in
the same completion is log entry 22; the notices come as refund, chains, levels (log entry 27). -/
def Obligations.TenderRecordsAndSettles : Prop :=
  ∀ (bus : Bus) (s : State) (r : Req) (ci : Nat), Allowed 14 bus s r → Names s.tb (reqWord r 0) ci →
    let c := s.tb.check ci
    let p := (reqWord r 1).toNat
    let amount := (reqWord r 2).toNat
    let tip := (reqWord r 3).toNat
    let x := c.payers.getD (p - 1) emptyPayer
    let took := min tip ((x.share * s.tb.cfg.tipCap + 50) / 100)
    let x1 : Payer :=
      { x with tendered := x.tendered + amount, tenders := min (x.tenders + 1) 255, tips := min (x.tips + took) 99999999 }
    let f := computeBill c.split c.taxRates c.serviceRate (c.payers.set (p - 1) x1) (s.tb.linesOf c.lines)
    let y0 := f.payers.getD (p - 1) emptyPayer
    let y := if y0.status = .paid then y0 else { y0 with status := .part }
    let ps := f.payers.set (p - 1) y
    let closed := allDone ps
    let c1 : Check := { (heldCheck s.tb c r.lane r.takenAt).withFigures f with state := .settling, payers := ps }
    let paid : Check := { c1 with state := .paid, holder := none }
    let freed := closed = true ∧ c.outstanding = 0 ∧ c.owed = false
    let ends := if closed = true then chainsOn s.tb ci else []
    let paid1 : Check := { paid with chain := if c.chain ∈ ends.map some then none else c.chain }
    let dropped := if freed then demandOfLines s.tb (unsent s.tb c.lines).eraseDups else []
    let a : Answer :=
      { code := if took < tip then .clamped else .ok,
        body := [BitVec.ofNat 32 y.status.code, BitVec.ofNat 32 y.share, BitVec.ofNat 32 y.tendered, BitVec.ofNat 32 y.tenders,
                 BitVec.ofNat 32 y.change, BitVec.ofNat 32 took, if closed = true then 3 else 2, BitVec.ofNat 32 f.refund,
                 BitVec.ofNat 32 f.total, if closed = true then 1 else 0] }
    let refuses := fun (a : Answer) => ∃ t, exec (.tender bus) s = .next t ∧
      Answered ((s.afterHub bus).setTb (heldTables s.tb r ci)) t r a
    let amountsOk := amount ≤ 99999999 ∧ tip ≤ 99999999 ∧ x.tendered + amount ≤ 99999999 ∧ (amount = 0 → x.share = 0)
    Live c → PassesHold c r.lane r.takenAt →
    ((p = 0 ∨ c.payers.length < p) → refuses { code := .range, body := [] }) ∧
    (1 ≤ p → p ≤ c.payers.length → x.status = .paid → refuses
      { code := .frozen, body := [BitVec.ofNat 32 x.share, BitVec.ofNat 32 x.tendered, BitVec.ofNat 32 x.change] }) ∧
    (1 ≤ p → p ≤ c.payers.length → x.status ≠ .paid → ¬ amountsOk → refuses { code := .range, body := [] }) ∧
    (1 ≤ p → p ≤ c.payers.length → x.status ≠ .paid → amountsOk → (closed = true → c.policy = .onClose → unsent s.tb c.lines = []) →
    ∃ m t X ns, exec (.tender bus) s = .next t ∧
      Committed (s.afterHub bus) m X
        ((if closed = true ∧ 0 < f.refund ∧ s.engine ≠ .load then
          [{ kind := .checkRefund, time := s.tb.time, a := ci, b := f.refund }] else []) ++ chainEndNotices s ci ends ++ ns) ∧
      Answered m t r a ∧
      (∀ j, X.check j = if j = ci then (if freed then freeCheck (nextTag c.tag) else if closed = true then paid1 else c1)
        else s.tb.check j) ∧
      (∀ j, X.line j = if j ∈ c.lines then
          (if freed then none else (s.tb.line j).map (fun l => { l with net := lineNet l }))
        else s.tb.line j) ∧
      (∀ l, X.cLane l = if l = r.lane ∧ s.engine ≠ .load then
          { s.tb.cLane l with
            tenders := min ((s.tb.cLane l).tenders + 1) 4294967295,
            tenderTotal := min ((s.tb.cLane l).tenderTotal + amount) 1099511627775,
            tipTotal := min ((s.tb.cLane l).tipTotal + took) 1099511627775 }
        else s.tb.cLane l) ∧
      StockMoved s X (firstTouches (dropped.map (·.1))) (fun k x => { x with reserved := x.reserved - demandOn dropped k })
        (fun k x => { x with unmade := tally dropped k x.unmade }) ns ∧
      ChainsEnded s.tb X ends ∧ SameSettings s.tb X ∧ X.owed = s.tb.owed ∧ X.tickets = s.tb.tickets ∧ X.stations = s.tb.stations ∧
      X.cStations = s.tb.cStations ∧ X.cEngine = s.tb.cEngine)

/-- R51, R55, R75, R78 to R83, R99 to R104: the close fire of an ON_CLOSE check that a TENDER closes with lines left to fire: built whole when
ticket memory holds its tickets, each built once in the lowest free records, with what the queues, gates and arbiters do; else, and
always in LOAD, the check is owed its fire at the tail of the owed list. -/
def Obligations.CloseFireFiresOrOwes : Prop :=
  ∀ (bus : Bus) (s : State) (r : Req) (ci : Nat), Allowed 14 bus s r → Names s.tb (reqWord r 0) ci →
    let c := s.tb.check ci
    let p := (reqWord r 1).toNat
    let amount := (reqWord r 2).toNat
    let x := c.payers.getD (p - 1) emptyPayer
    let x1 : Payer := { x with tendered := x.tendered + amount, tenders := min (x.tenders + 1) 255 }
    let f := computeBill c.split c.taxRates c.serviceRate (c.payers.set (p - 1) x1) (s.tb.linesOf c.lines)
    let ids := unsent s.tb c.lines
    let plan := planFire s.tb ids
    let paid : Check := { (heldCheck s.tb c r.lane r.takenAt).withFigures f with state := .paid, holder := none }
    Live c → PassesHold c r.lane r.takenAt → 1 ≤ p → p ≤ c.payers.length → x.status ≠ .paid → amount ≤ 99999999 →
    (reqWord r 3).toNat = 0 → x.tips ≤ 99999999 → x.tendered + amount ≤ 99999999 → (amount = 0 → x.share = 0) →
    (∀ n, n < 16 → (s.tb.slot n).check = ci → (s.tb.slot n).isActive = false) →
    c.policy = .onClose → allDone f.payers = true → (f.payers.getD (p - 1) emptyPayer).status = .paid → f.refund = 0 →
    ids ≠ [] → plan ≠ [] → c.owed = false →
    ∃ m t X b, exec (.tender bus) s = .next t ∧ Committed (s.afterHub bus) m X [] ∧ Answered m t r { code := .ok, body := b } ∧
      (s.engine ≠ .load ∧ plan.length ≤ freeTickets s.tb →
        X.checks = tset check0 s.tb.checks ci { paid with outstanding := c.outstanding + plan.length } ∧
        X.owed = s.tb.owed ∧ Fired s.tb X ci false none plan ∧
        (∀ j, j ∈ ids → X.line j = (s.tb.line j).map (fun l => { l with net := lineNet l, fired := true }))) ∧
      (s.engine = .load ∨ freeTickets s.tb < plan.length →
        X.checks = tset check0 s.tb.checks ci { paid with owed := true } ∧
        X.owed = s.tb.owed.filter (fun j => decide (j ≠ ci)) ++ [ci] ∧ X.tickets = s.tb.tickets ∧ X.stations = s.tb.stations ∧
        (∀ j, j ∈ ids → X.line j = (s.tb.line j).map (fun l => { l with net := lineNet l }))) ∧
      SameSettings s.tb X ∧ SameStock s.tb X
/-! ### The catalogue and stock -/

/-- R56 to R58, R61, R62, R66, R67: DEFINE_ITEM that passes its tests: a removal, a SIMPLE and a COMPOSITE definition, with what each
leaves of the record before: a redefinition of a SIMPLE item is a stock change, the other forms raise no notice. And its refusals: an
index outside 1 to 511, the removal of an undefined item and a field out of range RANGE; a removal, a change of kind and a change of
components (their items, counts or order) REFERENCED with the first reason that holds. The model's choices: the numbers of the reasons are
log entry 13; that component words with item 0 are skipped, gaps included, is log entry 25; that the result shows the record at the end of
the event is log entry 39, and 0 in the fields that the item's kind does not have is log entry 55. -/
def Obligations.DefineItemWritesOrRefuses : Prop :=
  (∀ (bus : Bus) (s : State) (r : Req), Canonical s → Allowed 16 bus s r →
     let i := lo16 (reqWord r 0)
     let it := s.tb.item i
     let remove := (reqWord r 0).getLsbD 24
     let kind := reqByte r 0 2
     let simple := it.defined = true ∧ it.kind = .simple
     let prices : Quad := ⟨(reqWord r 2).toNat, (reqWord r 3).toNat, (reqWord r 4).toNat, (reqWord r 5).toNat⟩
     let comps := ([6, 7, 8].map (fun k => (lo16 (reqWord r k), reqByte r k 2))).filter (fun c => decide (c.1 ≠ 0))
     let kept := remove = false ∧ simple ∧ kind = 0
     let tuned : Item :=
       { it with station := reqByte r 1 0, taxClass := reqByte r 1 1, prices := prices, low := hi16 (reqWord r 1) }
     let new : Item :=
       if remove = true then item0
       else if kept then tuned.settle
       else { defined := true, kind := if kind = 0 then .simple else .composite, station := if kind = 0 then reqByte r 1 0 else 0,
              taxClass := reqByte r 1 1, prices := prices, low := hi16 (reqWord r 1), onHand := 0, reserved := 0,
              comps := if kind = 0 then [] else comps, level := if kind = 0 then .out else .available, short := decide (kind = 0),
              wasShort := false }
     let lost := if simple ∧ (remove = true ∨ kind = 1) then it.onHand else 0
     1 ≤ i → i ≤ 511 → (remove = true → it.defined = true) →
     (remove = false → reqByte r 1 1 ≤ 3 ∧ prices.c0 ≤ 99999 ∧ prices.c1 ≤ 99999 ∧ prices.c2 ≤ 99999 ∧ prices.c3 ≤ 99999 ∧
       ((kind = 0 ∧ reqByte r 1 0 < 16 ∧ comps = []) ∨
        (kind = 1 ∧ 1 ≤ comps.length ∧ (comps.map (·.1)).Nodup ∧
         ∀ c, c ∈ comps → c.1 ≤ 511 ∧ c.1 ≠ i ∧ 1 ≤ c.2 ∧ c.2 ≤ 9 ∧ (s.tb.item c.1).defined = true ∧ (s.tb.item c.1).kind = .simple))) →
     (remove = true ∨ (it.defined = true ∧ (kind ≠ it.kind.code ∨ (it.kind = .composite ∧ comps ≠ it.comps))) →
       (∀ id l, s.tb.line id = some l → l.item ≠ i) ∧
       (it.kind = .simple → it.reserved = 0 ∧
         ∀ k, (s.tb.item k).defined = true → (s.tb.item k).kind = .composite → i ∉ (s.tb.item k).comps.map (·.1))) →
     ∃ m t X ns, exec (.defineItem bus) s = .next t ∧ Committed (s.afterHub bus) m X ns ∧
       Answered m t r { code := .ok, body := itemWords X i } ∧
       (∀ k, X.item k = if k = i then new else s.tb.item k) ∧
       (∀ k, X.cItem k = if k = i then
           outCounted (s.engine == .load || !decide kept) it new
             (if s.engine = .load then s.tb.cItem i else { s.tb.cItem i with wasted := satCount (s.tb.cItem i).wasted lost })
         else s.tb.cItem k) ∧
       ns = (if kept ∧ s.engine ≠ .load then levelNotices s.tb X [i] else []) ∧
       X.checks = s.tb.checks ∧ X.lines = s.tb.lines ∧ SameSettings s.tb X ∧ SameKitchen s.tb X) ∧
  (∀ (bus : Bus) (s : State) (r : Req), Canonical s → Allowed 16 bus s r →
     let i := lo16 (reqWord r 0)
     let it := s.tb.item i
     let kind := reqByte r 0 2
     let remove := (reqWord r 0).getLsbD 24
     let comps := ([6, 7, 8].map (fun k => (lo16 (reqWord r k), reqByte r k 2))).filter (fun c => decide (c.1 ≠ 0))
     let fieldsOk := reqByte r 1 1 ≤ 3 ∧ (∀ k, k < 4 → (reqWord r (2 + k)).toNat ≤ 99999) ∧
       ((kind = 0 ∧ reqByte r 1 0 < 16 ∧ comps = []) ∨
        (kind = 1 ∧ 1 ≤ comps.length ∧ (comps.map (·.1)).Nodup ∧
         ∀ c, c ∈ comps → c.1 ≤ 511 ∧ c.1 ≠ i ∧ 1 ≤ c.2 ∧ c.2 ≤ 9 ∧ (s.tb.item c.1).defined = true ∧ (s.tb.item c.1).kind = .simple))
     let reshapes := kind ≠ (match it.kind with | .simple => 0 | .composite => 1) ∨ (it.kind = .composite ∧ comps ≠ it.comps)
     let named := ∃ id l, s.tb.line id = some l ∧ l.item = i
     let part := ∃ k, (s.tb.item k).defined = true ∧ (s.tb.item k).kind = .composite ∧ i ∈ (s.tb.item k).comps.map (·.1)
     let refused := fun (a : Answer) => ∃ t, exec (.defineItem bus) s = .next t ∧ Answered (s.afterHub bus) t r a
     ((i = 0 ∨ 511 < i) → refused { code := .range, body := [] }) ∧
     (1 ≤ i → i ≤ 511 → remove = true → it.defined = false → refused { code := .range, body := [] }) ∧
     (1 ≤ i → i ≤ 511 → remove = false → ¬ fieldsOk → refused { code := .range, body := [] }) ∧
     (1 ≤ i → i ≤ 511 → it.defined = true → (remove = true ∨ (remove = false ∧ fieldsOk ∧ reshapes)) →
       (named → refused { code := .referenced, body := [1] }) ∧
       (¬ named → it.kind = .simple → 0 < it.reserved → refused { code := .referenced, body := [2] }) ∧
       (¬ named → it.kind = .simple → it.reserved = 0 → part → refused { code := .referenced, body := [3] })))

/-- R59, R68: SET_BAND and CLEAR_SHORT with their refusals. That SET_BAND's two bands are packed as bytes is log entry 12. -/
def Obligations.SetBandAndClearShort : Prop :=
  ∀ (bus : Bus) (s : State) (r : Req),
    let m := s.afterHub bus
    let v := (reqWord r 0).toNat
    let it := s.tb.item v
    let was := it.wasShort && it.short
    (Allowed 17 bus s r → v ≤ 3 → ∃ t, exec (.setBand bus) s = .next t ∧
      Answered (m.setTb (s.tb.setBand v)) t r { code := .ok, body := [BitVec.ofNat 32 (s.tb.band % 256 + v * 256)] }) ∧
    (Allowed 17 bus s r → 3 < v → ∃ t, exec (.setBand bus) s = .next t ∧ Answered m t r { code := .range, body := [] }) ∧
    (Allowed 18 bus s r → 1 ≤ v → v ≤ 511 → it.defined = true → it.kind = .simple → ∃ t, exec (.clearShort bus) s = .next t ∧
      Answered (m.setTb (s.tb.setItems (tset item0 s.tb.items v { it with wasShort := was }))) t r
        { code := .ok, body := [BitVec.ofNat 32 (flagCode it.short + flagCode was * 256 + it.level.code * 65536),
                                BitVec.ofNat 32 (it.onHand - it.reserved)] }) ∧
    (Allowed 18 bus s r → (v = 0 ∨ 511 < v ∨ it.defined = false ∨ it.kind = .composite) → ∃ t, exec (.clearShort bus) s = .next t ∧
      Answered m t r { code := .range, body := [] })

/-- R66, R67, R69 to R72: YIELD, WASTE and STOCK_COUNT of `n` portions of a defined SIMPLE item, from a lane that may send them for its
station; and their refusals (that a quantity above 65535 is refused is log entry 16's choice; that the change of on_hand is a signed
two's-complement word, negative for WASTE, is log entry 46's). That level and SHORT in the result are those after the event has settled is
log entry 39; the words of the result, level and SHORT packed as bytes, are log entry 12. -/
def Obligations.StockRequestsChangeOnHand : Prop :=
  ∀ (bus : Bus) (s : State) (r : Req),
    let i := (reqWord r 0).toNat
    let n := (reqWord r 1).toNat
    let it := s.tb.item i
    let lane := s.tb.lane r.lane
    let known := 1 ≤ i ∧ i ≤ 511 ∧ it.defined = true ∧ it.kind = .simple
    let own := lane.role = .station → it.station = lane.station
    let add := min n (65535 - it.onHand)
    let take := min n (it.onHand - it.reserved)
    let words : Item → List Word := fun x =>
      [BitVec.ofNat 32 x.onHand, BitVec.ofNat 32 x.reserved, BitVec.ofNat 32 (x.onHand - x.reserved),
       BitVec.ofNat 32 (x.level.code + flagCode x.short * 256), BitVec.ofNat 32 x.onHand - BitVec.ofNat 32 it.onHand]
    let does : Instr → ResultCode → Nat → (ItemCount → ItemCount) → Prop := fun c code left count =>
      ∃ m t X ns, exec c s = .next t ∧ Committed (s.afterHub bus) m X ns ∧ Answered m t r { code := code, body := words (X.item i) } ∧
        StockMoved s X [i] (fun _ x => { x with onHand := left }) (fun k x => if k = i then count x else x) ns ∧
        X.checks = s.tb.checks ∧ X.lines = s.tb.lines ∧ SameSettings s.tb X ∧ SameKitchen s.tb X
    let refuses : Instr → ResultCode → Prop := fun c code =>
      ∃ t, exec c s = .next t ∧ Answered (s.afterHub bus) t r { code := code, body := [] }
    (Allowed 20 bus s r → known → n ≤ 65535 → own →
      does (.yieldItem bus) (if add < n then .clamped else .ok) (it.onHand + add)
        (fun x => { x with yields := satCount x.yields add, excess := satCount x.excess (n - add) })) ∧
    (Allowed 21 bus s r → known → n ≤ 65535 → own →
      does (.waste bus) (if take < n then .clamped else .ok) (it.onHand - take)
        (fun x => { x with wasted := satCount x.wasted take })) ∧
    (Allowed 22 bus s r → known → n ≤ 65535 → own →
      does (.stockCount bus) (if n < it.reserved then .clamped else .ok) (max n it.reserved) (fun x => x)) ∧
    (∀ c k, (c, k) ∈ [(Instr.yieldItem bus, 20), (Instr.waste bus, 21), (Instr.stockCount bus, 22)] → Allowed k bus s r →
      (¬ known → refuses c .range) ∧ (known → 65535 < n → refuses c .range) ∧ (known → n ≤ 65535 → ¬ own → refuses c .role))
/-! ### Kitchen tickets -/

/-- R4, R65, R75 to R77, R88, R89, R99 to R101, R104: BUMP of a ticket that its lane may bump: every unstruck ticket line is consumed, the
ticket leaves its station and is freed, its check's count is lowered, and the check is freed when it is settled or voided and waits for
nothing else, which releases the demand of lines never sent. The arbiter of its own station runs; the other stations stay. And its
refusals. That the bare tag of GONE stands in bits 15:0 of the first word, and the overdue and freed flags in bytes of the last, is log
entry 12. -/
def Obligations.BumpConsumesAndFrees : Prop :=
  ∀ (bus : Bus) (s : State) (r : Req), Allowed 23 bus s r →
    let i := lo16 (reqWord r 0)
    let k := s.tb.ticket i
    let lane := s.tb.lane r.lane
    let refuses := fun (a : Answer) => ∃ t, exec (.bump bus) s = .next t ∧ Answered (s.afterHub bus) t r a
    (2048 ≤ i → refuses { code := .range, body := [] }) ∧
    (i < 2048 → k.order = none → refuses { code := .gone, body := [] }) ∧
    (∀ o, i < 2048 → k.order = some o →
      (refTag (reqWord r 0) ≠ k.tag → refuses { code := .gone, body := [BitVec.ofNat 32 k.tag.toNat] }) ∧
      (refTag (reqWord r 0) = k.tag → lane.role = .station → o.station ≠ lane.station → refuses { code := .role, body := [] }) ∧
      (let c := s.tb.check o.check
       let made := o.lines.filter (fun x => !x.struck)
       let struck := o.lines.filter (fun x => x.struck)
       let eaten := made.map (fun x => (x.item, x.qty))
       let late := if o.mark = .overdue then 1 else 0
       let freed := (c.state = .paid ∨ c.state = .voided) ∧ c.outstanding ≤ 1 ∧ c.owed = false
       let dropped := if freed then demandOfLines s.tb (unsent s.tb c.lines).eraseDups else []
       let kitchen := fun (x : StationCount) =>
         if s.engine = .load then x
         else if o.mark = .overdue then { x with overdue := satCount x.overdue 1 } else { x with onTime := satCount x.onTime 1 }
       refTag (reqWord r 0) = k.tag → (lane.role = .station → o.station = lane.station) →
       ∃ m t X ns, exec (.bump bus) s = .next t ∧ Committed (s.afterHub bus) m X ns ∧
         Answered m t r
           { code := .ok, body := [refWord o.check o.checkTag, BitVec.ofNat 32 made.length, BitVec.ofNat 32 struck.length,
                                   BitVec.ofNat 32 (late + if freed then 256 else 0)] } ∧
         X.checks = tset check0 s.tb.checks o.check
           (if freed then freeCheck (nextTag c.tag) else { c with outstanding := c.outstanding - 1 }) ∧
         StockMoved s X (firstTouches ((eaten ++ dropped).map (·.1)))
           (fun j x => { x with reserved := x.reserved - demandOn eaten j - demandOn dropped j, onHand := x.onHand - demandOn eaten j })
           (fun j x => { x with consumed := tally eaten j x.consumed, unmade := tally dropped j x.unmade }) ns ∧
         (∀ j, X.line j = if freed ∧ j ∈ c.lines then none
           else (s.tb.line j).map (fun l => (made.filter (fun x => decide (x.line = j))).foldl (fun l x => l.setMade x.pos) l)) ∧
         Arbitrated (s.engine == .load) s.tb.time [o.station]
           (fun n => if n = o.station then afterLeaving (s.tb.station n) [i] else s.tb.station n)
           (fun j => if j = i then { tag := nextTag k.tag, order := none } else s.tb.ticket j)
           (fun n => if n = o.station then kitchen (s.tb.cStation n) else s.tb.cStation n) X ∧
         SameSettings s.tb X ∧ X.owed = s.tb.owed ∧ X.slots = s.tb.slots ∧ X.cLanes = s.tb.cLanes ∧ X.cEngine = s.tb.cEngine))

/-- R5, R24, R64, R75, R78 to R82, R91, R92, R95, R99, R104: REMAKE that passes its tests, on a check that does not close by it: the remake
line is added, reserves, is fired whole as RUSH0 in the lowest free records, each ticket built once and counted at its station, and
takes no part in the bill. And its refusals of a line that is on the check's list, in R91's order: ROLE where a STATION lane is none of
the line's stations, STATE, FULL, CLOSED with the first station that refuses the line, OUT with the first item that is short and its
avail, FULL. That CLOSED names the station in a byte is log entry 12. -/
def Obligations.RemakeAddsAndFires : Prop :=
  ∀ (bus : Bus) (s : State) (r : Req) (ci id : Nat) (l : Line), Allowed 24 bus s r → Names s.tb (reqWord r 0) ci →
    let c := s.tb.check ci
    let lane := s.tb.lane r.lane
    let live := c.state = .opened ∨ c.state = .settling
    let demand := demandOf s.tb l.item l.qty
    let shut := (stationsOfItem s.tb l.item).find? (fun n => !acceptsLine (s.tb.station n) c.openedAt)
    let short := demand.find? (fun d => decide ((s.tb.item d.1).avail < d.2))
    let new : Line :=
      { check := ci, item := l.item, qty := l.qty, price := 0, taxClass := (s.tb.item l.item).taxClass, discount := 0, net := 0,
        modifier := l.modifier, group := 0, assign := .pool, fired := true, voided := false, isRemake := true, isCopy := false,
        isTemplate := false, made1 := false, made2 := false, made3 := false }
    let plan := planFire (s.tb.setLines (tset none s.tb.lines id (some new))) [id]
    let f := computeBill c.split c.taxRates c.serviceRate c.payers (s.tb.linesOf c.lines ++ [new])
    let refuses := fun (code : ResultCode) (body : List Word) => ∃ t, exec (.remake bus) s = .next t ∧
      Answered (s.afterHub bus) t r { code := code, body := body }
    let mine := lane.role = .station → lane.station ∈ stationsOfItem s.tb l.item
    let fit := s.engine ≠ .load ∧ (live ∨ c.state = .paid) ∧ l.fired = true ∧ l.voided = false
    (reqWord r 1).toNat ∈ c.lines → s.tb.line (reqWord r 1).toNat = some l →
    (¬ mine → refuses .role []) ∧
    (mine → ¬ fit → refuses .state []) ∧
    (mine → fit → (64 ≤ c.lines.length ∨ ∀ j, j < 8192 → (s.tb.line j).isSome = true) → refuses .full []) ∧
    (mine → fit → c.lines.length < 64 → id ∉ c.lines → id < 8192 →
      s.tb.line id = none → (∀ j, j < id → (s.tb.line j).isSome = true) →
      (∀ n, shut = some n → refuses .closed [BitVec.ofNat 32 (n % 256)]) ∧
      (∀ d, shut = none → short = some d → refuses .out [BitVec.ofNat 32 d.1, BitVec.ofNat 32 (s.tb.item d.1).avail]) ∧
      (shut = none → short = none → (demand.map (·.1)).Nodup →
        (freeTickets s.tb < plan.length → refuses .full []) ∧
        (plan.length ≤ freeTickets s.tb → (c.state = .settling → allDone f.payers = false) →
          ∃ m t X ns, exec (.remake bus) s = .next t ∧ Committed (s.afterHub bus) m X ns ∧
            Answered m t r
              { code := .ok,
                body := [BitVec.ofNat 32 id, BitVec.ofNat 32 plan.length] ++
                  (firedTickets s.tb plan).map (fun q => refWord q.1 (s.tb.ticket q.1).tag) } ∧
            X.checks = tset check0 s.tb.checks ci
              (let c1 : Check := { c with lines := c.lines ++ [id], outstanding := c.outstanding + plan.length }
               if live then c1.withFigures f else c1) ∧
            X.line id = some new ∧
            (∀ j, j ≠ id → X.line j =
              if live ∧ j ∈ c.lines then (s.tb.line j).map (fun x => { x with net := lineNet x }) else s.tb.line j) ∧
            StockMoved s X (demand.map (·.1)) (fun k x => { x with reserved := x.reserved + demandOn demand k }) (fun _ x => x) ns ∧
            Fired s.tb X ci true none plan ∧
            SameSettings s.tb X ∧ X.owed = s.tb.owed ∧ X.slots = s.tb.slots ∧ X.cLanes = s.tb.cLanes ∧ X.cEngine = s.tb.cEngine)))
/-! ### Stations -/

/-- R96, R97 (with R94's stamp): STEP_INTAKE by the table, its stamp, its notice and its window; and its refusals. That the two intakes are packed as bytes of
one word is log entry 12. -/
def Obligations.StepIntakeFollowsTable : Prop :=
  ∀ (bus : Bus) (s : State) (r : Req), Allowed 25 bus s r →
    let n := reqByte r 0 0
    let closing := reqByte r 0 1
    let direct := reqByte r 0 2
    let lane := s.tb.lane r.lane
    let x := s.tb.station n
    let new : Intake :=
      if direct = 1 then (if closing = 1 then .closed else .opened)
      else if closing = 1 then (match x.intake with | .opened => .lastCall | .lastCall => .closed | .closed => .closed)
      else (match x.intake with | .opened => .opened | .lastCall => .opened | .closed => .lastCall)
    let stamp := if new ≠ x.intake ∧ new = .lastCall then s.tb.time else x.stamp
    (n < 16 → closing ≤ 1 → direct ≤ 1 → (lane.role = .station → n = lane.station) →
      ∃ m t X, exec (.stepIntake bus) s = .next t ∧
        Committed (s.afterHub bus) m X
          (if new ≠ x.intake ∧ s.engine ≠ .load then [{ kind := .stationState, time := s.tb.time, a := n, b := new.code }] else []) ∧
        Answered m t r { code := .ok, body := [BitVec.ofNat 32 (x.intake.code + new.code * 256), stamp] } ∧
        (∀ k, X.station k = if k = n then { x with intake := new, stamp := stamp } else s.tb.station k) ∧
        X = s.tb.setStations X.stations) ∧
    ((16 ≤ n ∨ 1 < closing ∨ 1 < direct) →
      ∃ t, exec (.stepIntake bus) s = .next t ∧ Answered (s.afterHub bus) t r { code := .range, body := [] }) ∧
    (n < 16 → closing ≤ 1 → direct ≤ 1 → lane.role = .station → n ≠ lane.station →
      ∃ t, exec (.stepIntake bus) s = .next t ∧ Answered (s.afterHub bus) t r { code := .role, body := [] })

/-- R100 to R104, R106, R109, R110: SET_STATION writes every supplied field, in range, in the order in which R109 lists them (the order is
log entry 54's choice), and the gate, its hold timer and the aging timer follow; the station's arbiter then runs, and no other station
changes. Without presence marks nothing changes (log entry
41; log entry 39: the result shows the end of the event). And its refusals. The 13 words of the result are log entry 12; that any byte but 0
sets the fast flag is log entry 14. -/
def Obligations.SetStationTunesStation : Prop :=
  ∀ (bus : Bus) (s : State) (r : Req), Allowed 26 bus s r →
    let n := reqByte r 0 0
    let mark := fun k => (reqByte r 0 1).testBit k
    let mode := reqByte r 1 0
    let policy := (reqWord r 3).toNat
    let x := s.tb.station n
    let waiting := x.rush1.length + x.normal.length
    let threshold := max 1 (min 32 (reqByte r 1 1))
    let hold : Duration := ⟨min (reqByte r 2 0) 7, reqByte r 2 1⟩
    let limit := max 1 (min 12 (reqByte r 1 3))
    let aging : Duration := ⟨min (reqByte r 2 2) 7, reqByte r 2 3⟩
    let clamped := (mark 1 = true ∧ threshold ≠ reqByte r 1 1) ∨ (mark 2 = true ∧ 7 < reqByte r 2 0) ∨
      (mark 4 = true ∧ limit ≠ reqByte r 1 3) ∨ (mark 5 = true ∧ 7 < reqByte r 2 2)
    let gate : GateMode := if mark 0 = true then (if mode = 0 then .opened else .gather) else x.gateMode
    let changes := gate ≠ x.gateMode
    let open1 := if changes then (gate == .opened || (decide (waiting ≠ 0) && x.gateOpen)) else x.gateOpen
    let timer1 := if changes ∧ gate = .opened then none else x.holdTimer
    let opens := mark 1 = true ∧ gate = .gather ∧ open1 = false ∧ threshold ≤ waiting
    let open2 := open1 || decide opens
    let timer2 := if opens then none else timer1
    let timer3 :=
      if mark 2 = true then
        (if hold.count = 0 then none
         else if gate = .gather ∧ open2 = false ∧ waiting ≠ 0 ∧ timer2 = none then
           some { level := hold.level, left := hold.count, due := false }
         else timer2)
      else timer2
    let y : Station :=
      { x with
        gateMode := gate, gateOpen := open2, holdTimer := timer3,
        threshold := if mark 1 = true then threshold else x.threshold, hold := if mark 2 = true then hold else x.hold,
        fast := if mark 3 = true then reqByte r 1 2 != 0 else x.fast, railLimit := if mark 4 = true then limit else x.railLimit,
        aging := if mark 5 = true then aging else x.aging,
        agingTimer := if mark 5 = true then
          (if aging.count = 0 then none else some { level := aging.level, left := aging.count, due := false }) else x.agingTimer,
        policy := if mark 6 = true then (if policy = 0 then .closed else if policy = 1 then .opened else .previous) else x.policy }
    let words : Station → List Word := fun y =>
      [BitVec.ofNat 32 y.gateMode.code, BitVec.ofNat 32 y.threshold, BitVec.ofNat 32 (y.hold.level % 256), BitVec.ofNat 32 y.hold.count,
       BitVec.ofNat 32 (flagCode y.fast), BitVec.ofNat 32 y.railLimit, BitVec.ofNat 32 (y.aging.level % 256),
       BitVec.ofNat 32 y.aging.count, BitVec.ofNat 32 (y.policy.code + y.intake.code * 256 + flagCode y.gateOpen * 65536),
       BitVec.ofNat 32 y.rail.length, BitVec.ofNat 32 y.rush0.length, BitVec.ofNat 32 y.rush1.length, BitVec.ofNat 32 y.normal.length]
    ((16 ≤ n ∨ (mark 0 = true ∧ 1 < mode) ∨ (mark 6 = true ∧ 2 < policy)) →
      ∃ t, exec (.setStation bus) s = .next t ∧ Answered (s.afterHub bus) t r { code := .range, body := [] }) ∧
    (n < 16 → reqByte r 0 1 % 128 = 0 →
      ∃ t, exec (.setStation bus) s = .next t ∧ Answered (s.afterHub bus) t r { code := .ok, body := words x }) ∧
    (n < 16 → (mark 0 = true → mode ≤ 1) → (mark 6 = true → policy ≤ 2) →
      ∃ m t X, exec (.setStation bus) s = .next t ∧ Committed (s.afterHub bus) m X [] ∧
        Answered m t r { code := if clamped then .clamped else .ok, body := words (X.station n) } ∧
        Arbitrated (s.engine == .load) s.tb.time (if reqByte r 0 1 % 128 = 0 then [] else [n])
          (fun k => if k = n then y else s.tb.station k) s.tb.ticket
          (fun k => if k = n ∧ opens ∧ s.engine ≠ .load then
            { s.tb.cStation k with byThreshold := satCount (s.tb.cStation k).byThreshold 1 } else s.tb.cStation k) X ∧
        X.checks = s.tb.checks ∧ X.lines = s.tb.lines ∧ SameStock s.tb X ∧ SameSettings s.tb X ∧ X.owed = s.tb.owed ∧
        X.slots = s.tb.slots ∧ X.cLanes = s.tb.cLanes ∧ X.cEngine = s.tb.cEngine)
/-! ### The timed action table and the course chains -/

/-- R119, R124, R125: SET_ACTION with the write mark replaces the entry, which an event of the TAT that still waits then meets as it was
written (log entry 6); without the mark it reads; and its refusals. The words of the result, its level, jitter code and operands packed as
bytes among them, are log entry 12; that any byte but 0 is the write mark is log entry 14. -/
def Obligations.SetActionWritesEntry : Prop :=
  ∀ (bus : Bus) (s : State) (r : Req), Allowed 27 bus s r →
    let e := reqByte r 0 0
    let level := min (reqByte r 1 0) 7
    let period := reqByte r 1 1
    let countdown := if period = 0 then 0 else max 1 (min period (reqByte r 1 2))
    let a1 := reqByte r 2 1
    let a2 := reqByte r 2 2
    let a3 := reqByte r 2 3
    let action : Option Action :=
      match reqByte r 2 0 with
      | 0 => if a1 ≤ 3 then some (.setBand a1) else none
      | 1 => if a1 < 16 ∧ a2 ≤ 1 ∧ a3 ≤ 1 then
          some (.stepIntake a1 (if a2 = 0 then .opening else .closing) (if a3 = 0 then .staged else .direct)) else none
      | 2 => if a1 < 16 ∧ a2 ≤ 1 then some (.setGate a1 (if a2 = 0 then .opened else .gather)) else none
      | 3 => if a1 < 16 then some (.startChain a1) else none
      | 4 => some (.prompt a1)
      | _ => none
    let clamped := 7 < reqByte r 1 0 ∨ (period ≠ 0 ∧ countdown ≠ reqByte r 1 2)
    let word := fun (b0 b1 b2 b3 : Nat) =>
      BitVec.ofNat 32 (b0 % 256 + b1 % 256 * 256 + b2 % 256 * 65536 + b3 % 256 * 16777216)
    let words := fun (x : TimedEntry) =>
      [word x.level 0 0 0, BitVec.ofNat 32 x.period, BitVec.ofNat 32 x.countdown] ++
        (match x.action with
          | .setBand b => [word x.jitter 0 b 0]
          | .stepIntake n d m => [word x.jitter 1 n (match d with | .opening => 0 | .closing => 1),
              word (match m with | .staged => 0 | .direct => 1) 0 0 0]
          | .setGate n m => [word x.jitter 2 n (match m with | .opened => 0 | .gather => 1)]
          | .startChain n => [word x.jitter 3 n 0]
          | .prompt c => [word x.jitter 4 c 0])
    (64 ≤ e → ∃ t, exec (.setAction bus) s = .next t ∧ Answered (s.afterHub bus) t r { code := .range, body := [] }) ∧
    (e < 64 → reqByte r 0 1 = 0 → ∃ t, exec (.setAction bus) s = .next t ∧
      Answered (s.afterHub bus) t r { code := .ok, body := words (s.tb.action e) }) ∧
    (e < 64 → reqByte r 0 1 ≠ 0 → (action = none ∨ 3 < reqByte r 1 3) → ∃ t, exec (.setAction bus) s = .next t ∧
      Answered (s.afterHub bus) t r { code := .range, body := [] }) ∧
    (∀ a, e < 64 → reqByte r 0 1 ≠ 0 → action = some a → reqByte r 1 3 ≤ 3 →
      let x : TimedEntry := { level := level, period := period, countdown := countdown, jitter := reqByte r 1 3, action := a }
      ∃ t, exec (.setAction bus) s = .next t ∧
        Answered ((s.afterHub bus).setTb (s.tb.setActions (tset timedEntry0 s.tb.actions e x))) t r
          { code := if clamped then .clamped else .ok, body := words x })

/-- R127, R128, R139: WRITE_PROGRAM and STOP_CHAIN, with their results and refusals. Log entry 36: fields the kind does not read are stored
as supplied, without a clamp. Log entry 12: the words of the results, a next of 256 for END and the lowest active slot whose path holds the
entry, 0xFF for none, among them. Log entry 14: any byte but 0 is the write mark. -/
def Obligations.ProgramWritesAndChainStops : Prop :=
  ∀ (bus : Bus) (s : State) (r : Req),
    let m := s.afterHub bus
    let e := reqByte r 0 0
    let kind := reqByte r 1 0
    let next := hi16 (reqWord r 1)
    let repeats := if kind = 1 then max 1 (min 15 (reqByte r 2 1)) else reqByte r 2 1
    let level := if kind = 0 then min (reqByte r 3 0) 7 else reqByte r 3 0
    let x : ProgEntry :=
      { kind := if kind = 0 then .wait else .fire, next := if next = 256 then none else some next, group := reqByte r 2 0,
        repeats := repeats, reorder := (reqWord r 2).getLsbD 16, dur := ⟨level, reqByte r 3 1⟩ }
    let holds := fun (tb : Tables) (n : Nat) => (tb.slot n).isActive = true ∧ e ∈ (pathOf tb (tb.slot n).first).1
    let good := kind ≤ 1 ∧ next ≤ 256 ∧ (kind = 1 → 1 ≤ reqByte r 2 0 ∧ reqByte r 2 0 ≤ 7)
    let entryWords := fun (x : ProgEntry) (holder : Nat) =>
      [match x.kind with | .wait => (0 : Word) | .fire => 1, BitVec.ofNat 32 (x.next.getD 256), BitVec.ofNat 32 (x.group % 256),
       BitVec.ofNat 32 x.repeats, BitVec.ofNat 32 ((if x.reorder = true then 1 else 0) + x.dur.level % 256 * 256),
       BitVec.ofNat 32 x.dur.count, BitVec.ofNat 32 holder]
    (Allowed 28 bus s r → reqByte r 0 1 ≠ 0 → good → (∀ n, n < 16 → ¬ holds s.tb n) →
      ∃ t, exec (.writeProgram bus) s = .next t ∧
        Answered (m.setTb (s.tb.setProgram (tset progEntry0 s.tb.program e x))) t r
          { code := if repeats ≠ reqByte r 2 1 ∨ level ≠ reqByte r 3 0 then .clamped else .ok, body := entryWords x 255 }) ∧
    (Allowed 28 bus s r → reqByte r 0 1 ≠ 0 → ¬ good → ∃ t, exec (.writeProgram bus) s = .next t ∧
      Answered m t r { code := .range, body := [] }) ∧
    (∀ n, Allowed 28 bus s r → reqByte r 0 1 ≠ 0 → good → n < 16 → holds s.tb n → (∀ j, j < n → ¬ holds s.tb j) →
      ∃ t, exec (.writeProgram bus) s = .next t ∧ Answered m t r { code := .state, body := [BitVec.ofNat 32 n] }) ∧
    (Allowed 28 bus s r → reqByte r 0 1 = 0 → (∀ n, n < 16 → ¬ holds s.tb n) → ∃ t, exec (.writeProgram bus) s = .next t ∧
      Answered m t r { code := .ok, body := entryWords (s.tb.entry e) 255 }) ∧
    (∀ n, Allowed 28 bus s r → reqByte r 0 1 = 0 → n < 16 → holds s.tb n → (∀ j, j < n → ¬ holds s.tb j) →
      ∃ t, exec (.writeProgram bus) s = .next t ∧ Answered m t r { code := .ok, body := entryWords (s.tb.entry e) n }) ∧
    (let n := (reqWord r 0).toNat
     let y := s.tb.slot n
     let c := s.tb.check y.check
     let words : ChainState → List Word := fun z =>
       [BitVec.ofNat 32 (y.state.code + z.code * 256), BitVec.ofNat 32 y.passesDone, BitVec.ofNat 32 (y.cur % 256)]
     (Allowed 31 bus s r → 16 ≤ n → ∃ t, exec (.stopChain bus) s = .next t ∧ Answered m t r { code := .range, body := [] }) ∧
     (Allowed 31 bus s r → n < 16 → (y.state = .idle ∨ y.state = .done) → ∃ t, exec (.stopChain bus) s = .next t ∧
       Answered m t r { code := .ok, body := words y.state }) ∧
     (Allowed 31 bus s r → n < 16 → y.state ≠ .idle → y.state ≠ .done → ∃ t, exec (.stopChain bus) s = .next t ∧
       Answered (m.setTb ((s.tb.setSlots (tset slot0 s.tb.slots n { y with state := .done, timer := none })).setChecks
         (tset check0 s.tb.checks y.check (if c.chain = some n then { c with chain := none } else c)))) t r
         { code := .ok, body := words .done }))

/-- R9, R130: ARM_CHAIN in its order of tests. A reference that is not current is NOCHECK, with the record's tag where it is in use. The
numbers of the path reasons are log entry 13; the packing of the result, the next chain and the timer's fields as bytes among them, and
the place of the bare tag, are log entry 12. -/
def Obligations.ArmChainSetsSlotUp : Prop :=
  ∀ (bus : Bus) (s : State) (r : Req), Allowed 29 bus s r →
    let m := s.afterHub bus
    let n := reqByte r 0 0
    let first := reqByte r 0 1
    let mode := reqByte r 0 2
    let next := reqByte r 2 1
    let w := reqWord r 1
    let ci := lo16 w
    let y := s.tb.slot n
    let good := n < 16 ∧ mode ≤ 2 ∧ (next < 16 ∨ next = 255)
    let idle := y.state = .idle ∨ y.state = .done
    let path := pathOf s.tb first
    let fires := ∃ e, e ∈ path.1 ∧ (s.tb.entry e).kind = .fire
    let passes := max 1 (reqByte r 2 0)
    let interval := max 1 (min 15 (reqByte r 0 3))
    let x : Slot :=
      { y with state := .armed, check := ci, tag := refTag w, first := first, cur := first, reps := 0,
               mode := if mode = 0 then .once else if mode = 1 then .count else .loop, passCount := passes, passesDone := 0,
               interval := interval, phase := 1, next := if next = 255 then none else some next, timer := none }
    let refuses := fun (a : Answer) => ∃ t, exec (.armChain bus) s = .next t ∧ Answered m t r a
    (¬ good → refuses { code := .range, body := [] }) ∧
    (good → (1024 ≤ ci ∨ (s.tb.check ci).state = .free) → refuses { code := .nocheck, body := [] }) ∧
    (good → ci < 1024 → (s.tb.check ci).state ≠ .free → refTag w ≠ (s.tb.check ci).tag →
      refuses { code := .nocheck, body := [BitVec.ofNat 32 (s.tb.check ci).tag.toNat] }) ∧
    (good → Names s.tb w ci → ¬ idle → refuses { code := .state, body := [] }) ∧
    (good → Names s.tb w ci → idle → ¬ Live (s.tb.check ci) → refuses { code := .state, body := [] }) ∧
    (good → Names s.tb w ci → idle → Live (s.tb.check ci) → path.2 = false → refuses { code := .range, body := [1] }) ∧
    (good → Names s.tb w ci → idle → Live (s.tb.check ci) → path.2 = true → ¬ fires → refuses { code := .range, body := [2] }) ∧
    (good → Names s.tb w ci → idle → Live (s.tb.check ci) → path.2 = true → fires →
      ∃ t, exec (.armChain bus) s = .next t ∧
        Answered (m.setTb (s.tb.setSlots (tset slot0 s.tb.slots n x))) t r
          { code := if passes ≠ reqByte r 2 0 ∨ interval ≠ reqByte r 0 3 then .clamped else .ok,
            body := [1, w, BitVec.ofNat 32 (first + first * 256), 0, BitVec.ofNat 32 mode, BitVec.ofNat 32 passes, 0,
                     BitVec.ofNat 32 interval, 1, BitVec.ofNat 32 next, 0, BitVec.ofNat 32 path.1.length] })

/-- R5, R64, R75, R78 to R82, R127, R129, R131 to R137: START_CHAIN: its refusals; in LOAD the slot stays FIRING; in RUN and PARKING it runs at
once: to the wait of a WAIT entry, to the spacing wait after a built execution, or to a stall; of a REORDER entry with nothing left to
fire, the copies made first: of one template that is copied and fired, and of templates that are all skipped for want of room on the
check's list, with CHAIN_SKIP; and the last execution of a final pass completes the chain, with CHAIN_DONE, and starts the next chain
where it is ARMED. -/
def Obligations.StartChainRunsToRest : Prop :=
  ∀ (bus : Bus) (s : State) (r : Req), Allowed 30 bus s r →
    let m := s.afterHub bus
    let n := (reqWord r 0).toNat
    let y := s.tb.slot n
    let c := s.tb.check y.check
    let e := s.tb.entry y.cur
    let started := fun (x : Slot) => (s.tb.setSlots (tset slot0 s.tb.slots n x)).setChecks
      (tset check0 s.tb.checks y.check { c with chain := some n })
    let ids := c.lines.filter (fun id => match s.tb.line id with
      | some l => !l.fired && !l.voided && l.group == e.group
      | none => false)
    let plan := planFire s.tb ids
    let ready := n < 16 ∧ y.state = .armed ∧ c.chain = none
    (16 ≤ n → ∃ t, exec (.startChain bus) s = .next t ∧ Answered m t r { code := .range, body := [] }) ∧
    (n < 16 → (y.state ≠ .armed ∨ c.chain ≠ none) → ∃ t, exec (.startChain bus) s = .next t ∧
      Answered m t r { code := .state, body := [] }) ∧
    (ready → s.engine = .load → ∃ t, exec (.startChain bus) s = .next t ∧
      Answered (m.setTb (started { y with state := .firing })) t r { code := .ok, body := [2] }) ∧
    (ready → s.engine ≠ .load → e.kind = .wait → e.dur.count ≠ 0 → (e.next.isSome = true ∨ y.interval ≤ y.phase) →
      ∃ t, exec (.startChain bus) s = .next t ∧
        Answered (m.setTb (started
          { y with state := .waiting, ran := true, timer := some { level := e.dur.level, left := e.dur.count, due := false } })) t r
          { code := .ok, body := [3] }) ∧
    (∀ k, ready → s.engine ≠ .load → e.kind = .fire → (ids ≠ [] ∨ e.reorder = false) → plan.length ≤ freeTickets s.tb →
      1 < e.repeats → e.next = some k → (s.tb.entry k).kind = .wait → (s.tb.entry k).dur.count ≠ 0 →
      ∃ m' t X, exec (.startChain bus) s = .next t ∧ Committed m m' X [] ∧ Answered m' t r { code := .ok, body := [3] } ∧
        X.slots = tset slot0 s.tb.slots n
          { y with state := .waiting, ran := true, reps := e.repeats - 1,
                   timer := some { level := (s.tb.entry k).dur.level, left := (s.tb.entry k).dur.count, due := false } } ∧
        X.checks = tset check0 s.tb.checks y.check { c with chain := some n, outstanding := c.outstanding + plan.length } ∧
        (∀ j, X.line j = if j ∈ ids then (s.tb.line j).map (fun l => { l with fired := true }) else s.tb.line j) ∧
        Fired s.tb X y.check false (some y.cur) plan ∧
        SameSettings s.tb X ∧ SameStock s.tb X ∧ X.owed = s.tb.owed ∧ X.cLanes = s.tb.cLanes ∧ X.cEngine = s.tb.cEngine) ∧
    (ready → s.engine ≠ .load → e.kind = .fire → (ids ≠ [] ∨ e.reorder = false) → freeTickets s.tb < plan.length →
      ∃ m' t, exec (.startChain bus) s = .next t ∧
        Committed m m'
          ((started { y with state := .stalled, ran := true, reps := e.repeats }).setCEngine
            { s.tb.cEngine with stalls := satCount s.tb.cEngine.stalls 1 })
          [{ kind := .chainStall, time := s.tb.time, a := n, b := y.cur }] ∧
        Answered m' t r { code := .ok, body := [4] }) ∧
    (let templates := c.lines.filter (fun id => match s.tb.line id with
       | some l => l.isTemplate && !l.voided && l.group == e.group
       | none => false)
     let rests := fun (k : Nat) => 1 < e.repeats ∧ e.next = some k ∧ (s.tb.entry k).kind = .wait ∧ (s.tb.entry k).dur.count ≠ 0
     let spaced : Nat → Slot := fun k =>
       { y with
         state := .waiting, ran := true, reps := e.repeats - 1,
         timer := some { level := (s.tb.entry k).dur.level, left := (s.tb.entry k).dur.count, due := false } }
     let reorders := s.engine ≠ .load ∧ e.kind = .fire ∧ ids = [] ∧ e.reorder = true
     (∀ k, ready → reorders → templates ≠ [] → 64 ≤ c.lines.length → rests k →
       ∃ m' t, exec (.startChain bus) s = .next t ∧
         Committed m m' (started (spaced k)) [{ kind := .chainSkip, time := s.tb.time, a := n, b := templates.length }] ∧
         Answered m' t r { code := .ok, body := [3] }) ∧
     (∀ tid l id k, ready → reorders → templates = [tid] → s.tb.line tid = some l → rests k → Live c → c.lines.length < 64 →
       id ∉ c.lines → id < 8192 → s.tb.line id = none → (∀ j, j < id → (s.tb.line j).isSome = true) →
       (let demand := demandOf s.tb l.item l.qty
        let new : Line :=
          { l with check := y.check, price := (s.tb.item l.item).prices.get s.tb.band, taxClass := (s.tb.item l.item).taxClass,
                   discount := 0, net := 0, fired := true, voided := false, isRemake := false, isCopy := true, isTemplate := false,
                   assign := assignOf (l.assign.members.filter (fun p => !decide ((c.payers[p - 1]?).map (·.status) = some .paid))),
                   made1 := false, made2 := false, made3 := false }
        let plan := planFire (s.tb.setLines (tset none s.tb.lines id (some new))) [id]
        let f := computeBill c.split c.taxRates c.serviceRate c.payers (s.tb.linesOf c.lines ++ [new])
        (∀ n, n ∈ stationsOfItem s.tb l.item → acceptsLine (s.tb.station n) c.openedAt = true) → (demand.map (·.1)).Nodup →
        (∀ d, d ∈ demand → d.2 ≤ (s.tb.item d.1).avail) → f.total ≤ 99999999 → (c.state = .settling → allDone f.payers = false) →
        plan.length ≤ freeTickets s.tb →
        ∃ m' t X ns, exec (.startChain bus) s = .next t ∧ Committed m m' X ns ∧ Answered m' t r { code := .ok, body := [3] } ∧
          X.slots = tset slot0 s.tb.slots n (spaced k) ∧
          X.checks = tset check0 s.tb.checks y.check
            (Check.withFigures { c with lines := c.lines ++ [id], chain := some n, outstanding := c.outstanding + plan.length } f) ∧
          X.line id = some { new with net := lineNet new } ∧
          (∀ j, j ≠ id → X.line j =
            if j ∈ c.lines then (s.tb.line j).map (fun x => { x with net := lineNet x }) else s.tb.line j) ∧
          StockMoved s X (demand.map (·.1)) (fun k x => { x with reserved := x.reserved + demandOn demand k }) (fun _ x => x) ns ∧
          Fired s.tb X y.check false (some y.cur) plan ∧
          SameSettings s.tb X ∧ X.owed = s.tb.owed ∧ X.cLanes = s.tb.cLanes ∧ X.cEngine = s.tb.cEngine)) ∧
     (let last := s.engine ≠ .load ∧ e.kind = .fire ∧ (ids ≠ [] ∨ e.reorder = false) ∧ plan.length ≤ freeTickets s.tb ∧ e.repeats ≤ 1 ∧
        ((y.mode = .once ∧ y.passesDone = 0) ∨ (y.mode = .count ∧ y.passesDone + 1 = y.passCount)) ∧
        ((pathOf s.tb y.first).1.filter (fun k => (s.tb.entry k).kind == .fire)).getLast? = some y.cur
      let ended : Slot := { y with state := .done, ran := true, reps := e.repeats - 1, passesDone := min (y.passesDone + 1) 65535,
                                   timer := none }
      let completes := fun (slots : Nat → Slot) (chain : Nat → Option Nat) =>
        ∃ m' t X, exec (.startChain bus) s = .next t ∧
          Committed m m' X [{ kind := .chainDone, time := s.tb.time, a := n, b := y.check }] ∧
          Answered m' t r { code := .ok, body := [5] } ∧ (∀ k, X.slot k = slots k) ∧
          (∀ i, X.check i = { s.tb.check i with
            chain := chain i,
            outstanding := if i = y.check then c.outstanding + plan.length else (s.tb.check i).outstanding }) ∧
          (∀ j, X.line j = if j ∈ ids then (s.tb.line j).map (fun l => { l with fired := true }) else s.tb.line j) ∧
          Fired s.tb X y.check false (some y.cur) plan ∧
          SameSettings s.tb X ∧ SameStock s.tb X ∧ X.owed = s.tb.owed ∧ X.cLanes = s.tb.cLanes ∧ X.cEngine = s.tb.cEngine
      (ready → last → y.next = none → completes (fun k => if k = n then ended else s.tb.slot k) (fun i => (s.tb.check i).chain)) ∧
      (∀ j, ready → last → y.next = some j → j ≠ n →
        let z := s.tb.slot j
        let w := s.tb.entry z.cur
        z.state = .armed → (s.tb.check z.check).chain = none → w.kind = .wait → w.dur.count ≠ 0 →
        (w.next.isSome = true ∨ z.interval ≤ z.phase) →
        completes
          (fun k => if k = n then ended
            else if k = j then { z with state := .waiting, ran := true,
                                        timer := some { level := w.dur.level, left := w.dur.count, due := false } }
            else s.tb.slot k)
          (fun i => if i = z.check then some j else (s.tb.check i).chain)) ∧
      (∀ j, ready → last → y.next = some j → (s.tb.slot j).state ≠ .armed →
        completes (fun k => if k = n then ended else s.tb.slot k) (fun i => (s.tb.check i).chain))))
/-! ### Lanes and counters -/

/-- R153 to R155: SET_PROFILE: it writes an unlocked profile and clears the holds of a lane that may hold none, clears the fault flag of
either kind of lane, leaves a locked profile (refused STATE), and reads without the write mark. The
body of the STATE refusal is log entry 40; the packing of role, station, permissions and lock as bytes is log entry 12; a station byte
above 15 without the role STATION is kept as supplied by log entry 24; that any byte but 0 is the write mark is log entry 14. -/
def Obligations.SetProfileWritesUnlocked : Prop :=
  ∀ (bus : Bus) (s : State) (r : Req), Canonical s → Allowed 33 bus s r →
    let m := s.afterHub bus
    let n := reqByte r 0 0
    let y := s.tb.lane n
    let code := reqByte r 1 0
    let role : Role := if code = 0 then .off else if code = 1 then .till else if code = 2 then .station else .supervisor
    let x : Lane :=
      { role := role, station := reqByte r 1 1, voidFired := (reqByte r 1 2).testBit 0, discount := (reqByte r 1 2).testBit 1,
        stockAdjust := (reqByte r 1 2).testBit 2, lock := (reqWord r 1).getLsbD 24, fault := false, pointer := y.pointer }
    let perms := flagCode y.voidFired + flagCode y.discount * 2 + flagCode y.stockAdjust * 4
    let head := BitVec.ofNat 32 (y.role.code + y.station % 256 * 256 + perms * 65536 + flagCode y.lock * 16777216)
    let bad := s.tb.cfg.laneCount ≤ n ∨ (reqByte r 0 1 ≠ 0 ∧ (3 < code ∨ (code = 2 ∧ 16 ≤ reqByte r 1 1)))
    (bad → ∃ t, exec (.setProfile bus) s = .next t ∧ Answered m t r { code := .range, body := [] }) ∧
    (¬ bad → reqByte r 0 1 = 0 → ∃ t, exec (.setProfile bus) s = .next t ∧
      Answered m t r { code := .ok, body := [head, BitVec.ofNat 32 (flagCode y.fault + y.pointer % 256 * 256)] }) ∧
    (¬ bad → reqByte r 0 1 ≠ 0 → y.lock = true → ∃ t, exec (.setProfile bus) s = .next t ∧
      Answered (m.setTb (s.tb.setLanes (tset lane0 s.tb.lanes n { y with fault := false }))) t r { code := .state, body := [head, 0] }) ∧
    (¬ bad → reqByte r 0 1 ≠ 0 → y.lock = false → (∀ i, 1024 ≤ i → (s.tb.check i).holder = none) →
      ∃ t X, exec (.setProfile bus) s = .next t ∧ Answered (m.setTb X) t r
        { code := .ok,
          body := [BitVec.ofNat 32 (if code = 0 ∨ code = 2 then
            ((List.range 1024).filter (fun i => decide ((s.tb.check i).holder = some n))).length else 0)] } ∧
        X.lane n = x ∧ (∀ l, l ≠ n → X.lane l = s.tb.lane l) ∧
        (∀ i, X.check i = if (code = 0 ∨ code = 2) ∧ (s.tb.check i).holder = some n then { s.tb.check i with holder := none }
          else s.tb.check i) ∧
        X = (s.tb.setLanes X.lanes).setChecks X.checks)

/-- R163, R164, R175: VIEW answers the values of one set and, with the clear mark from a SUPERVISOR, clears that set; and its refusals.
A 40-bit amount takes two words. That any byte but 0 is the clear mark is log entry 14. -/
def Obligations.ViewReadsAndClears : Prop :=
  ∀ (bus : Bus) (s : State) (r : Req), Allowed 34 bus s r →
    let m := s.afterHub bus
    let v := reqByte r 0 0
    let i := hi16 (reqWord r 0)
    let clear := reqByte r 0 1 ≠ 0
    let lane := s.tb.lane r.lane
    let inRange := (v = 0 ∧ i < 16) ∨ (v = 1 ∧ 1 ≤ i ∧ i ≤ 511) ∨ (v = 2 ∧ i < 64) ∨ v = 3
    let own := lane.role = .supervisor ∨ (lane.role = .till ∧ v = 2 ∧ i = r.lane) ∨ (lane.role = .station ∧ v = 0 ∧ i = lane.station)
    let cs := s.tb.cStation i
    let ci := s.tb.cItem i
    let cl := s.tb.cLane i
    let ce := s.tb.cEngine
    let words : List Nat :=
      match v with
      | 0 => [cs.relRush0, cs.relRush1, cs.relNormal, cs.onTime, cs.overdue, cs.withdrawn, cs.remakes, cs.byThreshold, cs.byHold,
              cs.byFast]
      | 1 => [ci.consumed, ci.unmade, ci.afterMade, ci.wasted, ci.outs, ci.yields, ci.excess]
      | 2 => [cl.taken, cl.refused, cl.opened, cl.tenders, cl.tenderTotal, cl.tenderTotal / 4294967296, cl.tipTotal,
              cl.tipTotal / 4294967296]
      | _ => [ce.notices, ce.stalls, ce.retries, ce.laneFaults]
    let cleared : Tables :=
      match v with
      | 0 => s.tb.setCStations (tset stationCount0 s.tb.cStations i stationCount0)
      | 1 => s.tb.setCItems (tset itemCount0 s.tb.cItems i itemCount0)
      | 2 => s.tb.setCLanes (tset laneCount0 s.tb.cLanes i laneCount0)
      | _ => s.tb.setCEngine engineCount0
    (¬ inRange → ∃ t, exec (.view bus) s = .next t ∧ Answered m t r { code := .range, body := [] }) ∧
    (inRange → (¬ own ∨ (clear ∧ lane.role ≠ .supervisor)) →
      ∃ t, exec (.view bus) s = .next t ∧ Answered m t r { code := .role, body := [] }) ∧
    (inRange → own → (clear → lane.role = .supervisor) → ∃ t, exec (.view bus) s = .next t ∧
      Answered (m.setTb (if clear then cleared else s.tb)) t r { code := .ok, body := words.map (fun w => BitVec.ofNat 32 w) })
/-! ### Time -/

/-- R116 to R118, R120, R123: a base tick in RUN or PARKING with no event of the tick before left and a bus without errors: the ladder,
engine time and its status word, every timer, and the walk of the timed action table where no entry acts (log entries 5 and 6: a timer
at its last tick waits for its own row, and a walk in which an entry acts waits for the row of one that acts). -/
def Obligations.BaseTickAdvances : Prop :=
  ∀ (bus : Bus) (s : State), Canonical s → ticksIn s.engine = true → nextDue s = none → bus.errs = [] → s.aligned = true →
    s.tmb.mults.length = 7 → s.tmb.counters.length = 8 →
    ∃ t k, exec (.baseTick bus) s = .next t ∧ 1 ≤ k ∧ k ≤ 8 ∧
      (let tick : Timer → Timer := fun x =>
         if x.level < k then (if x.left ≤ 1 then { x with due := true } else { x with left := x.left - 1 }) else x
       (∀ j, 1 ≤ j → j < k → s.tmb.mults.getD (j - 1) 0 ≤ s.tmb.counters.getD j 0 + 1) ∧
       (k < 8 → s.tmb.counters.getD k 0 + 1 < s.tmb.mults.getD (k - 1) 0) ∧
       (∀ j, j < 8 → t.tmb.counters.getD j 0 =
         if j < k then 0 else if j = k then s.tmb.counters.getD j 0 + 1 else s.tmb.counters.getD j 0) ∧
       t.tmb = { s.tmb with counters := t.tmb.counters } ∧ t.tmb.counters.length = 8 ∧
       t.tb.time = s.tb.time + 1 ∧ t.wordAt (Config.statusAt + 4) = s.tb.time + 1 ∧
       (∀ a, ¬ s.covers (Config.statusAt + 4) 4 a → readByte t.mem a = readByte (s.afterHub bus).mem a) ∧
       (∀ n, t.tb.station n = { s.tb.station n with
         holdTimer := (s.tb.station n).holdTimer.map tick, agingTimer := (s.tb.station n).agingTimer.map tick }) ∧
       (∀ n, t.tb.slot n = { s.tb.slot n with timer := (s.tb.slot n).timer.map tick, ran := false }) ∧
       t.ntw = { s.ntw with timer := (match s.ntw.timer with
         | .armed x => .armed (tick x)
         | x => x) } ∧
       t.due = { ticked := k, owed := true, tat := t.due.tat, ccu := true } ∧
       (t.due.tat = true ↔ s.engine = .run ∧
         ∃ e, e < 64 ∧ (s.tb.action e).period ≠ 0 ∧ (s.tb.action e).level < k ∧ (s.tb.action e).countdown ≤ 1) ∧
       ((s.engine = .parking ∨ t.due.tat = true) → t.tb.actions = s.tb.actions) ∧
       (s.engine = .run → t.due.tat = false → ∀ e, t.tb.action e =
         if e < 64 ∧ (s.tb.action e).period ≠ 0 ∧ (s.tb.action e).level < k then
           { s.tb.action e with countdown := (s.tb.action e).countdown - 1 }
         else s.tb.action e) ∧
       t.tb = (((s.tb.setTime t.tb.time).setStations t.tb.stations).setSlots t.tb.slots).setActions t.tb.actions ∧
       t.enc = s.enc ∧ t.base = s.base ∧ t.rqu = s.rqu ∧ t.sweep = s.sweep ∧ t.doneCounts = s.doneCounts ∧
       t.freeCount = s.freeCount)

/-- R101, R102, R104, R106, R107, R116, R161: an aging tick of a station whose aging timer is at its last tick: marks, TICKET_OVERDUE notices
in walking order, overdue flags, promotion to RUSH1, and the timer armed again; the expiry of a gate hold opens the gate and counts it;
where both come at one base tick they are one event of the station; its arbiter then runs, and no other station changes. The expiry of
the attention delay raises the line while anything counts. That the row decides which of hold and aging comes first is log entry 7; the
marks of what is due are log entry 5. -/
def Obligations.AgingHoldAndDelayExpire : Prop :=
  (∀ (n : Nat) (bus : Bus) (s : State),
     let x := s.tb.station n
     let walk := x.rail ++ x.rush0 ++ x.rush1 ++ x.normal
     let late := fun i => match (s.tb.ticket i).order with
       | some o => o.mark == .late
       | none => false
     let moved := x.normal.filter late
     let opens := moved ≠ [] ∧ x.gateMode = .gather ∧ x.gateOpen = false ∧ x.fast = true
     let y : Station :=
       { x with normal := x.normal.filter (fun i => !late i), rush1 := x.rush1 ++ moved, agingTimer := armTimer x.aging,
                gateOpen := x.gateOpen || decide opens, holdTimer := if opens then none else x.holdTimer }
     let marked := fun (i : Nat) =>
       if i ∈ walk then
         { s.tb.ticket i with order := (s.tb.ticket i).order.map (fun o =>
             { o with mark := (match o.mark with | .unmarked => .late | _ => .overdue), cls := if i ∈ moved then .rush1 else o.cls }) }
       else s.tb.ticket i
     let aged := fun (t : State) (X : Tables) (z : Station) (c : StationCount) =>
       Committed (s.afterHub bus) t X (walk.filterMap (fun i => match (s.tb.ticket i).order with
         | some o => if o.mark = .late then some { kind := .ticketOverdue, time := s.tb.time, a := i, b := o.check } else none
         | none => none)) ∧
       Arbitrated false s.tb.time [n] (fun k => if k = n then z else s.tb.station k) marked
         (fun k => if k = n then c else s.tb.cStation k) X ∧
       (∀ ci, X.check ci = if ∃ i, i ∈ walk ∧ late i = true ∧ (s.tb.ticket i).order.map (·.check) = some ci then
           { s.tb.check ci with overdue := true } else s.tb.check ci) ∧
       X.lines = s.tb.lines ∧ SameStock s.tb X ∧ SameSettings s.tb X ∧ X.owed = s.tb.owed ∧ X.slots = s.tb.slots ∧
       X.cLanes = s.tb.cLanes ∧ X.cEngine = s.tb.cEngine
     let kitchen := s.tb.cStation n
     n < 16 → bus.errs = [] → s.aligned = true → ticksIn s.engine = true → timerDue x.agingTimer = true → walk.Nodup →
     (timerDue x.holdTimer = false →
       ∃ t X, exec (.agingTick n bus) s = .next t ∧
         aged t X y (if opens then { kitchen with byFast := satCount kitchen.byFast 1 } else kitchen)) ∧
     (timerDue x.holdTimer = true → ∀ agingFirst : Bool,
       ∃ t X, exec (if agingFirst = true then .agingTick n bus else .gateHoldExpiry n bus) s = .next t ∧
         aged t X { y with gateOpen := true, holdTimer := none }
           (if agingFirst = true ∧ opens then { kitchen with byFast := satCount kitchen.byFast 1 }
            else { kitchen with byHold := satCount kitchen.byHold 1 }))) ∧
  (∀ (n : Nat) (bus : Bus) (s : State),
     let x := s.tb.station n
     let kitchen := s.tb.cStation n
     (n < 16 → bus.errs = [] → s.aligned = true → ticksIn s.engine = true → timerDue x.holdTimer = true →
       timerDue x.agingTimer = false →
       ∃ t X, exec (.gateHoldExpiry n bus) s = .next t ∧ Committed (s.afterHub bus) t X [] ∧
         Arbitrated false s.tb.time [n]
           (fun k => if k = n then { x with gateOpen := true, holdTimer := none } else s.tb.station k) s.tb.ticket
           (fun k => if k = n then { kitchen with byHold := satCount kitchen.byHold 1 } else s.tb.cStation k) X ∧
         X.checks = s.tb.checks ∧ X.lines = s.tb.lines ∧ SameStock s.tb X ∧ SameSettings s.tb X ∧ X.owed = s.tb.owed ∧
         X.slots = s.tb.slots ∧ X.cLanes = s.tb.cLanes ∧ X.cEngine = s.tb.cEngine)) ∧
  (∀ (s : State) (d : Timer), ticksIn s.engine = true → s.ntw.timer = .armed d → d.due = true →
     exec .attentionDelayExpiry s = .next (s.setNtw { s.ntw with
       timer := .expired, line := decide (s.ntw.threshold ≤ s.ntw.count ∨ 0 < s.ntw.count ∨ s.ntw.urgent = true) }))

/-- R132, R136, R137: the CCU's event at a base tick, where it finds one slot to handle, by each of its rows: an expired wait leads on to the
next entry, a FIRING slot runs from its current entry, a STALLED one retries: each to the wait of a WAIT entry, to the spacing wait after a
built execution, or, where the retry does not fit, to nothing at all. An expired wait at the end of a path ends a pass that is not the
final one: the slot goes on at its first entry, with the passes done and the trailing phase moved on. Where it finds two expired waits,
one event runs both slots: that any of the three chain rows makes the whole walk is log entry 7; what is due at the tick is log entry 5. -/
def Obligations.ChainWalkRunsSlots : Prop :=
  ∀ (n : Nat) (bus : Bus) (s : State),
    let y := s.tb.slot n
    let c := s.tb.check y.check
    let e := s.tb.entry y.cur
    let ids := c.lines.filter (fun id => match s.tb.line id with
      | some l => !l.fired && !l.voided && l.group == e.group
      | none => false)
    let plan := planFire s.tb ids
    let passed := (s.afterHub bus).setDue { s.due with ccu := false }
    let slots := fun (x : Slot) => tset slot0 s.tb.slots n x
    let waits := fun (d : Duration) => some { level := d.level, left := d.count, due := false }
    let alone := ∀ k, k < 16 → k ≠ n → slotDue (s.tb.slot k) = none
    let leads := fun (x : Slot) (k : Nat) =>
      (s.tb.entry x.cur).kind = .wait ∧ (s.tb.entry x.cur).next = some k ∧ (s.tb.entry k).kind = .wait ∧
      (s.tb.entry k).dur.count ≠ 0 ∧ ((s.tb.entry k).next.isSome = true ∨ x.interval ≤ x.phase)
    let led := fun (x : Slot) (k : Nat) => { x with state := .waiting, ran := true, cur := k, timer := waits (s.tb.entry k).dur }
    let fires := fun (cmd : Instr) (reps k : Nat) =>
      ∃ t X, exec cmd s = .next t ∧ Committed passed t X [] ∧
        X.slots = slots { y with state := .waiting, ran := true, reps := reps - 1, timer := waits (s.tb.entry k).dur } ∧
        X.checks = tset check0 s.tb.checks y.check { c with outstanding := c.outstanding + plan.length } ∧
        (∀ j, X.line j = if j ∈ ids then (s.tb.line j).map (fun l => { l with fired := true }) else s.tb.line j) ∧
        Fired s.tb X y.check false (some y.cur) plan ∧
        SameSettings s.tb X ∧ SameStock s.tb X ∧ X.owed = s.tb.owed ∧ X.cLanes = s.tb.cLanes ∧ X.cEngine = s.tb.cEngine
    (∀ k, slotIsDue s n .wait = true → alone → leads y k →
      exec (.chainWaitExpiry n bus) s = .next (passed.setTb (s.tb.setSlots (slots (led y k))))) ∧
    (let z : Slot := { y with passesDone := min (y.passesDone + 1) 65535, phase := if y.interval ≤ y.phase then 1 else y.phase + 1 }
     let b := s.tb.entry y.first
     slotIsDue s n .wait = true → alone → e.kind = .wait → e.next = none → b.kind = .wait → b.dur.count ≠ 0 →
     (b.next.isSome = true ∨ z.interval ≤ z.phase) →
     exec (.chainWaitExpiry n bus) s = .next (passed.setTb (s.tb.setSlots
       (slots { z with state := .waiting, ran := true, cur := y.first, reps := 0, timer := waits b.dur })))) ∧
    (∀ m k j, slotIsDue s n .wait = true → slotIsDue s m .wait = true → n < m →
      (∀ i, i < 16 → i ≠ n → i ≠ m → slotDue (s.tb.slot i) = none) → leads y k → leads (s.tb.slot m) j →
      exec (.chainWaitExpiry n bus) s =
        .next (passed.setTb (s.tb.setSlots (tset slot0 (slots (led y k)) m (led (s.tb.slot m) j)))) ∧
      exec (.chainWaitExpiry m bus) s = exec (.chainWaitExpiry n bus) s) ∧
    (slotIsDue s n .firing = true → alone → e.kind = .wait → e.dur.count ≠ 0 → (e.next.isSome = true ∨ y.interval ≤ y.phase) →
      exec (.firingSlotRun n bus) s = .next (passed.setTb (s.tb.setSlots
        (slots { y with state := .waiting, ran := true, timer := waits e.dur })))) ∧
    (∀ k, slotIsDue s n .firing = true → alone → bus.errs = [] → s.aligned = true → e.kind = .fire →
      (ids ≠ [] ∨ e.reorder = false) → plan.length ≤ freeTickets s.tb → 1 < e.repeats → e.next = some k →
      (s.tb.entry k).kind = .wait → (s.tb.entry k).dur.count ≠ 0 → fires (.firingSlotRun n bus) e.repeats k) ∧
    (slotIsDue s n .stalled = true → alone → freeTickets s.tb < plan.length →
      exec (.chainStallRetry n bus) s = .next (passed.setTb (s.tb.setSlots (slots { y with ran := true })))) ∧
    (∀ k, slotIsDue s n .stalled = true → alone → bus.errs = [] → s.aligned = true → plan.length ≤ freeTickets s.tb → 1 < y.reps →
      e.next = some k → (s.tb.entry k).kind = .wait → (s.tb.entry k).dur.count ≠ 0 → fires (.chainStallRetry n bus) y.reps k)

/-- R97, R103, R120 to R122: the TAT's event at a base tick where entry `i` alone acts: the action by its kind, the entry's reload with
its draw, and one tick of every other live entry whose level ticked. A START_CHAIN of a slot that does not start changes nothing; of
one that stands at a WAIT entry, it waits there. Where two entries act, one event takes both actions, in entry order, each on what the
one before left, with their draws in that order; that the row of any entry that acts makes the whole walk is log entry 6. A SET_GATE moves
gate, hold timer and mode by R103's table, the station's arbiter runs, and nothing else changes. A window is rewritten wherever a step
changes the intake or a mode is changed (R96, R103, R112), also where the second of two entries changes it back (log entry 49). What is due
at the tick is log entry 5. -/
def Obligations.TimedActionActsAndReloads : Prop :=
  ∀ (i : Nat) (bus : Bus) (s : State),
    let e := s.tb.action i
    let drawn := fun (e : TimedEntry) (x : Word) =>
      let x1 := x ^^^ (x <<< 13)
      let x2 := x1 ^^^ (x1 >>> 17)
      if e.period ≠ 255 ∧ e.jitter ≠ 0 then x2 ^^^ (x2 <<< 5) else x
    let low := fun (e : TimedEntry) =>
      if e.jitter = 1 then (3 * e.period + 3) / 4 else if e.jitter = 2 then (e.period + 1) / 2 else 1
    let after := fun (e : TimedEntry) (x : Word) => ({ e with
      period := if e.period = 255 then 0 else e.period,
      countdown := if e.period = 255 then 0 else if e.jitter = 0 then e.period
        else low e + (drawn e x).toNat % (e.period - low e + 1) } : TimedEntry)
    let ticks := fun (e : TimedEntry) => e.period ≠ 0 ∧ e.level < s.due.ticked
    let ticked := fun (k : Nat) =>
      if k < 64 ∧ ticks (s.tb.action k) then { s.tb.action k with countdown := (s.tb.action k).countdown - 1 } else s.tb.action k
    let passed := (s.afterHub bus).setDue { s.due with tat := false }
    let moded := fun (mode : GateMode) (y : Station) =>
      if mode = y.gateMode then y
      else if mode = .opened then { y with gateMode := .opened, gateOpen := true, holdTimer := none }
      else { y with gateMode := .gather, gateOpen := y.gateOpen && decide (y.rush1 ≠ [] ∨ y.normal ≠ []) }
    let stepped := fun (new : Intake) (y : Station) =>
      if new = y.intake then y else { y with intake := new, stamp := if new = .lastCall then s.tb.time else y.stamp }
    let told := fun (n : Nat) (new now : Intake) =>
      if new = now then [] else [({ kind := .stationState, time := s.tb.time, a := n, b := new.code } : Notice)]
    let done := fun (X tb : Tables) => (tb.setDraw X.draw).setActions X.actions
    let gated := fun (X : Tables) (n : Nat) (z : Station) =>
      Arbitrated false s.tb.time [n] (fun k => if k = n then z else s.tb.station k) s.tb.ticket s.tb.cStation X ∧
      X = done X (((s.tb.setStations X.stations).setTickets X.tickets).setCStations X.cStations)
    i < 64 → s.engine = .run → s.due.tat = true → bus.errs = [] → s.aligned = true → ticks e → e.countdown ≤ 1 →
    ((∀ k, k < 64 → k ≠ i → ticks (s.tb.action k) → 1 < (s.tb.action k).countdown) →
     ∃ t X ns, exec (.timedAction i bus) s = .next t ∧ Committed passed t X ns ∧ X.draw = drawn e s.tb.draw ∧
      (∀ k, X.action k = if k = i then after e s.tb.draw else ticked k) ∧
      ((∀ b, e.action = .setBand b → X = done X (s.tb.setBand b) ∧ ns = []) ∧
       (∀ c, e.action = .prompt c → X = done X s.tb ∧ ns = [{ kind := .timedPrompt, time := s.tb.time, a := i, b := c }]) ∧
       (∀ n dir mode, e.action = .stepIntake n dir mode →
         let y := s.tb.station n
         let new := steppedIntake mode dir y.intake
         X = done X (s.tb.setStations X.stations) ∧ (∀ k, X.station k = if k = n then stepped new y else s.tb.station k) ∧
         ns = told n new y.intake) ∧
       (∀ n mode, e.action = .setGate n mode → n < 16 → ns = [] ∧ gated X n (moded mode (s.tb.station n))) ∧
       (∀ n, e.action = .startChain n →
         let y := s.tb.slot n
         let c := s.tb.check y.check
         let w := s.tb.entry y.cur
         ((y.state ≠ .armed ∨ c.chain ≠ none) → X = done X s.tb ∧ ns = []) ∧
         (y.state = .armed → c.chain = none → w.kind = .wait → w.dur.count ≠ 0 → (w.next.isSome = true ∨ y.interval ≤ y.phase) →
           ns = [] ∧ X = done X ((s.tb.setSlots (tset slot0 s.tb.slots n
             { y with state := .waiting, ran := true, timer := some { level := w.dur.level, left := w.dur.count, due := false } })).setChecks
             (tset check0 s.tb.checks y.check { c with chain := some n })))))) ∧
    (∀ j, i < j → j < 64 → ticks (s.tb.action j) → (s.tb.action j).countdown ≤ 1 →
      (∀ k, k < 64 → k ≠ i → k ≠ j → ticks (s.tb.action k) → 1 < (s.tb.action k).countdown) →
      let d := s.tb.action j
      ∃ t X ns ws, exec (.timedAction i bus) s = .next t ∧ exec (.timedAction j bus) s = .next t ∧ CommittedTo passed t X ns ws ∧
        (∀ n, n ∈ changedWindows s.tb X → n ∈ ws) ∧ X.draw = drawn d (drawn e s.tb.draw) ∧
        (∀ k, X.action k = if k = i then after e s.tb.draw else if k = j then after d (drawn e s.tb.draw) else ticked k) ∧
        (∀ a b, e.action = .setBand a → d.action = .setBand b → X = done X (s.tb.setBand b) ∧ ns = [] ∧ ws = []) ∧
        (∀ a b, e.action = .prompt a → d.action = .prompt b → X = done X s.tb ∧ ws = [] ∧
          ns = [{ kind := .timedPrompt, time := s.tb.time, a := i, b := a }, { kind := .timedPrompt, time := s.tb.time, a := j, b := b }]) ∧
        (∀ n dir1 mode1 dir2 mode2, e.action = .stepIntake n dir1 mode1 → d.action = .stepIntake n dir2 mode2 → n < 16 →
          let y := s.tb.station n
          let mid := steppedIntake mode1 dir1 y.intake
          let new := steppedIntake mode2 dir2 mid
          X = done X (s.tb.setStations X.stations) ∧
          (∀ k, X.station k = if k = n then stepped new (stepped mid y) else s.tb.station k) ∧
          ns = told n mid y.intake ++ told n new mid ∧ ws = if mid ≠ y.intake ∨ new ≠ mid then [n] else []) ∧
        (∀ n mode1 mode2, e.action = .setGate n mode1 → d.action = .setGate n mode2 → n < 16 →
          let y := s.tb.station n
          ns = [] ∧ gated X n (moded mode2 (moded mode1 y)) ∧ (mode1 ≠ y.gateMode ∨ mode2 ≠ mode1 → n ∈ ws)))

/-- R52, R83, R84: the owed fires of a base tick: none to try; a first one that does not fit; and a single one that fits. What
is due at the tick is log entry 5. -/
def Obligations.OwedRetryBuildsOrCounts : Prop :=
  ∀ (bus : Bus) (s : State), isDue s .owed = true →
    let passed := (s.afterHub bus).setDue { s.due with owed := false }
    let plan := fun ci => planFire s.tb (unsent s.tb (s.tb.check ci).lines)
    (s.tb.owed = [] → exec (.owedRetry bus) s = .next passed) ∧
    (∀ ci rest, s.tb.owed = ci :: rest → freeTickets s.tb < (plan ci).length →
      exec (.owedRetry bus) s = .next (passed.setTb (s.tb.setCEngine
        { s.tb.cEngine with retries := satCount s.tb.cEngine.retries 1 }))) ∧
    (∀ ci, s.tb.owed = [ci] → bus.errs = [] → s.aligned = true → plan ci ≠ [] → (plan ci).length ≤ freeTickets s.tb →
      let c := s.tb.check ci
      ∃ t X, exec (.owedRetry bus) s = .next t ∧ Committed passed t X [] ∧
        X.check ci = { c with owed := false, outstanding := c.outstanding + (plan ci).length } ∧
        (∀ j, j ≠ ci → X.check j = s.tb.check j) ∧ X.owed = [] ∧
        (∀ j, X.line j = if j ∈ unsent s.tb c.lines then (s.tb.line j).map (fun l => { l with fired := true }) else s.tb.line j) ∧
        Fired s.tb X ci false none (plan ci) ∧
        SameSettings s.tb X ∧ SameStock s.tb X ∧ X.slots = s.tb.slots ∧ X.cLanes = s.tb.cLanes ∧ X.cEngine = s.tb.cEngine)
/-! ### Bill arithmetic -/

/-- R29: the largest-remainder allocation of `x` among recipients, payer 1 first, with the weights `ws`: its four steps, and what follows
of them. -/
def Obligations.AllocationDividesExactly : Prop :=
  (∀ (x : Nat) (ws : List Nat), ws ≠ [] →
    let es := if ws.sum = 0 then List.replicate ws.length 1 else ws
    let first := fun i => x * es.getD i 0 / es.sum
    let rest := fun i => x * es.getD i 0 % es.sum
    let given := ((List.range ws.length).map first).sum
    let before := fun i => ((List.range ws.length).filter (fun j => decide (rest i < rest j ∨ (rest j = rest i ∧ j < i)))).length
    (allocate x ws).length = ws.length ∧ (allocate x ws).sum = x ∧ given ≤ x ∧ x - given ≤ ws.length - 1 ∧
    (∀ i, i < ws.length → (allocate x ws).getD i 0 = first i + if before i < x - given then 1 else 0) ∧
    (ws.sum ≠ 0 → ∀ i, i < ws.length →
      (ws.getD i 0 = 0 → (allocate x ws).getD i 0 = 0) ∧ (ws.getD i 0 = ws.sum → (allocate x ws).getD i 0 = x))) ∧
  (∀ a b, a ≤ 99999999 → b ≤ 99999999 → a * b < 10 ^ 17) ∧ allocate 500 [1, 1, 1] = [167, 167, 166]

/-- R25 to R35 with the rounding of 00: the figures of a recomputation: nets, taxes, service and total; the frozen shares kept and the
others summing with them to the total plus the refund due; stage 7; and, where no share is frozen, the shares of either mode: in BY_LINE
each line's net divided among the payers its assignment names (all of them for POOL), each class's tax by the payers' nets of that
class, the service charge by their nets. That the figures stand as they do where every payer is PAID is log entry 53. -/
def Obligations.BillFiguresAddUp : Prop :=
  ∀ (mode : SplitMode) (rates : Quad) (serviceRate : Nat) (ps : List Payer) (ls : List Line),
    let f := computeBill mode rates serviceRate ps ls
    let net : Line → Nat := fun l =>
      if l.voided = true then 0 else l.qty * l.price - (l.qty * l.price * l.discount + 50) / 100
    let base := fun c => ((ls.filter (fun l => decide (l.taxClass = c))).map net).sum
    let frozen := ((ps.filter (fun p => decide (p.status = .paid))).map (·.share)).sum
    f.subtotal = (ls.map net).sum ∧
    f.taxes = ⟨(base 0 * rates.c0 + 5000) / 10000, (base 1 * rates.c1 + 5000) / 10000, (base 2 * rates.c2 + 5000) / 10000,
               (base 3 * rates.c3 + 5000) / 10000⟩ ∧
    f.service = (f.subtotal * serviceRate + 5000) / 10000 ∧
    f.total = f.subtotal + (f.taxes.c0 + f.taxes.c1 + f.taxes.c2 + f.taxes.c3) + f.service ∧
    f.refund = frozen - f.total ∧ f.payers.length = ps.length ∧
    ((∃ p, p ∈ ps ∧ p.status ≠ .paid) → (f.payers.map (·.share)).sum = f.total + f.refund) ∧
    (∀ (i : Nat) (p q : Payer), ps[i]? = some p → f.payers[i]? = some q →
      (p.status = .paid → q = p) ∧
      (p.status ≠ .paid → (f.total < frozen → q.share = 0) ∧
        (let pays := 1 ≤ p.tenders ∧ q.share ≤ p.tendered
         q = { p with share := q.share, status := if pays then .paid else p.status,
                      change := if pays then p.tendered - q.share else p.change }))) ∧
    ((∀ p, p ∈ ps → p.status ≠ .paid) → mode = .even →
      f.payers.map (·.share) = allocate f.total (List.replicate ps.length 1)) ∧
    ((∀ p, p ∈ ps → p.status ≠ .paid) → ps ≠ [] → mode = .byLine → (∀ l, l ∈ ls → l.taxClass ≤ 3) →
      let part := fun (l : Line) => allocate (net l) ((List.range ps.length).map (fun i =>
        if l.assign = .pool ∨ i + 1 ∈ l.assign.members then 1 else 0))
      let nets := fun (c i : Nat) => ((ls.filter (fun l => decide (l.taxClass = c))).map (fun l => (part l).getD i 0)).sum
      let all := fun (i : Nat) => nets 0 i + nets 1 i + nets 2 i + nets 3 i
      let shared := fun (x : Nat) (w : Nat → Nat) (i : Nat) => (allocate x ((List.range ps.length).map w)).getD i 0
      ∀ i, i < ps.length → (f.payers.map (·.share)).getD i 0 =
        all i + shared f.taxes.c0 (nets 0) i + shared f.taxes.c1 (nets 1) i + shared f.taxes.c2 (nets 2) i +
          shared f.taxes.c3 (nets 3) i + shared f.service all i)
end

