-- ==== Sys2Proof/Laws/Sparse.lean ====
section
/-!
SUPPORT. Sparse tables: reading after a write, and the canonical form, which every table operation keeps.
-/

namespace Sys2Proof.Machine

section Sparse
variable {α : Type}

theorem tget_tins (d : α) (i : Nat) (v : α) (t : List (Nat × α)) (j : Nat) :
    tget d (tins i v t) j = if j = i then v else tget d t j := by
  induction t with
  | nil => simp [tins, tget]
  | cons p t ih =>
    obtain ⟨k, w⟩ := p
    simp only [tins]
    split
    · simp [tget]
    · split
      · subst_vars; simp only [tget]; split <;> rfl
      · simp only [tget, ih]
        split
        · next h => subst h; rw [if_neg (by omega)]
        · rfl

theorem tget_filter_ne (d : α) (i : Nat) (t : List (Nat × α)) (j : Nat) (h : j ≠ i) :
    tget d (t.filter (fun p => decide (p.1 ≠ i))) j = tget d t j := by
  induction t with
  | nil => rfl
  | cons p t ih =>
    obtain ⟨k, w⟩ := p
    by_cases hk : k = i
    · subst hk; simp [tget, h] at ih ⊢; exact ih
    · simp only [List.filter_cons, decide_eq_true_eq, hk, ne_eq, not_false_eq_true, if_true, tget]
      simp only [ne_eq] at ih
      rw [ih]

theorem tget_filter_eq (d : α) (i : Nat) (t : List (Nat × α)) :
    tget d (t.filter (fun p => decide (p.1 ≠ i))) i = d := by
  induction t with
  | nil => rfl
  | cons p t ih =>
    obtain ⟨k, w⟩ := p
    by_cases hk : k = i
    · subst hk; simpa using ih
    · simp only [List.filter_cons, decide_eq_true_eq, hk, ne_eq, not_false_eq_true, if_true, tget, Ne.symm hk, if_false]
      simpa using ih

/-- Reading after a write. -/
theorem tget_tset [DecidableEq α] (d : α) (t : List (Nat × α)) (i : Nat) (v : α) (j : Nat) :
    tget d (tset d t i v) j = if j = i then v else tget d t j := by
  unfold tset
  split
  · next h =>
    subst h
    split
    · next h => subst h; exact tget_filter_eq v j t
    · next h => exact tget_filter_ne v i t j h
  · exact tget_tins d i v t j

@[simp] theorem tget_tset_same [DecidableEq α] (d : α) (t : List (Nat × α)) (i : Nat) (v : α) :
    tget d (tset d t i v) i = v := by simp [tget_tset]

theorem tget_tset_ne [DecidableEq α] (d : α) (t : List (Nat × α)) {i j : Nat} (v : α) (h : j ≠ i) :
    tget d (tset d t i v) j = tget d t j := by simp [tget_tset, h]

theorem tget_tupd [DecidableEq α] (d : α) (t : List (Nat × α)) (i : Nat) (f : α → α) (j : Nat) :
    tget d (tupd d t i f) j = if j = i then f (tget d t i) else tget d t j := tget_tset d t i _ j

@[simp] theorem tget_tupd_same [DecidableEq α] (d : α) (t : List (Nat × α)) (i : Nat) (f : α → α) :
    tget d (tupd d t i f) i = f (tget d t i) := by simp [tget_tupd]

theorem tget_tupd_ne [DecidableEq α] (d : α) (t : List (Nat × α)) {i j : Nat} (f : α → α) (h : j ≠ i) :
    tget d (tupd d t i f) j = tget d t j := by simp [tget_tupd, h]

/-! ### The canonical form -/

theorem keysAbove_mono {b c : Nat} (h : c ≤ b) : ∀ {t : List (Nat × α)}, keysAbove b t = true → keysAbove c t = true
  | [], _ => rfl
  | (k, _) :: t, hk => by
    simp only [keysAbove, Bool.and_eq_true, decide_eq_true_eq] at hk ⊢
    exact ⟨by omega, keysAbove_mono h hk.2⟩

theorem keysAbove_iff {b : Nat} {t : List (Nat × α)} : keysAbove b t = true ↔ ∀ p ∈ t, b < p.1 := by
  induction t with
  | nil => simp [keysAbove]
  | cons p t ih => obtain ⟨k, v⟩ := p; simp [keysAbove, ih]

theorem keysAbove_tins {b i : Nat} (h : b < i) (v : α) : ∀ {t : List (Nat × α)}, keysAbove b t = true →
    keysAbove b (tins i v t) = true
  | [], _ => by simp [tins, keysAbove, h]
  | (k, w) :: t, hk => by
    simp only [keysAbove, Bool.and_eq_true, decide_eq_true_eq] at hk
    simp only [tins]
    split
    · simp [keysAbove, h, hk.1, hk.2]
    · split
      · simp [keysAbove, h, hk.2]
      · simp [keysAbove, hk.1, keysAbove_tins h v hk.2]

theorem keysAbove_filter {b : Nat} (p : Nat × α → Bool) {t : List (Nat × α)} (h : keysAbove b t = true) :
    keysAbove b (t.filter p) = true :=
  keysAbove_iff.2 (fun q hq => keysAbove_iff.1 h q (List.mem_of_mem_filter hq))

theorem tget_unlisted (d : α) {t : List (Nat × α)} {i : Nat} (h : i ∉ t.map (fun p => p.1)) : tget d t i = d := by
  induction t with
  | nil => rfl
  | cons p t ih =>
    obtain ⟨k, v⟩ := p
    simp only [List.map_cons, List.mem_cons, not_or] at h
    simp [tget, h.1, ih h.2]

variable [DecidableEq α]

theorem twf_tins (d : α) {i : Nat} {v : α} (hv : v ≠ d) : ∀ {t : List (Nat × α)}, twf d t = true → twf d (tins i v t) = true
  | [], _ => by simp [tins, twf, keysAbove, hv]
  | (k, w) :: t, h => by
    simp only [twf, Bool.and_eq_true, decide_eq_true_eq] at h
    obtain ⟨⟨hw, hk⟩, ht⟩ := h
    simp only [tins]
    split
    · next hi => simp [twf, keysAbove, hv, hw, hk, ht, hi, keysAbove_mono (Nat.le_of_lt hi) hk]
    · split
      · next hi => subst hi; simp [twf, hv, hk, ht]
      · next h1 h2 => simp [twf, hw, keysAbove_tins (show k < i by omega) v hk, twf_tins d hv ht]

theorem twf_filter (d : α) (p : Nat × α → Bool) : ∀ {t : List (Nat × α)}, twf d t = true → twf d (t.filter p) = true
  | [], _ => rfl
  | (k, w) :: t, h => by
    simp only [twf, Bool.and_eq_true, decide_eq_true_eq] at h
    obtain ⟨⟨hw, hk⟩, ht⟩ := h
    rw [List.filter_cons]
    split
    · simp [twf, hw, keysAbove_filter p hk, twf_filter d p ht]
    · exact twf_filter d p ht

/-- A write keeps the canonical form. -/
theorem twf_tset (d : α) {t : List (Nat × α)} (i : Nat) (v : α) (h : twf d t = true) : twf d (tset d t i v) = true := by
  unfold tset
  split
  · exact twf_filter d _ h
  · next hv => exact twf_tins d hv h

theorem twf_tupd (d : α) {t : List (Nat × α)} (i : Nat) (f : α → α) (h : twf d t = true) : twf d (tupd d t i f) = true :=
  twf_tset d i _ h

theorem twf_tmap (d : α) {t : List (Nat × α)} (f : α → α) (h : twf d t = true) : twf d (tmap d t f) = true := by
  unfold tmap
  generalize t.map (fun p => p.1) = ks
  induction ks generalizing t with
  | nil => exact h
  | cons k ks ih => exact ih (twf_tupd d k f h)

theorem twf_tupdAll (d : α) {t : List (Nat × α)} (n : Nat) (f : Nat → α → α) (h : twf d t = true) :
    twf d (tupdAll d t n f) = true := by
  unfold tupdAll
  generalize List.range n = ks
  induction ks generalizing t with
  | nil => exact h
  | cons k ks ih => exact ih (twf_tset d k _ h)

/-! ### Changing every listed value -/

theorem keys_nodup (d : α) {t : List (Nat × α)} (h : twf d t = true) : (t.map (fun p => p.1)).Nodup := by
  induction t with
  | nil => exact List.nodup_nil
  | cons p t ih =>
    obtain ⟨k, v⟩ := p
    simp only [twf, Bool.and_eq_true, decide_eq_true_eq] at h
    refine List.nodup_cons.2 ⟨fun hm => ?_, ih h.2⟩
    obtain ⟨q, hq, hk⟩ := List.mem_map.1 hm
    have := keysAbove_iff.1 h.1.2 q hq
    simp only at hk
    omega

theorem tget_foldl_tupd (d : α) (f : α → α) (ks : List Nat) (hk : ks.Nodup) (t : List (Nat × α)) (i : Nat) :
    tget d (ks.foldl (fun u k => tupd d u k f) t) i = if i ∈ ks then f (tget d t i) else tget d t i := by
  induction ks generalizing t with
  | nil => simp
  | cons k ks ih =>
    obtain ⟨hn, hk⟩ := List.nodup_cons.1 hk
    rw [List.foldl_cons, ih hk, tget_tupd]
    by_cases hi : i = k
    · subst hi; simp [hn]
    · simp [hi]

/-- The value at any index after a change of every listed value that keeps the default. -/
theorem tget_tmap (d : α) {t : List (Nat × α)} (f : α → α) (h : twf d t = true) (hd : f d = d) (i : Nat) :
    tget d (tmap d t f) i = f (tget d t i) := by
  unfold tmap
  rw [tget_foldl_tupd d f _ (keys_nodup d h)]
  split
  · rfl
  · next hn => rw [tget_unlisted d hn, hd]

/-- The value at an index below `n` after a change of the values below `n`. -/
theorem tget_tupdAll (d : α) (t : List (Nat × α)) (n : Nat) (f : Nat → α → α) (i : Nat) :
    tget d (tupdAll d t n f) i = if i < n then f i (tget d t i) else tget d t i := by
  unfold tupdAll
  induction n with
  | zero => simp
  | succ n ih =>
    rw [List.range_succ, List.foldl_append, List.foldl_cons, List.foldl_nil, tget_tset]
    by_cases h : i = n
    · subst h; simp [ih]
    · rw [if_neg h, ih]
      have : i < n ↔ i < n + 1 := by omega
      simp [this]

end Sparse

/-! ### Finding the lowest index -/

/-- What `findFrom` finds is the lowest index that meets the test. -/
theorem findFrom_some {p : Nat → Bool} {fuel i j : Nat} (h : findFrom p fuel i = some j) :
    i ≤ j ∧ j < i + fuel ∧ p j = true ∧ ∀ k, i ≤ k → k < j → p k = false := by
  induction fuel generalizing i with
  | zero => simp [findFrom] at h
  | succ n ih =>
    rw [findFrom] at h
    split at h
    · next hp =>
      obtain rfl := Option.some.inj h
      exact ⟨le_refl _, by omega, hp, fun k h1 h2 => absurd h2 (by omega)⟩
    · next hp =>
      obtain ⟨h1, h2, h3, h4⟩ := ih h
      refine ⟨by omega, by omega, h3, fun k hk1 hk2 => ?_⟩
      rcases Nat.lt_or_ge i k with hlt | hge
      · exact h4 k hlt hk2
      · obtain rfl : k = i := by omega
        simpa using hp

/-- `findFrom` finds nothing only where no index meets the test. -/
theorem findFrom_none {p : Nat → Bool} {fuel i : Nat} (h : findFrom p fuel i = none) (k : Nat) (h1 : i ≤ k) (h2 : k < i + fuel) :
    p k = false := by
  induction fuel generalizing i with
  | zero => omega
  | succ n ih =>
    rw [findFrom] at h
    split at h
    · exact absurd h (by simp)
    · next hp =>
      rcases Nat.lt_or_ge i k with hlt | hge
      · exact ih h hlt (by omega)
      · obtain rfl : k = i := by omega
        simpa using hp

end Sys2Proof.Machine
end

