-- ==== Sys2Proof/Laws/State.lean ====
section
/-!
SUPPORT. One lemma per field per named update of State, Tables and Ev, all true by rfl, so that no later proof unfolds a record
update.
-/

namespace Sys2Proof.Machine

@[simp] theorem State.setEnc_enc (s : State) (x : Enc) : (s.setEnc x).enc = x := rfl
@[simp] theorem State.setEnc_base (s : State) (x : Enc) : (s.setEnc x).base = s.base := rfl
@[simp] theorem State.setEnc_tb (s : State) (x : Enc) : (s.setEnc x).tb = s.tb := rfl
@[simp] theorem State.setEnc_rqu (s : State) (x : Enc) : (s.setEnc x).rqu = s.rqu := rfl
@[simp] theorem State.setEnc_sweep (s : State) (x : Enc) : (s.setEnc x).sweep = s.sweep := rfl
@[simp] theorem State.setEnc_tmb (s : State) (x : Enc) : (s.setEnc x).tmb = s.tmb := rfl
@[simp] theorem State.setEnc_due (s : State) (x : Enc) : (s.setEnc x).due = s.due := rfl
@[simp] theorem State.setEnc_ntw (s : State) (x : Enc) : (s.setEnc x).ntw = s.ntw := rfl
@[simp] theorem State.setEnc_doneCounts (s : State) (x : Enc) : (s.setEnc x).doneCounts = s.doneCounts := rfl
@[simp] theorem State.setEnc_mem (s : State) (x : Enc) : (s.setEnc x).mem = s.mem := rfl
@[simp] theorem State.setEnc_freeCount (s : State) (x : Enc) : (s.setEnc x).freeCount = s.freeCount := rfl
@[simp] theorem State.setEnc_pending (s : State) (x : Enc) : (s.setEnc x).pending = s.pending := rfl
@[simp] theorem State.setBase_enc (s : State) (x : Addr) : (s.setBase x).enc = s.enc := rfl
@[simp] theorem State.setBase_base (s : State) (x : Addr) : (s.setBase x).base = x := rfl
@[simp] theorem State.setBase_tb (s : State) (x : Addr) : (s.setBase x).tb = s.tb := rfl
@[simp] theorem State.setBase_rqu (s : State) (x : Addr) : (s.setBase x).rqu = s.rqu := rfl
@[simp] theorem State.setBase_sweep (s : State) (x : Addr) : (s.setBase x).sweep = s.sweep := rfl
@[simp] theorem State.setBase_tmb (s : State) (x : Addr) : (s.setBase x).tmb = s.tmb := rfl
@[simp] theorem State.setBase_due (s : State) (x : Addr) : (s.setBase x).due = s.due := rfl
@[simp] theorem State.setBase_ntw (s : State) (x : Addr) : (s.setBase x).ntw = s.ntw := rfl
@[simp] theorem State.setBase_doneCounts (s : State) (x : Addr) : (s.setBase x).doneCounts = s.doneCounts := rfl
@[simp] theorem State.setBase_mem (s : State) (x : Addr) : (s.setBase x).mem = s.mem := rfl
@[simp] theorem State.setBase_freeCount (s : State) (x : Addr) : (s.setBase x).freeCount = s.freeCount := rfl
@[simp] theorem State.setBase_pending (s : State) (x : Addr) : (s.setBase x).pending = s.pending := rfl
@[simp] theorem State.setTb_enc (s : State) (x : Tables) : (s.setTb x).enc = s.enc := rfl
@[simp] theorem State.setTb_base (s : State) (x : Tables) : (s.setTb x).base = s.base := rfl
@[simp] theorem State.setTb_tb (s : State) (x : Tables) : (s.setTb x).tb = x := rfl
@[simp] theorem State.setTb_rqu (s : State) (x : Tables) : (s.setTb x).rqu = s.rqu := rfl
@[simp] theorem State.setTb_sweep (s : State) (x : Tables) : (s.setTb x).sweep = s.sweep := rfl
@[simp] theorem State.setTb_tmb (s : State) (x : Tables) : (s.setTb x).tmb = s.tmb := rfl
@[simp] theorem State.setTb_due (s : State) (x : Tables) : (s.setTb x).due = s.due := rfl
@[simp] theorem State.setTb_ntw (s : State) (x : Tables) : (s.setTb x).ntw = s.ntw := rfl
@[simp] theorem State.setTb_doneCounts (s : State) (x : Tables) : (s.setTb x).doneCounts = s.doneCounts := rfl
@[simp] theorem State.setTb_mem (s : State) (x : Tables) : (s.setTb x).mem = s.mem := rfl
@[simp] theorem State.setTb_freeCount (s : State) (x : Tables) : (s.setTb x).freeCount = s.freeCount := rfl
@[simp] theorem State.setTb_pending (s : State) (x : Tables) : (s.setTb x).pending = s.pending := rfl
@[simp] theorem State.setRqu_enc (s : State) (x : Rqu) : (s.setRqu x).enc = s.enc := rfl
@[simp] theorem State.setRqu_base (s : State) (x : Rqu) : (s.setRqu x).base = s.base := rfl
@[simp] theorem State.setRqu_tb (s : State) (x : Rqu) : (s.setRqu x).tb = s.tb := rfl
@[simp] theorem State.setRqu_rqu (s : State) (x : Rqu) : (s.setRqu x).rqu = x := rfl
@[simp] theorem State.setRqu_sweep (s : State) (x : Rqu) : (s.setRqu x).sweep = s.sweep := rfl
@[simp] theorem State.setRqu_tmb (s : State) (x : Rqu) : (s.setRqu x).tmb = s.tmb := rfl
@[simp] theorem State.setRqu_due (s : State) (x : Rqu) : (s.setRqu x).due = s.due := rfl
@[simp] theorem State.setRqu_ntw (s : State) (x : Rqu) : (s.setRqu x).ntw = s.ntw := rfl
@[simp] theorem State.setRqu_doneCounts (s : State) (x : Rqu) : (s.setRqu x).doneCounts = s.doneCounts := rfl
@[simp] theorem State.setRqu_mem (s : State) (x : Rqu) : (s.setRqu x).mem = s.mem := rfl
@[simp] theorem State.setRqu_freeCount (s : State) (x : Rqu) : (s.setRqu x).freeCount = s.freeCount := rfl
@[simp] theorem State.setRqu_pending (s : State) (x : Rqu) : (s.setRqu x).pending = s.pending := rfl
@[simp] theorem State.setSweep_enc (s : State) (x : Sweep) : (s.setSweep x).enc = s.enc := rfl
@[simp] theorem State.setSweep_base (s : State) (x : Sweep) : (s.setSweep x).base = s.base := rfl
@[simp] theorem State.setSweep_tb (s : State) (x : Sweep) : (s.setSweep x).tb = s.tb := rfl
@[simp] theorem State.setSweep_rqu (s : State) (x : Sweep) : (s.setSweep x).rqu = s.rqu := rfl
@[simp] theorem State.setSweep_sweep (s : State) (x : Sweep) : (s.setSweep x).sweep = x := rfl
@[simp] theorem State.setSweep_tmb (s : State) (x : Sweep) : (s.setSweep x).tmb = s.tmb := rfl
@[simp] theorem State.setSweep_due (s : State) (x : Sweep) : (s.setSweep x).due = s.due := rfl
@[simp] theorem State.setSweep_ntw (s : State) (x : Sweep) : (s.setSweep x).ntw = s.ntw := rfl
@[simp] theorem State.setSweep_doneCounts (s : State) (x : Sweep) : (s.setSweep x).doneCounts = s.doneCounts := rfl
@[simp] theorem State.setSweep_mem (s : State) (x : Sweep) : (s.setSweep x).mem = s.mem := rfl
@[simp] theorem State.setSweep_freeCount (s : State) (x : Sweep) : (s.setSweep x).freeCount = s.freeCount := rfl
@[simp] theorem State.setSweep_pending (s : State) (x : Sweep) : (s.setSweep x).pending = s.pending := rfl
@[simp] theorem State.setTmb_enc (s : State) (x : Tmb) : (s.setTmb x).enc = s.enc := rfl
@[simp] theorem State.setTmb_base (s : State) (x : Tmb) : (s.setTmb x).base = s.base := rfl
@[simp] theorem State.setTmb_tb (s : State) (x : Tmb) : (s.setTmb x).tb = s.tb := rfl
@[simp] theorem State.setTmb_rqu (s : State) (x : Tmb) : (s.setTmb x).rqu = s.rqu := rfl
@[simp] theorem State.setTmb_sweep (s : State) (x : Tmb) : (s.setTmb x).sweep = s.sweep := rfl
@[simp] theorem State.setTmb_tmb (s : State) (x : Tmb) : (s.setTmb x).tmb = x := rfl
@[simp] theorem State.setTmb_due (s : State) (x : Tmb) : (s.setTmb x).due = s.due := rfl
@[simp] theorem State.setTmb_ntw (s : State) (x : Tmb) : (s.setTmb x).ntw = s.ntw := rfl
@[simp] theorem State.setTmb_doneCounts (s : State) (x : Tmb) : (s.setTmb x).doneCounts = s.doneCounts := rfl
@[simp] theorem State.setTmb_mem (s : State) (x : Tmb) : (s.setTmb x).mem = s.mem := rfl
@[simp] theorem State.setTmb_freeCount (s : State) (x : Tmb) : (s.setTmb x).freeCount = s.freeCount := rfl
@[simp] theorem State.setTmb_pending (s : State) (x : Tmb) : (s.setTmb x).pending = s.pending := rfl
@[simp] theorem State.setDue_enc (s : State) (x : Due) : (s.setDue x).enc = s.enc := rfl
@[simp] theorem State.setDue_base (s : State) (x : Due) : (s.setDue x).base = s.base := rfl
@[simp] theorem State.setDue_tb (s : State) (x : Due) : (s.setDue x).tb = s.tb := rfl
@[simp] theorem State.setDue_rqu (s : State) (x : Due) : (s.setDue x).rqu = s.rqu := rfl
@[simp] theorem State.setDue_sweep (s : State) (x : Due) : (s.setDue x).sweep = s.sweep := rfl
@[simp] theorem State.setDue_tmb (s : State) (x : Due) : (s.setDue x).tmb = s.tmb := rfl
@[simp] theorem State.setDue_due (s : State) (x : Due) : (s.setDue x).due = x := rfl
@[simp] theorem State.setDue_ntw (s : State) (x : Due) : (s.setDue x).ntw = s.ntw := rfl
@[simp] theorem State.setDue_doneCounts (s : State) (x : Due) : (s.setDue x).doneCounts = s.doneCounts := rfl
@[simp] theorem State.setDue_mem (s : State) (x : Due) : (s.setDue x).mem = s.mem := rfl
@[simp] theorem State.setDue_freeCount (s : State) (x : Due) : (s.setDue x).freeCount = s.freeCount := rfl
@[simp] theorem State.setDue_pending (s : State) (x : Due) : (s.setDue x).pending = s.pending := rfl
@[simp] theorem State.setNtw_enc (s : State) (x : Ntw) : (s.setNtw x).enc = s.enc := rfl
@[simp] theorem State.setNtw_base (s : State) (x : Ntw) : (s.setNtw x).base = s.base := rfl
@[simp] theorem State.setNtw_tb (s : State) (x : Ntw) : (s.setNtw x).tb = s.tb := rfl
@[simp] theorem State.setNtw_rqu (s : State) (x : Ntw) : (s.setNtw x).rqu = s.rqu := rfl
@[simp] theorem State.setNtw_sweep (s : State) (x : Ntw) : (s.setNtw x).sweep = s.sweep := rfl
@[simp] theorem State.setNtw_tmb (s : State) (x : Ntw) : (s.setNtw x).tmb = s.tmb := rfl
@[simp] theorem State.setNtw_due (s : State) (x : Ntw) : (s.setNtw x).due = s.due := rfl
@[simp] theorem State.setNtw_ntw (s : State) (x : Ntw) : (s.setNtw x).ntw = x := rfl
@[simp] theorem State.setNtw_doneCounts (s : State) (x : Ntw) : (s.setNtw x).doneCounts = s.doneCounts := rfl
@[simp] theorem State.setNtw_mem (s : State) (x : Ntw) : (s.setNtw x).mem = s.mem := rfl
@[simp] theorem State.setNtw_freeCount (s : State) (x : Ntw) : (s.setNtw x).freeCount = s.freeCount := rfl
@[simp] theorem State.setNtw_pending (s : State) (x : Ntw) : (s.setNtw x).pending = s.pending := rfl
@[simp] theorem State.setDoneCounts_enc (s : State) (x : List (Nat × Word)) : (s.setDoneCounts x).enc = s.enc := rfl
@[simp] theorem State.setDoneCounts_base (s : State) (x : List (Nat × Word)) : (s.setDoneCounts x).base = s.base := rfl
@[simp] theorem State.setDoneCounts_tb (s : State) (x : List (Nat × Word)) : (s.setDoneCounts x).tb = s.tb := rfl
@[simp] theorem State.setDoneCounts_rqu (s : State) (x : List (Nat × Word)) : (s.setDoneCounts x).rqu = s.rqu := rfl
@[simp] theorem State.setDoneCounts_sweep (s : State) (x : List (Nat × Word)) : (s.setDoneCounts x).sweep = s.sweep := rfl
@[simp] theorem State.setDoneCounts_tmb (s : State) (x : List (Nat × Word)) : (s.setDoneCounts x).tmb = s.tmb := rfl
@[simp] theorem State.setDoneCounts_due (s : State) (x : List (Nat × Word)) : (s.setDoneCounts x).due = s.due := rfl
@[simp] theorem State.setDoneCounts_ntw (s : State) (x : List (Nat × Word)) : (s.setDoneCounts x).ntw = s.ntw := rfl
@[simp] theorem State.setDoneCounts_doneCounts (s : State) (x : List (Nat × Word)) : (s.setDoneCounts x).doneCounts = x := rfl
@[simp] theorem State.setDoneCounts_mem (s : State) (x : List (Nat × Word)) : (s.setDoneCounts x).mem = s.mem := rfl
@[simp] theorem State.setDoneCounts_freeCount (s : State) (x : List (Nat × Word)) : (s.setDoneCounts x).freeCount = s.freeCount := rfl
@[simp] theorem State.setDoneCounts_pending (s : State) (x : List (Nat × Word)) : (s.setDoneCounts x).pending = s.pending := rfl
@[simp] theorem State.setMem_enc (s : State) (x : List Host.Cell) : (s.setMem x).enc = s.enc := rfl
@[simp] theorem State.setMem_base (s : State) (x : List Host.Cell) : (s.setMem x).base = s.base := rfl
@[simp] theorem State.setMem_tb (s : State) (x : List Host.Cell) : (s.setMem x).tb = s.tb := rfl
@[simp] theorem State.setMem_rqu (s : State) (x : List Host.Cell) : (s.setMem x).rqu = s.rqu := rfl
@[simp] theorem State.setMem_sweep (s : State) (x : List Host.Cell) : (s.setMem x).sweep = s.sweep := rfl
@[simp] theorem State.setMem_tmb (s : State) (x : List Host.Cell) : (s.setMem x).tmb = s.tmb := rfl
@[simp] theorem State.setMem_due (s : State) (x : List Host.Cell) : (s.setMem x).due = s.due := rfl
@[simp] theorem State.setMem_ntw (s : State) (x : List Host.Cell) : (s.setMem x).ntw = s.ntw := rfl
@[simp] theorem State.setMem_doneCounts (s : State) (x : List Host.Cell) : (s.setMem x).doneCounts = s.doneCounts := rfl
@[simp] theorem State.setMem_mem (s : State) (x : List Host.Cell) : (s.setMem x).mem = x := rfl
@[simp] theorem State.setMem_freeCount (s : State) (x : List Host.Cell) : (s.setMem x).freeCount = s.freeCount := rfl
@[simp] theorem State.setMem_pending (s : State) (x : List Host.Cell) : (s.setMem x).pending = s.pending := rfl
@[simp] theorem State.setFreeCount_enc (s : State) (x : Nat) : (s.setFreeCount x).enc = s.enc := rfl
@[simp] theorem State.setFreeCount_base (s : State) (x : Nat) : (s.setFreeCount x).base = s.base := rfl
@[simp] theorem State.setFreeCount_tb (s : State) (x : Nat) : (s.setFreeCount x).tb = s.tb := rfl
@[simp] theorem State.setFreeCount_rqu (s : State) (x : Nat) : (s.setFreeCount x).rqu = s.rqu := rfl
@[simp] theorem State.setFreeCount_sweep (s : State) (x : Nat) : (s.setFreeCount x).sweep = s.sweep := rfl
@[simp] theorem State.setFreeCount_tmb (s : State) (x : Nat) : (s.setFreeCount x).tmb = s.tmb := rfl
@[simp] theorem State.setFreeCount_due (s : State) (x : Nat) : (s.setFreeCount x).due = s.due := rfl
@[simp] theorem State.setFreeCount_ntw (s : State) (x : Nat) : (s.setFreeCount x).ntw = s.ntw := rfl
@[simp] theorem State.setFreeCount_doneCounts (s : State) (x : Nat) : (s.setFreeCount x).doneCounts = s.doneCounts := rfl
@[simp] theorem State.setFreeCount_mem (s : State) (x : Nat) : (s.setFreeCount x).mem = s.mem := rfl
@[simp] theorem State.setFreeCount_freeCount (s : State) (x : Nat) : (s.setFreeCount x).freeCount = x := rfl
@[simp] theorem State.setFreeCount_pending (s : State) (x : Nat) : (s.setFreeCount x).pending = s.pending := rfl
@[simp] theorem State.setPending_enc (s : State) (x : List Instr) : (s.setPending x).enc = s.enc := rfl
@[simp] theorem State.setPending_base (s : State) (x : List Instr) : (s.setPending x).base = s.base := rfl
@[simp] theorem State.setPending_tb (s : State) (x : List Instr) : (s.setPending x).tb = s.tb := rfl
@[simp] theorem State.setPending_rqu (s : State) (x : List Instr) : (s.setPending x).rqu = s.rqu := rfl
@[simp] theorem State.setPending_sweep (s : State) (x : List Instr) : (s.setPending x).sweep = s.sweep := rfl
@[simp] theorem State.setPending_tmb (s : State) (x : List Instr) : (s.setPending x).tmb = s.tmb := rfl
@[simp] theorem State.setPending_due (s : State) (x : List Instr) : (s.setPending x).due = s.due := rfl
@[simp] theorem State.setPending_ntw (s : State) (x : List Instr) : (s.setPending x).ntw = s.ntw := rfl
@[simp] theorem State.setPending_doneCounts (s : State) (x : List Instr) : (s.setPending x).doneCounts = s.doneCounts := rfl
@[simp] theorem State.setPending_mem (s : State) (x : List Instr) : (s.setPending x).mem = s.mem := rfl
@[simp] theorem State.setPending_freeCount (s : State) (x : List Instr) : (s.setPending x).freeCount = s.freeCount := rfl
@[simp] theorem State.setPending_pending (s : State) (x : List Instr) : (s.setPending x).pending = x := rfl

@[simp] theorem Tables.setCfg_cfg (t : Tables) (x : Cfg) : (t.setCfg x).cfg = x := rfl
@[simp] theorem Tables.setCfg_lanes (t : Tables) (x : Cfg) : (t.setCfg x).lanes = t.lanes := rfl
@[simp] theorem Tables.setCfg_checks (t : Tables) (x : Cfg) : (t.setCfg x).checks = t.checks := rfl
@[simp] theorem Tables.setCfg_lines (t : Tables) (x : Cfg) : (t.setCfg x).lines = t.lines := rfl
@[simp] theorem Tables.setCfg_items (t : Tables) (x : Cfg) : (t.setCfg x).items = t.items := rfl
@[simp] theorem Tables.setCfg_band (t : Tables) (x : Cfg) : (t.setCfg x).band = t.band := rfl
@[simp] theorem Tables.setCfg_tickets (t : Tables) (x : Cfg) : (t.setCfg x).tickets = t.tickets := rfl
@[simp] theorem Tables.setCfg_owed (t : Tables) (x : Cfg) : (t.setCfg x).owed = t.owed := rfl
@[simp] theorem Tables.setCfg_stations (t : Tables) (x : Cfg) : (t.setCfg x).stations = t.stations := rfl
@[simp] theorem Tables.setCfg_time (t : Tables) (x : Cfg) : (t.setCfg x).time = t.time := rfl
@[simp] theorem Tables.setCfg_actions (t : Tables) (x : Cfg) : (t.setCfg x).actions = t.actions := rfl
@[simp] theorem Tables.setCfg_draw (t : Tables) (x : Cfg) : (t.setCfg x).draw = t.draw := rfl
@[simp] theorem Tables.setCfg_program (t : Tables) (x : Cfg) : (t.setCfg x).program = t.program := rfl
@[simp] theorem Tables.setCfg_slots (t : Tables) (x : Cfg) : (t.setCfg x).slots = t.slots := rfl
@[simp] theorem Tables.setCfg_cStations (t : Tables) (x : Cfg) : (t.setCfg x).cStations = t.cStations := rfl
@[simp] theorem Tables.setCfg_cItems (t : Tables) (x : Cfg) : (t.setCfg x).cItems = t.cItems := rfl
@[simp] theorem Tables.setCfg_cLanes (t : Tables) (x : Cfg) : (t.setCfg x).cLanes = t.cLanes := rfl
@[simp] theorem Tables.setCfg_cEngine (t : Tables) (x : Cfg) : (t.setCfg x).cEngine = t.cEngine := rfl
@[simp] theorem Tables.setLanes_cfg (t : Tables) (x : List (Nat × Lane)) : (t.setLanes x).cfg = t.cfg := rfl
@[simp] theorem Tables.setLanes_lanes (t : Tables) (x : List (Nat × Lane)) : (t.setLanes x).lanes = x := rfl
@[simp] theorem Tables.setLanes_checks (t : Tables) (x : List (Nat × Lane)) : (t.setLanes x).checks = t.checks := rfl
@[simp] theorem Tables.setLanes_lines (t : Tables) (x : List (Nat × Lane)) : (t.setLanes x).lines = t.lines := rfl
@[simp] theorem Tables.setLanes_items (t : Tables) (x : List (Nat × Lane)) : (t.setLanes x).items = t.items := rfl
@[simp] theorem Tables.setLanes_band (t : Tables) (x : List (Nat × Lane)) : (t.setLanes x).band = t.band := rfl
@[simp] theorem Tables.setLanes_tickets (t : Tables) (x : List (Nat × Lane)) : (t.setLanes x).tickets = t.tickets := rfl
@[simp] theorem Tables.setLanes_owed (t : Tables) (x : List (Nat × Lane)) : (t.setLanes x).owed = t.owed := rfl
@[simp] theorem Tables.setLanes_stations (t : Tables) (x : List (Nat × Lane)) : (t.setLanes x).stations = t.stations := rfl
@[simp] theorem Tables.setLanes_time (t : Tables) (x : List (Nat × Lane)) : (t.setLanes x).time = t.time := rfl
@[simp] theorem Tables.setLanes_actions (t : Tables) (x : List (Nat × Lane)) : (t.setLanes x).actions = t.actions := rfl
@[simp] theorem Tables.setLanes_draw (t : Tables) (x : List (Nat × Lane)) : (t.setLanes x).draw = t.draw := rfl
@[simp] theorem Tables.setLanes_program (t : Tables) (x : List (Nat × Lane)) : (t.setLanes x).program = t.program := rfl
@[simp] theorem Tables.setLanes_slots (t : Tables) (x : List (Nat × Lane)) : (t.setLanes x).slots = t.slots := rfl
@[simp] theorem Tables.setLanes_cStations (t : Tables) (x : List (Nat × Lane)) : (t.setLanes x).cStations = t.cStations := rfl
@[simp] theorem Tables.setLanes_cItems (t : Tables) (x : List (Nat × Lane)) : (t.setLanes x).cItems = t.cItems := rfl
@[simp] theorem Tables.setLanes_cLanes (t : Tables) (x : List (Nat × Lane)) : (t.setLanes x).cLanes = t.cLanes := rfl
@[simp] theorem Tables.setLanes_cEngine (t : Tables) (x : List (Nat × Lane)) : (t.setLanes x).cEngine = t.cEngine := rfl
@[simp] theorem Tables.setChecks_cfg (t : Tables) (x : List (Nat × Check)) : (t.setChecks x).cfg = t.cfg := rfl
@[simp] theorem Tables.setChecks_lanes (t : Tables) (x : List (Nat × Check)) : (t.setChecks x).lanes = t.lanes := rfl
@[simp] theorem Tables.setChecks_checks (t : Tables) (x : List (Nat × Check)) : (t.setChecks x).checks = x := rfl
@[simp] theorem Tables.setChecks_lines (t : Tables) (x : List (Nat × Check)) : (t.setChecks x).lines = t.lines := rfl
@[simp] theorem Tables.setChecks_items (t : Tables) (x : List (Nat × Check)) : (t.setChecks x).items = t.items := rfl
@[simp] theorem Tables.setChecks_band (t : Tables) (x : List (Nat × Check)) : (t.setChecks x).band = t.band := rfl
@[simp] theorem Tables.setChecks_tickets (t : Tables) (x : List (Nat × Check)) : (t.setChecks x).tickets = t.tickets := rfl
@[simp] theorem Tables.setChecks_owed (t : Tables) (x : List (Nat × Check)) : (t.setChecks x).owed = t.owed := rfl
@[simp] theorem Tables.setChecks_stations (t : Tables) (x : List (Nat × Check)) : (t.setChecks x).stations = t.stations := rfl
@[simp] theorem Tables.setChecks_time (t : Tables) (x : List (Nat × Check)) : (t.setChecks x).time = t.time := rfl
@[simp] theorem Tables.setChecks_actions (t : Tables) (x : List (Nat × Check)) : (t.setChecks x).actions = t.actions := rfl
@[simp] theorem Tables.setChecks_draw (t : Tables) (x : List (Nat × Check)) : (t.setChecks x).draw = t.draw := rfl
@[simp] theorem Tables.setChecks_program (t : Tables) (x : List (Nat × Check)) : (t.setChecks x).program = t.program := rfl
@[simp] theorem Tables.setChecks_slots (t : Tables) (x : List (Nat × Check)) : (t.setChecks x).slots = t.slots := rfl
@[simp] theorem Tables.setChecks_cStations (t : Tables) (x : List (Nat × Check)) : (t.setChecks x).cStations = t.cStations := rfl
@[simp] theorem Tables.setChecks_cItems (t : Tables) (x : List (Nat × Check)) : (t.setChecks x).cItems = t.cItems := rfl
@[simp] theorem Tables.setChecks_cLanes (t : Tables) (x : List (Nat × Check)) : (t.setChecks x).cLanes = t.cLanes := rfl
@[simp] theorem Tables.setChecks_cEngine (t : Tables) (x : List (Nat × Check)) : (t.setChecks x).cEngine = t.cEngine := rfl
@[simp] theorem Tables.setLines_cfg (t : Tables) (x : List (Nat × Option Line)) : (t.setLines x).cfg = t.cfg := rfl
@[simp] theorem Tables.setLines_lanes (t : Tables) (x : List (Nat × Option Line)) : (t.setLines x).lanes = t.lanes := rfl
@[simp] theorem Tables.setLines_checks (t : Tables) (x : List (Nat × Option Line)) : (t.setLines x).checks = t.checks := rfl
@[simp] theorem Tables.setLines_lines (t : Tables) (x : List (Nat × Option Line)) : (t.setLines x).lines = x := rfl
@[simp] theorem Tables.setLines_items (t : Tables) (x : List (Nat × Option Line)) : (t.setLines x).items = t.items := rfl
@[simp] theorem Tables.setLines_band (t : Tables) (x : List (Nat × Option Line)) : (t.setLines x).band = t.band := rfl
@[simp] theorem Tables.setLines_tickets (t : Tables) (x : List (Nat × Option Line)) : (t.setLines x).tickets = t.tickets := rfl
@[simp] theorem Tables.setLines_owed (t : Tables) (x : List (Nat × Option Line)) : (t.setLines x).owed = t.owed := rfl
@[simp] theorem Tables.setLines_stations (t : Tables) (x : List (Nat × Option Line)) : (t.setLines x).stations = t.stations := rfl
@[simp] theorem Tables.setLines_time (t : Tables) (x : List (Nat × Option Line)) : (t.setLines x).time = t.time := rfl
@[simp] theorem Tables.setLines_actions (t : Tables) (x : List (Nat × Option Line)) : (t.setLines x).actions = t.actions := rfl
@[simp] theorem Tables.setLines_draw (t : Tables) (x : List (Nat × Option Line)) : (t.setLines x).draw = t.draw := rfl
@[simp] theorem Tables.setLines_program (t : Tables) (x : List (Nat × Option Line)) : (t.setLines x).program = t.program := rfl
@[simp] theorem Tables.setLines_slots (t : Tables) (x : List (Nat × Option Line)) : (t.setLines x).slots = t.slots := rfl
@[simp] theorem Tables.setLines_cStations (t : Tables) (x : List (Nat × Option Line)) : (t.setLines x).cStations = t.cStations := rfl
@[simp] theorem Tables.setLines_cItems (t : Tables) (x : List (Nat × Option Line)) : (t.setLines x).cItems = t.cItems := rfl
@[simp] theorem Tables.setLines_cLanes (t : Tables) (x : List (Nat × Option Line)) : (t.setLines x).cLanes = t.cLanes := rfl
@[simp] theorem Tables.setLines_cEngine (t : Tables) (x : List (Nat × Option Line)) : (t.setLines x).cEngine = t.cEngine := rfl
@[simp] theorem Tables.setItems_cfg (t : Tables) (x : List (Nat × Item)) : (t.setItems x).cfg = t.cfg := rfl
@[simp] theorem Tables.setItems_lanes (t : Tables) (x : List (Nat × Item)) : (t.setItems x).lanes = t.lanes := rfl
@[simp] theorem Tables.setItems_checks (t : Tables) (x : List (Nat × Item)) : (t.setItems x).checks = t.checks := rfl
@[simp] theorem Tables.setItems_lines (t : Tables) (x : List (Nat × Item)) : (t.setItems x).lines = t.lines := rfl
@[simp] theorem Tables.setItems_items (t : Tables) (x : List (Nat × Item)) : (t.setItems x).items = x := rfl
@[simp] theorem Tables.setItems_band (t : Tables) (x : List (Nat × Item)) : (t.setItems x).band = t.band := rfl
@[simp] theorem Tables.setItems_tickets (t : Tables) (x : List (Nat × Item)) : (t.setItems x).tickets = t.tickets := rfl
@[simp] theorem Tables.setItems_owed (t : Tables) (x : List (Nat × Item)) : (t.setItems x).owed = t.owed := rfl
@[simp] theorem Tables.setItems_stations (t : Tables) (x : List (Nat × Item)) : (t.setItems x).stations = t.stations := rfl
@[simp] theorem Tables.setItems_time (t : Tables) (x : List (Nat × Item)) : (t.setItems x).time = t.time := rfl
@[simp] theorem Tables.setItems_actions (t : Tables) (x : List (Nat × Item)) : (t.setItems x).actions = t.actions := rfl
@[simp] theorem Tables.setItems_draw (t : Tables) (x : List (Nat × Item)) : (t.setItems x).draw = t.draw := rfl
@[simp] theorem Tables.setItems_program (t : Tables) (x : List (Nat × Item)) : (t.setItems x).program = t.program := rfl
@[simp] theorem Tables.setItems_slots (t : Tables) (x : List (Nat × Item)) : (t.setItems x).slots = t.slots := rfl
@[simp] theorem Tables.setItems_cStations (t : Tables) (x : List (Nat × Item)) : (t.setItems x).cStations = t.cStations := rfl
@[simp] theorem Tables.setItems_cItems (t : Tables) (x : List (Nat × Item)) : (t.setItems x).cItems = t.cItems := rfl
@[simp] theorem Tables.setItems_cLanes (t : Tables) (x : List (Nat × Item)) : (t.setItems x).cLanes = t.cLanes := rfl
@[simp] theorem Tables.setItems_cEngine (t : Tables) (x : List (Nat × Item)) : (t.setItems x).cEngine = t.cEngine := rfl
@[simp] theorem Tables.setBand_cfg (t : Tables) (x : Nat) : (t.setBand x).cfg = t.cfg := rfl
@[simp] theorem Tables.setBand_lanes (t : Tables) (x : Nat) : (t.setBand x).lanes = t.lanes := rfl
@[simp] theorem Tables.setBand_checks (t : Tables) (x : Nat) : (t.setBand x).checks = t.checks := rfl
@[simp] theorem Tables.setBand_lines (t : Tables) (x : Nat) : (t.setBand x).lines = t.lines := rfl
@[simp] theorem Tables.setBand_items (t : Tables) (x : Nat) : (t.setBand x).items = t.items := rfl
@[simp] theorem Tables.setBand_band (t : Tables) (x : Nat) : (t.setBand x).band = x := rfl
@[simp] theorem Tables.setBand_tickets (t : Tables) (x : Nat) : (t.setBand x).tickets = t.tickets := rfl
@[simp] theorem Tables.setBand_owed (t : Tables) (x : Nat) : (t.setBand x).owed = t.owed := rfl
@[simp] theorem Tables.setBand_stations (t : Tables) (x : Nat) : (t.setBand x).stations = t.stations := rfl
@[simp] theorem Tables.setBand_time (t : Tables) (x : Nat) : (t.setBand x).time = t.time := rfl
@[simp] theorem Tables.setBand_actions (t : Tables) (x : Nat) : (t.setBand x).actions = t.actions := rfl
@[simp] theorem Tables.setBand_draw (t : Tables) (x : Nat) : (t.setBand x).draw = t.draw := rfl
@[simp] theorem Tables.setBand_program (t : Tables) (x : Nat) : (t.setBand x).program = t.program := rfl
@[simp] theorem Tables.setBand_slots (t : Tables) (x : Nat) : (t.setBand x).slots = t.slots := rfl
@[simp] theorem Tables.setBand_cStations (t : Tables) (x : Nat) : (t.setBand x).cStations = t.cStations := rfl
@[simp] theorem Tables.setBand_cItems (t : Tables) (x : Nat) : (t.setBand x).cItems = t.cItems := rfl
@[simp] theorem Tables.setBand_cLanes (t : Tables) (x : Nat) : (t.setBand x).cLanes = t.cLanes := rfl
@[simp] theorem Tables.setBand_cEngine (t : Tables) (x : Nat) : (t.setBand x).cEngine = t.cEngine := rfl
@[simp] theorem Tables.setTickets_cfg (t : Tables) (x : List (Nat × Ticket)) : (t.setTickets x).cfg = t.cfg := rfl
@[simp] theorem Tables.setTickets_lanes (t : Tables) (x : List (Nat × Ticket)) : (t.setTickets x).lanes = t.lanes := rfl
@[simp] theorem Tables.setTickets_checks (t : Tables) (x : List (Nat × Ticket)) : (t.setTickets x).checks = t.checks := rfl
@[simp] theorem Tables.setTickets_lines (t : Tables) (x : List (Nat × Ticket)) : (t.setTickets x).lines = t.lines := rfl
@[simp] theorem Tables.setTickets_items (t : Tables) (x : List (Nat × Ticket)) : (t.setTickets x).items = t.items := rfl
@[simp] theorem Tables.setTickets_band (t : Tables) (x : List (Nat × Ticket)) : (t.setTickets x).band = t.band := rfl
@[simp] theorem Tables.setTickets_tickets (t : Tables) (x : List (Nat × Ticket)) : (t.setTickets x).tickets = x := rfl
@[simp] theorem Tables.setTickets_owed (t : Tables) (x : List (Nat × Ticket)) : (t.setTickets x).owed = t.owed := rfl
@[simp] theorem Tables.setTickets_stations (t : Tables) (x : List (Nat × Ticket)) : (t.setTickets x).stations = t.stations := rfl
@[simp] theorem Tables.setTickets_time (t : Tables) (x : List (Nat × Ticket)) : (t.setTickets x).time = t.time := rfl
@[simp] theorem Tables.setTickets_actions (t : Tables) (x : List (Nat × Ticket)) : (t.setTickets x).actions = t.actions := rfl
@[simp] theorem Tables.setTickets_draw (t : Tables) (x : List (Nat × Ticket)) : (t.setTickets x).draw = t.draw := rfl
@[simp] theorem Tables.setTickets_program (t : Tables) (x : List (Nat × Ticket)) : (t.setTickets x).program = t.program := rfl
@[simp] theorem Tables.setTickets_slots (t : Tables) (x : List (Nat × Ticket)) : (t.setTickets x).slots = t.slots := rfl
@[simp] theorem Tables.setTickets_cStations (t : Tables) (x : List (Nat × Ticket)) : (t.setTickets x).cStations = t.cStations := rfl
@[simp] theorem Tables.setTickets_cItems (t : Tables) (x : List (Nat × Ticket)) : (t.setTickets x).cItems = t.cItems := rfl
@[simp] theorem Tables.setTickets_cLanes (t : Tables) (x : List (Nat × Ticket)) : (t.setTickets x).cLanes = t.cLanes := rfl
@[simp] theorem Tables.setTickets_cEngine (t : Tables) (x : List (Nat × Ticket)) : (t.setTickets x).cEngine = t.cEngine := rfl
@[simp] theorem Tables.setOwed_cfg (t : Tables) (x : List Nat) : (t.setOwed x).cfg = t.cfg := rfl
@[simp] theorem Tables.setOwed_lanes (t : Tables) (x : List Nat) : (t.setOwed x).lanes = t.lanes := rfl
@[simp] theorem Tables.setOwed_checks (t : Tables) (x : List Nat) : (t.setOwed x).checks = t.checks := rfl
@[simp] theorem Tables.setOwed_lines (t : Tables) (x : List Nat) : (t.setOwed x).lines = t.lines := rfl
@[simp] theorem Tables.setOwed_items (t : Tables) (x : List Nat) : (t.setOwed x).items = t.items := rfl
@[simp] theorem Tables.setOwed_band (t : Tables) (x : List Nat) : (t.setOwed x).band = t.band := rfl
@[simp] theorem Tables.setOwed_tickets (t : Tables) (x : List Nat) : (t.setOwed x).tickets = t.tickets := rfl
@[simp] theorem Tables.setOwed_owed (t : Tables) (x : List Nat) : (t.setOwed x).owed = x := rfl
@[simp] theorem Tables.setOwed_stations (t : Tables) (x : List Nat) : (t.setOwed x).stations = t.stations := rfl
@[simp] theorem Tables.setOwed_time (t : Tables) (x : List Nat) : (t.setOwed x).time = t.time := rfl
@[simp] theorem Tables.setOwed_actions (t : Tables) (x : List Nat) : (t.setOwed x).actions = t.actions := rfl
@[simp] theorem Tables.setOwed_draw (t : Tables) (x : List Nat) : (t.setOwed x).draw = t.draw := rfl
@[simp] theorem Tables.setOwed_program (t : Tables) (x : List Nat) : (t.setOwed x).program = t.program := rfl
@[simp] theorem Tables.setOwed_slots (t : Tables) (x : List Nat) : (t.setOwed x).slots = t.slots := rfl
@[simp] theorem Tables.setOwed_cStations (t : Tables) (x : List Nat) : (t.setOwed x).cStations = t.cStations := rfl
@[simp] theorem Tables.setOwed_cItems (t : Tables) (x : List Nat) : (t.setOwed x).cItems = t.cItems := rfl
@[simp] theorem Tables.setOwed_cLanes (t : Tables) (x : List Nat) : (t.setOwed x).cLanes = t.cLanes := rfl
@[simp] theorem Tables.setOwed_cEngine (t : Tables) (x : List Nat) : (t.setOwed x).cEngine = t.cEngine := rfl
@[simp] theorem Tables.setStations_cfg (t : Tables) (x : List (Nat × Station)) : (t.setStations x).cfg = t.cfg := rfl
@[simp] theorem Tables.setStations_lanes (t : Tables) (x : List (Nat × Station)) : (t.setStations x).lanes = t.lanes := rfl
@[simp] theorem Tables.setStations_checks (t : Tables) (x : List (Nat × Station)) : (t.setStations x).checks = t.checks := rfl
@[simp] theorem Tables.setStations_lines (t : Tables) (x : List (Nat × Station)) : (t.setStations x).lines = t.lines := rfl
@[simp] theorem Tables.setStations_items (t : Tables) (x : List (Nat × Station)) : (t.setStations x).items = t.items := rfl
@[simp] theorem Tables.setStations_band (t : Tables) (x : List (Nat × Station)) : (t.setStations x).band = t.band := rfl
@[simp] theorem Tables.setStations_tickets (t : Tables) (x : List (Nat × Station)) : (t.setStations x).tickets = t.tickets := rfl
@[simp] theorem Tables.setStations_owed (t : Tables) (x : List (Nat × Station)) : (t.setStations x).owed = t.owed := rfl
@[simp] theorem Tables.setStations_stations (t : Tables) (x : List (Nat × Station)) : (t.setStations x).stations = x := rfl
@[simp] theorem Tables.setStations_time (t : Tables) (x : List (Nat × Station)) : (t.setStations x).time = t.time := rfl
@[simp] theorem Tables.setStations_actions (t : Tables) (x : List (Nat × Station)) : (t.setStations x).actions = t.actions := rfl
@[simp] theorem Tables.setStations_draw (t : Tables) (x : List (Nat × Station)) : (t.setStations x).draw = t.draw := rfl
@[simp] theorem Tables.setStations_program (t : Tables) (x : List (Nat × Station)) : (t.setStations x).program = t.program := rfl
@[simp] theorem Tables.setStations_slots (t : Tables) (x : List (Nat × Station)) : (t.setStations x).slots = t.slots := rfl
@[simp] theorem Tables.setStations_cStations (t : Tables) (x : List (Nat × Station)) : (t.setStations x).cStations = t.cStations := rfl
@[simp] theorem Tables.setStations_cItems (t : Tables) (x : List (Nat × Station)) : (t.setStations x).cItems = t.cItems := rfl
@[simp] theorem Tables.setStations_cLanes (t : Tables) (x : List (Nat × Station)) : (t.setStations x).cLanes = t.cLanes := rfl
@[simp] theorem Tables.setStations_cEngine (t : Tables) (x : List (Nat × Station)) : (t.setStations x).cEngine = t.cEngine := rfl
@[simp] theorem Tables.setTime_cfg (t : Tables) (x : Word) : (t.setTime x).cfg = t.cfg := rfl
@[simp] theorem Tables.setTime_lanes (t : Tables) (x : Word) : (t.setTime x).lanes = t.lanes := rfl
@[simp] theorem Tables.setTime_checks (t : Tables) (x : Word) : (t.setTime x).checks = t.checks := rfl
@[simp] theorem Tables.setTime_lines (t : Tables) (x : Word) : (t.setTime x).lines = t.lines := rfl
@[simp] theorem Tables.setTime_items (t : Tables) (x : Word) : (t.setTime x).items = t.items := rfl
@[simp] theorem Tables.setTime_band (t : Tables) (x : Word) : (t.setTime x).band = t.band := rfl
@[simp] theorem Tables.setTime_tickets (t : Tables) (x : Word) : (t.setTime x).tickets = t.tickets := rfl
@[simp] theorem Tables.setTime_owed (t : Tables) (x : Word) : (t.setTime x).owed = t.owed := rfl
@[simp] theorem Tables.setTime_stations (t : Tables) (x : Word) : (t.setTime x).stations = t.stations := rfl
@[simp] theorem Tables.setTime_time (t : Tables) (x : Word) : (t.setTime x).time = x := rfl
@[simp] theorem Tables.setTime_actions (t : Tables) (x : Word) : (t.setTime x).actions = t.actions := rfl
@[simp] theorem Tables.setTime_draw (t : Tables) (x : Word) : (t.setTime x).draw = t.draw := rfl
@[simp] theorem Tables.setTime_program (t : Tables) (x : Word) : (t.setTime x).program = t.program := rfl
@[simp] theorem Tables.setTime_slots (t : Tables) (x : Word) : (t.setTime x).slots = t.slots := rfl
@[simp] theorem Tables.setTime_cStations (t : Tables) (x : Word) : (t.setTime x).cStations = t.cStations := rfl
@[simp] theorem Tables.setTime_cItems (t : Tables) (x : Word) : (t.setTime x).cItems = t.cItems := rfl
@[simp] theorem Tables.setTime_cLanes (t : Tables) (x : Word) : (t.setTime x).cLanes = t.cLanes := rfl
@[simp] theorem Tables.setTime_cEngine (t : Tables) (x : Word) : (t.setTime x).cEngine = t.cEngine := rfl
@[simp] theorem Tables.setActions_cfg (t : Tables) (x : List (Nat × TimedEntry)) : (t.setActions x).cfg = t.cfg := rfl
@[simp] theorem Tables.setActions_lanes (t : Tables) (x : List (Nat × TimedEntry)) : (t.setActions x).lanes = t.lanes := rfl
@[simp] theorem Tables.setActions_checks (t : Tables) (x : List (Nat × TimedEntry)) : (t.setActions x).checks = t.checks := rfl
@[simp] theorem Tables.setActions_lines (t : Tables) (x : List (Nat × TimedEntry)) : (t.setActions x).lines = t.lines := rfl
@[simp] theorem Tables.setActions_items (t : Tables) (x : List (Nat × TimedEntry)) : (t.setActions x).items = t.items := rfl
@[simp] theorem Tables.setActions_band (t : Tables) (x : List (Nat × TimedEntry)) : (t.setActions x).band = t.band := rfl
@[simp] theorem Tables.setActions_tickets (t : Tables) (x : List (Nat × TimedEntry)) : (t.setActions x).tickets = t.tickets := rfl
@[simp] theorem Tables.setActions_owed (t : Tables) (x : List (Nat × TimedEntry)) : (t.setActions x).owed = t.owed := rfl
@[simp] theorem Tables.setActions_stations (t : Tables) (x : List (Nat × TimedEntry)) : (t.setActions x).stations = t.stations := rfl
@[simp] theorem Tables.setActions_time (t : Tables) (x : List (Nat × TimedEntry)) : (t.setActions x).time = t.time := rfl
@[simp] theorem Tables.setActions_actions (t : Tables) (x : List (Nat × TimedEntry)) : (t.setActions x).actions = x := rfl
@[simp] theorem Tables.setActions_draw (t : Tables) (x : List (Nat × TimedEntry)) : (t.setActions x).draw = t.draw := rfl
@[simp] theorem Tables.setActions_program (t : Tables) (x : List (Nat × TimedEntry)) : (t.setActions x).program = t.program := rfl
@[simp] theorem Tables.setActions_slots (t : Tables) (x : List (Nat × TimedEntry)) : (t.setActions x).slots = t.slots := rfl
@[simp] theorem Tables.setActions_cStations (t : Tables) (x : List (Nat × TimedEntry)) : (t.setActions x).cStations = t.cStations := rfl
@[simp] theorem Tables.setActions_cItems (t : Tables) (x : List (Nat × TimedEntry)) : (t.setActions x).cItems = t.cItems := rfl
@[simp] theorem Tables.setActions_cLanes (t : Tables) (x : List (Nat × TimedEntry)) : (t.setActions x).cLanes = t.cLanes := rfl
@[simp] theorem Tables.setActions_cEngine (t : Tables) (x : List (Nat × TimedEntry)) : (t.setActions x).cEngine = t.cEngine := rfl
@[simp] theorem Tables.setDraw_cfg (t : Tables) (x : Word) : (t.setDraw x).cfg = t.cfg := rfl
@[simp] theorem Tables.setDraw_lanes (t : Tables) (x : Word) : (t.setDraw x).lanes = t.lanes := rfl
@[simp] theorem Tables.setDraw_checks (t : Tables) (x : Word) : (t.setDraw x).checks = t.checks := rfl
@[simp] theorem Tables.setDraw_lines (t : Tables) (x : Word) : (t.setDraw x).lines = t.lines := rfl
@[simp] theorem Tables.setDraw_items (t : Tables) (x : Word) : (t.setDraw x).items = t.items := rfl
@[simp] theorem Tables.setDraw_band (t : Tables) (x : Word) : (t.setDraw x).band = t.band := rfl
@[simp] theorem Tables.setDraw_tickets (t : Tables) (x : Word) : (t.setDraw x).tickets = t.tickets := rfl
@[simp] theorem Tables.setDraw_owed (t : Tables) (x : Word) : (t.setDraw x).owed = t.owed := rfl
@[simp] theorem Tables.setDraw_stations (t : Tables) (x : Word) : (t.setDraw x).stations = t.stations := rfl
@[simp] theorem Tables.setDraw_time (t : Tables) (x : Word) : (t.setDraw x).time = t.time := rfl
@[simp] theorem Tables.setDraw_actions (t : Tables) (x : Word) : (t.setDraw x).actions = t.actions := rfl
@[simp] theorem Tables.setDraw_draw (t : Tables) (x : Word) : (t.setDraw x).draw = x := rfl
@[simp] theorem Tables.setDraw_program (t : Tables) (x : Word) : (t.setDraw x).program = t.program := rfl
@[simp] theorem Tables.setDraw_slots (t : Tables) (x : Word) : (t.setDraw x).slots = t.slots := rfl
@[simp] theorem Tables.setDraw_cStations (t : Tables) (x : Word) : (t.setDraw x).cStations = t.cStations := rfl
@[simp] theorem Tables.setDraw_cItems (t : Tables) (x : Word) : (t.setDraw x).cItems = t.cItems := rfl
@[simp] theorem Tables.setDraw_cLanes (t : Tables) (x : Word) : (t.setDraw x).cLanes = t.cLanes := rfl
@[simp] theorem Tables.setDraw_cEngine (t : Tables) (x : Word) : (t.setDraw x).cEngine = t.cEngine := rfl
@[simp] theorem Tables.setProgram_cfg (t : Tables) (x : List (Nat × ProgEntry)) : (t.setProgram x).cfg = t.cfg := rfl
@[simp] theorem Tables.setProgram_lanes (t : Tables) (x : List (Nat × ProgEntry)) : (t.setProgram x).lanes = t.lanes := rfl
@[simp] theorem Tables.setProgram_checks (t : Tables) (x : List (Nat × ProgEntry)) : (t.setProgram x).checks = t.checks := rfl
@[simp] theorem Tables.setProgram_lines (t : Tables) (x : List (Nat × ProgEntry)) : (t.setProgram x).lines = t.lines := rfl
@[simp] theorem Tables.setProgram_items (t : Tables) (x : List (Nat × ProgEntry)) : (t.setProgram x).items = t.items := rfl
@[simp] theorem Tables.setProgram_band (t : Tables) (x : List (Nat × ProgEntry)) : (t.setProgram x).band = t.band := rfl
@[simp] theorem Tables.setProgram_tickets (t : Tables) (x : List (Nat × ProgEntry)) : (t.setProgram x).tickets = t.tickets := rfl
@[simp] theorem Tables.setProgram_owed (t : Tables) (x : List (Nat × ProgEntry)) : (t.setProgram x).owed = t.owed := rfl
@[simp] theorem Tables.setProgram_stations (t : Tables) (x : List (Nat × ProgEntry)) : (t.setProgram x).stations = t.stations := rfl
@[simp] theorem Tables.setProgram_time (t : Tables) (x : List (Nat × ProgEntry)) : (t.setProgram x).time = t.time := rfl
@[simp] theorem Tables.setProgram_actions (t : Tables) (x : List (Nat × ProgEntry)) : (t.setProgram x).actions = t.actions := rfl
@[simp] theorem Tables.setProgram_draw (t : Tables) (x : List (Nat × ProgEntry)) : (t.setProgram x).draw = t.draw := rfl
@[simp] theorem Tables.setProgram_program (t : Tables) (x : List (Nat × ProgEntry)) : (t.setProgram x).program = x := rfl
@[simp] theorem Tables.setProgram_slots (t : Tables) (x : List (Nat × ProgEntry)) : (t.setProgram x).slots = t.slots := rfl
@[simp] theorem Tables.setProgram_cStations (t : Tables) (x : List (Nat × ProgEntry)) : (t.setProgram x).cStations = t.cStations := rfl
@[simp] theorem Tables.setProgram_cItems (t : Tables) (x : List (Nat × ProgEntry)) : (t.setProgram x).cItems = t.cItems := rfl
@[simp] theorem Tables.setProgram_cLanes (t : Tables) (x : List (Nat × ProgEntry)) : (t.setProgram x).cLanes = t.cLanes := rfl
@[simp] theorem Tables.setProgram_cEngine (t : Tables) (x : List (Nat × ProgEntry)) : (t.setProgram x).cEngine = t.cEngine := rfl
@[simp] theorem Tables.setSlots_cfg (t : Tables) (x : List (Nat × Slot)) : (t.setSlots x).cfg = t.cfg := rfl
@[simp] theorem Tables.setSlots_lanes (t : Tables) (x : List (Nat × Slot)) : (t.setSlots x).lanes = t.lanes := rfl
@[simp] theorem Tables.setSlots_checks (t : Tables) (x : List (Nat × Slot)) : (t.setSlots x).checks = t.checks := rfl
@[simp] theorem Tables.setSlots_lines (t : Tables) (x : List (Nat × Slot)) : (t.setSlots x).lines = t.lines := rfl
@[simp] theorem Tables.setSlots_items (t : Tables) (x : List (Nat × Slot)) : (t.setSlots x).items = t.items := rfl
@[simp] theorem Tables.setSlots_band (t : Tables) (x : List (Nat × Slot)) : (t.setSlots x).band = t.band := rfl
@[simp] theorem Tables.setSlots_tickets (t : Tables) (x : List (Nat × Slot)) : (t.setSlots x).tickets = t.tickets := rfl
@[simp] theorem Tables.setSlots_owed (t : Tables) (x : List (Nat × Slot)) : (t.setSlots x).owed = t.owed := rfl
@[simp] theorem Tables.setSlots_stations (t : Tables) (x : List (Nat × Slot)) : (t.setSlots x).stations = t.stations := rfl
@[simp] theorem Tables.setSlots_time (t : Tables) (x : List (Nat × Slot)) : (t.setSlots x).time = t.time := rfl
@[simp] theorem Tables.setSlots_actions (t : Tables) (x : List (Nat × Slot)) : (t.setSlots x).actions = t.actions := rfl
@[simp] theorem Tables.setSlots_draw (t : Tables) (x : List (Nat × Slot)) : (t.setSlots x).draw = t.draw := rfl
@[simp] theorem Tables.setSlots_program (t : Tables) (x : List (Nat × Slot)) : (t.setSlots x).program = t.program := rfl
@[simp] theorem Tables.setSlots_slots (t : Tables) (x : List (Nat × Slot)) : (t.setSlots x).slots = x := rfl
@[simp] theorem Tables.setSlots_cStations (t : Tables) (x : List (Nat × Slot)) : (t.setSlots x).cStations = t.cStations := rfl
@[simp] theorem Tables.setSlots_cItems (t : Tables) (x : List (Nat × Slot)) : (t.setSlots x).cItems = t.cItems := rfl
@[simp] theorem Tables.setSlots_cLanes (t : Tables) (x : List (Nat × Slot)) : (t.setSlots x).cLanes = t.cLanes := rfl
@[simp] theorem Tables.setSlots_cEngine (t : Tables) (x : List (Nat × Slot)) : (t.setSlots x).cEngine = t.cEngine := rfl
@[simp] theorem Tables.setCStations_cfg (t : Tables) (x : List (Nat × StationCount)) : (t.setCStations x).cfg = t.cfg := rfl
@[simp] theorem Tables.setCStations_lanes (t : Tables) (x : List (Nat × StationCount)) : (t.setCStations x).lanes = t.lanes := rfl
@[simp] theorem Tables.setCStations_checks (t : Tables) (x : List (Nat × StationCount)) : (t.setCStations x).checks = t.checks := rfl
@[simp] theorem Tables.setCStations_lines (t : Tables) (x : List (Nat × StationCount)) : (t.setCStations x).lines = t.lines := rfl
@[simp] theorem Tables.setCStations_items (t : Tables) (x : List (Nat × StationCount)) : (t.setCStations x).items = t.items := rfl
@[simp] theorem Tables.setCStations_band (t : Tables) (x : List (Nat × StationCount)) : (t.setCStations x).band = t.band := rfl
@[simp] theorem Tables.setCStations_tickets (t : Tables) (x : List (Nat × StationCount)) : (t.setCStations x).tickets = t.tickets := rfl
@[simp] theorem Tables.setCStations_owed (t : Tables) (x : List (Nat × StationCount)) : (t.setCStations x).owed = t.owed := rfl
@[simp] theorem Tables.setCStations_stations (t : Tables) (x : List (Nat × StationCount)) : (t.setCStations x).stations = t.stations := rfl
@[simp] theorem Tables.setCStations_time (t : Tables) (x : List (Nat × StationCount)) : (t.setCStations x).time = t.time := rfl
@[simp] theorem Tables.setCStations_actions (t : Tables) (x : List (Nat × StationCount)) : (t.setCStations x).actions = t.actions := rfl
@[simp] theorem Tables.setCStations_draw (t : Tables) (x : List (Nat × StationCount)) : (t.setCStations x).draw = t.draw := rfl
@[simp] theorem Tables.setCStations_program (t : Tables) (x : List (Nat × StationCount)) : (t.setCStations x).program = t.program := rfl
@[simp] theorem Tables.setCStations_slots (t : Tables) (x : List (Nat × StationCount)) : (t.setCStations x).slots = t.slots := rfl
@[simp] theorem Tables.setCStations_cStations (t : Tables) (x : List (Nat × StationCount)) : (t.setCStations x).cStations = x := rfl
@[simp] theorem Tables.setCStations_cItems (t : Tables) (x : List (Nat × StationCount)) : (t.setCStations x).cItems = t.cItems := rfl
@[simp] theorem Tables.setCStations_cLanes (t : Tables) (x : List (Nat × StationCount)) : (t.setCStations x).cLanes = t.cLanes := rfl
@[simp] theorem Tables.setCStations_cEngine (t : Tables) (x : List (Nat × StationCount)) : (t.setCStations x).cEngine = t.cEngine := rfl
@[simp] theorem Tables.setCItems_cfg (t : Tables) (x : List (Nat × ItemCount)) : (t.setCItems x).cfg = t.cfg := rfl
@[simp] theorem Tables.setCItems_lanes (t : Tables) (x : List (Nat × ItemCount)) : (t.setCItems x).lanes = t.lanes := rfl
@[simp] theorem Tables.setCItems_checks (t : Tables) (x : List (Nat × ItemCount)) : (t.setCItems x).checks = t.checks := rfl
@[simp] theorem Tables.setCItems_lines (t : Tables) (x : List (Nat × ItemCount)) : (t.setCItems x).lines = t.lines := rfl
@[simp] theorem Tables.setCItems_items (t : Tables) (x : List (Nat × ItemCount)) : (t.setCItems x).items = t.items := rfl
@[simp] theorem Tables.setCItems_band (t : Tables) (x : List (Nat × ItemCount)) : (t.setCItems x).band = t.band := rfl
@[simp] theorem Tables.setCItems_tickets (t : Tables) (x : List (Nat × ItemCount)) : (t.setCItems x).tickets = t.tickets := rfl
@[simp] theorem Tables.setCItems_owed (t : Tables) (x : List (Nat × ItemCount)) : (t.setCItems x).owed = t.owed := rfl
@[simp] theorem Tables.setCItems_stations (t : Tables) (x : List (Nat × ItemCount)) : (t.setCItems x).stations = t.stations := rfl
@[simp] theorem Tables.setCItems_time (t : Tables) (x : List (Nat × ItemCount)) : (t.setCItems x).time = t.time := rfl
@[simp] theorem Tables.setCItems_actions (t : Tables) (x : List (Nat × ItemCount)) : (t.setCItems x).actions = t.actions := rfl
@[simp] theorem Tables.setCItems_draw (t : Tables) (x : List (Nat × ItemCount)) : (t.setCItems x).draw = t.draw := rfl
@[simp] theorem Tables.setCItems_program (t : Tables) (x : List (Nat × ItemCount)) : (t.setCItems x).program = t.program := rfl
@[simp] theorem Tables.setCItems_slots (t : Tables) (x : List (Nat × ItemCount)) : (t.setCItems x).slots = t.slots := rfl
@[simp] theorem Tables.setCItems_cStations (t : Tables) (x : List (Nat × ItemCount)) : (t.setCItems x).cStations = t.cStations := rfl
@[simp] theorem Tables.setCItems_cItems (t : Tables) (x : List (Nat × ItemCount)) : (t.setCItems x).cItems = x := rfl
@[simp] theorem Tables.setCItems_cLanes (t : Tables) (x : List (Nat × ItemCount)) : (t.setCItems x).cLanes = t.cLanes := rfl
@[simp] theorem Tables.setCItems_cEngine (t : Tables) (x : List (Nat × ItemCount)) : (t.setCItems x).cEngine = t.cEngine := rfl
@[simp] theorem Tables.setCLanes_cfg (t : Tables) (x : List (Nat × LaneCount)) : (t.setCLanes x).cfg = t.cfg := rfl
@[simp] theorem Tables.setCLanes_lanes (t : Tables) (x : List (Nat × LaneCount)) : (t.setCLanes x).lanes = t.lanes := rfl
@[simp] theorem Tables.setCLanes_checks (t : Tables) (x : List (Nat × LaneCount)) : (t.setCLanes x).checks = t.checks := rfl
@[simp] theorem Tables.setCLanes_lines (t : Tables) (x : List (Nat × LaneCount)) : (t.setCLanes x).lines = t.lines := rfl
@[simp] theorem Tables.setCLanes_items (t : Tables) (x : List (Nat × LaneCount)) : (t.setCLanes x).items = t.items := rfl
@[simp] theorem Tables.setCLanes_band (t : Tables) (x : List (Nat × LaneCount)) : (t.setCLanes x).band = t.band := rfl
@[simp] theorem Tables.setCLanes_tickets (t : Tables) (x : List (Nat × LaneCount)) : (t.setCLanes x).tickets = t.tickets := rfl
@[simp] theorem Tables.setCLanes_owed (t : Tables) (x : List (Nat × LaneCount)) : (t.setCLanes x).owed = t.owed := rfl
@[simp] theorem Tables.setCLanes_stations (t : Tables) (x : List (Nat × LaneCount)) : (t.setCLanes x).stations = t.stations := rfl
@[simp] theorem Tables.setCLanes_time (t : Tables) (x : List (Nat × LaneCount)) : (t.setCLanes x).time = t.time := rfl
@[simp] theorem Tables.setCLanes_actions (t : Tables) (x : List (Nat × LaneCount)) : (t.setCLanes x).actions = t.actions := rfl
@[simp] theorem Tables.setCLanes_draw (t : Tables) (x : List (Nat × LaneCount)) : (t.setCLanes x).draw = t.draw := rfl
@[simp] theorem Tables.setCLanes_program (t : Tables) (x : List (Nat × LaneCount)) : (t.setCLanes x).program = t.program := rfl
@[simp] theorem Tables.setCLanes_slots (t : Tables) (x : List (Nat × LaneCount)) : (t.setCLanes x).slots = t.slots := rfl
@[simp] theorem Tables.setCLanes_cStations (t : Tables) (x : List (Nat × LaneCount)) : (t.setCLanes x).cStations = t.cStations := rfl
@[simp] theorem Tables.setCLanes_cItems (t : Tables) (x : List (Nat × LaneCount)) : (t.setCLanes x).cItems = t.cItems := rfl
@[simp] theorem Tables.setCLanes_cLanes (t : Tables) (x : List (Nat × LaneCount)) : (t.setCLanes x).cLanes = x := rfl
@[simp] theorem Tables.setCLanes_cEngine (t : Tables) (x : List (Nat × LaneCount)) : (t.setCLanes x).cEngine = t.cEngine := rfl
@[simp] theorem Tables.setCEngine_cfg (t : Tables) (x : EngineCount) : (t.setCEngine x).cfg = t.cfg := rfl
@[simp] theorem Tables.setCEngine_lanes (t : Tables) (x : EngineCount) : (t.setCEngine x).lanes = t.lanes := rfl
@[simp] theorem Tables.setCEngine_checks (t : Tables) (x : EngineCount) : (t.setCEngine x).checks = t.checks := rfl
@[simp] theorem Tables.setCEngine_lines (t : Tables) (x : EngineCount) : (t.setCEngine x).lines = t.lines := rfl
@[simp] theorem Tables.setCEngine_items (t : Tables) (x : EngineCount) : (t.setCEngine x).items = t.items := rfl
@[simp] theorem Tables.setCEngine_band (t : Tables) (x : EngineCount) : (t.setCEngine x).band = t.band := rfl
@[simp] theorem Tables.setCEngine_tickets (t : Tables) (x : EngineCount) : (t.setCEngine x).tickets = t.tickets := rfl
@[simp] theorem Tables.setCEngine_owed (t : Tables) (x : EngineCount) : (t.setCEngine x).owed = t.owed := rfl
@[simp] theorem Tables.setCEngine_stations (t : Tables) (x : EngineCount) : (t.setCEngine x).stations = t.stations := rfl
@[simp] theorem Tables.setCEngine_time (t : Tables) (x : EngineCount) : (t.setCEngine x).time = t.time := rfl
@[simp] theorem Tables.setCEngine_actions (t : Tables) (x : EngineCount) : (t.setCEngine x).actions = t.actions := rfl
@[simp] theorem Tables.setCEngine_draw (t : Tables) (x : EngineCount) : (t.setCEngine x).draw = t.draw := rfl
@[simp] theorem Tables.setCEngine_program (t : Tables) (x : EngineCount) : (t.setCEngine x).program = t.program := rfl
@[simp] theorem Tables.setCEngine_slots (t : Tables) (x : EngineCount) : (t.setCEngine x).slots = t.slots := rfl
@[simp] theorem Tables.setCEngine_cStations (t : Tables) (x : EngineCount) : (t.setCEngine x).cStations = t.cStations := rfl
@[simp] theorem Tables.setCEngine_cItems (t : Tables) (x : EngineCount) : (t.setCEngine x).cItems = t.cItems := rfl
@[simp] theorem Tables.setCEngine_cLanes (t : Tables) (x : EngineCount) : (t.setCEngine x).cLanes = t.cLanes := rfl
@[simp] theorem Tables.setCEngine_cEngine (t : Tables) (x : EngineCount) : (t.setCEngine x).cEngine = x := rfl

@[simp] theorem Tables.setCfg_lane_at (t : Tables) (x : Cfg) (i : Nat) : (t.setCfg x).lane i = t.lane i := rfl
@[simp] theorem Tables.setCfg_check_at (t : Tables) (x : Cfg) (i : Nat) : (t.setCfg x).check i = t.check i := rfl
@[simp] theorem Tables.setCfg_line_at (t : Tables) (x : Cfg) (i : Nat) : (t.setCfg x).line i = t.line i := rfl
@[simp] theorem Tables.setCfg_item_at (t : Tables) (x : Cfg) (i : Nat) : (t.setCfg x).item i = t.item i := rfl
@[simp] theorem Tables.setCfg_ticket_at (t : Tables) (x : Cfg) (i : Nat) : (t.setCfg x).ticket i = t.ticket i := rfl
@[simp] theorem Tables.setCfg_station_at (t : Tables) (x : Cfg) (i : Nat) : (t.setCfg x).station i = t.station i := rfl
@[simp] theorem Tables.setCfg_action_at (t : Tables) (x : Cfg) (i : Nat) : (t.setCfg x).action i = t.action i := rfl
@[simp] theorem Tables.setCfg_entry_at (t : Tables) (x : Cfg) (i : Nat) : (t.setCfg x).entry i = t.entry i := rfl
@[simp] theorem Tables.setCfg_slot_at (t : Tables) (x : Cfg) (i : Nat) : (t.setCfg x).slot i = t.slot i := rfl
@[simp] theorem Tables.setCfg_cStation_at (t : Tables) (x : Cfg) (i : Nat) : (t.setCfg x).cStation i = t.cStation i := rfl
@[simp] theorem Tables.setCfg_cItem_at (t : Tables) (x : Cfg) (i : Nat) : (t.setCfg x).cItem i = t.cItem i := rfl
@[simp] theorem Tables.setCfg_cLane_at (t : Tables) (x : Cfg) (i : Nat) : (t.setCfg x).cLane i = t.cLane i := rfl
@[simp] theorem Tables.setLanes_check_at (t : Tables) (x : List (Nat × Lane)) (i : Nat) : (t.setLanes x).check i = t.check i := rfl
@[simp] theorem Tables.setLanes_line_at (t : Tables) (x : List (Nat × Lane)) (i : Nat) : (t.setLanes x).line i = t.line i := rfl
@[simp] theorem Tables.setLanes_item_at (t : Tables) (x : List (Nat × Lane)) (i : Nat) : (t.setLanes x).item i = t.item i := rfl
@[simp] theorem Tables.setLanes_ticket_at (t : Tables) (x : List (Nat × Lane)) (i : Nat) : (t.setLanes x).ticket i = t.ticket i := rfl
@[simp] theorem Tables.setLanes_station_at (t : Tables) (x : List (Nat × Lane)) (i : Nat) : (t.setLanes x).station i = t.station i := rfl
@[simp] theorem Tables.setLanes_action_at (t : Tables) (x : List (Nat × Lane)) (i : Nat) : (t.setLanes x).action i = t.action i := rfl
@[simp] theorem Tables.setLanes_entry_at (t : Tables) (x : List (Nat × Lane)) (i : Nat) : (t.setLanes x).entry i = t.entry i := rfl
@[simp] theorem Tables.setLanes_slot_at (t : Tables) (x : List (Nat × Lane)) (i : Nat) : (t.setLanes x).slot i = t.slot i := rfl
@[simp] theorem Tables.setLanes_cStation_at (t : Tables) (x : List (Nat × Lane)) (i : Nat) : (t.setLanes x).cStation i = t.cStation i := rfl
@[simp] theorem Tables.setLanes_cItem_at (t : Tables) (x : List (Nat × Lane)) (i : Nat) : (t.setLanes x).cItem i = t.cItem i := rfl
@[simp] theorem Tables.setLanes_cLane_at (t : Tables) (x : List (Nat × Lane)) (i : Nat) : (t.setLanes x).cLane i = t.cLane i := rfl
@[simp] theorem Tables.setChecks_lane_at (t : Tables) (x : List (Nat × Check)) (i : Nat) : (t.setChecks x).lane i = t.lane i := rfl
@[simp] theorem Tables.setChecks_line_at (t : Tables) (x : List (Nat × Check)) (i : Nat) : (t.setChecks x).line i = t.line i := rfl
@[simp] theorem Tables.setChecks_item_at (t : Tables) (x : List (Nat × Check)) (i : Nat) : (t.setChecks x).item i = t.item i := rfl
@[simp] theorem Tables.setChecks_ticket_at (t : Tables) (x : List (Nat × Check)) (i : Nat) : (t.setChecks x).ticket i = t.ticket i := rfl
@[simp] theorem Tables.setChecks_station_at (t : Tables) (x : List (Nat × Check)) (i : Nat) : (t.setChecks x).station i = t.station i := rfl
@[simp] theorem Tables.setChecks_action_at (t : Tables) (x : List (Nat × Check)) (i : Nat) : (t.setChecks x).action i = t.action i := rfl
@[simp] theorem Tables.setChecks_entry_at (t : Tables) (x : List (Nat × Check)) (i : Nat) : (t.setChecks x).entry i = t.entry i := rfl
@[simp] theorem Tables.setChecks_slot_at (t : Tables) (x : List (Nat × Check)) (i : Nat) : (t.setChecks x).slot i = t.slot i := rfl
@[simp] theorem Tables.setChecks_cStation_at (t : Tables) (x : List (Nat × Check)) (i : Nat) : (t.setChecks x).cStation i = t.cStation i := rfl
@[simp] theorem Tables.setChecks_cItem_at (t : Tables) (x : List (Nat × Check)) (i : Nat) : (t.setChecks x).cItem i = t.cItem i := rfl
@[simp] theorem Tables.setChecks_cLane_at (t : Tables) (x : List (Nat × Check)) (i : Nat) : (t.setChecks x).cLane i = t.cLane i := rfl
@[simp] theorem Tables.setLines_lane_at (t : Tables) (x : List (Nat × Option Line)) (i : Nat) : (t.setLines x).lane i = t.lane i := rfl
@[simp] theorem Tables.setLines_check_at (t : Tables) (x : List (Nat × Option Line)) (i : Nat) : (t.setLines x).check i = t.check i := rfl
@[simp] theorem Tables.setLines_item_at (t : Tables) (x : List (Nat × Option Line)) (i : Nat) : (t.setLines x).item i = t.item i := rfl
@[simp] theorem Tables.setLines_ticket_at (t : Tables) (x : List (Nat × Option Line)) (i : Nat) : (t.setLines x).ticket i = t.ticket i := rfl
@[simp] theorem Tables.setLines_station_at (t : Tables) (x : List (Nat × Option Line)) (i : Nat) : (t.setLines x).station i = t.station i := rfl
@[simp] theorem Tables.setLines_action_at (t : Tables) (x : List (Nat × Option Line)) (i : Nat) : (t.setLines x).action i = t.action i := rfl
@[simp] theorem Tables.setLines_entry_at (t : Tables) (x : List (Nat × Option Line)) (i : Nat) : (t.setLines x).entry i = t.entry i := rfl
@[simp] theorem Tables.setLines_slot_at (t : Tables) (x : List (Nat × Option Line)) (i : Nat) : (t.setLines x).slot i = t.slot i := rfl
@[simp] theorem Tables.setLines_cStation_at (t : Tables) (x : List (Nat × Option Line)) (i : Nat) : (t.setLines x).cStation i = t.cStation i := rfl
@[simp] theorem Tables.setLines_cItem_at (t : Tables) (x : List (Nat × Option Line)) (i : Nat) : (t.setLines x).cItem i = t.cItem i := rfl
@[simp] theorem Tables.setLines_cLane_at (t : Tables) (x : List (Nat × Option Line)) (i : Nat) : (t.setLines x).cLane i = t.cLane i := rfl
@[simp] theorem Tables.setItems_lane_at (t : Tables) (x : List (Nat × Item)) (i : Nat) : (t.setItems x).lane i = t.lane i := rfl
@[simp] theorem Tables.setItems_check_at (t : Tables) (x : List (Nat × Item)) (i : Nat) : (t.setItems x).check i = t.check i := rfl
@[simp] theorem Tables.setItems_line_at (t : Tables) (x : List (Nat × Item)) (i : Nat) : (t.setItems x).line i = t.line i := rfl
@[simp] theorem Tables.setItems_ticket_at (t : Tables) (x : List (Nat × Item)) (i : Nat) : (t.setItems x).ticket i = t.ticket i := rfl
@[simp] theorem Tables.setItems_station_at (t : Tables) (x : List (Nat × Item)) (i : Nat) : (t.setItems x).station i = t.station i := rfl
@[simp] theorem Tables.setItems_action_at (t : Tables) (x : List (Nat × Item)) (i : Nat) : (t.setItems x).action i = t.action i := rfl
@[simp] theorem Tables.setItems_entry_at (t : Tables) (x : List (Nat × Item)) (i : Nat) : (t.setItems x).entry i = t.entry i := rfl
@[simp] theorem Tables.setItems_slot_at (t : Tables) (x : List (Nat × Item)) (i : Nat) : (t.setItems x).slot i = t.slot i := rfl
@[simp] theorem Tables.setItems_cStation_at (t : Tables) (x : List (Nat × Item)) (i : Nat) : (t.setItems x).cStation i = t.cStation i := rfl
@[simp] theorem Tables.setItems_cItem_at (t : Tables) (x : List (Nat × Item)) (i : Nat) : (t.setItems x).cItem i = t.cItem i := rfl
@[simp] theorem Tables.setItems_cLane_at (t : Tables) (x : List (Nat × Item)) (i : Nat) : (t.setItems x).cLane i = t.cLane i := rfl
@[simp] theorem Tables.setBand_lane_at (t : Tables) (x : Nat) (i : Nat) : (t.setBand x).lane i = t.lane i := rfl
@[simp] theorem Tables.setBand_check_at (t : Tables) (x : Nat) (i : Nat) : (t.setBand x).check i = t.check i := rfl
@[simp] theorem Tables.setBand_line_at (t : Tables) (x : Nat) (i : Nat) : (t.setBand x).line i = t.line i := rfl
@[simp] theorem Tables.setBand_item_at (t : Tables) (x : Nat) (i : Nat) : (t.setBand x).item i = t.item i := rfl
@[simp] theorem Tables.setBand_ticket_at (t : Tables) (x : Nat) (i : Nat) : (t.setBand x).ticket i = t.ticket i := rfl
@[simp] theorem Tables.setBand_station_at (t : Tables) (x : Nat) (i : Nat) : (t.setBand x).station i = t.station i := rfl
@[simp] theorem Tables.setBand_action_at (t : Tables) (x : Nat) (i : Nat) : (t.setBand x).action i = t.action i := rfl
@[simp] theorem Tables.setBand_entry_at (t : Tables) (x : Nat) (i : Nat) : (t.setBand x).entry i = t.entry i := rfl
@[simp] theorem Tables.setBand_slot_at (t : Tables) (x : Nat) (i : Nat) : (t.setBand x).slot i = t.slot i := rfl
@[simp] theorem Tables.setBand_cStation_at (t : Tables) (x : Nat) (i : Nat) : (t.setBand x).cStation i = t.cStation i := rfl
@[simp] theorem Tables.setBand_cItem_at (t : Tables) (x : Nat) (i : Nat) : (t.setBand x).cItem i = t.cItem i := rfl
@[simp] theorem Tables.setBand_cLane_at (t : Tables) (x : Nat) (i : Nat) : (t.setBand x).cLane i = t.cLane i := rfl
@[simp] theorem Tables.setTickets_lane_at (t : Tables) (x : List (Nat × Ticket)) (i : Nat) : (t.setTickets x).lane i = t.lane i := rfl
@[simp] theorem Tables.setTickets_check_at (t : Tables) (x : List (Nat × Ticket)) (i : Nat) : (t.setTickets x).check i = t.check i := rfl
@[simp] theorem Tables.setTickets_line_at (t : Tables) (x : List (Nat × Ticket)) (i : Nat) : (t.setTickets x).line i = t.line i := rfl
@[simp] theorem Tables.setTickets_item_at (t : Tables) (x : List (Nat × Ticket)) (i : Nat) : (t.setTickets x).item i = t.item i := rfl
@[simp] theorem Tables.setTickets_station_at (t : Tables) (x : List (Nat × Ticket)) (i : Nat) : (t.setTickets x).station i = t.station i := rfl
@[simp] theorem Tables.setTickets_action_at (t : Tables) (x : List (Nat × Ticket)) (i : Nat) : (t.setTickets x).action i = t.action i := rfl
@[simp] theorem Tables.setTickets_entry_at (t : Tables) (x : List (Nat × Ticket)) (i : Nat) : (t.setTickets x).entry i = t.entry i := rfl
@[simp] theorem Tables.setTickets_slot_at (t : Tables) (x : List (Nat × Ticket)) (i : Nat) : (t.setTickets x).slot i = t.slot i := rfl
@[simp] theorem Tables.setTickets_cStation_at (t : Tables) (x : List (Nat × Ticket)) (i : Nat) : (t.setTickets x).cStation i = t.cStation i := rfl
@[simp] theorem Tables.setTickets_cItem_at (t : Tables) (x : List (Nat × Ticket)) (i : Nat) : (t.setTickets x).cItem i = t.cItem i := rfl
@[simp] theorem Tables.setTickets_cLane_at (t : Tables) (x : List (Nat × Ticket)) (i : Nat) : (t.setTickets x).cLane i = t.cLane i := rfl
@[simp] theorem Tables.setOwed_lane_at (t : Tables) (x : List Nat) (i : Nat) : (t.setOwed x).lane i = t.lane i := rfl
@[simp] theorem Tables.setOwed_check_at (t : Tables) (x : List Nat) (i : Nat) : (t.setOwed x).check i = t.check i := rfl
@[simp] theorem Tables.setOwed_line_at (t : Tables) (x : List Nat) (i : Nat) : (t.setOwed x).line i = t.line i := rfl
@[simp] theorem Tables.setOwed_item_at (t : Tables) (x : List Nat) (i : Nat) : (t.setOwed x).item i = t.item i := rfl
@[simp] theorem Tables.setOwed_ticket_at (t : Tables) (x : List Nat) (i : Nat) : (t.setOwed x).ticket i = t.ticket i := rfl
@[simp] theorem Tables.setOwed_station_at (t : Tables) (x : List Nat) (i : Nat) : (t.setOwed x).station i = t.station i := rfl
@[simp] theorem Tables.setOwed_action_at (t : Tables) (x : List Nat) (i : Nat) : (t.setOwed x).action i = t.action i := rfl
@[simp] theorem Tables.setOwed_entry_at (t : Tables) (x : List Nat) (i : Nat) : (t.setOwed x).entry i = t.entry i := rfl
@[simp] theorem Tables.setOwed_slot_at (t : Tables) (x : List Nat) (i : Nat) : (t.setOwed x).slot i = t.slot i := rfl
@[simp] theorem Tables.setOwed_cStation_at (t : Tables) (x : List Nat) (i : Nat) : (t.setOwed x).cStation i = t.cStation i := rfl
@[simp] theorem Tables.setOwed_cItem_at (t : Tables) (x : List Nat) (i : Nat) : (t.setOwed x).cItem i = t.cItem i := rfl
@[simp] theorem Tables.setOwed_cLane_at (t : Tables) (x : List Nat) (i : Nat) : (t.setOwed x).cLane i = t.cLane i := rfl
@[simp] theorem Tables.setStations_lane_at (t : Tables) (x : List (Nat × Station)) (i : Nat) : (t.setStations x).lane i = t.lane i := rfl
@[simp] theorem Tables.setStations_check_at (t : Tables) (x : List (Nat × Station)) (i : Nat) : (t.setStations x).check i = t.check i := rfl
@[simp] theorem Tables.setStations_line_at (t : Tables) (x : List (Nat × Station)) (i : Nat) : (t.setStations x).line i = t.line i := rfl
@[simp] theorem Tables.setStations_item_at (t : Tables) (x : List (Nat × Station)) (i : Nat) : (t.setStations x).item i = t.item i := rfl
@[simp] theorem Tables.setStations_ticket_at (t : Tables) (x : List (Nat × Station)) (i : Nat) : (t.setStations x).ticket i = t.ticket i := rfl
@[simp] theorem Tables.setStations_action_at (t : Tables) (x : List (Nat × Station)) (i : Nat) : (t.setStations x).action i = t.action i := rfl
@[simp] theorem Tables.setStations_entry_at (t : Tables) (x : List (Nat × Station)) (i : Nat) : (t.setStations x).entry i = t.entry i := rfl
@[simp] theorem Tables.setStations_slot_at (t : Tables) (x : List (Nat × Station)) (i : Nat) : (t.setStations x).slot i = t.slot i := rfl
@[simp] theorem Tables.setStations_cStation_at (t : Tables) (x : List (Nat × Station)) (i : Nat) : (t.setStations x).cStation i = t.cStation i := rfl
@[simp] theorem Tables.setStations_cItem_at (t : Tables) (x : List (Nat × Station)) (i : Nat) : (t.setStations x).cItem i = t.cItem i := rfl
@[simp] theorem Tables.setStations_cLane_at (t : Tables) (x : List (Nat × Station)) (i : Nat) : (t.setStations x).cLane i = t.cLane i := rfl
@[simp] theorem Tables.setTime_lane_at (t : Tables) (x : Word) (i : Nat) : (t.setTime x).lane i = t.lane i := rfl
@[simp] theorem Tables.setTime_check_at (t : Tables) (x : Word) (i : Nat) : (t.setTime x).check i = t.check i := rfl
@[simp] theorem Tables.setTime_line_at (t : Tables) (x : Word) (i : Nat) : (t.setTime x).line i = t.line i := rfl
@[simp] theorem Tables.setTime_item_at (t : Tables) (x : Word) (i : Nat) : (t.setTime x).item i = t.item i := rfl
@[simp] theorem Tables.setTime_ticket_at (t : Tables) (x : Word) (i : Nat) : (t.setTime x).ticket i = t.ticket i := rfl
@[simp] theorem Tables.setTime_station_at (t : Tables) (x : Word) (i : Nat) : (t.setTime x).station i = t.station i := rfl
@[simp] theorem Tables.setTime_action_at (t : Tables) (x : Word) (i : Nat) : (t.setTime x).action i = t.action i := rfl
@[simp] theorem Tables.setTime_entry_at (t : Tables) (x : Word) (i : Nat) : (t.setTime x).entry i = t.entry i := rfl
@[simp] theorem Tables.setTime_slot_at (t : Tables) (x : Word) (i : Nat) : (t.setTime x).slot i = t.slot i := rfl
@[simp] theorem Tables.setTime_cStation_at (t : Tables) (x : Word) (i : Nat) : (t.setTime x).cStation i = t.cStation i := rfl
@[simp] theorem Tables.setTime_cItem_at (t : Tables) (x : Word) (i : Nat) : (t.setTime x).cItem i = t.cItem i := rfl
@[simp] theorem Tables.setTime_cLane_at (t : Tables) (x : Word) (i : Nat) : (t.setTime x).cLane i = t.cLane i := rfl
@[simp] theorem Tables.setActions_lane_at (t : Tables) (x : List (Nat × TimedEntry)) (i : Nat) : (t.setActions x).lane i = t.lane i := rfl
@[simp] theorem Tables.setActions_check_at (t : Tables) (x : List (Nat × TimedEntry)) (i : Nat) : (t.setActions x).check i = t.check i := rfl
@[simp] theorem Tables.setActions_line_at (t : Tables) (x : List (Nat × TimedEntry)) (i : Nat) : (t.setActions x).line i = t.line i := rfl
@[simp] theorem Tables.setActions_item_at (t : Tables) (x : List (Nat × TimedEntry)) (i : Nat) : (t.setActions x).item i = t.item i := rfl
@[simp] theorem Tables.setActions_ticket_at (t : Tables) (x : List (Nat × TimedEntry)) (i : Nat) : (t.setActions x).ticket i = t.ticket i := rfl
@[simp] theorem Tables.setActions_station_at (t : Tables) (x : List (Nat × TimedEntry)) (i : Nat) : (t.setActions x).station i = t.station i := rfl
@[simp] theorem Tables.setActions_entry_at (t : Tables) (x : List (Nat × TimedEntry)) (i : Nat) : (t.setActions x).entry i = t.entry i := rfl
@[simp] theorem Tables.setActions_slot_at (t : Tables) (x : List (Nat × TimedEntry)) (i : Nat) : (t.setActions x).slot i = t.slot i := rfl
@[simp] theorem Tables.setActions_cStation_at (t : Tables) (x : List (Nat × TimedEntry)) (i : Nat) : (t.setActions x).cStation i = t.cStation i := rfl
@[simp] theorem Tables.setActions_cItem_at (t : Tables) (x : List (Nat × TimedEntry)) (i : Nat) : (t.setActions x).cItem i = t.cItem i := rfl
@[simp] theorem Tables.setActions_cLane_at (t : Tables) (x : List (Nat × TimedEntry)) (i : Nat) : (t.setActions x).cLane i = t.cLane i := rfl
@[simp] theorem Tables.setDraw_lane_at (t : Tables) (x : Word) (i : Nat) : (t.setDraw x).lane i = t.lane i := rfl
@[simp] theorem Tables.setDraw_check_at (t : Tables) (x : Word) (i : Nat) : (t.setDraw x).check i = t.check i := rfl
@[simp] theorem Tables.setDraw_line_at (t : Tables) (x : Word) (i : Nat) : (t.setDraw x).line i = t.line i := rfl
@[simp] theorem Tables.setDraw_item_at (t : Tables) (x : Word) (i : Nat) : (t.setDraw x).item i = t.item i := rfl
@[simp] theorem Tables.setDraw_ticket_at (t : Tables) (x : Word) (i : Nat) : (t.setDraw x).ticket i = t.ticket i := rfl
@[simp] theorem Tables.setDraw_station_at (t : Tables) (x : Word) (i : Nat) : (t.setDraw x).station i = t.station i := rfl
@[simp] theorem Tables.setDraw_action_at (t : Tables) (x : Word) (i : Nat) : (t.setDraw x).action i = t.action i := rfl
@[simp] theorem Tables.setDraw_entry_at (t : Tables) (x : Word) (i : Nat) : (t.setDraw x).entry i = t.entry i := rfl
@[simp] theorem Tables.setDraw_slot_at (t : Tables) (x : Word) (i : Nat) : (t.setDraw x).slot i = t.slot i := rfl
@[simp] theorem Tables.setDraw_cStation_at (t : Tables) (x : Word) (i : Nat) : (t.setDraw x).cStation i = t.cStation i := rfl
@[simp] theorem Tables.setDraw_cItem_at (t : Tables) (x : Word) (i : Nat) : (t.setDraw x).cItem i = t.cItem i := rfl
@[simp] theorem Tables.setDraw_cLane_at (t : Tables) (x : Word) (i : Nat) : (t.setDraw x).cLane i = t.cLane i := rfl
@[simp] theorem Tables.setProgram_lane_at (t : Tables) (x : List (Nat × ProgEntry)) (i : Nat) : (t.setProgram x).lane i = t.lane i := rfl
@[simp] theorem Tables.setProgram_check_at (t : Tables) (x : List (Nat × ProgEntry)) (i : Nat) : (t.setProgram x).check i = t.check i := rfl
@[simp] theorem Tables.setProgram_line_at (t : Tables) (x : List (Nat × ProgEntry)) (i : Nat) : (t.setProgram x).line i = t.line i := rfl
@[simp] theorem Tables.setProgram_item_at (t : Tables) (x : List (Nat × ProgEntry)) (i : Nat) : (t.setProgram x).item i = t.item i := rfl
@[simp] theorem Tables.setProgram_ticket_at (t : Tables) (x : List (Nat × ProgEntry)) (i : Nat) : (t.setProgram x).ticket i = t.ticket i := rfl
@[simp] theorem Tables.setProgram_station_at (t : Tables) (x : List (Nat × ProgEntry)) (i : Nat) : (t.setProgram x).station i = t.station i := rfl
@[simp] theorem Tables.setProgram_action_at (t : Tables) (x : List (Nat × ProgEntry)) (i : Nat) : (t.setProgram x).action i = t.action i := rfl
@[simp] theorem Tables.setProgram_slot_at (t : Tables) (x : List (Nat × ProgEntry)) (i : Nat) : (t.setProgram x).slot i = t.slot i := rfl
@[simp] theorem Tables.setProgram_cStation_at (t : Tables) (x : List (Nat × ProgEntry)) (i : Nat) : (t.setProgram x).cStation i = t.cStation i := rfl
@[simp] theorem Tables.setProgram_cItem_at (t : Tables) (x : List (Nat × ProgEntry)) (i : Nat) : (t.setProgram x).cItem i = t.cItem i := rfl
@[simp] theorem Tables.setProgram_cLane_at (t : Tables) (x : List (Nat × ProgEntry)) (i : Nat) : (t.setProgram x).cLane i = t.cLane i := rfl
@[simp] theorem Tables.setSlots_lane_at (t : Tables) (x : List (Nat × Slot)) (i : Nat) : (t.setSlots x).lane i = t.lane i := rfl
@[simp] theorem Tables.setSlots_check_at (t : Tables) (x : List (Nat × Slot)) (i : Nat) : (t.setSlots x).check i = t.check i := rfl
@[simp] theorem Tables.setSlots_line_at (t : Tables) (x : List (Nat × Slot)) (i : Nat) : (t.setSlots x).line i = t.line i := rfl
@[simp] theorem Tables.setSlots_item_at (t : Tables) (x : List (Nat × Slot)) (i : Nat) : (t.setSlots x).item i = t.item i := rfl
@[simp] theorem Tables.setSlots_ticket_at (t : Tables) (x : List (Nat × Slot)) (i : Nat) : (t.setSlots x).ticket i = t.ticket i := rfl
@[simp] theorem Tables.setSlots_station_at (t : Tables) (x : List (Nat × Slot)) (i : Nat) : (t.setSlots x).station i = t.station i := rfl
@[simp] theorem Tables.setSlots_action_at (t : Tables) (x : List (Nat × Slot)) (i : Nat) : (t.setSlots x).action i = t.action i := rfl
@[simp] theorem Tables.setSlots_entry_at (t : Tables) (x : List (Nat × Slot)) (i : Nat) : (t.setSlots x).entry i = t.entry i := rfl
@[simp] theorem Tables.setSlots_cStation_at (t : Tables) (x : List (Nat × Slot)) (i : Nat) : (t.setSlots x).cStation i = t.cStation i := rfl
@[simp] theorem Tables.setSlots_cItem_at (t : Tables) (x : List (Nat × Slot)) (i : Nat) : (t.setSlots x).cItem i = t.cItem i := rfl
@[simp] theorem Tables.setSlots_cLane_at (t : Tables) (x : List (Nat × Slot)) (i : Nat) : (t.setSlots x).cLane i = t.cLane i := rfl
@[simp] theorem Tables.setCStations_lane_at (t : Tables) (x : List (Nat × StationCount)) (i : Nat) : (t.setCStations x).lane i = t.lane i := rfl
@[simp] theorem Tables.setCStations_check_at (t : Tables) (x : List (Nat × StationCount)) (i : Nat) : (t.setCStations x).check i = t.check i := rfl
@[simp] theorem Tables.setCStations_line_at (t : Tables) (x : List (Nat × StationCount)) (i : Nat) : (t.setCStations x).line i = t.line i := rfl
@[simp] theorem Tables.setCStations_item_at (t : Tables) (x : List (Nat × StationCount)) (i : Nat) : (t.setCStations x).item i = t.item i := rfl
@[simp] theorem Tables.setCStations_ticket_at (t : Tables) (x : List (Nat × StationCount)) (i : Nat) : (t.setCStations x).ticket i = t.ticket i := rfl
@[simp] theorem Tables.setCStations_station_at (t : Tables) (x : List (Nat × StationCount)) (i : Nat) : (t.setCStations x).station i = t.station i := rfl
@[simp] theorem Tables.setCStations_action_at (t : Tables) (x : List (Nat × StationCount)) (i : Nat) : (t.setCStations x).action i = t.action i := rfl
@[simp] theorem Tables.setCStations_entry_at (t : Tables) (x : List (Nat × StationCount)) (i : Nat) : (t.setCStations x).entry i = t.entry i := rfl
@[simp] theorem Tables.setCStations_slot_at (t : Tables) (x : List (Nat × StationCount)) (i : Nat) : (t.setCStations x).slot i = t.slot i := rfl
@[simp] theorem Tables.setCStations_cItem_at (t : Tables) (x : List (Nat × StationCount)) (i : Nat) : (t.setCStations x).cItem i = t.cItem i := rfl
@[simp] theorem Tables.setCStations_cLane_at (t : Tables) (x : List (Nat × StationCount)) (i : Nat) : (t.setCStations x).cLane i = t.cLane i := rfl
@[simp] theorem Tables.setCItems_lane_at (t : Tables) (x : List (Nat × ItemCount)) (i : Nat) : (t.setCItems x).lane i = t.lane i := rfl
@[simp] theorem Tables.setCItems_check_at (t : Tables) (x : List (Nat × ItemCount)) (i : Nat) : (t.setCItems x).check i = t.check i := rfl
@[simp] theorem Tables.setCItems_line_at (t : Tables) (x : List (Nat × ItemCount)) (i : Nat) : (t.setCItems x).line i = t.line i := rfl
@[simp] theorem Tables.setCItems_item_at (t : Tables) (x : List (Nat × ItemCount)) (i : Nat) : (t.setCItems x).item i = t.item i := rfl
@[simp] theorem Tables.setCItems_ticket_at (t : Tables) (x : List (Nat × ItemCount)) (i : Nat) : (t.setCItems x).ticket i = t.ticket i := rfl
@[simp] theorem Tables.setCItems_station_at (t : Tables) (x : List (Nat × ItemCount)) (i : Nat) : (t.setCItems x).station i = t.station i := rfl
@[simp] theorem Tables.setCItems_action_at (t : Tables) (x : List (Nat × ItemCount)) (i : Nat) : (t.setCItems x).action i = t.action i := rfl
@[simp] theorem Tables.setCItems_entry_at (t : Tables) (x : List (Nat × ItemCount)) (i : Nat) : (t.setCItems x).entry i = t.entry i := rfl
@[simp] theorem Tables.setCItems_slot_at (t : Tables) (x : List (Nat × ItemCount)) (i : Nat) : (t.setCItems x).slot i = t.slot i := rfl
@[simp] theorem Tables.setCItems_cStation_at (t : Tables) (x : List (Nat × ItemCount)) (i : Nat) : (t.setCItems x).cStation i = t.cStation i := rfl
@[simp] theorem Tables.setCItems_cLane_at (t : Tables) (x : List (Nat × ItemCount)) (i : Nat) : (t.setCItems x).cLane i = t.cLane i := rfl
@[simp] theorem Tables.setCLanes_lane_at (t : Tables) (x : List (Nat × LaneCount)) (i : Nat) : (t.setCLanes x).lane i = t.lane i := rfl
@[simp] theorem Tables.setCLanes_check_at (t : Tables) (x : List (Nat × LaneCount)) (i : Nat) : (t.setCLanes x).check i = t.check i := rfl
@[simp] theorem Tables.setCLanes_line_at (t : Tables) (x : List (Nat × LaneCount)) (i : Nat) : (t.setCLanes x).line i = t.line i := rfl
@[simp] theorem Tables.setCLanes_item_at (t : Tables) (x : List (Nat × LaneCount)) (i : Nat) : (t.setCLanes x).item i = t.item i := rfl
@[simp] theorem Tables.setCLanes_ticket_at (t : Tables) (x : List (Nat × LaneCount)) (i : Nat) : (t.setCLanes x).ticket i = t.ticket i := rfl
@[simp] theorem Tables.setCLanes_station_at (t : Tables) (x : List (Nat × LaneCount)) (i : Nat) : (t.setCLanes x).station i = t.station i := rfl
@[simp] theorem Tables.setCLanes_action_at (t : Tables) (x : List (Nat × LaneCount)) (i : Nat) : (t.setCLanes x).action i = t.action i := rfl
@[simp] theorem Tables.setCLanes_entry_at (t : Tables) (x : List (Nat × LaneCount)) (i : Nat) : (t.setCLanes x).entry i = t.entry i := rfl
@[simp] theorem Tables.setCLanes_slot_at (t : Tables) (x : List (Nat × LaneCount)) (i : Nat) : (t.setCLanes x).slot i = t.slot i := rfl
@[simp] theorem Tables.setCLanes_cStation_at (t : Tables) (x : List (Nat × LaneCount)) (i : Nat) : (t.setCLanes x).cStation i = t.cStation i := rfl
@[simp] theorem Tables.setCLanes_cItem_at (t : Tables) (x : List (Nat × LaneCount)) (i : Nat) : (t.setCLanes x).cItem i = t.cItem i := rfl
@[simp] theorem Tables.setCEngine_lane_at (t : Tables) (x : EngineCount) (i : Nat) : (t.setCEngine x).lane i = t.lane i := rfl
@[simp] theorem Tables.setCEngine_check_at (t : Tables) (x : EngineCount) (i : Nat) : (t.setCEngine x).check i = t.check i := rfl
@[simp] theorem Tables.setCEngine_line_at (t : Tables) (x : EngineCount) (i : Nat) : (t.setCEngine x).line i = t.line i := rfl
@[simp] theorem Tables.setCEngine_item_at (t : Tables) (x : EngineCount) (i : Nat) : (t.setCEngine x).item i = t.item i := rfl
@[simp] theorem Tables.setCEngine_ticket_at (t : Tables) (x : EngineCount) (i : Nat) : (t.setCEngine x).ticket i = t.ticket i := rfl
@[simp] theorem Tables.setCEngine_station_at (t : Tables) (x : EngineCount) (i : Nat) : (t.setCEngine x).station i = t.station i := rfl
@[simp] theorem Tables.setCEngine_action_at (t : Tables) (x : EngineCount) (i : Nat) : (t.setCEngine x).action i = t.action i := rfl
@[simp] theorem Tables.setCEngine_entry_at (t : Tables) (x : EngineCount) (i : Nat) : (t.setCEngine x).entry i = t.entry i := rfl
@[simp] theorem Tables.setCEngine_slot_at (t : Tables) (x : EngineCount) (i : Nat) : (t.setCEngine x).slot i = t.slot i := rfl
@[simp] theorem Tables.setCEngine_cStation_at (t : Tables) (x : EngineCount) (i : Nat) : (t.setCEngine x).cStation i = t.cStation i := rfl
@[simp] theorem Tables.setCEngine_cItem_at (t : Tables) (x : EngineCount) (i : Nat) : (t.setCEngine x).cItem i = t.cItem i := rfl
@[simp] theorem Tables.setCEngine_cLane_at (t : Tables) (x : EngineCount) (i : Nat) : (t.setCEngine x).cLane i = t.cLane i := rfl

@[simp] theorem Ev.setTb_tb (ev : Ev) (x : Tables) : (ev.setTb x).tb = x := rfl
@[simp] theorem Ev.setTb_mode (ev : Ev) (x : Tables) : (ev.setTb x).mode = ev.mode := rfl
@[simp] theorem Ev.setTb_notes (ev : Ev) (x : Tables) : (ev.setTb x).notes = ev.notes := rfl
@[simp] theorem Ev.setTb_touched (ev : Ev) (x : Tables) : (ev.setTb x).touched = ev.touched := rfl
@[simp] theorem Ev.setTb_reached (ev : Ev) (x : Tables) : (ev.setTb x).reached = ev.reached := rfl
@[simp] theorem Ev.setTb_rewrites (ev : Ev) (x : Tables) : (ev.setTb x).rewrites = ev.rewrites := rfl
@[simp] theorem Ev.updLane_tb (ev : Ev) (i : Nat) (f : Lane → Lane) : (ev.updLane i f).tb = ev.tb.setLanes (tupd lane0 ev.tb.lanes i f) := rfl
@[simp] theorem Ev.updLane_mode (ev : Ev) (i : Nat) (f : Lane → Lane) : (ev.updLane i f).mode = ev.mode := rfl
@[simp] theorem Ev.updLane_notes (ev : Ev) (i : Nat) (f : Lane → Lane) : (ev.updLane i f).notes = ev.notes := rfl
@[simp] theorem Ev.updLane_touched (ev : Ev) (i : Nat) (f : Lane → Lane) : (ev.updLane i f).touched = ev.touched := rfl
@[simp] theorem Ev.updLane_reached (ev : Ev) (i : Nat) (f : Lane → Lane) : (ev.updLane i f).reached = ev.reached := rfl
@[simp] theorem Ev.updLane_rewrites (ev : Ev) (i : Nat) (f : Lane → Lane) : (ev.updLane i f).rewrites = ev.rewrites := rfl
@[simp] theorem Ev.updCheck_tb (ev : Ev) (i : Nat) (f : Check → Check) : (ev.updCheck i f).tb = ev.tb.setChecks (tupd check0 ev.tb.checks i f) := rfl
@[simp] theorem Ev.updCheck_mode (ev : Ev) (i : Nat) (f : Check → Check) : (ev.updCheck i f).mode = ev.mode := rfl
@[simp] theorem Ev.updCheck_notes (ev : Ev) (i : Nat) (f : Check → Check) : (ev.updCheck i f).notes = ev.notes := rfl
@[simp] theorem Ev.updCheck_touched (ev : Ev) (i : Nat) (f : Check → Check) : (ev.updCheck i f).touched = ev.touched := rfl
@[simp] theorem Ev.updCheck_reached (ev : Ev) (i : Nat) (f : Check → Check) : (ev.updCheck i f).reached = ev.reached := rfl
@[simp] theorem Ev.updCheck_rewrites (ev : Ev) (i : Nat) (f : Check → Check) : (ev.updCheck i f).rewrites = ev.rewrites := rfl
@[simp] theorem Ev.updItem_tb (ev : Ev) (i : Nat) (f : Item → Item) : (ev.updItem i f).tb = ev.tb.setItems (tupd item0 ev.tb.items i f) := rfl
@[simp] theorem Ev.updItem_mode (ev : Ev) (i : Nat) (f : Item → Item) : (ev.updItem i f).mode = ev.mode := rfl
@[simp] theorem Ev.updItem_notes (ev : Ev) (i : Nat) (f : Item → Item) : (ev.updItem i f).notes = ev.notes := rfl
@[simp] theorem Ev.updItem_touched (ev : Ev) (i : Nat) (f : Item → Item) : (ev.updItem i f).touched = ev.touched := rfl
@[simp] theorem Ev.updItem_reached (ev : Ev) (i : Nat) (f : Item → Item) : (ev.updItem i f).reached = ev.reached := rfl
@[simp] theorem Ev.updItem_rewrites (ev : Ev) (i : Nat) (f : Item → Item) : (ev.updItem i f).rewrites = ev.rewrites := rfl
@[simp] theorem Ev.updTicket_tb (ev : Ev) (i : Nat) (f : Ticket → Ticket) : (ev.updTicket i f).tb = ev.tb.setTickets (tupd ticket0 ev.tb.tickets i f) := rfl
@[simp] theorem Ev.updTicket_mode (ev : Ev) (i : Nat) (f : Ticket → Ticket) : (ev.updTicket i f).mode = ev.mode := rfl
@[simp] theorem Ev.updTicket_notes (ev : Ev) (i : Nat) (f : Ticket → Ticket) : (ev.updTicket i f).notes = ev.notes := rfl
@[simp] theorem Ev.updTicket_touched (ev : Ev) (i : Nat) (f : Ticket → Ticket) : (ev.updTicket i f).touched = ev.touched := rfl
@[simp] theorem Ev.updTicket_reached (ev : Ev) (i : Nat) (f : Ticket → Ticket) : (ev.updTicket i f).reached = ev.reached := rfl
@[simp] theorem Ev.updTicket_rewrites (ev : Ev) (i : Nat) (f : Ticket → Ticket) : (ev.updTicket i f).rewrites = ev.rewrites := rfl
@[simp] theorem Ev.updStation_tb (ev : Ev) (i : Nat) (f : Station → Station) : (ev.updStation i f).tb = ev.tb.setStations (tupd station0 ev.tb.stations i f) := rfl
@[simp] theorem Ev.updStation_mode (ev : Ev) (i : Nat) (f : Station → Station) : (ev.updStation i f).mode = ev.mode := rfl
@[simp] theorem Ev.updStation_notes (ev : Ev) (i : Nat) (f : Station → Station) : (ev.updStation i f).notes = ev.notes := rfl
@[simp] theorem Ev.updStation_touched (ev : Ev) (i : Nat) (f : Station → Station) : (ev.updStation i f).touched = ev.touched := rfl
@[simp] theorem Ev.updStation_reached (ev : Ev) (i : Nat) (f : Station → Station) : (ev.updStation i f).reached = ev.reached := rfl
@[simp] theorem Ev.updStation_rewrites (ev : Ev) (i : Nat) (f : Station → Station) : (ev.updStation i f).rewrites = ev.rewrites := rfl
@[simp] theorem Ev.updAction_tb (ev : Ev) (i : Nat) (f : TimedEntry → TimedEntry) : (ev.updAction i f).tb = ev.tb.setActions (tupd timedEntry0 ev.tb.actions i f) := rfl
@[simp] theorem Ev.updAction_mode (ev : Ev) (i : Nat) (f : TimedEntry → TimedEntry) : (ev.updAction i f).mode = ev.mode := rfl
@[simp] theorem Ev.updAction_notes (ev : Ev) (i : Nat) (f : TimedEntry → TimedEntry) : (ev.updAction i f).notes = ev.notes := rfl
@[simp] theorem Ev.updAction_touched (ev : Ev) (i : Nat) (f : TimedEntry → TimedEntry) : (ev.updAction i f).touched = ev.touched := rfl
@[simp] theorem Ev.updAction_reached (ev : Ev) (i : Nat) (f : TimedEntry → TimedEntry) : (ev.updAction i f).reached = ev.reached := rfl
@[simp] theorem Ev.updAction_rewrites (ev : Ev) (i : Nat) (f : TimedEntry → TimedEntry) : (ev.updAction i f).rewrites = ev.rewrites := rfl
@[simp] theorem Ev.updEntry_tb (ev : Ev) (i : Nat) (f : ProgEntry → ProgEntry) : (ev.updEntry i f).tb = ev.tb.setProgram (tupd progEntry0 ev.tb.program i f) := rfl
@[simp] theorem Ev.updEntry_mode (ev : Ev) (i : Nat) (f : ProgEntry → ProgEntry) : (ev.updEntry i f).mode = ev.mode := rfl
@[simp] theorem Ev.updEntry_notes (ev : Ev) (i : Nat) (f : ProgEntry → ProgEntry) : (ev.updEntry i f).notes = ev.notes := rfl
@[simp] theorem Ev.updEntry_touched (ev : Ev) (i : Nat) (f : ProgEntry → ProgEntry) : (ev.updEntry i f).touched = ev.touched := rfl
@[simp] theorem Ev.updEntry_reached (ev : Ev) (i : Nat) (f : ProgEntry → ProgEntry) : (ev.updEntry i f).reached = ev.reached := rfl
@[simp] theorem Ev.updEntry_rewrites (ev : Ev) (i : Nat) (f : ProgEntry → ProgEntry) : (ev.updEntry i f).rewrites = ev.rewrites := rfl
@[simp] theorem Ev.updSlot_tb (ev : Ev) (i : Nat) (f : Slot → Slot) : (ev.updSlot i f).tb = ev.tb.setSlots (tupd slot0 ev.tb.slots i f) := rfl
@[simp] theorem Ev.updSlot_mode (ev : Ev) (i : Nat) (f : Slot → Slot) : (ev.updSlot i f).mode = ev.mode := rfl
@[simp] theorem Ev.updSlot_notes (ev : Ev) (i : Nat) (f : Slot → Slot) : (ev.updSlot i f).notes = ev.notes := rfl
@[simp] theorem Ev.updSlot_touched (ev : Ev) (i : Nat) (f : Slot → Slot) : (ev.updSlot i f).touched = ev.touched := rfl
@[simp] theorem Ev.updSlot_reached (ev : Ev) (i : Nat) (f : Slot → Slot) : (ev.updSlot i f).reached = ev.reached := rfl
@[simp] theorem Ev.updSlot_rewrites (ev : Ev) (i : Nat) (f : Slot → Slot) : (ev.updSlot i f).rewrites = ev.rewrites := rfl
@[simp] theorem Ev.setLine_tb (ev : Ev) (i : Nat) (l : Option Line) : (ev.setLine i l).tb = ev.tb.setLines (tset none ev.tb.lines i l) := rfl
@[simp] theorem Ev.setLine_mode (ev : Ev) (i : Nat) (l : Option Line) : (ev.setLine i l).mode = ev.mode := rfl
@[simp] theorem Ev.setLine_notes (ev : Ev) (i : Nat) (l : Option Line) : (ev.setLine i l).notes = ev.notes := rfl
@[simp] theorem Ev.setLine_touched (ev : Ev) (i : Nat) (l : Option Line) : (ev.setLine i l).touched = ev.touched := rfl
@[simp] theorem Ev.setLine_reached (ev : Ev) (i : Nat) (l : Option Line) : (ev.setLine i l).reached = ev.reached := rfl
@[simp] theorem Ev.setLine_rewrites (ev : Ev) (i : Nat) (l : Option Line) : (ev.setLine i l).rewrites = ev.rewrites := rfl
@[simp] theorem Ev.updLine_tb (ev : Ev) (i : Nat) (f : Line → Line) :
    (ev.updLine i f).tb = ev.tb.setLines (tupd none ev.tb.lines i (fun o => o.map f)) := rfl
@[simp] theorem Ev.updLine_mode (ev : Ev) (i : Nat) (f : Line → Line) : (ev.updLine i f).mode = ev.mode := rfl
@[simp] theorem Ev.updLine_notes (ev : Ev) (i : Nat) (f : Line → Line) : (ev.updLine i f).notes = ev.notes := rfl
@[simp] theorem Ev.updLine_touched (ev : Ev) (i : Nat) (f : Line → Line) : (ev.updLine i f).touched = ev.touched := rfl
@[simp] theorem Ev.updLine_reached (ev : Ev) (i : Nat) (f : Line → Line) : (ev.updLine i f).reached = ev.reached := rfl
@[simp] theorem Ev.updLine_rewrites (ev : Ev) (i : Nat) (f : Line → Line) : (ev.updLine i f).rewrites = ev.rewrites := rfl
@[simp] theorem Ev.setBand_tb (ev : Ev) (b : Nat) : (ev.setBand b).tb = ev.tb.setBand b := rfl
@[simp] theorem Ev.setOwed_tb (ev : Ev) (l : List Nat) : (ev.setOwed l).tb = ev.tb.setOwed l := rfl
@[simp] theorem Ev.setBand_mode (ev : Ev) (b : Nat) : (ev.setBand b).mode = ev.mode := rfl
@[simp] theorem Ev.setOwed_mode (ev : Ev) (l : List Nat) : (ev.setOwed l).mode = ev.mode := rfl
@[simp] theorem Ev.setBand_notes (ev : Ev) (b : Nat) : (ev.setBand b).notes = ev.notes := rfl
@[simp] theorem Ev.setOwed_notes (ev : Ev) (l : List Nat) : (ev.setOwed l).notes = ev.notes := rfl
@[simp] theorem Ev.setBand_touched (ev : Ev) (b : Nat) : (ev.setBand b).touched = ev.touched := rfl
@[simp] theorem Ev.setOwed_touched (ev : Ev) (l : List Nat) : (ev.setOwed l).touched = ev.touched := rfl
@[simp] theorem Ev.setBand_reached (ev : Ev) (b : Nat) : (ev.setBand b).reached = ev.reached := rfl
@[simp] theorem Ev.setBand_rewrites (ev : Ev) (b : Nat) : (ev.setBand b).rewrites = ev.rewrites := rfl
@[simp] theorem Ev.setOwed_reached (ev : Ev) (l : List Nat) : (ev.setOwed l).reached = ev.reached := rfl
@[simp] theorem Ev.setOwed_rewrites (ev : Ev) (l : List Nat) : (ev.setOwed l).rewrites = ev.rewrites := rfl
@[simp] theorem Ev.note_tb (ev : Ev) (k : NoticeKind) (a b : Nat) : (ev.note k a b).tb = ev.tb := by
  unfold Ev.note; split <;> rfl
@[simp] theorem Ev.note_mode (ev : Ev) (k : NoticeKind) (a b : Nat) : (ev.note k a b).mode = ev.mode := by
  unfold Ev.note; split <;> rfl
@[simp] theorem Ev.note_touched (ev : Ev) (k : NoticeKind) (a b : Nat) : (ev.note k a b).touched = ev.touched := by
  unfold Ev.note; split <;> rfl
@[simp] theorem Ev.note_reached (ev : Ev) (k : NoticeKind) (a b : Nat) : (ev.note k a b).reached = ev.reached := by
  unfold Ev.note; split <;> rfl
@[simp] theorem Ev.note_rewrites (ev : Ev) (k : NoticeKind) (a b : Nat) : (ev.note k a b).rewrites = ev.rewrites := by
  unfold Ev.note; split <;> rfl
@[simp] theorem Ev.touch_tb (ev : Ev) (i : Nat) : (ev.touch i).tb = ev.tb := by
  unfold Ev.touch; split <;> rfl
@[simp] theorem Ev.touch_mode (ev : Ev) (i : Nat) : (ev.touch i).mode = ev.mode := by
  unfold Ev.touch; split <;> rfl
@[simp] theorem Ev.touch_notes (ev : Ev) (i : Nat) : (ev.touch i).notes = ev.notes := by
  unfold Ev.touch; split <;> rfl
@[simp] theorem Ev.touch_reached (ev : Ev) (i : Nat) : (ev.touch i).reached = ev.reached := by
  unfold Ev.touch; split <;> rfl
@[simp] theorem Ev.touch_rewrites (ev : Ev) (i : Nat) : (ev.touch i).rewrites = ev.rewrites := by
  unfold Ev.touch; split <;> rfl
@[simp] theorem Ev.reach_tb (ev : Ev) (n : Nat) : (ev.reach n).tb = ev.tb := by
  unfold Ev.reach; split <;> rfl
@[simp] theorem Ev.reach_mode (ev : Ev) (n : Nat) : (ev.reach n).mode = ev.mode := by
  unfold Ev.reach; split <;> rfl
@[simp] theorem Ev.reach_notes (ev : Ev) (n : Nat) : (ev.reach n).notes = ev.notes := by
  unfold Ev.reach; split <;> rfl
@[simp] theorem Ev.reach_touched (ev : Ev) (n : Nat) : (ev.reach n).touched = ev.touched := by
  unfold Ev.reach; split <;> rfl
@[simp] theorem Ev.reach_rewrites (ev : Ev) (n : Nat) : (ev.reach n).rewrites = ev.rewrites := by
  unfold Ev.reach; split <;> rfl
@[simp] theorem Ev.rewrite_tb (ev : Ev) (n : Nat) : (ev.rewrite n).tb = ev.tb := by
  unfold Ev.rewrite; split <;> rfl
@[simp] theorem Ev.rewrite_mode (ev : Ev) (n : Nat) : (ev.rewrite n).mode = ev.mode := by
  unfold Ev.rewrite; split <;> rfl
@[simp] theorem Ev.rewrite_notes (ev : Ev) (n : Nat) : (ev.rewrite n).notes = ev.notes := by
  unfold Ev.rewrite; split <;> rfl
@[simp] theorem Ev.rewrite_touched (ev : Ev) (n : Nat) : (ev.rewrite n).touched = ev.touched := by
  unfold Ev.rewrite; split <;> rfl
@[simp] theorem Ev.rewrite_reached (ev : Ev) (n : Nat) : (ev.rewrite n).reached = ev.reached := by
  unfold Ev.rewrite; split <;> rfl
@[simp] theorem Ev.showStation_mode (ev : Ev) (n : Nat) (f : Station → Station) : (ev.showStation n f).mode = ev.mode := by
  unfold Ev.showStation; split <;> simp
@[simp] theorem Ev.showStation_notes (ev : Ev) (n : Nat) (f : Station → Station) : (ev.showStation n f).notes = ev.notes := by
  unfold Ev.showStation; split <;> simp
@[simp] theorem Ev.showStation_touched (ev : Ev) (n : Nat) (f : Station → Station) : (ev.showStation n f).touched = ev.touched := by
  unfold Ev.showStation; split <;> simp
@[simp] theorem Ev.showStation_reached (ev : Ev) (n : Nat) (f : Station → Station) : (ev.showStation n f).reached = ev.reached := by
  unfold Ev.showStation; split <;> simp
@[simp] theorem Ev.showStation_tb (ev : Ev) (n : Nat) (f : Station → Station) : (ev.showStation n f).tb = (ev.updStation n f).tb := by
  unfold Ev.showStation; split <;> simp

/-- The marks of an event: those it had, and the station marked. -/
theorem Ev.mem_rewrite (ev : Ev) (n k : Nat) : k ∈ (ev.rewrite n).rewrites ↔ k ∈ ev.rewrites ∨ k = n := by
  unfold Ev.rewrite
  split
  · exact ⟨.inl, fun h => h.elim id (fun e => e ▸ ‹_›)⟩
  · simp

/-- A change of a station marks its window exactly where its header then shows something else (log entry 49). -/
theorem Ev.mem_showStation_rewrites (ev : Ev) (n k : Nat) (f : Station → Station) :
    k ∈ (ev.showStation n f).rewrites ↔
      k ∈ ev.rewrites ∨ (k = n ∧ (f (ev.tb.station n)).header ≠ (ev.tb.station n).header) := by
  unfold Ev.showStation
  split
  · simp [*]
  · simp [Ev.mem_rewrite, *]
@[simp] theorem Ev.countStation_mode (ev : Ev) (i : Nat) (f : StationCount → StationCount) : (ev.countStation i f).mode = ev.mode := by
  unfold Ev.countStation; split <;> rfl
@[simp] theorem Ev.countStation_notes (ev : Ev) (i : Nat) (f : StationCount → StationCount) : (ev.countStation i f).notes = ev.notes := by
  unfold Ev.countStation; split <;> rfl
@[simp] theorem Ev.countStation_touched (ev : Ev) (i : Nat) (f : StationCount → StationCount) : (ev.countStation i f).touched = ev.touched := by
  unfold Ev.countStation; split <;> rfl
@[simp] theorem Ev.countStation_reached (ev : Ev) (i : Nat) (f : StationCount → StationCount) : (ev.countStation i f).reached = ev.reached := by
  unfold Ev.countStation; split <;> rfl
@[simp] theorem Ev.countStation_rewrites (ev : Ev) (i : Nat) (f : StationCount → StationCount) : (ev.countStation i f).rewrites = ev.rewrites := by
  unfold Ev.countStation; split <;> rfl
@[simp] theorem Ev.countStation_tb_cfg (ev : Ev) (i : Nat) (f : StationCount → StationCount) : (ev.countStation i f).tb.cfg = ev.tb.cfg := by
  unfold Ev.countStation; split <;> rfl
@[simp] theorem Ev.countStation_tb_lanes (ev : Ev) (i : Nat) (f : StationCount → StationCount) : (ev.countStation i f).tb.lanes = ev.tb.lanes := by
  unfold Ev.countStation; split <;> rfl
@[simp] theorem Ev.countStation_tb_checks (ev : Ev) (i : Nat) (f : StationCount → StationCount) : (ev.countStation i f).tb.checks = ev.tb.checks := by
  unfold Ev.countStation; split <;> rfl
@[simp] theorem Ev.countStation_tb_lines (ev : Ev) (i : Nat) (f : StationCount → StationCount) : (ev.countStation i f).tb.lines = ev.tb.lines := by
  unfold Ev.countStation; split <;> rfl
@[simp] theorem Ev.countStation_tb_items (ev : Ev) (i : Nat) (f : StationCount → StationCount) : (ev.countStation i f).tb.items = ev.tb.items := by
  unfold Ev.countStation; split <;> rfl
@[simp] theorem Ev.countStation_tb_band (ev : Ev) (i : Nat) (f : StationCount → StationCount) : (ev.countStation i f).tb.band = ev.tb.band := by
  unfold Ev.countStation; split <;> rfl
@[simp] theorem Ev.countStation_tb_tickets (ev : Ev) (i : Nat) (f : StationCount → StationCount) : (ev.countStation i f).tb.tickets = ev.tb.tickets := by
  unfold Ev.countStation; split <;> rfl
@[simp] theorem Ev.countStation_tb_owed (ev : Ev) (i : Nat) (f : StationCount → StationCount) : (ev.countStation i f).tb.owed = ev.tb.owed := by
  unfold Ev.countStation; split <;> rfl
@[simp] theorem Ev.countStation_tb_stations (ev : Ev) (i : Nat) (f : StationCount → StationCount) : (ev.countStation i f).tb.stations = ev.tb.stations := by
  unfold Ev.countStation; split <;> rfl
@[simp] theorem Ev.countStation_tb_time (ev : Ev) (i : Nat) (f : StationCount → StationCount) : (ev.countStation i f).tb.time = ev.tb.time := by
  unfold Ev.countStation; split <;> rfl
@[simp] theorem Ev.countStation_tb_actions (ev : Ev) (i : Nat) (f : StationCount → StationCount) : (ev.countStation i f).tb.actions = ev.tb.actions := by
  unfold Ev.countStation; split <;> rfl
@[simp] theorem Ev.countStation_tb_draw (ev : Ev) (i : Nat) (f : StationCount → StationCount) : (ev.countStation i f).tb.draw = ev.tb.draw := by
  unfold Ev.countStation; split <;> rfl
@[simp] theorem Ev.countStation_tb_program (ev : Ev) (i : Nat) (f : StationCount → StationCount) : (ev.countStation i f).tb.program = ev.tb.program := by
  unfold Ev.countStation; split <;> rfl
@[simp] theorem Ev.countStation_tb_slots (ev : Ev) (i : Nat) (f : StationCount → StationCount) : (ev.countStation i f).tb.slots = ev.tb.slots := by
  unfold Ev.countStation; split <;> rfl
@[simp] theorem Ev.countStation_tb_cItems (ev : Ev) (i : Nat) (f : StationCount → StationCount) : (ev.countStation i f).tb.cItems = ev.tb.cItems := by
  unfold Ev.countStation; split <;> rfl
@[simp] theorem Ev.countStation_tb_cLanes (ev : Ev) (i : Nat) (f : StationCount → StationCount) : (ev.countStation i f).tb.cLanes = ev.tb.cLanes := by
  unfold Ev.countStation; split <;> rfl
@[simp] theorem Ev.countStation_tb_cEngine (ev : Ev) (i : Nat) (f : StationCount → StationCount) : (ev.countStation i f).tb.cEngine = ev.tb.cEngine := by
  unfold Ev.countStation; split <;> rfl
@[simp] theorem Ev.countItem_mode (ev : Ev) (i : Nat) (f : ItemCount → ItemCount) : (ev.countItem i f).mode = ev.mode := by
  unfold Ev.countItem; split <;> rfl
@[simp] theorem Ev.countItem_notes (ev : Ev) (i : Nat) (f : ItemCount → ItemCount) : (ev.countItem i f).notes = ev.notes := by
  unfold Ev.countItem; split <;> rfl
@[simp] theorem Ev.countItem_touched (ev : Ev) (i : Nat) (f : ItemCount → ItemCount) : (ev.countItem i f).touched = ev.touched := by
  unfold Ev.countItem; split <;> rfl
@[simp] theorem Ev.countItem_reached (ev : Ev) (i : Nat) (f : ItemCount → ItemCount) : (ev.countItem i f).reached = ev.reached := by
  unfold Ev.countItem; split <;> rfl
@[simp] theorem Ev.countItem_rewrites (ev : Ev) (i : Nat) (f : ItemCount → ItemCount) : (ev.countItem i f).rewrites = ev.rewrites := by
  unfold Ev.countItem; split <;> rfl
@[simp] theorem Ev.countItem_tb_cfg (ev : Ev) (i : Nat) (f : ItemCount → ItemCount) : (ev.countItem i f).tb.cfg = ev.tb.cfg := by
  unfold Ev.countItem; split <;> rfl
@[simp] theorem Ev.countItem_tb_lanes (ev : Ev) (i : Nat) (f : ItemCount → ItemCount) : (ev.countItem i f).tb.lanes = ev.tb.lanes := by
  unfold Ev.countItem; split <;> rfl
@[simp] theorem Ev.countItem_tb_checks (ev : Ev) (i : Nat) (f : ItemCount → ItemCount) : (ev.countItem i f).tb.checks = ev.tb.checks := by
  unfold Ev.countItem; split <;> rfl
@[simp] theorem Ev.countItem_tb_lines (ev : Ev) (i : Nat) (f : ItemCount → ItemCount) : (ev.countItem i f).tb.lines = ev.tb.lines := by
  unfold Ev.countItem; split <;> rfl
@[simp] theorem Ev.countItem_tb_items (ev : Ev) (i : Nat) (f : ItemCount → ItemCount) : (ev.countItem i f).tb.items = ev.tb.items := by
  unfold Ev.countItem; split <;> rfl
@[simp] theorem Ev.countItem_tb_band (ev : Ev) (i : Nat) (f : ItemCount → ItemCount) : (ev.countItem i f).tb.band = ev.tb.band := by
  unfold Ev.countItem; split <;> rfl
@[simp] theorem Ev.countItem_tb_tickets (ev : Ev) (i : Nat) (f : ItemCount → ItemCount) : (ev.countItem i f).tb.tickets = ev.tb.tickets := by
  unfold Ev.countItem; split <;> rfl
@[simp] theorem Ev.countItem_tb_owed (ev : Ev) (i : Nat) (f : ItemCount → ItemCount) : (ev.countItem i f).tb.owed = ev.tb.owed := by
  unfold Ev.countItem; split <;> rfl
@[simp] theorem Ev.countItem_tb_stations (ev : Ev) (i : Nat) (f : ItemCount → ItemCount) : (ev.countItem i f).tb.stations = ev.tb.stations := by
  unfold Ev.countItem; split <;> rfl
@[simp] theorem Ev.countItem_tb_time (ev : Ev) (i : Nat) (f : ItemCount → ItemCount) : (ev.countItem i f).tb.time = ev.tb.time := by
  unfold Ev.countItem; split <;> rfl
@[simp] theorem Ev.countItem_tb_actions (ev : Ev) (i : Nat) (f : ItemCount → ItemCount) : (ev.countItem i f).tb.actions = ev.tb.actions := by
  unfold Ev.countItem; split <;> rfl
@[simp] theorem Ev.countItem_tb_draw (ev : Ev) (i : Nat) (f : ItemCount → ItemCount) : (ev.countItem i f).tb.draw = ev.tb.draw := by
  unfold Ev.countItem; split <;> rfl
@[simp] theorem Ev.countItem_tb_program (ev : Ev) (i : Nat) (f : ItemCount → ItemCount) : (ev.countItem i f).tb.program = ev.tb.program := by
  unfold Ev.countItem; split <;> rfl
@[simp] theorem Ev.countItem_tb_slots (ev : Ev) (i : Nat) (f : ItemCount → ItemCount) : (ev.countItem i f).tb.slots = ev.tb.slots := by
  unfold Ev.countItem; split <;> rfl
@[simp] theorem Ev.countItem_tb_cStations (ev : Ev) (i : Nat) (f : ItemCount → ItemCount) : (ev.countItem i f).tb.cStations = ev.tb.cStations := by
  unfold Ev.countItem; split <;> rfl
@[simp] theorem Ev.countItem_tb_cLanes (ev : Ev) (i : Nat) (f : ItemCount → ItemCount) : (ev.countItem i f).tb.cLanes = ev.tb.cLanes := by
  unfold Ev.countItem; split <;> rfl
@[simp] theorem Ev.countItem_tb_cEngine (ev : Ev) (i : Nat) (f : ItemCount → ItemCount) : (ev.countItem i f).tb.cEngine = ev.tb.cEngine := by
  unfold Ev.countItem; split <;> rfl
@[simp] theorem Ev.countLane_mode (ev : Ev) (i : Nat) (f : LaneCount → LaneCount) : (ev.countLane i f).mode = ev.mode := by
  unfold Ev.countLane; split <;> rfl
@[simp] theorem Ev.countLane_notes (ev : Ev) (i : Nat) (f : LaneCount → LaneCount) : (ev.countLane i f).notes = ev.notes := by
  unfold Ev.countLane; split <;> rfl
@[simp] theorem Ev.countLane_touched (ev : Ev) (i : Nat) (f : LaneCount → LaneCount) : (ev.countLane i f).touched = ev.touched := by
  unfold Ev.countLane; split <;> rfl
@[simp] theorem Ev.countLane_reached (ev : Ev) (i : Nat) (f : LaneCount → LaneCount) : (ev.countLane i f).reached = ev.reached := by
  unfold Ev.countLane; split <;> rfl
@[simp] theorem Ev.countLane_rewrites (ev : Ev) (i : Nat) (f : LaneCount → LaneCount) : (ev.countLane i f).rewrites = ev.rewrites := by
  unfold Ev.countLane; split <;> rfl
@[simp] theorem Ev.countLane_tb_cfg (ev : Ev) (i : Nat) (f : LaneCount → LaneCount) : (ev.countLane i f).tb.cfg = ev.tb.cfg := by
  unfold Ev.countLane; split <;> rfl
@[simp] theorem Ev.countLane_tb_lanes (ev : Ev) (i : Nat) (f : LaneCount → LaneCount) : (ev.countLane i f).tb.lanes = ev.tb.lanes := by
  unfold Ev.countLane; split <;> rfl
@[simp] theorem Ev.countLane_tb_checks (ev : Ev) (i : Nat) (f : LaneCount → LaneCount) : (ev.countLane i f).tb.checks = ev.tb.checks := by
  unfold Ev.countLane; split <;> rfl
@[simp] theorem Ev.countLane_tb_lines (ev : Ev) (i : Nat) (f : LaneCount → LaneCount) : (ev.countLane i f).tb.lines = ev.tb.lines := by
  unfold Ev.countLane; split <;> rfl
@[simp] theorem Ev.countLane_tb_items (ev : Ev) (i : Nat) (f : LaneCount → LaneCount) : (ev.countLane i f).tb.items = ev.tb.items := by
  unfold Ev.countLane; split <;> rfl
@[simp] theorem Ev.countLane_tb_band (ev : Ev) (i : Nat) (f : LaneCount → LaneCount) : (ev.countLane i f).tb.band = ev.tb.band := by
  unfold Ev.countLane; split <;> rfl
@[simp] theorem Ev.countLane_tb_tickets (ev : Ev) (i : Nat) (f : LaneCount → LaneCount) : (ev.countLane i f).tb.tickets = ev.tb.tickets := by
  unfold Ev.countLane; split <;> rfl
@[simp] theorem Ev.countLane_tb_owed (ev : Ev) (i : Nat) (f : LaneCount → LaneCount) : (ev.countLane i f).tb.owed = ev.tb.owed := by
  unfold Ev.countLane; split <;> rfl
@[simp] theorem Ev.countLane_tb_stations (ev : Ev) (i : Nat) (f : LaneCount → LaneCount) : (ev.countLane i f).tb.stations = ev.tb.stations := by
  unfold Ev.countLane; split <;> rfl
@[simp] theorem Ev.countLane_tb_time (ev : Ev) (i : Nat) (f : LaneCount → LaneCount) : (ev.countLane i f).tb.time = ev.tb.time := by
  unfold Ev.countLane; split <;> rfl
@[simp] theorem Ev.countLane_tb_actions (ev : Ev) (i : Nat) (f : LaneCount → LaneCount) : (ev.countLane i f).tb.actions = ev.tb.actions := by
  unfold Ev.countLane; split <;> rfl
@[simp] theorem Ev.countLane_tb_draw (ev : Ev) (i : Nat) (f : LaneCount → LaneCount) : (ev.countLane i f).tb.draw = ev.tb.draw := by
  unfold Ev.countLane; split <;> rfl
@[simp] theorem Ev.countLane_tb_program (ev : Ev) (i : Nat) (f : LaneCount → LaneCount) : (ev.countLane i f).tb.program = ev.tb.program := by
  unfold Ev.countLane; split <;> rfl
@[simp] theorem Ev.countLane_tb_slots (ev : Ev) (i : Nat) (f : LaneCount → LaneCount) : (ev.countLane i f).tb.slots = ev.tb.slots := by
  unfold Ev.countLane; split <;> rfl
@[simp] theorem Ev.countLane_tb_cStations (ev : Ev) (i : Nat) (f : LaneCount → LaneCount) : (ev.countLane i f).tb.cStations = ev.tb.cStations := by
  unfold Ev.countLane; split <;> rfl
@[simp] theorem Ev.countLane_tb_cItems (ev : Ev) (i : Nat) (f : LaneCount → LaneCount) : (ev.countLane i f).tb.cItems = ev.tb.cItems := by
  unfold Ev.countLane; split <;> rfl
@[simp] theorem Ev.countLane_tb_cEngine (ev : Ev) (i : Nat) (f : LaneCount → LaneCount) : (ev.countLane i f).tb.cEngine = ev.tb.cEngine := by
  unfold Ev.countLane; split <;> rfl
@[simp] theorem Ev.countEngine_mode (ev : Ev) (f : EngineCount → EngineCount) : (ev.countEngine f).mode = ev.mode := by
  unfold Ev.countEngine; split <;> rfl
@[simp] theorem Ev.countEngine_notes (ev : Ev) (f : EngineCount → EngineCount) : (ev.countEngine f).notes = ev.notes := by
  unfold Ev.countEngine; split <;> rfl
@[simp] theorem Ev.countEngine_touched (ev : Ev) (f : EngineCount → EngineCount) : (ev.countEngine f).touched = ev.touched := by
  unfold Ev.countEngine; split <;> rfl
@[simp] theorem Ev.countEngine_reached (ev : Ev) (f : EngineCount → EngineCount) : (ev.countEngine f).reached = ev.reached := by
  unfold Ev.countEngine; split <;> rfl
@[simp] theorem Ev.countEngine_rewrites (ev : Ev) (f : EngineCount → EngineCount) : (ev.countEngine f).rewrites = ev.rewrites := by
  unfold Ev.countEngine; split <;> rfl
@[simp] theorem Ev.countEngine_tb_cfg (ev : Ev) (f : EngineCount → EngineCount) : (ev.countEngine f).tb.cfg = ev.tb.cfg := by
  unfold Ev.countEngine; split <;> rfl
@[simp] theorem Ev.countEngine_tb_lanes (ev : Ev) (f : EngineCount → EngineCount) : (ev.countEngine f).tb.lanes = ev.tb.lanes := by
  unfold Ev.countEngine; split <;> rfl
@[simp] theorem Ev.countEngine_tb_checks (ev : Ev) (f : EngineCount → EngineCount) : (ev.countEngine f).tb.checks = ev.tb.checks := by
  unfold Ev.countEngine; split <;> rfl
@[simp] theorem Ev.countEngine_tb_lines (ev : Ev) (f : EngineCount → EngineCount) : (ev.countEngine f).tb.lines = ev.tb.lines := by
  unfold Ev.countEngine; split <;> rfl
@[simp] theorem Ev.countEngine_tb_items (ev : Ev) (f : EngineCount → EngineCount) : (ev.countEngine f).tb.items = ev.tb.items := by
  unfold Ev.countEngine; split <;> rfl
@[simp] theorem Ev.countEngine_tb_band (ev : Ev) (f : EngineCount → EngineCount) : (ev.countEngine f).tb.band = ev.tb.band := by
  unfold Ev.countEngine; split <;> rfl
@[simp] theorem Ev.countEngine_tb_tickets (ev : Ev) (f : EngineCount → EngineCount) : (ev.countEngine f).tb.tickets = ev.tb.tickets := by
  unfold Ev.countEngine; split <;> rfl
@[simp] theorem Ev.countEngine_tb_owed (ev : Ev) (f : EngineCount → EngineCount) : (ev.countEngine f).tb.owed = ev.tb.owed := by
  unfold Ev.countEngine; split <;> rfl
@[simp] theorem Ev.countEngine_tb_stations (ev : Ev) (f : EngineCount → EngineCount) : (ev.countEngine f).tb.stations = ev.tb.stations := by
  unfold Ev.countEngine; split <;> rfl
@[simp] theorem Ev.countEngine_tb_time (ev : Ev) (f : EngineCount → EngineCount) : (ev.countEngine f).tb.time = ev.tb.time := by
  unfold Ev.countEngine; split <;> rfl
@[simp] theorem Ev.countEngine_tb_actions (ev : Ev) (f : EngineCount → EngineCount) : (ev.countEngine f).tb.actions = ev.tb.actions := by
  unfold Ev.countEngine; split <;> rfl
@[simp] theorem Ev.countEngine_tb_draw (ev : Ev) (f : EngineCount → EngineCount) : (ev.countEngine f).tb.draw = ev.tb.draw := by
  unfold Ev.countEngine; split <;> rfl
@[simp] theorem Ev.countEngine_tb_program (ev : Ev) (f : EngineCount → EngineCount) : (ev.countEngine f).tb.program = ev.tb.program := by
  unfold Ev.countEngine; split <;> rfl
@[simp] theorem Ev.countEngine_tb_slots (ev : Ev) (f : EngineCount → EngineCount) : (ev.countEngine f).tb.slots = ev.tb.slots := by
  unfold Ev.countEngine; split <;> rfl
@[simp] theorem Ev.countEngine_tb_cStations (ev : Ev) (f : EngineCount → EngineCount) : (ev.countEngine f).tb.cStations = ev.tb.cStations := by
  unfold Ev.countEngine; split <;> rfl
@[simp] theorem Ev.countEngine_tb_cItems (ev : Ev) (f : EngineCount → EngineCount) : (ev.countEngine f).tb.cItems = ev.tb.cItems := by
  unfold Ev.countEngine; split <;> rfl
@[simp] theorem Ev.countEngine_tb_cLanes (ev : Ev) (f : EngineCount → EngineCount) : (ev.countEngine f).tb.cLanes = ev.tb.cLanes := by
  unfold Ev.countEngine; split <;> rfl
@[simp] theorem Ev.ofTables_tb (t : Tables) (m : EngineState) : (Ev.ofTables t m).tb = t := rfl
@[simp] theorem Ev.ofTables_mode (t : Tables) (m : EngineState) : (Ev.ofTables t m).mode = m := rfl
@[simp] theorem Ev.ofTables_notes (t : Tables) (m : EngineState) : (Ev.ofTables t m).notes = [] := rfl
@[simp] theorem Ev.ofTables_touched (t : Tables) (m : EngineState) : (Ev.ofTables t m).touched = [] := rfl
@[simp] theorem Ev.ofTables_reached (t : Tables) (m : EngineState) : (Ev.ofTables t m).reached = [] := rfl
@[simp] theorem Ev.ofTables_rewrites (t : Tables) (m : EngineState) : (Ev.ofTables t m).rewrites = [] := rfl

@[simp] theorem Io.setSt_st (io : Io) (s : State) : (io.setSt s).st = s := rfl
@[simp] theorem Io.setSt_errs (io : Io) (s : State) : (io.setSt s).errs = io.errs := rfl
@[simp] theorem Io.setSt_acc (io : Io) (s : State) : (io.setSt s).acc = io.acc := rfl
@[simp] theorem Io.setSt_bad (io : Io) (s : State) : (io.setSt s).bad = io.bad := rfl
@[simp] theorem State.afterHub_enc (s : State) (bus : Bus) : (s.afterHub bus).enc = s.enc := rfl
@[simp] theorem State.afterHub_base (s : State) (bus : Bus) : (s.afterHub bus).base = s.base := rfl
@[simp] theorem State.afterHub_tb (s : State) (bus : Bus) : (s.afterHub bus).tb = s.tb := rfl
@[simp] theorem State.afterHub_rqu (s : State) (bus : Bus) : (s.afterHub bus).rqu = s.rqu := rfl
@[simp] theorem State.afterHub_sweep (s : State) (bus : Bus) : (s.afterHub bus).sweep = s.sweep := rfl
@[simp] theorem State.afterHub_tmb (s : State) (bus : Bus) : (s.afterHub bus).tmb = s.tmb := rfl
@[simp] theorem State.afterHub_due (s : State) (bus : Bus) : (s.afterHub bus).due = s.due := rfl
@[simp] theorem State.afterHub_ntw (s : State) (bus : Bus) : (s.afterHub bus).ntw = s.ntw := rfl
@[simp] theorem State.afterHub_doneCounts (s : State) (bus : Bus) : (s.afterHub bus).doneCounts = s.doneCounts := rfl
@[simp] theorem State.afterHub_mem (s : State) (bus : Bus) : (s.afterHub bus).mem = landStores s.mem bus.hub := rfl
@[simp] theorem State.afterHub_freeCount (s : State) (bus : Bus) : (s.afterHub bus).freeCount = s.freeCount := rfl
@[simp] theorem State.afterHub_pending (s : State) (bus : Bus) : (s.afterHub bus).pending = s.pending := rfl
@[simp] theorem Tables.setCfg_twice (t : Tables) (x y : Cfg) : (t.setCfg x).setCfg y = t.setCfg y := rfl
@[simp] theorem Tables.setLanes_twice (t : Tables) (x y : List (Nat × Lane)) : (t.setLanes x).setLanes y = t.setLanes y := rfl
@[simp] theorem Tables.setChecks_twice (t : Tables) (x y : List (Nat × Check)) : (t.setChecks x).setChecks y = t.setChecks y := rfl
@[simp] theorem Tables.setLines_twice (t : Tables) (x y : List (Nat × Option Line)) : (t.setLines x).setLines y = t.setLines y := rfl
@[simp] theorem Tables.setItems_twice (t : Tables) (x y : List (Nat × Item)) : (t.setItems x).setItems y = t.setItems y := rfl
@[simp] theorem Tables.setBand_twice (t : Tables) (x y : Nat) : (t.setBand x).setBand y = t.setBand y := rfl
@[simp] theorem Tables.setTickets_twice (t : Tables) (x y : List (Nat × Ticket)) : (t.setTickets x).setTickets y = t.setTickets y := rfl
@[simp] theorem Tables.setOwed_twice (t : Tables) (x y : List Nat) : (t.setOwed x).setOwed y = t.setOwed y := rfl
@[simp] theorem Tables.setStations_twice (t : Tables) (x y : List (Nat × Station)) : (t.setStations x).setStations y = t.setStations y := rfl
@[simp] theorem Tables.setTime_twice (t : Tables) (x y : Word) : (t.setTime x).setTime y = t.setTime y := rfl
@[simp] theorem Tables.setActions_twice (t : Tables) (x y : List (Nat × TimedEntry)) : (t.setActions x).setActions y = t.setActions y := rfl
@[simp] theorem Tables.setDraw_twice (t : Tables) (x y : Word) : (t.setDraw x).setDraw y = t.setDraw y := rfl
@[simp] theorem Tables.setProgram_twice (t : Tables) (x y : List (Nat × ProgEntry)) : (t.setProgram x).setProgram y = t.setProgram y := rfl
@[simp] theorem Tables.setSlots_twice (t : Tables) (x y : List (Nat × Slot)) : (t.setSlots x).setSlots y = t.setSlots y := rfl
@[simp] theorem Tables.setCStations_twice (t : Tables) (x y : List (Nat × StationCount)) : (t.setCStations x).setCStations y = t.setCStations y := rfl
@[simp] theorem Tables.setCItems_twice (t : Tables) (x y : List (Nat × ItemCount)) : (t.setCItems x).setCItems y = t.setCItems y := rfl
@[simp] theorem Tables.setCLanes_twice (t : Tables) (x y : List (Nat × LaneCount)) : (t.setCLanes x).setCLanes y = t.setCLanes y := rfl
@[simp] theorem Tables.setCEngine_twice (t : Tables) (x y : EngineCount) : (t.setCEngine x).setCEngine y = t.setCEngine y := rfl
@[simp] theorem State.setEnc_twice (s : State) (x y : Enc) : (s.setEnc x).setEnc y = s.setEnc y := rfl
@[simp] theorem State.setBase_twice (s : State) (x y : Addr) : (s.setBase x).setBase y = s.setBase y := rfl
@[simp] theorem State.setTb_twice (s : State) (x y : Tables) : (s.setTb x).setTb y = s.setTb y := rfl
@[simp] theorem State.setRqu_twice (s : State) (x y : Rqu) : (s.setRqu x).setRqu y = s.setRqu y := rfl
@[simp] theorem State.setSweep_twice (s : State) (x y : Sweep) : (s.setSweep x).setSweep y = s.setSweep y := rfl
@[simp] theorem State.setTmb_twice (s : State) (x y : Tmb) : (s.setTmb x).setTmb y = s.setTmb y := rfl
@[simp] theorem State.setDue_twice (s : State) (x y : Due) : (s.setDue x).setDue y = s.setDue y := rfl
@[simp] theorem State.setNtw_twice (s : State) (x y : Ntw) : (s.setNtw x).setNtw y = s.setNtw y := rfl
@[simp] theorem State.setDoneCounts_twice (s : State) (x y : List (Nat × Word)) : (s.setDoneCounts x).setDoneCounts y = s.setDoneCounts y := rfl
@[simp] theorem State.setMem_twice (s : State) (x y : List Host.Cell) : (s.setMem x).setMem y = s.setMem y := rfl
@[simp] theorem State.setFreeCount_twice (s : State) (x y : Nat) : (s.setFreeCount x).setFreeCount y = s.setFreeCount y := rfl
@[simp] theorem State.setPending_twice (s : State) (x y : List Instr) : (s.setPending x).setPending y = s.setPending y := rfl

end Sys2Proof.Machine
end

