-- ==== Sys2Proof/Laws/Memory.lean ====
section
/-!
SUPPORT. Exchange memory: reading after writing, the canonical form, and addresses of the exchange window (R143).
-/

namespace Sys2Proof.Machine

/-! ### Bytes and words -/

theorem readByte_writeByte (m : List Host.Cell) (a : Nat) (b : Byte) (x : Nat) :
    readByte (writeByte m a b) x = if x = a then b else readByte m x := tget_tset dramByte m a b x

theorem memWf_writeByte {m : List Host.Cell} (a : Nat) (b : Byte) (h : memWf m = true) : memWf (writeByte m a b) = true :=
  twf_tset dramByte a b h

theorem memWf_writeWord {m : List Host.Cell} (a : Nat) (w : Word) (h : memWf m = true) : memWf (writeWord m a w) = true :=
  memWf_writeByte _ _ (memWf_writeByte _ _ (memWf_writeByte _ _ (memWf_writeByte _ _ h)))

theorem memWf_writeBytes {m : List Host.Cell} (a : Nat) (bs : List Byte) (h : memWf m = true) :
    memWf (writeBytes m a bs) = true := by
  induction bs generalizing m a with
  | nil => exact h
  | cons b bs ih => exact ih (a + 1) (memWf_writeByte a b h)

/-- The hub's stores keep the canonical form. -/
theorem memWf_landStores {m : List Host.Cell} (hs : List HubStore) (h : memWf m = true) : memWf (landStores m hs) = true := by
  unfold landStores
  induction hs generalizing m with
  | nil => exact h
  | cons x hs ih => exact ih (memWf_writeBytes _ _ h)

theorem memWf_afterHub {s : State} (bus : Bus) (h : memWf s.mem = true) : memWf (s.afterHub bus).mem = true :=
  memWf_landStores bus.hub h

/-- A word write leaves every byte outside its four alone. -/
theorem readByte_writeWord_ne (m : List Host.Cell) (a : Nat) (w : Word) {x : Nat} (h : x < a ∨ a + 4 ≤ x) :
    readByte (writeWord m a w) x = readByte m x := by
  simp only [writeWord, readByte_writeByte]
  rw [if_neg (by omega), if_neg (by omega), if_neg (by omega), if_neg (by omega)]

theorem word_of_bytes (w : Word) :
    w.extractLsb' 24 8 ++ w.extractLsb' 16 8 ++ w.extractLsb' 8 8 ++ w.extractLsb' 0 8 = w := by
  ext i hi
  simp only [BitVec.getElem_append, BitVec.getElem_extractLsb']
  split
  · simp [BitVec.getLsbD_eq_getElem hi]
  · split
    · simp only [show 8 + (i - 8) = i by omega, BitVec.getLsbD_eq_getElem hi]
    · split
      · simp only [show 16 + (i - 8 - 8) = i by omega, BitVec.getLsbD_eq_getElem hi]
      · simp only [show 24 + (i - 8 - 8 - 8) = i by omega, BitVec.getLsbD_eq_getElem hi]

/-- A word reads back as written. -/
theorem readWord_writeWord_same (m : List Host.Cell) (a : Nat) (w : Word) : readWord (writeWord m a w) a = w := by
  unfold readWord
  simp only [writeWord, readByte_writeByte]
  simp only [if_true, show ¬ a = a + 1 by omega, show ¬ a = a + 2 by omega, show ¬ a = a + 3 by omega, show ¬ a + 1 = a + 2 by omega,
    show ¬ a + 1 = a + 3 by omega, show ¬ a + 2 = a + 3 by omega, if_false]
  exact word_of_bytes w

/-- A word read depends on its four bytes only. -/
theorem readWord_congr {m m' : List Host.Cell} {a : Nat} (h : ∀ x, a ≤ x → x < a + 4 → readByte m' x = readByte m x) :
    readWord m' a = readWord m a := by
  unfold readWord
  rw [h a (by omega) (by omega), h (a + 1) (by omega) (by omega), h (a + 2) (by omega) (by omega), h (a + 3) (by omega) (by omega)]

/-- A word read is not changed by a word write that does not meet it. -/
theorem readWord_writeWord_ne (m : List Host.Cell) (a : Nat) (w : Word) {b : Nat} (h : b + 4 ≤ a ∨ a + 4 ≤ b) :
    readWord (writeWord m a w) b = readWord m b :=
  readWord_congr (fun x h1 h2 => readByte_writeWord_ne m a w (by omega))

/-! ### Addresses of the exchange window -/

/-- BASE is a multiple of 128 KiB (R165). -/
theorem aligned_toNat {b : Addr} (h : b.extractLsb' 0 17 = 0) : b.toNat % 131072 = 0 := by
  have := congrArg BitVec.toNat h
  simpa [BitVec.extractLsb'_toNat] using this

/-- Inside the window of an aligned base no address wraps (R143). -/
theorem at_eq {s : State} (h : s.base.extractLsb' 0 17 = 0) {off : Nat} (ho : off < 131072) : s.at off = s.base.toNat + off := by
  have h1 := aligned_toNat h
  have h2 := s.base.isLt
  unfold State.at
  rw [BitVec.toNat_add, BitVec.toNat_ofNat, Nat.mod_eq_of_lt (show off < 2 ^ 64 by omega)]
  exact Nat.mod_eq_of_lt (by omega)

@[simp] theorem at_setMem (s : State) (m : List Host.Cell) (off : Nat) : (s.setMem m).at off = s.at off := rfl

theorem at_congr {s t : State} (h : t.base = s.base) (off : Nat) : t.at off = s.at off := by unfold State.at; rw [h]

end Sys2Proof.Machine
end

