-- ==== Sys2Proof/Laws/Io.lean ====
section
/-!
SUPPORT. The bus operations on a quiet bus: what words they leave in exchange memory, and that they change nothing else.
-/

namespace Sys2Proof.Machine

/-- The memory after consecutive words are written from an offset on. -/
def putWords (s : State) (m : List Host.Cell) (off : Nat) : List Word → List Host.Cell
  | [] => m
  | w :: ws => putWords s (writeWord m (s.at off) w) (off + 4) ws

theorem bad_quiet {io : Io} (h : io.errs = []) : io.bad = false := by simp [Io.bad, h]

theorem busWrite_quiet {io : Io} (h : io.errs = []) (off : Nat) (w : Word) :
    busWrite io off w = { io with st := io.st.setMem (writeWord io.st.mem (io.st.at off) w), acc := io.acc + 1 } := by
  simp [busWrite, bad_quiet h]

theorem busWrites_quiet {io : Io} (h : io.errs = []) (off : Nat) (ws : List Word) :
    busWrites io off ws =
      ({ io with st := io.st.setMem (putWords io.st io.st.mem off ws), acc := io.acc + ws.length }, true) := by
  induction ws generalizing io off with
  | nil => rfl
  | cons w ws ih =>
    have h' : (busWrite io off w).errs = [] := by rw [busWrite_quiet h]; exact h
    rw [busWrites, bad_quiet h, if_neg (by simp), ih h', busWrite_quiet h]
    simp only [State.setMem_mem, putWords, List.length_cons]
    have e : ∀ (m : List Host.Cell) (o : Nat) (vs : List Word),
        putWords (io.st.setMem (writeWord io.st.mem (io.st.at off) w)) m o vs = putWords io.st m o vs := by
      intro m o vs
      induction vs generalizing m o with
      | nil => rfl
      | cons v vs ih => simp only [putWords]; exact ih _ _
    rw [e]
    simp only [State.setMem, Nat.add_assoc, Nat.add_comm 1]

theorem busReads_quiet {io : Io} (h : io.errs = []) (off n : Nat) :
    busReads io off n =
      ({ io with acc := io.acc + n }, some ((List.range n).map (fun k => io.st.wordAt (off + 4 * k)))) := by
  induction n generalizing io off with
  | zero => rfl
  | succ n ih =>
    have h' : ({ io with acc := io.acc + 1 } : Io).errs = [] := h
    rw [busReads, bad_quiet h, if_neg (by simp)]
    simp only [ih h' (off + 4)]
    rw [List.range_succ_eq_map]
    simp only [List.map_cons, List.map_map]
    refine Prod.ext ?_ ?_
    · simp only [Nat.add_comm, Nat.add_left_comm]
    · simp only [State.wordAt, Nat.mul_zero, Nat.add_zero, Option.some.injEq, List.cons.injEq, true_and]
      refine List.map_congr_left (fun k _ => ?_)
      simp only [Function.comp, Nat.succ_eq_add_one]
      rw [show off + 4 + 4 * k = off + 4 * (k + 1) by omega]

theorem aligned_iff {s : State} : s.aligned = true ↔ s.base.extractLsb' 0 17 = 0 := by simp [State.aligned]

section Put
variable {s : State} (hs : s.aligned = true)
include hs

theorem readByte_putWords_ne (m : List Host.Cell) {off : Nat} {ws : List Word} (ho : off + 4 * ws.length ≤ 131072) {x : Nat}
    (h : x < s.base.toNat + off ∨ s.base.toNat + off + 4 * ws.length ≤ x) : readByte (putWords s m off ws) x = readByte m x := by
  induction ws generalizing m off with
  | nil => rfl
  | cons w ws ih =>
    simp only [List.length_cons] at ho h
    rw [putWords, ih _ (by omega) (by omega)]
    refine readByte_writeWord_ne m _ w ?_
    rw [at_eq (aligned_iff.1 hs) (by omega)]
    omega

theorem readWord_putWords_ne (m : List Host.Cell) {off : Nat} {ws : List Word} (ho : off + 4 * ws.length ≤ 131072) {x : Nat}
    (h : x + 4 ≤ s.base.toNat + off ∨ s.base.toNat + off + 4 * ws.length ≤ x) :
    readWord (putWords s m off ws) x = readWord m x :=
  readWord_congr (fun y h1 h2 => readByte_putWords_ne hs m ho (by omega))

theorem readWord_putWords (m : List Host.Cell) {off : Nat} {ws : List Word} (ho : off + 4 * ws.length ≤ 131072) {j : Nat}
    (h : j < ws.length) : readWord (putWords s m off ws) (s.base.toNat + (off + 4 * j)) = ws.getD j 0 := by
  induction ws generalizing m off j with
  | nil => simp at h
  | cons w ws ih =>
    simp only [List.length_cons] at ho h
    rw [putWords]
    cases j with
    | zero =>
      rw [readWord_putWords_ne hs _ (by omega) (by omega), at_eq (aligned_iff.1 hs) (by omega)]
      exact readWord_writeWord_same m _ w
    | succ j =>
      rw [show off + 4 * (j + 1) = off + 4 + 4 * j by omega, ih _ (by omega) (by omega)]
      rfl

end Put

end Sys2Proof.Machine
end

