-- ==== Sys2Proof/Laws/Answer.lean ====
section
/-!
SUPPORT. Answering the request in flight on a quiet bus (R149): `answerRequest` meets `Answered`.
-/

namespace Sys2Proof.Machine

theorem slotOff_bound {lane slot : Nat} (hl : lane < 64) (hs : slot < 8) :
    4096 ≤ slotOff lane slot ∧ slotOff lane slot + 128 ≤ 69632 := by
  unfold slotOff Config.slotsAt; omega

theorem doneCountOff_bound {lane : Nat} (hl : lane < 64) : 528 ≤ doneCountOff lane ∧ doneCountOff lane + 4 ≤ 1024 := by
  unfold doneCountOff Config.statusAt; omega

/-- The memory after the four writes of a result (R149 steps 1 and 2). -/
def resultMem (s : State) (lane slot : Nat) (hubTag : Word) (a : Answer) : List Host.Cell :=
  let off := slotOff lane slot
  putWords s (putWords s (putWords s (putWords s s.mem (off + 0x0C) [BitVec.ofNat 32 a.code.code]) (off + 0x40) (bodyWords a))
    (off + 0x08) [hubTag]) off [3]

theorem putWords_setMem (s : State) (m' m : List Host.Cell) (off : Nat) (ws : List Word) :
    putWords (s.setMem m') m off ws = putWords s m off ws := by
  induction ws generalizing m off with
  | nil => rfl
  | cons w ws ih => simp only [putWords]; exact ih _ _

theorem putWords_congr {s t : State} (h : t.base = s.base) (m : List Host.Cell) (off : Nat) (ws : List Word) :
    putWords t m off ws = putWords s m off ws := by
  induction ws generalizing m off with
  | nil => rfl
  | cons w ws ih => simp only [putWords, at_congr h]; exact ih _ _

theorem writeResult_quiet {io : Io} (h : io.errs = []) (lane slot : Nat) (tag : Word) (a : Answer) :
    ∃ n, writeResult io lane slot tag a =
      ({ io with st := io.st.setMem (resultMem io.st lane slot tag a), acc := n }, true) := by
  obtain ⟨s, errs, acc⟩ := io
  obtain rfl : errs = [] := h
  refine ⟨acc + 1 + (bodyWords a).length + 1 + 1, ?_⟩
  have q : ∀ (st : State) (n off : Nat) (ws : List Word), busWrites { st := st, errs := [], acc := n } off ws =
      ({ st := st.setMem (putWords st st.mem off ws), errs := [], acc := n + ws.length }, true) :=
    fun st n off ws => busWrites_quiet (io := { st := st, errs := [], acc := n }) rfl off ws
  simp only [writeResult, writeBody, q, State.setMem_mem, putWords_setMem]
  rfl

theorem bodyWords_length (a : Answer) : (bodyWords a).length = 16 := by simp [bodyWords]

theorem bodyWords_getD (a : Answer) {k : Nat} (h : k < 16) : (bodyWords a).getD k 0 = a.body.getD k 0 := by
  unfold bodyWords
  rw [List.getD_eq_getElem?_getD, List.getElem?_map, List.getElem?_range h]
  rfl

section Result
variable {s : State} (hs : s.aligned = true) {lane slot : Nat} (hl : lane < 64) (hk : slot < 8) (tag : Word) (a : Answer)
include hs hl hk

theorem resultMem_state : readWord (resultMem s lane slot tag a) (s.base.toNat + slotOff lane slot) = 3 := by
  have hb := slotOff_bound hl hk
  exact readWord_putWords hs _ (off := slotOff lane slot) (ws := [3]) (by simp only [List.length_cons, List.length_nil]; omega)
    (j := 0) (by simp)

theorem resultMem_tag : readWord (resultMem s lane slot tag a) (s.base.toNat + (slotOff lane slot + 0x08)) = tag := by
  have hb := slotOff_bound hl hk
  unfold resultMem
  rw [readWord_putWords_ne hs _ (by simp only [List.length_cons, List.length_nil]; omega)
    (by simp only [List.length_cons, List.length_nil]; omega)]
  exact readWord_putWords hs _ (off := slotOff lane slot + 0x08) (ws := [tag])
    (by simp only [List.length_cons, List.length_nil]; omega) (j := 0) (by simp)

theorem resultMem_code : readWord (resultMem s lane slot tag a) (s.base.toNat + (slotOff lane slot + 0x0C)) =
    BitVec.ofNat 32 a.code.code := by
  have hb := slotOff_bound hl hk
  have hbl := bodyWords_length a
  unfold resultMem
  rw [readWord_putWords_ne hs _ (by simp only [List.length_cons, List.length_nil]; omega)
    (by simp only [List.length_cons, List.length_nil]; omega)]
  rw [readWord_putWords_ne hs _ (by simp only [List.length_cons, List.length_nil]; omega)
    (by simp only [List.length_cons, List.length_nil]; omega)]
  rw [readWord_putWords_ne hs _ (by omega) (by omega)]
  exact readWord_putWords hs _ (off := slotOff lane slot + 0x0C) (ws := [BitVec.ofNat 32 a.code.code])
    (by simp only [List.length_cons, List.length_nil]; omega) (j := 0) (by simp)

theorem resultMem_body {k : Nat} (h : k < 16) :
    readWord (resultMem s lane slot tag a) (s.base.toNat + (slotOff lane slot + 0x40 + 4 * k)) = a.body.getD k 0 := by
  have hb := slotOff_bound hl hk
  have hbl := bodyWords_length a
  unfold resultMem
  rw [readWord_putWords_ne hs _ (by simp only [List.length_cons, List.length_nil]; omega)
    (by simp only [List.length_cons, List.length_nil]; omega)]
  rw [readWord_putWords_ne hs _ (by simp only [List.length_cons, List.length_nil]; omega)
    (by simp only [List.length_cons, List.length_nil]; omega)]
  rw [readWord_putWords hs _ (by omega) (by omega)]
  exact bodyWords_getD a h

theorem resultMem_ne {x : Nat} (h1 : ¬ s.covers (slotOff lane slot) 4 x) (h2 : ¬ s.covers (slotOff lane slot + 0x08) 8 x)
    (h3 : ¬ s.covers (slotOff lane slot + 0x40) 64 x) : readByte (resultMem s lane slot tag a) x = readByte s.mem x := by
  have hb := slotOff_bound hl hk
  have hbl := bodyWords_length a
  simp only [State.covers] at h1 h2 h3
  rw [at_eq (aligned_iff.1 hs) (by omega)] at h1 h2 h3
  unfold resultMem
  rw [readByte_putWords_ne hs _ (by simp only [List.length_cons, List.length_nil]; omega)
    (by simp only [List.length_cons, List.length_nil]; omega)]
  rw [readByte_putWords_ne hs _ (by simp only [List.length_cons, List.length_nil]; omega)
    (by simp only [List.length_cons, List.length_nil]; omega)]
  rw [readByte_putWords_ne hs _ (by omega) (by omega)]
  rw [readByte_putWords_ne hs _ (by simp only [List.length_cons, List.length_nil]; omega)
    (by simp only [List.length_cons, List.length_nil]; omega)]

end Result

/-! ### What a DONE counts -/

theorem countDone_frame (s : State) (lane : Nat) (c : ResultCode) :
    (countDone s lane c).mem = s.mem ∧ (countDone s lane c).rqu = s.rqu ∧ (countDone s lane c).enc = s.enc ∧
    (countDone s lane c).base = s.base ∧ (countDone s lane c).tmb = s.tmb ∧ (countDone s lane c).due = s.due ∧
    (countDone s lane c).freeCount = s.freeCount ∧ (countDone s lane c).pending = s.pending ∧
    (countDone s lane c).sweep = s.sweep ∧ (countDone s lane c).doneCounts = tupd 0 s.doneCounts lane (· + 1) := by
  unfold countDone
  simp only
  split
  · simp
  · split <;> simp

theorem engine_load_iff {s : State} : (s.engine == EngineState.load) = true ↔ s.engine = .load := beq_iff_eq

theorem countDone_ntw (s : State) (lane : Nat) (c : ResultCode) :
    (countDone s lane c).ntw = if s.engine = .load then s.ntw else attentionItem s.ntw false := by
  unfold countDone
  simp only
  by_cases h : s.engine = .load
  · simp [h]
  · simp only [h, if_false, beq_iff_eq]; split <;> simp

theorem countDone_tb (s : State) (lane : Nat) (c : ResultCode) :
    (countDone s lane c).tb = if s.engine ≠ .load ∧ isRefusal c = true then
      s.tb.setCLanes (tupd laneCount0 s.tb.cLanes lane (fun x => { x with refused := satCount x.refused 1 })) else s.tb := by
  unfold countDone
  simp only
  by_cases h : s.engine = .load
  · simp [h]
  · simp only [h, if_false, beq_iff_eq, ne_eq, not_false_eq_true, true_and]; split <;> simp

/-- The end of a visit depends on the sweep, the calendar, the lanes and the engine state only. -/
theorem settleVisit_sweep_congr {s t : State} (h1 : t.sweep = s.sweep) (h2 : t.tb.cfg = s.tb.cfg) (h3 : t.tb.lanes = s.tb.lanes)
    (h4 : t.engine = s.engine) : (settleVisit t).sweep = (settleVisit s).sweep := by
  have hk : ∀ l, skipsLane t l = skipsLane s l := fun l => by simp only [skipsLane, Tables.lane, h3, h4]
  unfold settleVisit currentVisit
  rw [h1, h2]
  cases s.tb.cfg.calendar[s.sweep.entry]? with
  | none => exact h1
  | some v =>
    simp only [hk]
    split
    · simp only [endVisit, State.setSweep_sweep, h1, h2]
    · exact h1

theorem settleVisit_frame (s : State) : settleVisit s = s.setSweep (settleVisit s).sweep := by
  unfold settleVisit
  split
  · rfl
  · split
    · rfl
    · rfl

/-- Answering the request in flight on a quiet bus (R149). -/
theorem answerRequest_quiet {io : Io} (h : io.errs = []) (hs : io.st.aligned = true) {r : Req} (hl : r.lane < 64)
    (hk : r.slot < 8) (a : Answer) : Answered io.st (answerRequest io r a).st r a := by
  obtain ⟨n, hw⟩ := writeResult_quiet h r.lane r.slot r.hubTag a
  have hd := doneCountOff_bound hl
  have hb := slotOff_bound hl hk
  -- the state after the counts of a DONE, and after the write of the done count
  set s0 := io.st with hs0
  let q := (s0.setMem (resultMem s0 r.lane r.slot r.hubTag a)).setRqu { s0.rqu with inFlight := none }
  let s1 := countDone q r.lane a.code
  let v := s1.doneCount r.lane
  obtain ⟨f1, f2, f3, f4, f5, f6, f7, f8, f9, f10⟩ := countDone_frame q r.lane a.code
  have e : (answerRequest io r a).st = settleVisit (s1.setMem (writeWord s1.mem (s1.at (doneCountOff r.lane)) v)) := by
    have hq : (endRequest { io with st := s0.setMem (resultMem s0 r.lane r.slot r.hubTag a), acc := n }).st = q := rfl
    unfold answerRequest
    rw [hw]
    simp only [hq]
    rw [if_neg (by rw [bad_quiet (by exact h)]; simp), busWrite_quiet (by exact h)]
    rfl
  have hv : v = s0.doneCount r.lane + 1 := by
    show tget 0 s1.doneCounts r.lane = _
    rw [f10, tget_tupd_same]; rfl
  have hat : ∀ off, s1.at off = s0.at off := fun off => at_congr (by rw [f4]; rfl) off
  have hm : s1.mem = resultMem s0 r.lane r.slot r.hubTag a := by rw [f1]; rfl
  rw [e, settleVisit_frame]
  set t := s1.setMem (writeWord s1.mem (s1.at (doneCountOff r.lane)) v) with ht
  have hmem : t.mem = writeWord (resultMem s0 r.lane r.slot r.hubTag a) (s0.base.toNat + doneCountOff r.lane) v := by
    rw [ht, State.setMem_mem, hm, hat, at_eq (aligned_iff.1 hs) (by omega)]
  have hw : ∀ off, off < 131072 → (t.setSweep (settleVisit t).sweep).wordAt off =
      readWord (writeWord (resultMem s0 r.lane r.slot r.hubTag a) (s0.base.toNat + doneCountOff r.lane) v)
        (s0.base.toNat + off) := by
    intro off ho
    unfold State.wordAt
    rw [State.setSweep_mem, hmem, at_congr (s := s0) (by rw [State.setSweep_base, ht, State.setMem_base, f4]; rfl),
      at_eq (aligned_iff.1 hs) ho]
  exact {
    ended := by rw [State.setSweep_rqu, ht, State.setMem_rqu, f2]; rfl
    slotState := by
      rw [hw _ (by omega), readWord_writeWord_ne _ _ _ (by omega)]; exact resultMem_state hs hl hk _ _
    hubTag := by
      rw [hw _ (by omega), readWord_writeWord_ne _ _ _ (by omega)]; exact resultMem_tag hs hl hk _ _
    code := by
      rw [hw _ (by omega), readWord_writeWord_ne _ _ _ (by omega)]; exact resultMem_code hs hl hk _ _
    body := by
      intro k hk16
      rw [hw _ (by omega), readWord_writeWord_ne _ _ _ (by omega)]; exact resultMem_body hs hl hk _ _ hk16
    doneCount := by rw [State.setSweep_doneCounts, ht, State.setMem_doneCounts, f10]; rfl
    doneCountWord := by rw [hw _ (by omega), readWord_writeWord_same, hv]
    attention := by rw [State.setSweep_ntw, ht, State.setMem_ntw, countDone_ntw]; rfl
    tables := by rw [State.setSweep_tb, ht, State.setMem_tb, countDone_tb]; rfl
    sweep := by
      rw [State.setSweep_sweep]
      refine settleVisit_sweep_congr ?_ ?_ ?_ ?_
      · rw [ht, State.setMem_sweep, f9]; rfl
      · rw [ht, State.setMem_tb, countDone_tb]; split <;> rfl
      · rw [ht, State.setMem_tb, countDone_tb]; split <;> rfl
      · show t.enc.engine = _
        rw [ht, State.setMem_enc, f3]; rfl
    control := by
      refine ⟨?_, ?_, ?_, ?_, ?_, ?_⟩
      · rw [State.setSweep_enc, ht, State.setMem_enc, f3]; rfl
      · rw [State.setSweep_base, ht, State.setMem_base, f4]; rfl
      · rw [State.setSweep_tmb, ht, State.setMem_tmb, f5]; rfl
      · rw [State.setSweep_due, ht, State.setMem_due, f6]; rfl
      · rw [State.setSweep_freeCount, ht, State.setMem_freeCount, f7]; rfl
      · rw [State.setSweep_pending, ht, State.setMem_pending, f8]; rfl
    memory := by
      intro b hnot
      simp only [answerBytes, not_or] at hnot
      obtain ⟨n1, n2, n3, n4⟩ := hnot
      rw [State.setSweep_mem, hmem, readByte_writeWord_ne _ _ _ ?_]
      · exact resultMem_ne hs hl hk _ _ n1 n2 n3
      · simp only [State.covers] at n4
        rw [at_eq (aligned_iff.1 hs) (by omega)] at n4
        omega }

end Sys2Proof.Machine
end

