-- ==== Sys2Proof/Laws/Arbiter.lean ====
section
/-!
SUPPORT. The arbiters (R104): `runArbiter` at one station, and the run of several stations, which meets `Arbitrated`.
-/

namespace Sys2Proof.Machine

/-! ### One station -/

/-- The tickets at most `fuel` releases take, in order; `outgoing` is the case of 12. -/
def leaving (fuel : Nat) (x : Station) : List Nat :=
  ((x.rush0 ++ (if x.gateOpen = true then x.rush1 ++ x.normal else [])).eraseDups).take (min fuel (x.railLimit - x.rail.length))

/-- A station after at most `fuel` releases. -/
def released (fuel : Nat) (x : Station) : Station :=
  if leaving fuel x = [] then x else closedWhenEmpty { dequeued x (leaving fuel x) with rail := x.rail ++ leaving fuel x }

/-- Station counters after at most `fuel` releases. -/
def counted (fuel : Nat) (x : Station) (c : StationCount) : StationCount :=
  let rush0 := (leaving fuel x).filter (fun i => decide (i ∈ x.rush0))
  let rush1 := (leaving fuel x).filter (fun i => decide (i ∉ x.rush0 ∧ i ∈ x.rush1))
  let normal := (leaving fuel x).filter (fun i => decide (i ∉ x.rush0 ∧ i ∉ x.rush1))
  { c with relRush0 := raised c.relRush0 rush0.length, relRush1 := raised c.relRush1 rush1.length,
           relNormal := raised c.relNormal normal.length }

theorem closeIfEmpty_eq (x : Station) : x.closeIfEmpty = closedWhenEmpty x := by
  simp only [Station.closeIfEmpty, closedWhenEmpty, Station.gathered]
  congr 1
  simp [List.length_eq_zero_iff]

theorem releaseTicket_eq (x : Station) (i : Nat) :
    x.releaseTicket i = closedWhenEmpty { dequeued x [i] with rail := x.rail ++ [i] } := by
  simp [Station.releaseTicket, closeIfEmpty_eq, dequeued]

/-- A gate that closes over empty queues hides nothing: the queues the arbiter sees are the same. -/
theorem closedWhenEmpty_queue (y : Station) :
    (closedWhenEmpty y).rush0 ++ (if (closedWhenEmpty y).gateOpen = true then (closedWhenEmpty y).rush1 ++ (closedWhenEmpty y).normal
      else []) = y.rush0 ++ (if y.gateOpen = true then y.rush1 ++ y.normal else []) := by
  unfold closedWhenEmpty
  split
  · next h => simp [h.2.1, h.2.2]
  · rfl

theorem leaving_none (fuel : Nat) (x : Station) (h : nextRelease x = none) : leaving fuel x = [] := by
  simp only [nextRelease] at h
  split at h
  · split at h
    · cases h
    · next h0 =>
      simp only [leaving, h0, List.nil_append]
      split at h
      · next hg =>
        split at h
        · cases h
        · next h1 =>
          have : x.normal = [] := by simpa using h
          simp [h1, this]
      · next hg => simp [hg]
  · next hl => simp [leaving, Nat.sub_eq_zero_of_le (by omega : x.railLimit ≤ x.rail.length)]

/-- The queues of a station that has a next ticket to release begin with it. -/
theorem queue_some (x : Station) (i : Nat) (h : nextRelease x = some i) :
    x.rail.length < x.railLimit ∧
    ∃ q, x.rush0 ++ (if x.gateOpen = true then x.rush1 ++ x.normal else []) = i :: q := by
  simp only [nextRelease] at h
  split at h
  · next hl =>
    refine ⟨hl, ?_⟩
    split at h
    · next h0 => cases h; exact ⟨_, by rw [h0]; rfl⟩
    · next h0 =>
      split at h
      · next hg =>
        split at h
        · next h1 => cases h; exact ⟨_, by simp [h0, hg, h1]; rfl⟩
        · next h1 =>
          cases hn : x.normal with
          | nil => rw [hn] at h; cases h
          | cons a as => rw [hn] at h; cases h; exact ⟨as, by simp [h0, hg, h1]⟩
      · cases h
  · cases h

theorem leaving_some (fuel : Nat) (x : Station) (i : Nat) (h : nextRelease x = some i) :
    leaving (fuel + 1) x = i :: leaving fuel (x.releaseTicket i) := by
  obtain ⟨hl, q, hq⟩ := queue_some x i h
  have hr : (x.releaseTicket i).rush0 ++ (if (x.releaseTicket i).gateOpen = true then
      (x.releaseTicket i).rush1 ++ (x.releaseTicket i).normal else []) = q.filter (fun b => !b == i) := by
    rw [releaseTicket_eq, closedWhenEmpty_queue]
    have e : q.filter (fun b => !b == i) = (i :: q).filter (fun b => !b == i) := by simp
    rw [e, ← hq]
    have hp : (fun a : Nat => decide (a ∉ [i])) = fun b => !b == i := by funext a; simp [Bool.beq_eq_decide_eq]
    simp only [dequeued, List.filter_append, hp]
    by_cases hg : x.gateOpen = true <;> simp [hg]
  have hw : (x.releaseTicket i).railLimit - (x.releaseTicket i).rail.length = x.railLimit - x.rail.length - 1 := by
    rw [releaseTicket_eq]
    simp only [closedWhenEmpty]
    split <;> simp [dequeued] <;> omega
  have hm : min (fuel + 1) (x.railLimit - x.rail.length) = min fuel (x.railLimit - x.rail.length - 1) + 1 := by omega
  simp only [leaving]
  rw [hq, hr, hw, hm, List.eraseDups_cons, List.take_succ_cons]

theorem leaving_ne (fuel : Nat) (x : Station) (i j : Nat) (h : j ∈ leaving fuel (x.releaseTicket i)) : j ≠ i := by
  rintro rfl
  have hm := List.mem_eraseDups.mp (List.mem_of_mem_take h)
  rw [releaseTicket_eq, closedWhenEmpty_queue] at hm
  simp only [dequeued, List.mem_append] at hm
  rcases hm with hm | hm
  · simp at hm
  · by_cases hg : x.gateOpen = true <;> simp [hg] at hm

theorem closedWhenEmpty_dequeued (y : Station) (is : List Nat) (r : List Nat) :
    closedWhenEmpty { dequeued (closedWhenEmpty y) is with rail := r } = closedWhenEmpty { dequeued y is with rail := r } := by
  by_cases h : y.gateMode = .gather ∧ y.rush1 = [] ∧ y.normal = []
  · obtain ⟨h1, h2, h3⟩ := h
    simp [closedWhenEmpty, dequeued, h1, h2, h3]
  · simp [closedWhenEmpty, h]

theorem dequeued_dequeued (x : Station) (is js : List Nat) :
    dequeued (dequeued x is) js = dequeued x (is ++ js) := by
  simp [dequeued, List.filter_filter, Bool.and_comm]

theorem released_some (fuel : Nat) (x : Station) (i : Nat) (h : nextRelease x = some i) :
    released fuel (x.releaseTicket i) = released (fuel + 1) x := by
  simp only [released, leaving_some fuel x i h]
  split
  · next hn => rw [hn]; simp [releaseTicket_eq]
  · next hn =>
    simp only [List.cons_ne_nil, if_false]
    rw [releaseTicket_eq, closedWhenEmpty_dequeued]
    have hr : (closedWhenEmpty { dequeued x [i] with rail := x.rail ++ [i] }).rail = x.rail ++ [i] := by
      simp only [closedWhenEmpty]; split <;> rfl
    rw [hr]
    congr 1
    have hd := dequeued_dequeued x [i] (leaving fuel (x.releaseTicket i))
    simp only [releaseTicket_eq] at hd
    simp only [dequeued, Station.mk.injEq] at hd ⊢
    simp_all

theorem raised_satCount (c n : Nat) : raised (satCount c 1) n = raised c (n + 1) := by
  simp only [raised, satCount, Config.countTop]
  split <;> simp <;> omega

theorem raised_zero (c : Nat) : raised c 0 = c := rfl

/-- The class of the ticket a station releases next, by the queue it stands in. -/
theorem nextClass_some (x : Station) (i : Nat) (h : nextRelease x = some i) :
    (nextClass x = .rush0 ∧ i ∈ x.rush0) ∨ (nextClass x = .rush1 ∧ i ∉ x.rush0 ∧ i ∈ x.rush1) ∨
    (nextClass x = .normal ∧ i ∉ x.rush0 ∧ i ∉ x.rush1) := by
  simp only [nextRelease] at h
  split at h
  · split at h
    · next h0 => cases h; left; simp [nextClass, h0]
    · next h0 =>
      split at h
      · split at h
        · next h1 => cases h; right; left; simp [nextClass, h0, h1]
        · next h1 => right; right; simp [nextClass, h0, h1]
      · cases h
  · cases h

theorem releaseTicket_rush0 (x : Station) (i j : Nat) : j ∈ (x.releaseTicket i).rush0 ↔ j ∈ x.rush0 ∧ j ≠ i := by
  rw [releaseTicket_eq]; simp only [closedWhenEmpty]; split <;> simp [dequeued]

theorem releaseTicket_rush1 (x : Station) (i j : Nat) : j ∈ (x.releaseTicket i).rush1 ↔ j ∈ x.rush1 ∧ j ≠ i := by
  rw [releaseTicket_eq]; simp only [closedWhenEmpty]; split <;> simp [dequeued]

theorem counted_some (fuel : Nat) (x : Station) (i : Nat) (c : StationCount) (h : nextRelease x = some i) :
    counted fuel (x.releaseTicket i) (countRelease (nextClass x) c) = counted (fuel + 1) x c := by
  have e0 : (leaving fuel (x.releaseTicket i)).filter (fun j => decide (j ∈ (x.releaseTicket i).rush0)) =
      (leaving fuel (x.releaseTicket i)).filter (fun j => decide (j ∈ x.rush0)) :=
    List.filter_congr fun j hj => by simp [releaseTicket_rush0, leaving_ne fuel x i j hj]
  have e1 : (leaving fuel (x.releaseTicket i)).filter
        (fun j => decide (j ∉ (x.releaseTicket i).rush0 ∧ j ∈ (x.releaseTicket i).rush1)) =
      (leaving fuel (x.releaseTicket i)).filter (fun j => decide (j ∉ x.rush0 ∧ j ∈ x.rush1)) :=
    List.filter_congr fun j hj => by simp [releaseTicket_rush0, releaseTicket_rush1, leaving_ne fuel x i j hj]
  have e2 : (leaving fuel (x.releaseTicket i)).filter
        (fun j => decide (j ∉ (x.releaseTicket i).rush0 ∧ j ∉ (x.releaseTicket i).rush1)) =
      (leaving fuel (x.releaseTicket i)).filter (fun j => decide (j ∉ x.rush0 ∧ j ∉ x.rush1)) :=
    List.filter_congr fun j hj => by simp [releaseTicket_rush0, releaseTicket_rush1, leaving_ne fuel x i j hj]
  simp only [counted, e0, e1, e2, leaving_some fuel x i h]
  rcases nextClass_some x i h with ⟨hc, h0⟩ | ⟨hc, h0, h1⟩ | ⟨hc, h0, h1⟩
  · simp [hc, h0, countRelease, raised_satCount]
  · simp [hc, h0, h1, countRelease, raised_satCount]
  · simp [hc, h0, h1, countRelease, raised_satCount]

theorem releasedTicket_twice (time : Word) (k : Ticket) : releasedTicket time (releasedTicket time k) = releasedTicket time k := by
  simp [releasedTicket, Function.comp_def]

/-! ### The arbiter as an effect on an event -/

/-- Only stations, tickets and station counters differ. -/
structure SameButStations (ev ev1 : Ev) : Prop where
  tb : ev1.tb = ((ev.tb.setStations ev1.tb.stations).setTickets ev1.tb.tickets).setCStations ev1.tb.cStations
  mode : ev1.mode = ev.mode
  notes : ev1.notes = ev.notes
  touched : ev1.touched = ev.touched
  reached : ev1.reached = ev.reached
  rewrites : ev1.rewrites = ev.rewrites

theorem SameButStations.refl (ev : Ev) : SameButStations ev ev := ⟨rfl, rfl, rfl, rfl, rfl, rfl⟩

theorem SameButStations.trans {a b c : Ev} (h : SameButStations a b) (h1 : SameButStations b c) : SameButStations a c :=
  ⟨by rw [h1.tb, h.tb]; rfl, h1.mode.trans h.mode, h1.notes.trans h.notes, h1.touched.trans h.touched, h1.reached.trans h.reached,
    h1.rewrites.trans h.rewrites⟩

theorem SameButStations.time {a b : Ev} (h : SameButStations a b) : b.tb.time = a.tb.time := by rw [h.tb]; rfl

theorem SameButStations.inLoad {a b : Ev} (h : SameButStations a b) : b.inLoad = a.inLoad := by simp [Ev.inLoad, h.mode]

theorem countStation_same (n : Nat) (f : StationCount → StationCount) (ev : Ev) : SameButStations ev (ev.countStation n f) := by
  unfold Ev.countStation
  split <;> exact ⟨rfl, rfl, rfl, rfl, rfl, rfl⟩

theorem countStation_count (n : Nat) (f : StationCount → StationCount) (ev : Ev) (k : Nat) :
    (ev.countStation n f).tb.cStation k = if k = n ∧ ev.inLoad = false then f (ev.tb.cStation n) else ev.tb.cStation k := by
  cases h : ev.inLoad <;> simp [Ev.countStation, h, Tables.cStation, tget_tupd]

theorem releaseOneTicket_same (n i : Nat) (ev : Ev) : SameButStations ev (releaseOneTicket n i ev) :=
  SameButStations.trans
    (b := (ev.updTicket i (releasedTicket ev.tb.time)).updStation n (fun s => s.releaseTicket i))
    ⟨rfl, rfl, rfl, rfl, rfl, rfl⟩ (countStation_same n (countRelease (nextClass (ev.tb.station n))) _)

theorem releaseOneTicket_station (n i : Nat) (ev : Ev) (k : Nat) :
    (releaseOneTicket n i ev).tb.station k = if k = n then (ev.tb.station n).releaseTicket i else ev.tb.station k := by
  simp [releaseOneTicket, Tables.station, tget_tupd]

theorem releaseOneTicket_ticket (n i : Nat) (ev : Ev) (j : Nat) :
    (releaseOneTicket n i ev).tb.ticket j = if j = i then releasedTicket ev.tb.time (ev.tb.ticket i) else ev.tb.ticket j := by
  simp [releaseOneTicket, Tables.ticket, tget_tupd, releasedTicket]

theorem releaseOneTicket_count (n i : Nat) (ev : Ev) (k : Nat) :
    (releaseOneTicket n i ev).tb.cStation k =
      if k = n ∧ ev.inLoad = false then countRelease (nextClass (ev.tb.station n)) (ev.tb.cStation n) else ev.tb.cStation k := by
  simp only [releaseOneTicket, countStation_count]
  rfl

/-- What at most `fuel` releases of a station's arbiter do (R104). -/
theorem arbiter_spec (n fuel : Nat) (ev : Ev) :
    SameButStations ev (arbiter n fuel ev) ∧
    (∀ k, (arbiter n fuel ev).tb.station k = if k = n then released fuel (ev.tb.station n) else ev.tb.station k) ∧
    (∀ j, (arbiter n fuel ev).tb.ticket j =
      if j ∈ leaving fuel (ev.tb.station n) then releasedTicket ev.tb.time (ev.tb.ticket j) else ev.tb.ticket j) ∧
    (∀ k, (arbiter n fuel ev).tb.cStation k =
      if k = n ∧ ev.inLoad = false then counted fuel (ev.tb.station n) (ev.tb.cStation n) else ev.tb.cStation k) := by
  induction fuel generalizing ev with
  | zero =>
    refine ⟨.refl ev, fun k => ?_, fun j => ?_, fun k => ?_⟩
    · split <;> simp_all [arbiter, released, leaving]
    · simp [arbiter, leaving]
    · split <;> simp_all [arbiter, counted, leaving, raised]
  | succ fuel ih =>
    cases h : nextRelease (ev.tb.station n) with
    | none =>
      have hl := leaving_none (fuel + 1) _ h
      simp only [arbiter, h]
      refine ⟨.refl ev, fun k => ?_, fun j => ?_, fun k => ?_⟩
      · split <;> simp_all [released]
      · simp [hl]
      · split <;> simp_all [counted, raised]
    | some i =>
      obtain ⟨hs, h1, h2, h3⟩ := ih (releaseOneTicket n i ev)
      have hq := releaseOneTicket_same n i ev
      simp only [arbiter, h]
      have hst : (releaseOneTicket n i ev).tb.station n = (ev.tb.station n).releaseTicket i := by
        rw [releaseOneTicket_station, if_pos rfl]
      refine ⟨hq.trans hs, fun k => ?_, fun j => ?_, fun k => ?_⟩
      · rw [h1, hst, released_some fuel _ i h]
        split
        · rfl
        · next hk => rw [releaseOneTicket_station, if_neg hk]
      · rw [h2, hst, hq.time, releaseOneTicket_ticket, leaving_some fuel _ i h]
        by_cases hj : j = i
        · subst hj
          simp [releasedTicket_twice]
        · simp [hj]
      · rw [h3, hst, hq.inLoad, releaseOneTicket_count, releaseOneTicket_count]
        by_cases hk : k = n ∧ ev.inLoad = false
        · simp [hk, counted_some fuel _ i _ h]
        · simp only [if_neg hk]

/-- The run of one station's arbiter (R104). Where the rail limit is at most 12 it is all that can leave. -/
theorem runArbiter_spec (n : Nat) (ev : Ev) :
    SameButStations ev (runArbiter ev n) ∧
    (∀ k, (runArbiter ev n).tb.station k = if k = n then afterArbiter (ev.tb.station n) else ev.tb.station k) ∧
    (∀ j, (runArbiter ev n).tb.ticket j =
      if j ∈ outgoing (ev.tb.station n) then releasedTicket ev.tb.time (ev.tb.ticket j) else ev.tb.ticket j) ∧
    (∀ k, (runArbiter ev n).tb.cStation k =
      if k = n ∧ ev.inLoad = false then releasesCounted (ev.tb.station n) (ev.tb.cStation n) else ev.tb.cStation k) :=
  arbiter_spec n 12 ev

/-! ### Several stations -/

/-- The arbiters of some stations, one after another (R104). -/
theorem runArbiters_spec (ns : List Nat) (hn : ns.Nodup) (ev : Ev) :
    SameButStations ev (ns.foldl runArbiter ev) ∧
    (∀ k, (ns.foldl runArbiter ev).tb.station k = if k ∈ ns then afterArbiter (ev.tb.station k) else ev.tb.station k) ∧
    (∀ j, (ns.foldl runArbiter ev).tb.ticket j =
      if ∃ n, n ∈ ns ∧ j ∈ outgoing (ev.tb.station n) then releasedTicket ev.tb.time (ev.tb.ticket j) else ev.tb.ticket j) ∧
    (∀ k, (ns.foldl runArbiter ev).tb.cStation k =
      if k ∈ ns ∧ ev.inLoad = false then releasesCounted (ev.tb.station k) (ev.tb.cStation k) else ev.tb.cStation k) := by
  induction ns generalizing ev with
  | nil => exact ⟨.refl ev, by simp, by simp, by simp⟩
  | cons n ns ih =>
    rw [List.nodup_cons] at hn
    obtain ⟨hs0, a1, a2, a3⟩ := runArbiter_spec n ev
    obtain ⟨hs, h1, h2, h3⟩ := ih hn.2 (runArbiter ev n)
    simp only [List.foldl_cons]
    have keep : ∀ k, k ∈ ns → (runArbiter ev n).tb.station k = ev.tb.station k := fun k hk => by
      rw [a1, if_neg (by rintro rfl; exact hn.1 hk)]
    refine ⟨hs0.trans hs, fun k => ?_, fun j => ?_, fun k => ?_⟩
    · rw [h1]
      by_cases hk : k ∈ ns
      · simp [hk, keep k hk]
      · by_cases hkn : k = n <;> simp [hk, hkn, a1, hn.1]
    · rw [h2, hs0.time, a2]
      have e : (∃ m, m ∈ ns ∧ j ∈ outgoing ((runArbiter ev n).tb.station m)) ↔ ∃ m, m ∈ ns ∧ j ∈ outgoing (ev.tb.station m) := by
        constructor
        · rintro ⟨m, hm, hj⟩; exact ⟨m, hm, by rwa [keep m hm] at hj⟩
        · rintro ⟨m, hm, hj⟩; exact ⟨m, hm, by rwa [keep m hm]⟩
      by_cases hr : ∃ m, m ∈ ns ∧ j ∈ outgoing (ev.tb.station m)
      · by_cases hj : j ∈ outgoing (ev.tb.station n) <;> simp [e, hr, hj, releasedTicket_twice]
      · simp [e, hr]
    · rw [h3, hs0.inLoad, a3]
      by_cases hk : k ∈ ns
      · have hkn : k ≠ n := by rintro rfl; exact hn.1 hk
        simp [hk, keep k hk, hkn]
      · by_cases hkn : k = n
        · subst hkn; simp [hk]
        · simp [hk, hkn]

/-- The end of an event after its level rules: the arbiters of the stations reached have run, in the terms of the statements (R104). -/
theorem closeEv_arbitrated (ev : Ev) :
    let ev1 := settleLevels ev
    SameButStations ev1 (closeEv ev) ∧
    Arbitrated ev1.inLoad ev1.tb.time ev1.reached ev1.tb.station ev1.tb.ticket ev1.tb.cStation (closeEv ev).tb := by
  intro ev1
  have hn : ((List.range Config.stationTotal).filter (fun n => decide (n ∈ ev1.reached))).Nodup :=
    List.Nodup.filter _ List.nodup_range
  obtain ⟨hs, h1, h2, h3⟩ := runArbiters_spec _ hn ev1
  have hm : ∀ n, n ∈ (List.range Config.stationTotal).filter (fun n => decide (n ∈ ev1.reached)) ↔ n < 16 ∧ n ∈ ev1.reached := by
    intro n; simp [Config.stationTotal]
  refine ⟨hs, ⟨fun n => ?_, fun j => ?_, fun n => ?_⟩⟩
  · rw [show (closeEv ev).tb.station n = _ from h1 n]; simp only [hm]
  · rw [show (closeEv ev).tb.ticket j = _ from h2 j]
    congr 1
    simp only [hm, eq_iff_iff]
    constructor
    · rintro ⟨n, ⟨a, b⟩, c⟩; exact ⟨n, b, a, c⟩
    · rintro ⟨n, b, a, c⟩; exact ⟨n, ⟨a, b⟩, c⟩
  · rw [show (closeEv ev).tb.cStation n = _ from h3 n]; simp only [hm, and_assoc]

/-- Every station's arbiter, as START and WAKE run them (R113, R170). -/
theorem runArbiters_arbitrated (ev : Ev) :
    SameButStations ev (runArbiters ev) ∧
    Arbitrated ev.inLoad ev.tb.time (List.range 16) ev.tb.station ev.tb.ticket ev.tb.cStation (runArbiters ev).tb := by
  obtain ⟨hs, h1, h2, h3⟩ := runArbiters_spec (List.range 16) List.nodup_range ev
  refine ⟨hs, ⟨fun n => ?_, fun j => ?_, fun n => ?_⟩⟩
  · rw [show (runArbiters ev).tb.station n = _ from h1 n]; simp
  · rw [show (runArbiters ev).tb.ticket j = _ from h2 j]
    congr 1
    simp only [List.mem_range, eq_iff_iff]
    exact ⟨fun ⟨n, a, c⟩ => ⟨n, a, a, c⟩, fun ⟨n, a, _, c⟩ => ⟨n, a, c⟩⟩
  · rw [show (runArbiters ev).tb.cStation n = _ from h3 n]; simp

end Sys2Proof.Machine
end

