-- ==== Sys2Proof/Laws/Commit.lean ====
section
/-!
SUPPORT. The exchange-memory side of an event on a quiet bus (R112, R157): `commitEv` meets `CommittedTo`.
-/

namespace Sys2Proof.Machine

theorem not_halted {s : State} (h : s.enc.engine ≠ .halted) : s.halted = false := by
  unfold State.halted; exact beq_eq_false_iff_ne.2 h

/-! ### Notices -/

theorem bad_mk (s : State) (n : Nat) : ({ st := s, errs := [], acc := n } : Io).bad = false := rfl

theorem setSt_mk (s t : State) (n : Nat) :
    Io.setSt { st := s, errs := [], acc := n } t = { st := t, errs := [], acc := n } := rfl

theorem busWrites_mk (s : State) (n off : Nat) (ws : List Word) :
    busWrites { st := s, errs := [], acc := n } off ws =
      ({ st := s.setMem (putWords s s.mem off ws), errs := [], acc := n + ws.length }, true) :=
  busWrites_quiet (io := { st := s, errs := [], acc := n }) rfl off ws

theorem busWrite_mk (s : State) (n off : Nat) (w : Word) :
    busWrite { st := s, errs := [], acc := n } off w =
      { st := s.setMem (writeWord s.mem (s.at off) w), errs := [], acc := n + 1 } :=
  busWrite_quiet (io := { st := s, errs := [], acc := n }) rfl off w

/-- The state after one notice. -/
def noticeState (s : State) (n : Notice) : State :=
  let s1 := s.setMem (putWords s s.mem (noticeOff s.ntw.written) (noticeWords s.ntw.written n))
  let s2 := s1.setNtw { s1.ntw with written := s.ntw.written + 1 }
  noticeCounted (s2.setMem (writeWord s2.mem (s2.at Config.statusAt) (s.ntw.written + 1))) n.kind

theorem writeNotice_quiet (own : Option Answer) {io : Io} (h : io.errs = []) (he : io.st.enc.engine ≠ .halted) (n : Notice) :
    ∃ k, writeNotice own io n = { st := noticeState io.st n, errs := [], acc := k } := by
  obtain ⟨s, errs, acc⟩ := io
  obtain rfl : errs = [] := h
  refine ⟨acc + (noticeWords s.ntw.written n).length + 1, ?_⟩
  simp only [writeNotice, not_halted he, busWrites_mk, setSt_mk, bad_mk, busWrite_mk, Bool.false_eq_true, if_false]
  rfl

@[simp] theorem noticeState_enc (s : State) (n : Notice) : (noticeState s n).enc = s.enc := by
  unfold noticeState noticeCounted; simp
@[simp] theorem noticeState_base (s : State) (n : Notice) : (noticeState s n).base = s.base := by
  unfold noticeState noticeCounted; simp
@[simp] theorem noticeState_rqu (s : State) (n : Notice) : (noticeState s n).rqu = s.rqu := by
  unfold noticeState noticeCounted; simp
@[simp] theorem noticeState_sweep (s : State) (n : Notice) : (noticeState s n).sweep = s.sweep := by
  unfold noticeState noticeCounted; simp
@[simp] theorem noticeState_tmb (s : State) (n : Notice) : (noticeState s n).tmb = s.tmb := by
  unfold noticeState noticeCounted; simp
@[simp] theorem noticeState_due (s : State) (n : Notice) : (noticeState s n).due = s.due := by
  unfold noticeState noticeCounted; simp
@[simp] theorem noticeState_doneCounts (s : State) (n : Notice) : (noticeState s n).doneCounts = s.doneCounts := by
  unfold noticeState noticeCounted; simp
@[simp] theorem noticeState_freeCount (s : State) (n : Notice) : (noticeState s n).freeCount = s.freeCount := by
  unfold noticeState noticeCounted; simp
@[simp] theorem noticeState_pending (s : State) (n : Notice) : (noticeState s n).pending = s.pending := by
  unfold noticeState noticeCounted; simp
@[simp] theorem noticeState_ntw (s : State) (n : Notice) : (noticeState s n).ntw = afterNotice s.ntw n := by
  unfold noticeState noticeCounted afterNotice isUrgent; simp
@[simp] theorem noticeState_tb (s : State) (n : Notice) : (noticeState s n).tb = s.tb.setCEngine (countNotice s.tb.cEngine n) := by
  unfold noticeState noticeCounted countNotice; simp
theorem noticeState_mem (s : State) (n : Notice) : (noticeState s n).mem =
    writeWord (putWords s s.mem (noticeOff s.ntw.written) (noticeWords s.ntw.written n)) (s.at Config.statusAt)
      (s.ntw.written + 1) := by
  unfold noticeState noticeCounted; simp [State.at]
theorem noticeState_at (s : State) (n : Notice) (off : Nat) : (noticeState s n).at off = s.at off := at_congr (by simp) off
theorem noticeState_aligned {s : State} (n : Notice) (h : s.aligned = true) : (noticeState s n).aligned = true := by
  unfold State.aligned at *; simpa using h

theorem writeNotices_quiet (own : Option Answer) (ns : List Notice) {io : Io} (h : io.errs = [])
    (he : io.st.enc.engine ≠ .halted) :
    ∃ k, writeNotices own io ns = { st := ns.foldl noticeState io.st, errs := [], acc := k } := by
  induction ns generalizing io with
  | nil => exact ⟨io.acc, by cases io; simp only at h; subst h; rfl⟩
  | cons n ns ih =>
    obtain ⟨k, hk⟩ := writeNotice_quiet own h he n
    have := ih (io := writeNotice own io n) (by rw [hk]) (by rw [hk]; simpa using he)
    rw [hk] at this
    simpa only [writeNotices, List.foldl_cons, hk] using this

/-- What notices leave alone, and what they do to the notice writer and the counters. -/
theorem notices_fields (ns : List Notice) (s : State) :
    (ns.foldl noticeState s).enc = s.enc ∧ (ns.foldl noticeState s).base = s.base ∧ (ns.foldl noticeState s).rqu = s.rqu ∧
    (ns.foldl noticeState s).sweep = s.sweep ∧ (ns.foldl noticeState s).tmb = s.tmb ∧ (ns.foldl noticeState s).due = s.due ∧
    (ns.foldl noticeState s).doneCounts = s.doneCounts ∧ (ns.foldl noticeState s).freeCount = s.freeCount ∧
    (ns.foldl noticeState s).pending = s.pending ∧ (ns.foldl noticeState s).ntw = ns.foldl afterNotice s.ntw ∧
    (ns.foldl noticeState s).tb = s.tb.setCEngine (ns.foldl countNotice s.tb.cEngine) := by
  induction ns generalizing s with
  | nil => exact ⟨rfl, rfl, rfl, rfl, rfl, rfl, rfl, rfl, rfl, rfl, rfl⟩
  | cons n ns ih => simpa using ih (noticeState s n)

theorem noticeOff_bound (w : Word) : 86016 ≤ noticeOff w ∧ noticeOff w + 32 ≤ 94208 := by
  unfold noticeOff Config.noticesAt
  have := Nat.mod_lt w.toNat (show 256 > 0 by omega)
  omega

theorem noticeWords_length (w : Word) (n : Notice) : (noticeWords w n).length = 8 := rfl

theorem word_succ (w : Word) (k : Nat) : w + 1 + BitVec.ofNat 32 k = w + BitVec.ofNat 32 (k + 1) := by
  have : (BitVec.ofNat 32 (k + 1)) = 1 + BitVec.ofNat 32 k := by rw [Nat.add_comm, BitVec.ofNat_add]; rfl
  rw [this, BitVec.add_assoc]

theorem afterNotice_written (n : Ntw) (x : Notice) : (afterNotice n x).written = n.written + 1 := rfl

theorem noticeState_written (s : State) (n : Notice) : (noticeState s n).ntw.written = s.ntw.written + 1 := by
  rw [noticeState_ntw, afterNotice_written]

theorem noticeBytes_succ {s : State} {n : Notice} {k a : Nat} (h : noticeBytes (noticeState s n) k a) : noticeBytes s (k + 1) a := by
  rcases h with ⟨_, h⟩ | ⟨j, hj, h⟩
  · simp only [State.covers, noticeState_at] at h
    exact .inl ⟨by omega, h⟩
  · refine .inr ⟨j + 1, by omega, ?_⟩
    simp only [State.covers, noticeState_at] at h
    rw [noticeState_written, word_succ] at h
    exact h

section Notices
variable {s : State} (hs : s.aligned = true)
include hs

theorem noticeState_byte (n : Notice) {a : Nat} (h1 : ¬ s.covers Config.statusAt 4 a)
    (h2 : ¬ s.covers (noticeOff s.ntw.written) 32 a) : readByte (noticeState s n).mem a = readByte s.mem a := by
  have hb := noticeOff_bound s.ntw.written
  simp only [State.covers] at h1 h2
  rw [at_eq (aligned_iff.1 hs) (by omega)] at h2
  rw [noticeState_mem, readByte_writeWord_ne _ _ _ (by omega)]
  refine readByte_putWords_ne hs _ ?_ ?_
  · rw [noticeWords_length]; omega
  · rw [noticeWords_length]; omega

end Notices

theorem notices_memory (ns : List Notice) {s : State} (hs : s.aligned = true) {a : Nat} (h : ¬ noticeBytes s ns.length a) :
    readByte (ns.foldl noticeState s).mem a = readByte s.mem a := by
  induction ns generalizing s with
  | nil => rfl
  | cons n ns ih =>
    rw [List.foldl_cons, ih (s := noticeState s n) (noticeState_aligned n hs) (fun hn => h (noticeBytes_succ hn))]
    refine noticeState_byte hs n (fun hc => h (.inl ⟨by simp, hc⟩)) (fun hc => h (.inr ⟨0, by simp, ?_⟩))
    simpa using hc

theorem notices_count (ns : List Notice) {s : State} (hs : s.aligned = true) (h : ns ≠ []) :
    (ns.foldl noticeState s).wordAt Config.statusAt = (ns.foldl noticeState s).ntw.written := by
  induction ns generalizing s with
  | nil => exact absurd rfl h
  | cons n ns ih =>
    by_cases hn : ns = []
    · subst hn
      simp only [List.foldl_cons, List.foldl_nil, State.wordAt]
      rw [noticeState_at, noticeState_mem, noticeState_written]
      exact readWord_writeWord_same _ _ _
    · rw [List.foldl_cons]; exact ih (s := noticeState s n) (noticeState_aligned n hs) hn

theorem noticeOff_inj {w : Word} {j k : Nat} (hj : j < 256) (hk : k < 256) (hjk : j ≠ k) :
    noticeOff (w + BitVec.ofNat 32 j) + 32 ≤ noticeOff (w + BitVec.ofNat 32 k) ∨
    noticeOff (w + BitVec.ofNat 32 k) + 32 ≤ noticeOff (w + BitVec.ofNat 32 j) := by
  have e : ∀ i, i < 256 → (w + BitVec.ofNat 32 i).toNat % 256 = (w.toNat + i) % 256 := by
    intro i hi
    rw [BitVec.toNat_add, BitVec.toNat_ofNat, Nat.mod_eq_of_lt (show i < 2 ^ 32 by omega)]
    exact Nat.mod_mod_of_dvd _ (by decide)
  unfold noticeOff
  rw [e j hj, e k hk]
  omega

/-- The records of up to 256 notices all stand in the log after the last. -/
theorem notices_records (ns : List Notice) {s : State} (hs : s.aligned = true) (hn : ns.length ≤ 256) :
    ∀ k x, ns[k]? = some x → ∀ j, j < 8 →
      (ns.foldl noticeState s).wordAt (noticeOff (s.ntw.written + BitVec.ofNat 32 k) + 4 * j)
        = (noticeWords (s.ntw.written + BitVec.ofNat 32 k) x).getD j 0 := by
  induction ns generalizing s with
  | nil => intro k x h; simp at h
  | cons n ns ih =>
    intro k x hx j hj
    simp only [List.length_cons] at hn
    cases k with
    | succ k =>
      have := ih (s := noticeState s n) (noticeState_aligned n hs) (by omega) k x hx j hj
      rw [noticeState_written, word_succ] at this
      rw [List.foldl_cons]; exact this
    | zero =>
      obtain rfl : n = x := by simpa using hx
      rw [show s.ntw.written + BitVec.ofNat 32 0 = s.ntw.written by simp]
      have hb := noticeOff_bound s.ntw.written
      have hA : ∀ off, off < 131072 → s.at off = s.base.toNat + off := fun off ho => at_eq (aligned_iff.1 hs) ho
      have hbase : (ns.foldl noticeState (noticeState s n)).base = s.base :=
        (notices_fields ns (noticeState s n)).2.1.trans (noticeState_base s n)
      rw [List.foldl_cons]
      unfold State.wordAt
      rw [at_congr hbase, hA _ (by omega)]
      -- the later notices leave this record alone
      have keep : ∀ y, s.base.toNat + noticeOff s.ntw.written ≤ y → y < s.base.toNat + noticeOff s.ntw.written + 32 →
          readByte (ns.foldl noticeState (noticeState s n)).mem y = readByte (noticeState s n).mem y := by
        intro y h1 h2
        refine notices_memory ns (s := noticeState s n) (noticeState_aligned n hs) ?_
        rintro (⟨-, hc⟩ | ⟨i, hi, hc⟩)
        · have hc' := hc
          simp only [State.covers, noticeState_at] at hc'
          rw [hA _ (by unfold Config.statusAt; omega)] at hc'
          unfold Config.statusAt at hc'; omega
        · rw [noticeState_written, word_succ] at hc
          have hc' := hc
          have hb' := noticeOff_bound (s.ntw.written + BitVec.ofNat 32 (i + 1))
          have := noticeOff_inj (w := s.ntw.written) (j := i + 1) (k := 0) (by omega) (by omega) (by omega)
          simp only [State.covers, noticeState_at] at hc'
          rw [hA _ (by omega)] at hc'
          simp only [BitVec.add_zero] at this
          omega
      rw [readWord_congr (m := (noticeState s n).mem) (fun y h1 h2 => keep y (by omega) (by omega))]
      rw [noticeState_mem, readWord_writeWord_ne _ _ _ (by rw [hA _ (by unfold Config.statusAt; omega)]; unfold Config.statusAt; omega)]
      exact readWord_putWords hs _ (by rw [noticeWords_length]; omega) (by rw [noticeWords_length]; exact hj)

/-! ### Rail windows -/

@[simp] theorem setWinCount_enc (s : State) (n : Nat) (c : Word) : (setWinCount s n c).enc = s.enc := by simp [setWinCount]
@[simp] theorem setWinCount_base (s : State) (n : Nat) (c : Word) : (setWinCount s n c).base = s.base := by simp [setWinCount]
@[simp] theorem setWinCount_rqu (s : State) (n : Nat) (c : Word) : (setWinCount s n c).rqu = s.rqu := by simp [setWinCount]
@[simp] theorem setWinCount_sweep (s : State) (n : Nat) (c : Word) : (setWinCount s n c).sweep = s.sweep := by simp [setWinCount]
@[simp] theorem setWinCount_tmb (s : State) (n : Nat) (c : Word) : (setWinCount s n c).tmb = s.tmb := by simp [setWinCount]
@[simp] theorem setWinCount_due (s : State) (n : Nat) (c : Word) : (setWinCount s n c).due = s.due := by simp [setWinCount]
@[simp] theorem setWinCount_doneCounts (s : State) (n : Nat) (c : Word) : (setWinCount s n c).doneCounts = s.doneCounts := by simp [setWinCount]
@[simp] theorem setWinCount_freeCount (s : State) (n : Nat) (c : Word) : (setWinCount s n c).freeCount = s.freeCount := by simp [setWinCount]
@[simp] theorem setWinCount_pending (s : State) (n : Nat) (c : Word) : (setWinCount s n c).pending = s.pending := by simp [setWinCount]
@[simp] theorem setWinCount_ntw (s : State) (n : Nat) (c : Word) : (setWinCount s n c).ntw = s.ntw := by simp [setWinCount]
@[simp] theorem setWinCount_mem (s : State) (n : Nat) (c : Word) : (setWinCount s n c).mem = s.mem := by simp [setWinCount]
theorem setWinCount_tb (s : State) (n : Nat) (c : Word) : (setWinCount s n c).tb =
    s.tb.setStations (tupd station0 s.tb.stations n (fun x => { x with winCount := c })) := rfl

/-- The state after one window is rewritten. -/
def windowState (s : State) (n : Nat) : State :=
  let c := oddAfter (s.tb.station n).winCount
  let s1 := setWinCount s n c
  let s2 := s1.setMem (putWords s1 s1.mem (windowOff n) (c :: windowWords n (s.tb.station n) (windowEntries s.tb n)))
  let s3 := setWinCount s2 n (c + 1)
  s3.setMem (writeWord s3.mem (s3.at (windowOff n)) (c + 1))

theorem writeWindow_quiet (own : Option Answer) {io : Io} (h : io.errs = []) (he : io.st.enc.engine ≠ .halted) (n : Nat) :
    ∃ k, writeWindow own io n = { st := windowState io.st n, errs := [], acc := k } := by
  obtain ⟨s, errs, acc⟩ := io
  obtain rfl : errs = [] := h
  refine ⟨acc + (windowWords n (s.tb.station n) (windowEntries s.tb n)).length + 1 + 1, ?_⟩
  simp only [writeWindow, not_halted he, busWrites_mk, setSt_mk, bad_mk, busWrite_mk, Bool.false_eq_true, if_false]
  rfl

@[simp] theorem windowState_enc (s : State) (n : Nat) : (windowState s n).enc = s.enc := by
  unfold windowState; simp
@[simp] theorem windowState_base (s : State) (n : Nat) : (windowState s n).base = s.base := by
  unfold windowState; simp
@[simp] theorem windowState_rqu (s : State) (n : Nat) : (windowState s n).rqu = s.rqu := by
  unfold windowState; simp
@[simp] theorem windowState_sweep (s : State) (n : Nat) : (windowState s n).sweep = s.sweep := by
  unfold windowState; simp
@[simp] theorem windowState_tmb (s : State) (n : Nat) : (windowState s n).tmb = s.tmb := by
  unfold windowState; simp
@[simp] theorem windowState_due (s : State) (n : Nat) : (windowState s n).due = s.due := by
  unfold windowState; simp
@[simp] theorem windowState_doneCounts (s : State) (n : Nat) : (windowState s n).doneCounts = s.doneCounts := by
  unfold windowState; simp
@[simp] theorem windowState_freeCount (s : State) (n : Nat) : (windowState s n).freeCount = s.freeCount := by
  unfold windowState; simp
@[simp] theorem windowState_pending (s : State) (n : Nat) : (windowState s n).pending = s.pending := by
  unfold windowState; simp
@[simp] theorem windowState_ntw (s : State) (n : Nat) : (windowState s n).ntw = s.ntw := by
  unfold windowState; simp
theorem windowState_mem (s : State) (n : Nat) : (windowState s n).mem =
    writeWord (putWords s s.mem (windowOff n)
      (oddAfter (s.tb.station n).winCount :: windowWords n (s.tb.station n) (windowEntries s.tb n)))
      (s.at (windowOff n)) (oddAfter (s.tb.station n).winCount + 1) := by
  unfold windowState
  simp only [State.setMem_mem, setWinCount_mem]
  rw [putWords_congr (s := s) (by simp), at_congr (s := s) (by simp)]
theorem windowState_at (s : State) (n : Nat) (off : Nat) : (windowState s n).at off = s.at off := at_congr (by simp) off
theorem windowState_aligned {s : State} (n : Nat) (h : s.aligned = true) : (windowState s n).aligned = true := by
  unfold State.aligned at *; simpa using h
theorem windowState_stations (s : State) (n : Nat) : (windowState s n).tb.stations =
    tupd station0 (tupd station0 s.tb.stations n (fun x => { x with winCount := oddAfter (s.tb.station n).winCount })) n
      (fun x => { x with winCount := oddAfter (s.tb.station n).winCount + 1 }) := by
  unfold windowState; simp [setWinCount_tb]
theorem windowState_tb (s : State) (n : Nat) : (windowState s n).tb = s.tb.setStations (windowState s n).tb.stations := by
  unfold windowState; simp [setWinCount_tb, Tables.setStations]

theorem writeWindows_quiet (own : Option Answer) (ws : List Nat) {io : Io} (h : io.errs = []) (he : io.st.enc.engine ≠ .halted) :
    ∃ k, writeWindows own io ws = { st := ws.foldl windowState io.st, errs := [], acc := k } := by
  induction ws generalizing io with
  | nil => exact ⟨io.acc, by cases io; simp only at h; subst h; rfl⟩
  | cons n ws ih =>
    obtain ⟨k, hk⟩ := writeWindow_quiet own h he n
    have := ih (io := writeWindow own io n) (by rw [hk]) (by rw [hk]; simpa using he)
    rw [hk] at this
    simpa only [writeWindows, List.foldl_cons, hk] using this

theorem windowState_station (s : State) (n i : Nat) :
    (windowState s n).tb.station i =
      if i = n then { s.tb.station n with winCount := oddAfter (s.tb.station n).winCount + 1 } else s.tb.station i := by
  unfold Tables.station
  rw [windowState_stations, tget_tupd]
  by_cases h : i = n
  · subst h; rw [if_pos rfl, if_pos rfl, tget_tupd_same]; rfl
  · rw [if_neg h, if_neg h, tget_tupd_ne _ _ _ h]

/-- What windows leave alone. -/
theorem windows_fields (ws : List Nat) (s : State) :
    (ws.foldl windowState s).enc = s.enc ∧ (ws.foldl windowState s).base = s.base ∧ (ws.foldl windowState s).rqu = s.rqu ∧
    (ws.foldl windowState s).sweep = s.sweep ∧ (ws.foldl windowState s).tmb = s.tmb ∧ (ws.foldl windowState s).due = s.due ∧
    (ws.foldl windowState s).doneCounts = s.doneCounts ∧ (ws.foldl windowState s).freeCount = s.freeCount ∧
    (ws.foldl windowState s).pending = s.pending ∧ (ws.foldl windowState s).ntw = s.ntw ∧
    (ws.foldl windowState s).tb = s.tb.setStations (ws.foldl windowState s).tb.stations := by
  induction ws generalizing s with
  | nil => exact ⟨rfl, rfl, rfl, rfl, rfl, rfl, rfl, rfl, rfl, rfl, rfl⟩
  | cons n ws ih =>
    obtain ⟨h1, h2, h3, h4, h5, h6, h7, h8, h9, h10, h11⟩ := ih (windowState s n)
    simp only [windowState_enc, windowState_base, windowState_rqu, windowState_sweep, windowState_tmb, windowState_due,
      windowState_doneCounts, windowState_freeCount, windowState_pending, windowState_ntw] at h1 h2 h3 h4 h5 h6 h7 h8 h9 h10
    refine ⟨h1, h2, h3, h4, h5, h6, h7, h8, h9, h10, ?_⟩
    rw [List.foldl_cons, h11, windowState_tb]
    simp [Tables.setStations]

theorem windows_station (ws : List Nat) (hd : ws.Nodup) (s : State) (i : Nat) :
    (ws.foldl windowState s).tb.station i =
      if i ∈ ws then { s.tb.station i with winCount := oddAfter (s.tb.station i).winCount + 1 } else s.tb.station i := by
  induction ws generalizing s with
  | nil => rfl
  | cons n ws ih =>
    obtain ⟨hn, hd⟩ := List.nodup_cons.1 hd
    rw [List.foldl_cons, ih hd, windowState_station]
    by_cases h : i = n
    · subst h; simp [hn]
    · simp [h]

/-- A window's words do not show a station's change counter. -/
theorem windowWords_winCount (n : Nat) (x : Station) (c : Word) (es : List (List Word)) :
    windowWords n { x with winCount := c } es = windowWords n x es := rfl

theorem windowEntries_congr {s t : State} (n : Nat) (h1 : (t.tb.station n).rail = (s.tb.station n).rail)
    (h2 : t.tb.tickets = s.tb.tickets) : windowEntries t.tb n = windowEntries s.tb n := by
  unfold windowEntries
  rw [h1]
  refine List.map_congr_left (fun i _ => ?_)
  simp only [Tables.ticket, h2]

theorem railEntryWords_length (i : Nat) (t : Ticket) (o : Order) : (railEntryWords i t o).length = 20 := by simp [railEntryWords]

theorem flatten_length {α : Type} (l : List (List α)) (k : Nat) (h : ∀ x, x ∈ l → x.length = k) :
    l.flatten.length = l.length * k := by
  induction l with
  | nil => simp
  | cons x l ih =>
    rw [List.flatten_cons, List.length_append, h x (by simp), ih (fun y hy => h y (by simp [hy])), List.length_cons]
    ring

theorem windowWords_length (n : Nat) (x : Station) (tb : Tables) : (windowWords n x (windowEntries tb n)).length = 247 := by
  unfold windowWords
  rw [List.length_append]
  rw [flatten_length _ 20]
  · simp
  · intro y hy
    obtain ⟨e, -, rfl⟩ := List.mem_map.1 hy
    rw [List.getD_eq_getElem?_getD]
    cases h : (windowEntries tb n)[e]? with
    | none => rfl
    | some z =>
      have hz := List.mem_of_getElem? h
      unfold windowEntries at hz
      obtain ⟨i, -, rfl⟩ := List.mem_map.1 hz
      simp only [Option.getD_some]
      split
      · exact railEntryWords_length _ _ _
      · rfl

theorem windowOff_bound {n : Nat} (h : n < 16) : 69632 ≤ windowOff n ∧ windowOff n + 1024 ≤ 86016 := by
  unfold windowOff Config.windowsAt; omega

theorem windowState_byte {s : State} (hs : s.aligned = true) {n : Nat} (hn : n < 16) {a : Nat}
    (h : ¬ s.covers (windowOff n) 992 a) : readByte (windowState s n).mem a = readByte s.mem a := by
  have hb := windowOff_bound hn
  have hl := windowWords_length n (s.tb.station n) s.tb
  simp only [State.covers] at h
  rw [at_eq (aligned_iff.1 hs) (by omega)] at h
  rw [windowState_mem, at_eq (aligned_iff.1 hs) (by omega), readByte_writeWord_ne _ _ _ (by omega)]
  refine readByte_putWords_ne hs _ ?_ ?_
  · rw [List.length_cons, hl]; omega
  · rw [List.length_cons, hl]; omega

theorem windows_memory (ws : List Nat) (hw : ∀ n, n ∈ ws → n < 16) {s : State} (hs : s.aligned = true) {a : Nat}
    (h : ¬ windowBytes s ws a) : readByte (ws.foldl windowState s).mem a = readByte s.mem a := by
  induction ws generalizing s with
  | nil => rfl
  | cons n ws ih =>
    rw [List.foldl_cons, ih (fun k hk => hw k (by simp [hk])) (s := windowState s n) (windowState_aligned n hs)]
    · exact windowState_byte hs (hw n (by simp)) (fun hc => h ⟨n, by simp, hc⟩)
    · rintro ⟨k, hk, hc⟩; exact h ⟨k, by simp [hk], by simpa only [State.covers, windowState_at] using hc⟩

/-- Every rewritten window shows its station. -/
theorem windows_words (ws : List Nat) (hd : ws.Nodup) (hw : ∀ n, n ∈ ws → n < 16) {s : State} (hs : s.aligned = true) :
    ∀ n, n ∈ ws → (ws.foldl windowState s).wordAt (windowOff n) = oddAfter (s.tb.station n).winCount + 1 ∧
      ∀ j, j < 247 → (ws.foldl windowState s).wordAt (windowOff n + 4 + 4 * j)
        = (windowWords n (s.tb.station n) (windowEntries s.tb n)).getD j 0 := by
  induction ws generalizing s with
  | nil => intro n h; simp at h
  | cons m ws ih =>
    obtain ⟨hm, hd⟩ := List.nodup_cons.1 hd
    intro n hn
    by_cases hnm : n = m
    · subst hnm
      have hb := windowOff_bound (hw n (by simp))
      have hl := windowWords_length n (s.tb.station n) s.tb
      have hA : ∀ off, off < 131072 → s.at off = s.base.toNat + off := fun off ho => at_eq (aligned_iff.1 hs) ho
      have hbase : (ws.foldl windowState (windowState s n)).base = s.base :=
        (windows_fields ws (windowState s n)).2.1.trans (windowState_base s n)
      have keep : ∀ y, s.base.toNat + windowOff n ≤ y → y < s.base.toNat + windowOff n + 1024 →
          readByte (ws.foldl windowState (windowState s n)).mem y = readByte (windowState s n).mem y := by
        intro y h1 h2
        refine windows_memory ws (fun k hk => hw k (by simp [hk])) (s := windowState s n) (windowState_aligned n hs) ?_
        rintro ⟨k, hk, hc⟩
        have hc' := hc
        have hkn : k ≠ n := fun e => hm (e ▸ hk)
        have := windowOff_bound (hw k (by simp [hk]))
        simp only [State.covers, windowState_at] at hc'
        rw [hA _ (by omega)] at hc'
        unfold windowOff Config.windowsAt at *
        omega
      rw [List.foldl_cons]
      refine ⟨?_, fun j hj => ?_⟩
      · unfold State.wordAt
        rw [at_congr hbase, hA _ (by omega), readWord_congr (m := (windowState s n).mem) (fun y h1 h2 => keep y (by omega) (by omega))]
        rw [windowState_mem, hA _ (by omega)]
        exact readWord_writeWord_same _ _ _
      · unfold State.wordAt
        rw [at_congr hbase, hA _ (by omega), readWord_congr (m := (windowState s n).mem) (fun y h1 h2 => keep y (by omega) (by omega))]
        rw [windowState_mem, hA _ (by omega), readWord_writeWord_ne _ _ _ (by omega)]
        rw [show windowOff n + 4 + 4 * j = windowOff n + 4 * (j + 1) by omega]
        rw [readWord_putWords hs _ (by rw [List.length_cons, hl]; omega) (by rw [List.length_cons, hl]; omega)]
        rfl
    · have hn' : n ∈ ws := by simpa [hnm] using hn
      have := ih hd (fun k hk => hw k (by simp [hk])) (s := windowState s m) (windowState_aligned m hs) n hn'
      rw [List.foldl_cons]
      rw [windowState_station, if_neg hnm] at this
      rw [windowEntries_congr (s := s) n (by rw [windowState_station, if_neg hnm]) (by rw [windowState_tb]; rfl)] at this
      exact this

/-! ### The event -/

theorem rewrittenWindows_lt {a : Tables} {ev : Ev} {n : Nat} (h : n ∈ rewrittenWindows a ev) : n < 16 := by
  have := (List.mem_filter.1 h).1
  exact List.mem_range.1 this

theorem rewrittenWindows_nodup (a : Tables) (ev : Ev) : (rewrittenWindows a ev).Nodup := List.nodup_range.filter _

/-- Where every window marked shows something else at the end, the windows rewritten are those that show something else. -/
theorem rewrittenWindows_eq {a : Tables} {ev : Ev} (h : ∀ n, n < 16 → n ∈ ev.rewrites → windowView a n ≠ windowView ev.tb n) :
    rewrittenWindows a ev = changedWindows a ev.tb := by
  refine List.filter_congr (fun n hn => ?_)
  have := h n (List.mem_range.1 hn)
  simp only [decide_eq_decide]
  exact ⟨fun x => x.elim this id, .inr⟩

/-- The exchange-memory side of an event on a quiet bus (R112, R157). -/
theorem commitEv_quiet (own : Option Answer) {io : Io} (h : io.errs = []) (he : io.st.enc.engine ≠ .halted)
    (hs : io.st.aligned = true) (ev : Ev) :
    ∃ k m, commitEv own io ev = { st := m, errs := [], acc := k } ∧ CommittedTo io.st m ev.tb ev.notes (rewrittenWindows io.st.tb ev) := by
  set ws := rewrittenWindows io.st.tb ev with hws
  have hd : ws.Nodup := rewrittenWindows_nodup _ _
  have hw : ∀ n, n ∈ ws → n < 16 := fun n hn => rewrittenWindows_lt hn
  set s0 := io.st.setTb ev.tb with hs0
  obtain ⟨k1, e1⟩ := writeNotices_quiet own ev.notes (io := io.setSt s0) h he
  set s1 := ev.notes.foldl noticeState s0 with hs1
  obtain ⟨f1, f2, f3, f4, f5, f6, f7, f8, f9, f10, f11⟩ := notices_fields ev.notes s0
  obtain ⟨k2, e2⟩ := writeWindows_quiet own ws (io := { st := s1, errs := [], acc := k1 }) rfl (by rw [f1]; exact he)
  obtain ⟨g1, g2, g3, g4, g5, g6, g7, g8, g9, g10, g11⟩ := windows_fields ws s1
  have hs1a : s1.aligned = true := by unfold State.aligned; rw [f2]; exact hs
  refine ⟨k2, ws.foldl windowState s1, ?_, ?_⟩
  · show writeWindows own (writeNotices own (io.setSt s0) ev.notes) ws = _
    rw [e1]
    exact e2
  · have hst : ∀ n, s1.tb.station n = ev.tb.station n := fun n => by rw [f11]; rfl
    have hwin := windows_words ws hd hw hs1a
    have hwe : ∀ n, windowEntries s1.tb n = windowEntries ev.tb n := fun n =>
      windowEntries_congr (s := s0) n (by rw [hst n]; rfl) (by rw [f11]; rfl)
    exact {
      tables := by rw [g11, f11]; rfl
      stations := by
        intro n
        rw [windows_station ws hd, hst n]
      engineCounts := by rw [g11, Tables.setStations_cEngine, f11]; rfl
      attention := by rw [g10, f10]; rfl
      control := ⟨by rw [g1, f1]; rfl, by rw [g2, f2]; rfl, by rw [g3, f3]; rfl, by rw [g4, f4]; rfl, by rw [g5, f5]; rfl,
        by rw [g6, f6]; rfl, by rw [g7, f7]; rfl, by rw [g8, f8]; rfl, by rw [g9, f9]; rfl⟩
      noticeRecords := by
        intro hn k x hx j hj
        have := notices_records ev.notes (s := s0) hs hn k x hx j hj
        rw [← show s0.ntw = io.st.ntw from rfl, ← this]
        have hb := noticeOff_bound (s0.ntw.written + BitVec.ofNat 32 k)
        have hb1 : s1.base = s0.base := f2
        have hb2 : (ws.foldl windowState s1).base = s1.base := g2
        unfold State.wordAt
        rw [at_congr hb2, at_congr hb1, at_eq (aligned_iff.1 (show s0.aligned = true from hs)) (by omega)]
        refine readWord_congr (fun y h1 h2 => windows_memory ws hw hs1a ?_)
        rintro ⟨n, hn, hc⟩
        have := windowOff_bound (hw n hn)
        simp only [State.covers] at hc
        rw [at_congr hb1, at_eq (aligned_iff.1 (show s0.aligned = true from hs)) (by omega)] at hc
        omega
      noticeCount := by
        intro hn
        have := notices_count ev.notes (s := s0) hs hn
        rw [g10, ← this]
        have hb2 : (ws.foldl windowState s1).base = s1.base := g2
        have hb1 : s1.base = s0.base := f2
        unfold State.wordAt
        rw [at_congr hb2, at_congr hb1, at_eq (aligned_iff.1 (show s0.aligned = true from hs)) (by unfold Config.statusAt; omega)]
        refine readWord_congr (fun y h1 h2 => windows_memory ws hw hs1a ?_)
        rintro ⟨n, hn, hc⟩
        have := windowOff_bound (hw n hn)
        simp only [State.covers] at hc
        rw [at_congr hb1, at_eq (aligned_iff.1 (show s0.aligned = true from hs)) (by omega)] at hc
        unfold Config.statusAt at *
        omega
      windows := by
        intro n hn
        obtain ⟨w1, w2⟩ := hwin n hn
        refine ⟨?_, fun j hj => ?_⟩
        · rw [w1, windows_station ws hd, if_pos hn]
        · rw [w2 j hj, hst n, hwe n]
      memory := by
        intro a hn hwb
        rw [windows_memory ws hw hs1a, notices_memory ev.notes (s := s0) hs]
        · rfl
        · exact hn
        · rintro ⟨n, hn', hc⟩
          refine hwb ⟨n, hn', ?_⟩
          simp only [State.covers] at hc ⊢
          rw [at_congr (s := io.st) f2] at hc
          exact hc }

/-- An event that raised no notice and rewrites no window leaves exactly its tables. -/
theorem commitEv_still (own : Option Answer) (io : Io) (ev : Ev) (hn : ev.notes = []) (hw : rewrittenWindows io.st.tb ev = []) :
    commitEv own io ev = io.setSt (io.st.setTb ev.tb) := by
  unfold commitEv; rw [hn, hw]; rfl

end Sys2Proof.Machine
end

