-- ==== Sys2Proof/Laws/Finish.lean ====
section
/-!
SUPPORT. The completion of a request on a quiet bus: one spec lemma for `finishReq`, `completeStepFor` and `completeKind`, and for the
events of timed blocks.
-/

namespace Sys2Proof.Machine

/-! ### The end of an event -/

/-- The end of an event that touched no item and reached no station changes nothing (R66, R104). -/
theorem closeEv_still {ev : Ev} (ht : ev.touched = []) (hr : ev.reached = []) : closeEv ev = ev := by
  obtain ⟨tb, mode, notes, touched, reached, rewrites⟩ := ev
  obtain rfl : touched = [] := ht
  obtain rfl : reached = [] := hr
  simp [closeEv, settleLevels]

/-- The end of an event that touched no item is the arbiters' run (R104). -/
theorem closeEv_untouched {ev : Ev} (ht : ev.touched = []) :
    closeEv ev = ((List.range Config.stationTotal).filter (fun n => decide (n ∈ ev.reached))).foldl runArbiter ev := by
  obtain ⟨tb, mode, notes, touched, reached, rewrites⟩ := ev
  obtain rfl : touched = [] := ht
  rfl

/-- The end of an event that reached no station is the level rules (R66). -/
theorem closeEv_unreached {ev : Ev} (hr : (settleLevels ev).reached = []) : closeEv ev = settleLevels ev := by
  unfold closeEv; simp [hr]

/-! ### Windows that stay -/

/-- An event that marks no window and leaves stations and tickets rewrites none. -/
theorem rewrittenWindows_none {a : Tables} {ev : Ev} (hm : ev.rewrites = []) (h1 : ev.tb.stations = a.stations)
    (h2 : ev.tb.tickets = a.tickets) : rewrittenWindows a ev = [] := by
  have : ∀ n, windowView a n = windowView ev.tb n := by
    intro n
    simp only [windowView, Tables.station, Tables.ticket, h1, h2]
  simp [rewrittenWindows, hm, this]

/-! ### Completions -/

theorem completing_ready {k : Nat} {bus : Bus} {s : State} {r : Req} (h : Ready k bus s r) (p : Nat → Bool) (hp : p k = true) :
    completing (Io.start s bus).st p = some r := by
  obtain ⟨h1, h2, h3, -⟩ := h
  unfold completing
  show (match s.rqu.inFlight with
    | some r => if p r.kind && completesIn s.engine then some r else none
    | none => none) = some r
  rw [h1]
  simp [h2, hp, h3]

theorem completesIn_not_halted {e : EngineState} (h : completesIn e = true) : e ≠ .halted := by
  rintro rfl; exact absurd h (by decide)

/-- A completion on a quiet bus: the event, then the answer (R149). -/
theorem finishReq_quiet {io : Io} (h : io.errs = []) (he : io.st.enc.engine ≠ .halted) (hs : io.st.aligned = true) {r : Req}
    (hl : r.lane < 64) (hk : r.slot < 8) (x : Ev × Answer) :
    ∃ m, CommittedTo io.st m (closeEv x.1).tb (closeEv x.1).notes (rewrittenWindows io.st.tb (closeEv x.1)) ∧ Answered m (finishReq io r x).st r x.2 := by
  obtain ⟨k, m, e, hc⟩ := commitEv_quiet (some x.2) h he hs (closeEv x.1)
  refine ⟨m, hc, ?_⟩
  have hm : m.enc = io.st.enc := hc.control.1
  have hb : m.base = io.st.base := hc.control.2.1
  unfold finishReq
  simp only [e]
  rw [if_neg (by rw [not_halted (by rw [hm]; exact he)]; simp)]
  exact answerRequest_quiet (io := { st := m, errs := [], acc := k }) rfl (by unfold State.aligned at *; rw [hb]; exact hs) hl hk x.2

theorem completeStepFor_ready {k : Nat} {bus : Bus} {s : State} {r : Req} (h : Ready k bus s r) (p : Nat → Bool) (hp : p k = true)
    (f : Req → Ev → Ev × Answer) :
    ∃ m, CommittedTo (s.afterHub bus) m (closeEv (f r s.event).1).tb (closeEv (f r s.event).1).notes
        (rewrittenWindows s.tb (closeEv (f r s.event).1)) ∧
      Answered m (completeStepFor p f bus s) r (f r s.event).2 := by
  obtain ⟨h1, h2, h3, h4, h5, h6, h7⟩ := id h
  have := finishReq_quiet (io := Io.start s bus) h4 (completesIn_not_halted h3) h5 h6 h7 (f r s.event)
  unfold completeStepFor
  simp only [completing_ready h p hp]
  exact this

/-- The completion of a request of its kind by a lane that may send it (R149, R152). -/
theorem completeKind_allowed {k : Nat} {bus : Bus} {s : State} {r : Req} (h : Allowed k bus s r) (f : Req → Ev → Ev × Answer) :
    ∃ m, CommittedTo (s.afterHub bus) m (closeEv (f r s.event).1).tb (closeEv (f r s.event).1).notes
        (rewrittenWindows s.tb (closeEv (f r s.event).1)) ∧
      Answered m (completeKind k f bus s) r (f r s.event).2 := by
  have hd : decideReq f r s.event = f r s.event := by
    unfold decideReq
    rw [if_pos]
    show roleAllows (s.tb.lane r.lane) r.kind = true
    rw [h.1.2.1]; exact h.2
  have := completeStepFor_ready h.1 (fun j => j == k) (by simp) (decideReq f)
  rw [hd] at this
  exact this

/-- The completion of a request of its kind by a lane that may not send it (R152). -/
theorem completeKind_role {k : Nat} {bus : Bus} {s : State} {r : Req} (h : Ready k bus s r)
    (hr : roleAllows (s.tb.lane r.lane) k = false) (f : Req → Ev → Ev × Answer) :
    Answered (s.afterHub bus) (completeKind k f bus s) r (answer .role []) := by
  have hd : decideReq f r s.event = (s.event, answer .role []) := by
    unfold decideReq
    rw [if_neg]
    · rfl
    · show ¬ roleAllows (s.tb.lane r.lane) r.kind = true
      rw [h.2.1, hr]; simp
  obtain ⟨h1, h2, h3, h4, h5, h6, h7⟩ := id h
  unfold completeKind completeStepFor
  simp only [completing_ready h (fun j => j == k) (by simp)]
  have e : finishReq (Io.start s bus) r (decideReq f r (Io.start s bus).st.event) =
      answerRequest (Io.start s bus) r (answer .role []) := by
    rw [show (Io.start s bus).st.event = s.event from rfl, hd]
    unfold finishReq
    simp only
    rw [closeEv_still (by rfl) (by rfl), commitEv_still _ _ _ (by rfl) (rewrittenWindows_none rfl rfl rfl)]
    rw [if_neg]
    · rfl
    · rw [not_halted (by exact completesIn_not_halted h3)]; simp
  rw [e]
  exact answerRequest_quiet (io := Io.start s bus) h4 h5 h6 h7 _

/-- A completion whose event raises no notice, touches no item and changes no window leaves exactly its tables, answered. -/
theorem completeKind_still {k : Nat} {bus : Bus} {s : State} {r : Req} (h : Allowed k bus s r) (f : Req → Ev → Ev × Answer)
    {ev : Ev} {a : Answer} (hf : f r s.event = (ev, a)) (hn : ev.notes = []) (ht : ev.touched = []) (hr : ev.reached = [])
    (hm : ev.rewrites = []) (h1 : ev.tb.stations = s.tb.stations) (h2 : ev.tb.tickets = s.tb.tickets) :
    Answered ((s.afterHub bus).setTb ev.tb) (completeKind k f bus s) r a := by
  obtain ⟨⟨g1, g2, g3, g4, g5, g6, g7⟩, hrole⟩ := id h
  have hd : decideReq f r s.event = (ev, a) := by
    unfold decideReq
    rw [if_pos]
    · exact hf
    · show roleAllows (s.tb.lane r.lane) r.kind = true
      rw [g2]; exact hrole
  unfold completeKind completeStepFor
  simp only [completing_ready h.1 (fun j => j == k) (by simp)]
  have e : finishReq (Io.start s bus) r (decideReq f r (Io.start s bus).st.event) =
      answerRequest ((Io.start s bus).setSt ((s.afterHub bus).setTb ev.tb)) r a := by
    rw [show (Io.start s bus).st.event = s.event from rfl, hd]
    unfold finishReq
    simp only
    rw [closeEv_still ht hr, commitEv_still _ _ _ hn (rewrittenWindows_none hm h1 h2)]
    rw [if_neg]
    · rfl
    · rw [not_halted (by exact completesIn_not_halted g3)]; simp
  rw [e]
  exact answerRequest_quiet (io := (Io.start s bus).setSt ((s.afterHub bus).setTb ev.tb)) g4 g5 g6 g7 a

/-- The event of a timed block on a quiet bus. -/
theorem timedEvent_quiet (f : Ev → Ev) {io : Io} (h : io.errs = []) (he : io.st.enc.engine ≠ .halted) (hs : io.st.aligned = true) :
    ∃ k m, timedEvent f io = { st := m, errs := [], acc := k } ∧
      CommittedTo io.st m (closeEv (f io.st.event)).tb (closeEv (f io.st.event)).notes
        (rewrittenWindows io.st.tb (closeEv (f io.st.event))) :=
  commitEv_quiet none h he hs _

end Sys2Proof.Machine
end

