-- ==== Sys2Proof/WellFormed.lean ====
section
/-!
DEFINITION. Which commands are well formed: every operand names something that exists. `exec` is total all the same; a command
with an operand out of range does nothing but land the hub's stores.
-/

namespace Sys2Proof

/-- A hub store carries at least one byte and does not run past the top of the 64-bit address space. -/
def HubStore.wf (h : HubStore) : Bool :=
  0 < h.data.length && h.addr.toNat + h.data.length ≤ 2 ^ 64

/-- The error list names each failing access once, in rising order. -/
def strictlyRising : List Nat → Bool
  | [] => true
  | [_] => true
  | a :: b :: t => a < b && strictlyRising (b :: t)

def Bus.wf (b : Bus) : Bool :=
  b.hub.all HubStore.wf && strictlyRising b.errs

/-- The steps of START are seven (R167): a cut is below that. -/
def cutWf : Option Nat → Bool
  | none => true
  | some k => k < 7

/-- Well-formed commands. -/
def Instr.wf : Instr → Bool
  | .powerOn => true
  | .start bus cut => bus.wf && cutWf cut
  | .startLoad bus cut => bus.wf && cutWf cut
  | .run => true
  | .enterRun => true
  | .park => true
  | .enterParked => true
  | .wake bus => bus.wf
  | .wakeInput bus => bus.wf
  | .restart => true
  | .baseWrite _ _ => true
  | .attnAck _ => true
  | .registerWrite _ _ bus => bus.wf
  | .sweepVisit bus => bus.wf
  | .badreq bus => bus.wf
  | .openCheck bus => bus.wf
  | .addLine bus => bus.wf
  | .setLine bus => bus.wf
  | .voidLine bus => bus.wf
  | .send bus => bus.wf
  | .voidCheck bus => bus.wf
  | .readCheck bus => bus.wf
  | .takeHold bus => bus.wf
  | .releaseHold bus => bus.wf
  | .transfer bus => bus.wf
  | .breakHold bus => bus.wf
  | .setPayers bus => bus.wf
  | .setSplit bus => bus.wf
  | .tender bus => bus.wf
  | .readSplit bus => bus.wf
  | .defineItem bus => bus.wf
  | .setBand bus => bus.wf
  | .clearShort bus => bus.wf
  | .readItem bus => bus.wf
  | .yieldItem bus => bus.wf
  | .waste bus => bus.wf
  | .stockCount bus => bus.wf
  | .bump bus => bus.wf
  | .remake bus => bus.wf
  | .stepIntake bus => bus.wf
  | .setStation bus => bus.wf
  | .setAction bus => bus.wf
  | .writeProgram bus => bus.wf
  | .armChain bus => bus.wf
  | .startChain bus => bus.wf
  | .stopChain bus => bus.wf
  | .readChain bus => bus.wf
  | .setProfile bus => bus.wf
  | .view bus => bus.wf
  | .baseTick bus => bus.wf
  | .timedAction entry bus => decide (entry < Config.actionTotal) && bus.wf
  | .owedRetry bus => bus.wf
  | .agingTick station bus => decide (station < Config.stationTotal) && bus.wf
  | .gateHoldExpiry station bus => decide (station < Config.stationTotal) && bus.wf
  | .attentionDelayExpiry => true
  | .chainWaitExpiry slot bus => decide (slot < Config.slotTotal) && bus.wf
  | .firingSlotRun slot bus => decide (slot < Config.slotTotal) && bus.wf
  | .chainStallRetry slot bus => decide (slot < Config.slotTotal) && bus.wf

end Sys2Proof
end

