-- ==== Sys2Proof/Laws/PerInstr.lean ====
section
/-!
SUPPORT. One lemma per command for the statement family F, which is about commands as syntax.
-/

namespace Sys2Proof.Laws.F

/-- A well-formed command carries a well-formed bus; and a request row carries it with a kind of the table in 12, 1 to 34. -/
def Statement (i : Instr) : Prop :=
  i.wf = true → i.bus.wf = true ∧ ∀ k b, i.request = some (k, b) → b = i.bus ∧ 1 ≤ k ∧ k ≤ 34

theorem powerOn : Statement (.powerOn) :=
  fun _ => ⟨rfl, fun _ _ e => nomatch e⟩

theorem start (bus : Bus) (cut : Option Nat) : Statement (.start bus cut) :=
  fun h => ⟨(Bool.and_eq_true_iff.mp h).1, fun _ _ e => nomatch e⟩

theorem startLoad (bus : Bus) (cut : Option Nat) : Statement (.startLoad bus cut) :=
  fun h => ⟨(Bool.and_eq_true_iff.mp h).1, fun _ _ e => nomatch e⟩

theorem run : Statement (.run) :=
  fun _ => ⟨rfl, fun _ _ e => nomatch e⟩

theorem enterRun : Statement (.enterRun) :=
  fun _ => ⟨rfl, fun _ _ e => nomatch e⟩

theorem park : Statement (.park) :=
  fun _ => ⟨rfl, fun _ _ e => nomatch e⟩

theorem enterParked : Statement (.enterParked) :=
  fun _ => ⟨rfl, fun _ _ e => nomatch e⟩

theorem wake (bus : Bus) : Statement (.wake bus) :=
  fun h => ⟨h, fun _ _ e => nomatch e⟩

theorem wakeInput (bus : Bus) : Statement (.wakeInput bus) :=
  fun h => ⟨h, fun _ _ e => nomatch e⟩

theorem restart : Statement (.restart) :=
  fun _ => ⟨rfl, fun _ _ e => nomatch e⟩

theorem baseWrite (hi : Bool) (value : Word) : Statement (.baseWrite hi value) :=
  fun _ => ⟨rfl, fun _ _ e => nomatch e⟩

theorem attnAck (value : Word) : Statement (.attnAck value) :=
  fun _ => ⟨rfl, fun _ _ e => nomatch e⟩

theorem registerWrite (reg : Reg) (value : Word) (bus : Bus) : Statement (.registerWrite reg value bus) :=
  fun h => ⟨h, fun _ _ e => nomatch e⟩

theorem sweepVisit (bus : Bus) : Statement (.sweepVisit bus) :=
  fun h => ⟨h, fun _ _ e => nomatch e⟩

theorem badreq (bus : Bus) : Statement (.badreq bus) :=
  fun h => ⟨h, fun _ _ e => nomatch e⟩

theorem openCheck (bus : Bus) : Statement (.openCheck bus) :=
  fun h => ⟨h, fun _ _ e => by cases e; exact ⟨rfl, by decide, by decide⟩⟩

theorem addLine (bus : Bus) : Statement (.addLine bus) :=
  fun h => ⟨h, fun _ _ e => by cases e; exact ⟨rfl, by decide, by decide⟩⟩

theorem setLine (bus : Bus) : Statement (.setLine bus) :=
  fun h => ⟨h, fun _ _ e => by cases e; exact ⟨rfl, by decide, by decide⟩⟩

theorem voidLine (bus : Bus) : Statement (.voidLine bus) :=
  fun h => ⟨h, fun _ _ e => by cases e; exact ⟨rfl, by decide, by decide⟩⟩

theorem send (bus : Bus) : Statement (.send bus) :=
  fun h => ⟨h, fun _ _ e => by cases e; exact ⟨rfl, by decide, by decide⟩⟩

theorem voidCheck (bus : Bus) : Statement (.voidCheck bus) :=
  fun h => ⟨h, fun _ _ e => by cases e; exact ⟨rfl, by decide, by decide⟩⟩

theorem readCheck (bus : Bus) : Statement (.readCheck bus) :=
  fun h => ⟨h, fun _ _ e => by cases e; exact ⟨rfl, by decide, by decide⟩⟩

theorem takeHold (bus : Bus) : Statement (.takeHold bus) :=
  fun h => ⟨h, fun _ _ e => by cases e; exact ⟨rfl, by decide, by decide⟩⟩

theorem releaseHold (bus : Bus) : Statement (.releaseHold bus) :=
  fun h => ⟨h, fun _ _ e => by cases e; exact ⟨rfl, by decide, by decide⟩⟩

theorem transfer (bus : Bus) : Statement (.transfer bus) :=
  fun h => ⟨h, fun _ _ e => by cases e; exact ⟨rfl, by decide, by decide⟩⟩

theorem breakHold (bus : Bus) : Statement (.breakHold bus) :=
  fun h => ⟨h, fun _ _ e => by cases e; exact ⟨rfl, by decide, by decide⟩⟩

theorem setPayers (bus : Bus) : Statement (.setPayers bus) :=
  fun h => ⟨h, fun _ _ e => by cases e; exact ⟨rfl, by decide, by decide⟩⟩

theorem setSplit (bus : Bus) : Statement (.setSplit bus) :=
  fun h => ⟨h, fun _ _ e => by cases e; exact ⟨rfl, by decide, by decide⟩⟩

theorem tender (bus : Bus) : Statement (.tender bus) :=
  fun h => ⟨h, fun _ _ e => by cases e; exact ⟨rfl, by decide, by decide⟩⟩

theorem readSplit (bus : Bus) : Statement (.readSplit bus) :=
  fun h => ⟨h, fun _ _ e => by cases e; exact ⟨rfl, by decide, by decide⟩⟩

theorem defineItem (bus : Bus) : Statement (.defineItem bus) :=
  fun h => ⟨h, fun _ _ e => by cases e; exact ⟨rfl, by decide, by decide⟩⟩

theorem setBand (bus : Bus) : Statement (.setBand bus) :=
  fun h => ⟨h, fun _ _ e => by cases e; exact ⟨rfl, by decide, by decide⟩⟩

theorem clearShort (bus : Bus) : Statement (.clearShort bus) :=
  fun h => ⟨h, fun _ _ e => by cases e; exact ⟨rfl, by decide, by decide⟩⟩

theorem readItem (bus : Bus) : Statement (.readItem bus) :=
  fun h => ⟨h, fun _ _ e => by cases e; exact ⟨rfl, by decide, by decide⟩⟩

theorem yieldItem (bus : Bus) : Statement (.yieldItem bus) :=
  fun h => ⟨h, fun _ _ e => by cases e; exact ⟨rfl, by decide, by decide⟩⟩

theorem waste (bus : Bus) : Statement (.waste bus) :=
  fun h => ⟨h, fun _ _ e => by cases e; exact ⟨rfl, by decide, by decide⟩⟩

theorem stockCount (bus : Bus) : Statement (.stockCount bus) :=
  fun h => ⟨h, fun _ _ e => by cases e; exact ⟨rfl, by decide, by decide⟩⟩

theorem bump (bus : Bus) : Statement (.bump bus) :=
  fun h => ⟨h, fun _ _ e => by cases e; exact ⟨rfl, by decide, by decide⟩⟩

theorem remake (bus : Bus) : Statement (.remake bus) :=
  fun h => ⟨h, fun _ _ e => by cases e; exact ⟨rfl, by decide, by decide⟩⟩

theorem stepIntake (bus : Bus) : Statement (.stepIntake bus) :=
  fun h => ⟨h, fun _ _ e => by cases e; exact ⟨rfl, by decide, by decide⟩⟩

theorem setStation (bus : Bus) : Statement (.setStation bus) :=
  fun h => ⟨h, fun _ _ e => by cases e; exact ⟨rfl, by decide, by decide⟩⟩

theorem setAction (bus : Bus) : Statement (.setAction bus) :=
  fun h => ⟨h, fun _ _ e => by cases e; exact ⟨rfl, by decide, by decide⟩⟩

theorem writeProgram (bus : Bus) : Statement (.writeProgram bus) :=
  fun h => ⟨h, fun _ _ e => by cases e; exact ⟨rfl, by decide, by decide⟩⟩

theorem armChain (bus : Bus) : Statement (.armChain bus) :=
  fun h => ⟨h, fun _ _ e => by cases e; exact ⟨rfl, by decide, by decide⟩⟩

theorem startChain (bus : Bus) : Statement (.startChain bus) :=
  fun h => ⟨h, fun _ _ e => by cases e; exact ⟨rfl, by decide, by decide⟩⟩

theorem stopChain (bus : Bus) : Statement (.stopChain bus) :=
  fun h => ⟨h, fun _ _ e => by cases e; exact ⟨rfl, by decide, by decide⟩⟩

theorem readChain (bus : Bus) : Statement (.readChain bus) :=
  fun h => ⟨h, fun _ _ e => by cases e; exact ⟨rfl, by decide, by decide⟩⟩

theorem setProfile (bus : Bus) : Statement (.setProfile bus) :=
  fun h => ⟨h, fun _ _ e => by cases e; exact ⟨rfl, by decide, by decide⟩⟩

theorem view (bus : Bus) : Statement (.view bus) :=
  fun h => ⟨h, fun _ _ e => by cases e; exact ⟨rfl, by decide, by decide⟩⟩

theorem baseTick (bus : Bus) : Statement (.baseTick bus) :=
  fun h => ⟨h, fun _ _ e => nomatch e⟩

theorem timedAction (entry : Nat) (bus : Bus) : Statement (.timedAction entry bus) :=
  fun h => ⟨(Bool.and_eq_true_iff.mp h).2, fun _ _ e => nomatch e⟩

theorem owedRetry (bus : Bus) : Statement (.owedRetry bus) :=
  fun h => ⟨h, fun _ _ e => nomatch e⟩

theorem agingTick (station : Nat) (bus : Bus) : Statement (.agingTick station bus) :=
  fun h => ⟨(Bool.and_eq_true_iff.mp h).2, fun _ _ e => nomatch e⟩

theorem gateHoldExpiry (station : Nat) (bus : Bus) : Statement (.gateHoldExpiry station bus) :=
  fun h => ⟨(Bool.and_eq_true_iff.mp h).2, fun _ _ e => nomatch e⟩

theorem attentionDelayExpiry : Statement (.attentionDelayExpiry) :=
  fun _ => ⟨rfl, fun _ _ e => nomatch e⟩

theorem chainWaitExpiry (slot : Nat) (bus : Bus) : Statement (.chainWaitExpiry slot bus) :=
  fun h => ⟨(Bool.and_eq_true_iff.mp h).2, fun _ _ e => nomatch e⟩

theorem firingSlotRun (slot : Nat) (bus : Bus) : Statement (.firingSlotRun slot bus) :=
  fun h => ⟨(Bool.and_eq_true_iff.mp h).2, fun _ _ e => nomatch e⟩

theorem chainStallRetry (slot : Nat) (bus : Bus) : Statement (.chainStallRetry slot bus) :=
  fun h => ⟨(Bool.and_eq_true_iff.mp h).2, fun _ _ e => nomatch e⟩

end Sys2Proof.Laws.F
end

