-- ==== Sys2Proof/Laws/Stock.lean ====
section
/-!
SUPPORT. Portions (R64 to R66): what reserving, releasing and consuming a list of demands leaves, and the level rules at the end of an
event.
-/

namespace Sys2Proof.Machine

/-- Only items, item counters, the touched items and the notices differ. -/
structure SameButStock (ev ev1 : Ev) : Prop where
  tb : ev1.tb = (ev.tb.setItems ev1.tb.items).setCItems ev1.tb.cItems
  mode : ev1.mode = ev.mode
  reached : ev1.reached = ev.reached
  rewrites : ev1.rewrites = ev.rewrites

theorem SameButStock.refl (ev : Ev) : SameButStock ev ev := ⟨rfl, rfl, rfl, rfl⟩

theorem SameButStock.trans {a b c : Ev} (h : SameButStock a b) (h1 : SameButStock b c) : SameButStock a c :=
  ⟨by rw [h1.tb, h.tb]; rfl, h1.mode.trans h.mode, h1.reached.trans h.reached, h1.rewrites.trans h.rewrites⟩

theorem SameButStock.inLoad {a b : Ev} (h : SameButStock a b) : b.inLoad = a.inLoad := by simp [Ev.inLoad, h.mode]

theorem SameButStock.time {a b : Ev} (h : SameButStock a b) : b.tb.time = a.tb.time := by rw [h.tb]; rfl

/-! ### One item -/

theorem countItem_same (i : Nat) (f : ItemCount → ItemCount) (ev : Ev) : SameButStock ev (ev.countItem i f) := by
  unfold Ev.countItem
  split <;> exact ⟨rfl, rfl, rfl, rfl⟩

theorem countItem_count (i : Nat) (f : ItemCount → ItemCount) (ev : Ev) (k : Nat) :
    (ev.countItem i f).tb.cItem k = if k = i ∧ ev.inLoad = false then f (ev.tb.cItem i) else ev.tb.cItem k := by
  cases h : ev.inLoad <;> simp [Ev.countItem, h, Tables.cItem, tget_tupd]

/-- The items touched, in the order of their first touch (R66). -/
def touching (is : List Nat) (i : Nat) : List Nat := if i ∈ is then is else is ++ [i]

theorem touch_touched (ev : Ev) (i : Nat) : (ev.touch i).touched = touching ev.touched i := by
  unfold Ev.touch touching
  split <;> rfl

theorem touch_same (ev : Ev) (i : Nat) : SameButStock ev (ev.touch i) := by
  unfold Ev.touch
  split <;> exact ⟨rfl, rfl, rfl, rfl⟩

theorem touching_nodup {is : List Nat} (h : is.Nodup) (i : Nat) : (touching is i).Nodup := by
  unfold touching
  split
  · exact h
  · next hi => exact List.Nodup.append h (List.nodup_singleton i) (by simpa using hi)

theorem mem_touching (is : List Nat) (i k : Nat) : k ∈ touching is i ↔ k ∈ is ∨ k = i := by
  unfold touching
  split
  · next h => constructor
              · exact .inl
              · rintro (h1 | rfl); exacts [h1, h]
  · simp

theorem firstTouches_eq (is : List Nat) : firstTouches is = is.foldl touching [] := rfl

/-! ### A list of demands -/

/-- A change of the item of one demand and of its counter, the item touched. -/
def stockStep (f : Nat → Item → Item) (g : Nat → ItemCount → ItemCount) (ev : Ev) (d : Nat × Nat) : Ev :=
  ((ev.updItem d.1 (f d.2)).countItem d.1 (g d.2)).touch d.1

/-- The changes a list of demands makes to what belongs to item `k`, one after another. -/
def demandsOn {β : Type} (f : Nat → β → β) (ds : List (Nat × Nat)) (k : Nat) (x : β) : β :=
  (ds.filter (fun d => d.1 == k)).foldl (fun x d => f d.2 x) x

theorem stockStep_spec (f : Nat → Item → Item) (g : Nat → ItemCount → ItemCount) (ev : Ev) (d : Nat × Nat) :
    SameButStock ev (stockStep f g ev d) ∧ (stockStep f g ev d).notes = ev.notes ∧
    (stockStep f g ev d).touched = touching ev.touched d.1 ∧
    (∀ k, (stockStep f g ev d).tb.item k = if k = d.1 then f d.2 (ev.tb.item d.1) else ev.tb.item k) ∧
    (∀ k, (stockStep f g ev d).tb.cItem k = if k = d.1 ∧ ev.inLoad = false then g d.2 (ev.tb.cItem d.1) else ev.tb.cItem k) := by
  refine ⟨?_, ?_, ?_, fun k => ?_, fun k => ?_⟩
  · exact SameButStock.trans (b := ev.updItem d.1 (f d.2)) ⟨rfl, rfl, rfl, rfl⟩
      ((countItem_same d.1 (g d.2) _).trans (touch_same _ d.1))
  · simp [stockStep]
  · simp [stockStep, touch_touched]
  · simp [stockStep, Tables.item, tget_tupd]
  · simp only [stockStep, Ev.touch_tb, countItem_count]
    rfl

/-- What a list of demands does, one after another, to items, item counters and touched items. -/
theorem stockSteps_spec (f : Nat → Item → Item) (g : Nat → ItemCount → ItemCount) (ds : List (Nat × Nat)) (ev : Ev) :
    SameButStock ev (ds.foldl (stockStep f g) ev) ∧ (ds.foldl (stockStep f g) ev).notes = ev.notes ∧
    (ds.foldl (stockStep f g) ev).touched = (ds.map (·.1)).foldl touching ev.touched ∧
    (∀ k, (ds.foldl (stockStep f g) ev).tb.item k = demandsOn f ds k (ev.tb.item k)) ∧
    (∀ k, (ds.foldl (stockStep f g) ev).tb.cItem k =
      if ev.inLoad = false then demandsOn g ds k (ev.tb.cItem k) else ev.tb.cItem k) := by
  induction ds generalizing ev with
  | nil => exact ⟨.refl ev, rfl, rfl, fun k => rfl, fun k => by simp [demandsOn]⟩
  | cons d ds ih =>
    obtain ⟨a0, a1, a2, a3, a4⟩ := stockStep_spec f g ev d
    obtain ⟨h0, h1, h2, h3, h4⟩ := ih (stockStep f g ev d)
    simp only [List.foldl_cons, List.map_cons]
    refine ⟨a0.trans h0, h1.trans a1, by rw [h2, a2], fun k => ?_, fun k => ?_⟩
    · rw [h3, a3]
      by_cases hk : k = d.1
      · subst hk; simp [demandsOn]
      · simp [demandsOn, hk, Ne.symm hk]
    · rw [h4, a4, a0.inLoad]
      by_cases hl : ev.inLoad = false
      · by_cases hk : k = d.1
        · subst hk; simp [demandsOn, hl]
        · simp [demandsOn, hl, hk, Ne.symm hk]
      · simp [hl]

/-- Releases lower reserved by what the demands place on the item (R65). -/
theorem demandsOn_release (ds : List (Nat × Nat)) (k : Nat) (x : Item) :
    demandsOn (fun n it => it.release n) ds k x = { x with reserved := x.reserved - demandOn ds k } := by
  have h : ∀ (l : List (Nat × Nat)) (x : Item),
      l.foldl (fun x d => x.release d.2) x = { x with reserved := x.reserved - (l.map (·.2)).sum } := by
    intro l
    induction l with
    | nil => intro x; simp
    | cons d l ih => intro x; rw [List.foldl_cons, ih]; simp [Item.release, Nat.sub_sub]
  exact h _ x

/-- Consumptions lower reserved and on_hand by what the demands place on the item (R65). -/
theorem demandsOn_consume (ds : List (Nat × Nat)) (k : Nat) (x : Item) :
    demandsOn (fun n it => it.consume n) ds k x =
      { x with reserved := x.reserved - demandOn ds k, onHand := x.onHand - demandOn ds k } := by
  have h : ∀ (l : List (Nat × Nat)) (x : Item), l.foldl (fun x d => x.consume d.2) x =
      { x with reserved := x.reserved - (l.map (·.2)).sum, onHand := x.onHand - (l.map (·.2)).sum } := by
    intro l
    induction l with
    | nil => intro x; simp
    | cons d l ih => intro x; rw [List.foldl_cons, ih]; simp [Item.consume, Nat.sub_sub]
  exact h _ x

/-- A counter raised demand by demand is raised once by their sum (R163); one that no demand names stays as it is. -/
theorem demandsOn_count (ds : List (Nat × Nat)) (k n : Nat) : demandsOn (fun m c => satCount c m) ds k n = tally ds k n := by
  have h : ∀ (l : List (Nat × Nat)) (n : Nat), l.foldl (fun c d => satCount c d.2) n =
      if l = [] then n else satCount n (l.map (·.2)).sum := by
    intro l
    induction l with
    | nil => intro n; rfl
    | cons d l ih =>
      intro n
      rw [List.foldl_cons, ih]
      cases l <;> (simp [satCount, Config.countTop]; try omega)
  have hm : k ∈ ds.map (·.1) ↔ ds.filter (fun d => d.1 == k) ≠ [] := by
    simp [List.filter_eq_nil_iff]
  simp only [demandsOn, h, tally, demandOn, hm]
  split <;> simp_all

/-- A field of the item counters raised demand by demand. -/
theorem demandsOn_field (ds : List (Nat × Nat)) (k : Nat) (get : ItemCount → Nat) (put : ItemCount → Nat → ItemCount)
    (h1 : ∀ c n, get (put c n) = n) (h2 : ∀ c n m, put (put c n) m = put c m) (h3 : ∀ c, put c (get c) = c) (c : ItemCount) :
    demandsOn (fun m c => put c (satCount (get c) m)) ds k c = put c (tally ds k (get c)) := by
  rw [← demandsOn_count]
  simp only [demandsOn]
  generalize ds.filter (fun d => d.1 == k) = l
  induction l generalizing c with
  | nil => simp [h3]
  | cons d l ih => simp only [List.foldl_cons, ih, h1, h2]

/-! ### Reserve and release -/

/-- Releasing a list of demands (R65). -/
theorem releaseDemand_spec (ds : List (Nat × Nat)) (ev : Ev) :
    SameButStock ev (releaseDemand ev ds) ∧ (releaseDemand ev ds).notes = ev.notes ∧
    (releaseDemand ev ds).touched = (ds.map (·.1)).foldl touching ev.touched ∧
    (∀ k, (releaseDemand ev ds).tb.item k = { ev.tb.item k with reserved := (ev.tb.item k).reserved - demandOn ds k }) ∧
    (∀ k, (releaseDemand ev ds).tb.cItem k = if ev.inLoad = false then
        { ev.tb.cItem k with unmade := tally ds k (ev.tb.cItem k).unmade } else ev.tb.cItem k) := by
  obtain ⟨h0, h1, h2, h3, h4⟩ :=
    stockSteps_spec (fun n it => it.release n) (fun n c => { c with unmade := satCount c.unmade n }) ds ev
  refine ⟨h0, h1, h2, fun k => (h3 k).trans (demandsOn_release ds k _), fun k => (h4 k).trans ?_⟩
  rw [demandsOn_field ds k (·.unmade) (fun c n => { c with unmade := n }) (fun _ _ => rfl) (fun _ _ _ => rfl) (fun _ => rfl)]

/-- Reserving a list of demands on different items that all are covered (R64). -/
theorem reserveAll_spec (ds : List (Nat × Nat)) (ev : Ev) (hn : (ds.map (·.1)).Nodup)
    (ha : ∀ d, d ∈ ds → d.2 ≤ (ev.tb.item d.1).avail) :
    SameButStock ev (reserveAll ev ds) ∧ (reserveAll ev ds).notes = ev.notes ∧
    (reserveAll ev ds).touched = (ds.map (·.1)).foldl touching ev.touched ∧
    (∀ k, (reserveAll ev ds).tb.item k = { ev.tb.item k with reserved := (ev.tb.item k).reserved + demandOn ds k }) ∧
    (∀ k, (reserveAll ev ds).tb.cItem k = ev.tb.cItem k) := by
  induction ds generalizing ev with
  | nil => exact ⟨.refl ev, rfl, rfl, fun k => by simp [reserveAll, demandOn], fun k => rfl⟩
  | cons d ds ih =>
    simp only [List.map_cons, List.nodup_cons] at hn
    have hi : ∀ k, ((ev.updItem d.1 (fun it => it.reserve d.2)).touch d.1).tb.item k =
        if k = d.1 then { ev.tb.item k with reserved := (ev.tb.item k).reserved + d.2 } else ev.tb.item k := by
      intro k
      have hd := ha d (by simp)
      simp only [Ev.touch_tb, Ev.updItem_tb, Tables.item, Tables.setItems_items, tget_tupd]
      split
      · next hk => subst hk; simp only [Item.reserve, Tables.item] at hd ⊢; rw [if_pos hd]
      · rfl
    obtain ⟨h0, h1, h2, h3, h4⟩ := ih ((ev.updItem d.1 (fun it => it.reserve d.2)).touch d.1) hn.2 (fun e he => by
      rw [hi, if_neg (fun hk => hn.1 (by rw [← hk]; exact List.mem_map_of_mem he))]
      exact ha e (by simp [he]))
    refine ⟨SameButStock.trans (SameButStock.trans (b := ev.updItem d.1 (fun it => it.reserve d.2)) ⟨rfl, rfl, rfl, rfl⟩
      (touch_same _ d.1)) h0, ?_, ?_, fun k => ?_, fun k => ?_⟩
    · simpa [reserveAll] using h1
    · simpa [reserveAll, touch_touched] using h2
    · rw [show (reserveAll ev (d :: ds)).tb.item k = _ from h3 k, hi]
      by_cases hk : k = d.1
      · have : demandOn ds k = 0 := by
          have : ds.filter (fun e => e.1 == k) = [] := by
            rw [List.filter_eq_nil_iff]
            intro e he hek
            exact hn.1 (by rw [← hk, ← (by simpa using hek : e.1 = k)]; exact List.mem_map_of_mem he)
          simp [demandOn, this]
        simp [hk, demandOn] at this ⊢
        omega
      · simp [hk, demandOn, Ne.symm hk]
    · rw [show (reserveAll ev (d :: ds)).tb.cItem k = _ from h4 k]
      simp [Tables.cItem]

/-! ### The level rules at the end of an event (R66, R67) -/

/-- The notice of one item whose level has changed. -/
def itemNotice (tb : Tables) (i : Nat) : Option Notice :=
  (levelNotice (tb.item i).level (tb.item i).settle.level).map
    (fun k => { kind := k, time := tb.time, a := i, b := (tb.item i).settle.avail })

theorem note_same (ev : Ev) (k : NoticeKind) (a b : Nat) : SameButStock ev (ev.note k a b) := by
  unfold Ev.note
  split <;> exact ⟨rfl, rfl, rfl, rfl⟩

theorem note_notes (ev : Ev) (k : NoticeKind) (a b : Nat) :
    (ev.note k a b).notes = ev.notes ++ if ev.inLoad then [] else [{ kind := k, time := ev.tb.time, a := a, b := b }] := by
  unfold Ev.note
  split <;> simp_all

theorem settleItem_spec (ev : Ev) (i : Nat) :
    SameButStock ev (settleItem ev i) ∧ (settleItem ev i).touched = ev.touched ∧
    (∀ k, (settleItem ev i).tb.item k = if k = i then (ev.tb.item i).settle else ev.tb.item k) ∧
    (∀ k, (settleItem ev i).tb.cItem k =
      if k = i then outCounted ev.inLoad (ev.tb.item i) (ev.tb.item i).settle (ev.tb.cItem i) else ev.tb.cItem k) ∧
    (settleItem ev i).notes = ev.notes ++ if ev.inLoad then [] else (itemNotice ev.tb i).toList := by
  have hu : SameButStock ev (ev.updItem i Item.settle) := ⟨rfl, rfl, rfl, rfl⟩
  have hui : ∀ k, (ev.updItem i Item.settle).tb.item k = if k = i then (ev.tb.item i).settle else ev.tb.item k := fun k => by
    simp [Tables.item, tget_tupd]
  have huc : ∀ k, (ev.updItem i Item.settle).tb.cItem k = ev.tb.cItem k := fun k => rfl
  generalize hb : ev.updItem i Item.settle = e1 at hu hui huc
  have hn1 : e1.notes = ev.notes := by rw [← hb]; rfl
  have ht1 : e1.touched = ev.touched := by rw [← hb]; rfl
  -- the counter
  have hc : ∃ e2, e2 = (if (ev.tb.item i).level ≠ .out ∧ (ev.tb.item i).settle.level = .out then
      e1.countItem i (fun c => { c with outs := satCount c.outs 1 }) else e1) ∧
      SameButStock ev e2 ∧ e2.touched = ev.touched ∧ e2.notes = ev.notes ∧ (∀ k, e2.tb.item k = e1.tb.item k) ∧
      (∀ k, e2.tb.cItem k = if k = i then outCounted ev.inLoad (ev.tb.item i) (ev.tb.item i).settle (ev.tb.cItem i)
        else ev.tb.cItem k) := by
    refine ⟨_, rfl, ?_⟩
    split
    · next h =>
      refine ⟨hu.trans (countItem_same i _ e1), by rw [Ev.countItem_touched, ht1], by rw [Ev.countItem_notes, hn1],
        fun k => by simp [Tables.item], fun k => ?_⟩
      rw [countItem_count, hu.inLoad, huc, huc]
      by_cases hk : k = i
      · subst hk; cases hl : ev.inLoad <;> simp [outCounted, h]
      · simp [hk]
    · next h =>
      refine ⟨hu, ht1, hn1, fun k => rfl, fun k => ?_⟩
      rw [huc]
      split
      · next hk =>
        subst hk
        simp only [outCounted]
        rw [if_neg (fun hh => h hh.2)]
      · rfl
  obtain ⟨e2, he2, hs, ht, hno, hit, hct⟩ := hc
  have hset : settleItem ev i = match levelNotice (ev.tb.item i).level (ev.tb.item i).settle.level with
      | some k => e2.note k i (ev.tb.item i).settle.avail
      | none => e2 := by
    rw [he2, ← hb]; rfl
  rw [hset]
  cases hl : levelNotice (ev.tb.item i).level (ev.tb.item i).settle.level with
  | none =>
    refine ⟨hs, ht, fun k => (hit k).trans (hui k), hct, ?_⟩
    simp [hno, itemNotice, hl]
  | some kind =>
    refine ⟨hs.trans (note_same _ _ _ _), by rw [Ev.note_touched]; exact ht, fun k => ?_, fun k => ?_, ?_⟩
    · rw [Ev.note_tb]; exact (hit k).trans (hui k)
    · rw [Ev.note_tb]; exact hct k
    · rw [note_notes, hno, hs.inLoad, hs.time]
      simp [itemNotice, hl]

theorem settleItems_spec (is : List Nat) (hn : is.Nodup) (ev : Ev) :
    SameButStock ev (is.foldl settleItem ev) ∧ (is.foldl settleItem ev).touched = ev.touched ∧
    (∀ k, (is.foldl settleItem ev).tb.item k = if k ∈ is then (ev.tb.item k).settle else ev.tb.item k) ∧
    (∀ k, (is.foldl settleItem ev).tb.cItem k =
      if k ∈ is then outCounted ev.inLoad (ev.tb.item k) (ev.tb.item k).settle (ev.tb.cItem k) else ev.tb.cItem k) ∧
    (is.foldl settleItem ev).notes = ev.notes ++ if ev.inLoad then [] else is.filterMap (itemNotice ev.tb) := by
  induction is generalizing ev with
  | nil => exact ⟨.refl ev, rfl, by simp, by simp, by simp⟩
  | cons i is ih =>
    rw [List.nodup_cons] at hn
    obtain ⟨a0, a1, a2, a3, a4⟩ := settleItem_spec ev i
    obtain ⟨h0, h1, h2, h3, h4⟩ := ih hn.2 (settleItem ev i)
    have keep : ∀ k, k ∈ is → (settleItem ev i).tb.item k = ev.tb.item k := fun k hk => by
      rw [a2, if_neg (by rintro rfl; exact hn.1 hk)]
    simp only [List.foldl_cons]
    refine ⟨a0.trans h0, h1.trans a1, fun k => ?_, fun k => ?_, ?_⟩
    · rw [h2]
      by_cases hk : k ∈ is
      · simp [hk, keep k hk]
      · by_cases hki : k = i <;> simp [hk, hki, a2, hn.1]
    · rw [h3, a3, a0.inLoad]
      by_cases hk : k ∈ is
      · have hki : k ≠ i := by rintro rfl; exact hn.1 hk
        simp [hk, keep k hk, hki]
      · by_cases hki : k = i
        · subst hki; simp [hk]
        · simp [hk, hki]
    · rw [h4, a4, a0.inLoad]
      have hm : is.filterMap (itemNotice (settleItem ev i).tb) = is.filterMap (itemNotice ev.tb) :=
        List.filterMap_congr fun k hk => by simp only [itemNotice, keep k hk, a0.time]
      rw [hm]
      cases ev.inLoad
      · cases h : itemNotice ev.tb i <;> simp [h]
      · simp

/-- The level rules at the end of an event (R66, R67), in the terms of `StockMoved`. -/
theorem settleLevels_spec (ev : Ev) (hn : ev.touched.Nodup) :
    SameButStock ev (settleLevels ev) ∧ (settleLevels ev).touched = [] ∧
    (∀ k, (settleLevels ev).tb.item k = if k ∈ ev.touched then (ev.tb.item k).settle else ev.tb.item k) ∧
    (∀ k, (settleLevels ev).tb.cItem k =
      if k ∈ ev.touched then outCounted ev.inLoad (ev.tb.item k) (ev.tb.item k).settle (ev.tb.cItem k) else ev.tb.cItem k) ∧
    (settleLevels ev).notes = ev.notes ++ if ev.inLoad then [] else ev.touched.filterMap (itemNotice ev.tb) := by
  obtain ⟨h0, _, h2, h3, h4⟩ := settleItems_spec ev.touched hn ev
  exact ⟨⟨h0.tb, h0.mode, h0.reached, h0.rewrites⟩, rfl, h2, h3, h4⟩

end Sys2Proof.Machine
end

