-- ==== Sys2Proof/Tests/Slice0.lean ====
section
/-!
SUPPORT. Tests: ill-formed commands are refused by the well-formedness check; single steps with results computed by hand from the
rules; and for each obligation with premises a concrete state and operands that meet them (`witness_<Obligation>`, clause by clause).
-/

namespace Sys2Proof.Tests

open Sys2Proof Sys2Proof.Machine

set_option maxRecDepth 20000
set_option Elab.async false

/-! ### States to test on -/

def quiet : Bus := { hub := [], errs := [] }

def cfgT : Cfg :=
  { laneCount := 64, calendar := [(0, 8)], taxRates := ⟨825, 1000, 0, 0⟩, holdTime := 1200, tipCap := 15, wakeEnable := true }

/-- Lane 0 a SUPERVISOR, lane 1 a TILL without permissions, lane 2 the STATION of station 1. -/
def lanesT : List (Nat × Lane) :=
  [(0, { lane0 with role := .supervisor }), (1, { lane0 with role := .till }), (2, { lane0 with role := .station, station := 1 })]

def tbT : Tables := { tables0 with cfg := cfgT, lanes := lanesT }

/-- A state of the engine at an engine state, with tables and a request unit. -/
def stateT (e : EngineState) (tb : Tables) (f : Option Req) : State :=
  { State.reset with enc := { State.reset.enc with engine := e }, tb := tb, rqu := { inFlight := f, pending := none } }

/-- A request of lane 0 in its slot 0, taken at time 0. -/
def reqT (k : Nat) (body : List Word) : Req := { lane := 0, slot := 0, kind := k, hubTag := 7, body := body, takenAt := 0 }

/-- The same from another lane. -/
def reqOf (l k : Nat) (body : List Word) : Req := { reqT k body with lane := l }

/-- An OPEN check with one payer, held by nobody. -/
def openT : Check := { freeCheck 1 with state := .opened, taxRates := ⟨825, 1000, 0, 0⟩ }

/-- A SIMPLE item of station 1 with five portions. -/
def itemT : Item :=
  { item0 with defined := true, station := 1, prices := ⟨1200, 0, 0, 0⟩, onHand := 5, level := .available }

/-- A line of check 0: one of item 1 at 1200. -/
def lineT : Line :=
  { check := 0, item := 1, qty := 1, price := 1200, taxClass := 0, discount := 0, net := 1200, modifier := 0, group := 0,
    assign := .pool, fired := false, voided := false, isRemake := false, isCopy := false, isTemplate := false, made1 := false,
    made2 := false, made3 := false }

/-- Station 1 accepting lines. -/
def stationT : Station := { station0 with intake := .opened }

/-- A check 0 with item 1 in the catalogue and station 1 open. -/
def tbC (c : Check) (ls : List (Nat × Option Line)) : Tables :=
  { tbT with checks := [(0, c)], lines := ls, items := [(1, itemT)], stations := [(1, stationT)] }

/-- The check with one line, its figures made (1200 plus 99 of tax). -/
def billedT : Check :=
  { openT with lines := [0], subtotal := 1200, taxes := ⟨99, 0, 0, 0⟩, total := 1299, payers := [{ emptyPayer with share := 1299 }] }

/-- `billedT` with its line, UNFIRED and reserving one portion. -/
def tbL : Tables := { tbC billedT [(0, some lineT)] with items := [(1, { itemT with reserved := 1 })] }

/-- The reference of check 0 with tag 1. -/
def ref0 : Word := 65536

/-- Does an outcome answer a next state that meets `p`? -/
def nextIs (p : State → Bool) : Host.Outcome State Fault Refusal → Bool
  | .next t => p t
  | _ => false

/-- The result code an answer left in slot 0 of a lane. -/
def codeAt (l : Nat) (t : State) : Nat := (t.wordAt (slotOff l 0 + 0x0C)).toNat

/-- A word of the result body in slot 0 of a lane. -/
def bodyAt (l k : Nat) (t : State) : Nat := (t.wordAt (slotOff l 0 + 0x40 + 4 * k)).toNat

/-! ### Well-formedness -/

theorem test_wf_store_empty : (Instr.view { hub := [{ addr := 0, data := [] }], errs := [] }).wf = false := by decide
theorem test_wf_store_past_top :
    (Instr.view { hub := [{ addr := 0xFFFFFFFFFFFFFFFF, data := [1, 2] }], errs := [] }).wf = false := by decide
theorem test_wf_errs_order : (Instr.send { hub := [], errs := [3, 3] }).wf = false := by decide
theorem test_wf_cut : (Instr.start quiet (some 7)).wf = false := by decide
theorem test_wf_action : (Instr.timedAction 64 quiet).wf = false := by decide
theorem test_wf_aging : (Instr.agingTick 16 quiet).wf = false := by decide
theorem test_wf_hold : (Instr.gateHoldExpiry 16 quiet).wf = false := by decide
theorem test_wf_wait : (Instr.chainWaitExpiry 16 quiet).wf = false := by decide
theorem test_wf_firing : (Instr.firingSlotRun 16 quiet).wf = false := by decide
theorem test_wf_stalled : (Instr.chainStallRetry 16 quiet).wf = false := by decide
theorem test_wf_last_ones : (Instr.timedAction 63 quiet).wf = true ∧ (Instr.startLoad quiet (some 6)).wf = true := by decide

/-- No row of the table has bits (log entry 1). -/
theorem test_no_word_spells_a_command : decodeTableWord 32 1 = none := by decide

/-! ### The machine and its invariants -/

/-- A SEND of check 0 in flight, its row at the front of the queue. -/
def wSend : State := (stateT .run tbL (some (reqT 5 [ref0, 0xFF]))).setPending [.send quiet, .baseTick quiet]

theorem witness_StepRunsFrontCommand : wSend.pending = .send quiet :: [.baseTick quiet] := by decide

theorem portions_tbL : PortionBounds tbL := by
  intro i
  simp only [Tables.item, tbL, tbC, tget]
  split <;> simp [Item.bounded, itemT, item0, Config.portionTop]

theorem rails_tbL : RailsOk tbL := by
  intro n
  simp only [Tables.station, tbL, tbC, tget]
  split <;> simp [stationT, station0]

theorem tags_tbL : TagsOk tbL := by
  intro i
  constructor
  · simp only [Tables.check, tbL, tbC, tget]
    split <;> simp [billedT, openT, freeCheck, check0]
  · simp [Tables.ticket, tbL, tbC, tbT, tables0, tget, ticket0]

theorem pointers_tbL (l : Nat) : (tbL.lane l).pointer < 8 := by
  simp only [Tables.lane, tbL, tbC, tbT, lanesT, tget]
  split
  · decide
  · split
    · decide
    · split <;> decide

theorem placed_wSend : Placed wSend := by
  refine ⟨?_, ?_, pointers_tbL, by decide, ?_, by decide⟩
  · intro r h; cases h; decide
  · intro p h; cases h
  · intro op h; cases h

/-- The premises of the statements about every step, met together by `wSend`, which answers a next state. -/
theorem witness_every_step :
    Canonical wSend ∧ PortionBounds wSend.tb ∧ AttentionOk wSend.ntw ∧ RailsOk wSend.tb ∧ TagsOk wSend.tb ∧ wSend.tb.draw ≠ 0 ∧
    Placed wSend ∧ wSend.pending.head? ≠ some .powerOn ∧ nextIs (fun _ => true) (step wSend) = true ∧
    ¬ engineRegion wSend 0x20000 ∧ ¬ storeBytes (Instr.send quiet).bus 0x20000 ∧ (∀ b, wSend.pending.head? ≠ some (.view b)) :=
  ⟨by unfold Canonical; decide +kernel, portions_tbL, by unfold AttentionOk; decide, rails_tbL, tags_tbL, by decide, placed_wSend,
   by decide, by decide +kernel, by unfold engineRegion; decide, (by rintro ⟨x, hx, _⟩; cases hx),
   (by intro b h; cases h)⟩

/-- A SETTLING check whose payer has not paid enough: nothing is left to close. -/
theorem witness_NoCheckLeftToClose :
    let s := stateT .run (tbC { billedT with state := .settling } [(0, some lineT)]) none
    (∀ i, (s.tb.check i).state = .settling → allDone (s.tb.check i).payers = false) ∧ (s.tb.check 0).state = .settling := by
  refine ⟨fun i => ?_, by decide⟩
  simp only [stateT, Tables.check, tbC, tget]
  split
  · intro _; decide
  · intro h; cases h

theorem witness_LockedProfileKept :
    let s := (stateT .run { tbT with lanes := [(3, { lane0 with role := .till, lock := true })] } none).setPending [.sweepVisit quiet]
    (s.tb.lane 3).lock = true ∧ s.pending.head? ≠ some .powerOn ∧ nextIs (fun _ => true) (step s) = true := by
  decide +kernel

theorem witness_LoadWritesNoNoticeAndCountsNothing :
    let s := (stateT .load tbL (some (reqT 5 [ref0, 0xFF]))).setPending [.send quiet]
    Placed s ∧ s.engine = .load ∧ s.pending.head? ≠ some .powerOn ∧ nextIs (fun _ => true) (step s) = true ∧
    (∀ b, s.pending.head? ≠ some (.view b)) := by
  refine ⟨⟨?_, ?_, pointers_tbL, by decide, ?_, by decide⟩, by decide, by decide, by decide +kernel, ?_⟩
  · intro r h; cases h; decide
  · intro p h; cases h
  · intro op h; cases h
  · intro b h; cases h

/-! ### Engine control -/

/-- Board DRAM from address 0 on with the given lane count and calendar length in the config block, all else 0. -/
def blockT (lanes length : Nat) : State :=
  State.reset.setMem (writeWord (writeWord [] 0 (BitVec.ofNat 32 lanes)) 4 (BitVec.ofNat 32 length))

def wordsT (s : State) : List Word := (List.range 128).map (fun k => (s.afterHub quiet).wordAt (4 * k))

/-- The lane count and the calendar length at 1, and both at 64. -/
theorem witness_StartReadsConfigAndEnters :
    ∀ n, n ∈ [1, 64] →
      let s := blockT n n
      let b := wordsT s
      s.engine = .stopped ∧ s.enc.startOp = none ∧ s.aligned = true ∧ s.rqu.pending = none ∧ quiet.errs = [] ∧
      twf check0 s.tb.checks = true ∧ 1 ≤ blockLanes b ∧ blockLanes b ≤ 64 ∧ 1 ≤ blockLength b ∧ blockLength b ≤ 64 ∧
      (∀ e, e < blockLength b → (blockEntry b e).1 < blockLanes b) := by
  decide +kernel

/-- Each of the four errors: BASE odd; the last word's read failing; 0 and 65 lanes; a calendar of 0 and of 65 entries, and an entry
that names a lane at the lane count. -/
theorem witness_FailedStartChangesNothing :
    (State.reset.engine = .stopped ∧ State.reset.enc.startOp = none) ∧
    (State.reset.setBase 0x10000).aligned = false ∧
    (State.reset.aligned = true ∧ State.reset.rqu.pending = none ∧ (127 < 128 ∧ 127 ∈ ({ hub := [], errs := [127] } : Bus).errs)) ∧
    (blockLanes (wordsT (blockT 0 1)) < 1 ∧ 64 < blockLanes (wordsT (blockT 65 1))) ∧
    (blockLength (wordsT (blockT 1 0)) < 1 ∧ 64 < blockLength (wordsT (blockT 64 65)) ∧
      (let b := wordsT ((blockT 1 1).setMem (writeWord (blockT 1 1).mem 0x40 1))
       1 ≤ blockLanes b ∧ blockLanes b ≤ 64 ∧ 0 < blockLength b ∧ blockLanes b ≤ (blockEntry b 0).1)) := by
  decide +kernel

/-- The last lane and the last slot; the first write of the answer fails, and the last, which is DONE. -/
theorem witness_StartWritesPendingAnswer :
    let p : Pending := { lane := 63, slot := 7, hubTag := 9, answer := { code := .aborted, body := [] } }
    let s := State.reset.setRqu { inFlight := none, pending := some p }
    s.engine = .stopped ∧ s.enc.startOp = none ∧ s.aligned = true ∧ s.rqu.pending = some p ∧ p.lane < 64 ∧ p.slot < 8 ∧
    quiet.errs = [] ∧ ∀ k, k ∈ [0, 18] → k < 19 ∧ k ∈ ({ hub := [], errs := [k] } : Bus).errs := by
  decide +kernel

theorem witness_RunEntersRunFromLoad :
    let s := stateT .load tbT none
    let f := stateT .load tbT (some (reqT 17 [0]))
    let p := fun (s : State) => s.setEnc { s.enc with runPending := true }
    (s.engine = .load ∧ s.rqu.inFlight = none) ∧ (f.engine = .load ∧ f.rqu.inFlight ≠ none) ∧
    ((p s).engine = .load ∧ (p s).enc.runPending = true ∧ (p s).rqu.inFlight = none) := by
  decide

theorem witness_ParkParksInTwoWrites :
    let f := stateT .parking tbL (some (reqT 17 [0]))
    let p := (stateT .parking tbL none).setEnc { (stateT .parking tbL none).enc with parkPending := true }
    twf station0 tbL.stations = true ∧ (stateT .run tbL none).engine = .run ∧ (f.engine = .parking ∧ f.rqu.inFlight ≠ none) ∧
    (p.engine = .parking ∧ p.enc.parkPending = true ∧ p.rqu.inFlight = none) := by
  decide

theorem witness_WakeAppliesRestartPolicies :
    let s := stateT .parked tbL none
    s.engine = .parked ∧ s.aligned = true ∧ quiet.errs = [] ∧ (true = true → s.tb.cfg.wakeEnable = true) := by
  decide

theorem witness_RestartStopsAndKeepsTables : twf station0 wSend.tb.stations = true ∧ 1 ≤ wSend.ntw.threshold := by decide

/-- RUN, with the wake input off. -/
def runT : State := stateT .run { tbT with cfg := { cfgT with wakeEnable := false } } none

/-- The command bits of a word are those of a list. -/
abbrev bitsOn (v : Word) (l : List Nat) : Prop := ∀ k, k < 5 → (v.getLsbD k = true ↔ k ∈ l)

/-- A word for each case of CTRL: RESTART, no bit, START, START with LOAD, RUN, PARK, WAKE, and a word with two commands; and a state
for each command that is not taken. -/
theorem witness_CtrlWritesAndUntakenCommands :
    (0x3F#32).getLsbD 5 = true ∧ bitsOn 0xFFFFFFC0 [] ∧ bitsOn 1 [0] ∧ bitsOn 3 [0, 1] ∧ bitsOn 4 [2] ∧ bitsOn 8 [3] ∧ bitsOn 16 [4] ∧
    (¬ bitsOn 2 [] ∧ ¬ bitsOn 2 [0] ∧ ¬ bitsOn 2 [0, 1] ∧ ¬ bitsOn 2 [2] ∧ ¬ bitsOn 2 [3] ∧ ¬ bitsOn 2 [4]) ∧
    (runT.engine ≠ .stopped ∧ runT.engine ≠ .load ∧ runT.engine ≠ .parked ∧ runT.tb.cfg.wakeEnable = false) ∧
    (State.reset.engine ≠ .run ∧ State.reset.engine ≠ .parking) :=
  ⟨by decide, by decide, by decide, by decide, by decide, by decide, by decide, by decide, by decide, by decide⟩

theorem witness_BaseAndStatWrites :
    (State.reset.engine = .stopped ∧ State.reset.enc.startOp = none) ∧ (stateT .run tbT none).engine ≠ .stopped := by
  decide

/-- 12, STAT: HALTED 5, CFG_READ 4 in bits 7:4, the clamp flag at bit 8, LANE_SLOT 4 in bits 11:9, the command error at bit 12 and the
request in flight at bit 13: 0x3945; and a START in progress in STOPPED at bit 3. -/
theorem test_stat_reads_its_fields :
    let s := stateT .halted tbT (some (reqT 5 [ref0]))
    readRegister { s with enc := { s.enc with configError := .cfgRead, clampFlag := true, faultRegion := .laneSlot, commandError := true } }
      .stat = 0x3945 ∧
    nextIs (fun t => readRegister t .stat == 8) (exec (.start quiet (some 1)) State.reset) = true := by
  decide +kernel

/-- A count that stays above 0 with a delay and without one, and one that is written down to 0. -/
theorem witness_AttnWriteAcknowledges :
    let s := fun (n : Ntw) => State.reset.setNtw n
    let left := fun (s : State) => (doAck 1 s).ntw.count
    0 < left (s { ntw0 with count := 2, delay := ⟨0, 1⟩ }) ∧ 0 < left (s { ntw0 with count := 2 }) ∧ left (s { ntw0 with count := 1 }) = 0 ∧
    (s { ntw0 with count := 65535 }).ntw.count ≤ 65535 := by
  decide

/-! ### The sweep and the completion of any request -/

/-- LOAD with lane 63 a SUPERVISOR at slot 7, whose state word is `w`. -/
def sweepT (e : EngineState) (role : Role) (w : Word) : State :=
  (stateT e { tbT with cfg := { cfgT with calendar := [(63, 8)] }, lanes := [(63, { lane0 with role := role, pointer := 7 })] }
    none).setMem (writeWord [] (slotOff 63 7) w)

theorem witness_SweepTakesPostedRequest :
    let s := sweepT .load .supervisor 1
    maySweep s = true ∧ s.tb.cfg.calendar[s.sweep.entry]? = some (63, 8) ∧ (s.tb.lane 63).role ≠ .off ∧
    (s.tb.lane 63).fault = false ∧ (s.engine = .load → (s.tb.lane 63).role = .supervisor) ∧ s.aligned = true ∧ 63 < 64 ∧ 7 < 8 ∧
    (s.tb.lane 63).pointer = 7 ∧ quiet.errs = [] ∧ (s.afterHub quiet).wordAt (slotOff 63 (s.tb.lane 63).pointer) = 1 := by
  decide +kernel

/-- No walk; a lane skipped in LOAD; the three states that end the visit; and the two faults, the lowest bad word among them. -/
theorem witness_SweepEndsVisitOrFaultsLane :
    (stateT .run tbT (some (reqT 17 [0]))).rqu.inFlight ≠ none ∧
    (let s := sweepT .load .till 1
     maySweep s = true ∧ s.tb.cfg.calendar[s.sweep.entry]? = some (63, 8) ∧ s.engine = .load ∧ (s.tb.lane 63).role ≠ .supervisor) ∧
    (∀ k, k ∈ [0, 2, 3] →
      let s := sweepT .run .till (BitVec.ofNat 32 k)
      maySweep s = true ∧ s.tb.cfg.calendar[s.sweep.entry]? = some (63, 8) ∧ (s.tb.lane 63).role ≠ .off ∧
      (s.tb.lane 63).fault = false ∧ s.engine ≠ .load ∧
      (s.afterHub quiet).wordAt (slotOff 63 (s.tb.lane 63).pointer) = BitVec.ofNat 32 k) ∧
    (let s := sweepT .run .till 4
     maySweep s = true ∧ s.tb.cfg.calendar[s.sweep.entry]? = some (63, 8) ∧ skipsLane s 63 = false ∧ s.aligned = true ∧
     4 ≤ ((s.afterHub quiet).wordAt (slotOff 63 (s.tb.lane 63).pointer)).toNat ∧ s.engine ≠ .load ∧
     ∀ k, k ∈ [0, 1, 9] → ({ hub := [], errs := [k] } : Bus).errs = [k]) := by
  decide +kernel

theorem witness_BadKindAndRoleRefused :
    Ready 0 quiet (stateT .run tbT (some (reqT 0 []))) (reqT 0 []) ∧ Ready 35 quiet (stateT .run tbT (some (reqT 35 []))) (reqT 35 []) ∧
    ((Instr.defineItem quiet).request = some (16, quiet) ∧ Ready 16 quiet (stateT .run tbT (some (reqOf 1 16 []))) (reqOf 1 16 []) ∧
      roleAllows ((stateT .run tbT (some (reqOf 1 16 []))).tb.lane 1) 16 = false) := by
  decide

/-- A request refused ROLE, and one of kind 0, with the first and the last write of the answer failing, and that of the done count; and a
BREAK of a held check whose notice fails. -/
theorem witness_BadKindAndRoleRefused_failing :
    (∀ r, r ∈ [reqOf 1 16 [], reqT 0 []] →
      let s := stateT .run tbT (some r)
      s.rqu.inFlight = some r ∧ completesIn s.engine = true ∧ s.aligned = true ∧ r.lane < 64 ∧ r.slot < 8) ∧
    roleAllows (tbT.lane 1) 16 = false ∧ (∀ j, j ∈ [0, 18, 19] → ({ hub := [], errs := [j] } : Bus).errs = [j]) ∧
    (let r := reqT 11 [ref0]
     let tb := tbC { billedT with holder := some 5 } [(0, some lineT)]
     let s := stateT .run tb (some r)
     s.rqu.inFlight = some r ∧ completesIn s.engine = true ∧ s.engine ≠ .load ∧ s.aligned = true ∧
     (s.tb.lane r.lane).role = .supervisor ∧ Names s.tb (reqWord r 0) 0 ∧ (s.tb.check 0).holder = some 5) := by
  decide +kernel

/-- A request of another kind is in flight; and in RUN with no tick's events left, no timed row's moment has come. -/
theorem witness_RowBeforeItsMomentDoesNothing :
    let s := stateT .run tbT (some (reqT 17 [0]))
    ((Instr.send quiet).request = some (5, quiet) ∧ ∀ r, s.rqu.inFlight = some r → r.kind ≠ 5) ∧
    (∀ r, s.rqu.inFlight = some r → 1 ≤ r.kind ∧ r.kind ≤ 34) ∧ ticksIn State.reset.engine = false ∧
    (entryDue s 63 = false ∧ isDue s (.aging 15) = false ∧ isDue s (.hold 15) = false ∧ slotIsDue s 15 .wait = false ∧
      slotIsDue s 15 .firing = false ∧ slotIsDue s 15 .stalled = false) ∧ isDue s .owed = false ∧ isDue s .delay = false := by
  refine ⟨⟨by decide, fun r h => ?_⟩, fun r h => ?_, by decide, by decide, by decide, by decide⟩ <;> (cases h; decide)

/-- A check held by lane 5 to the very time of the take, which is still live. -/
def tbHeld : Tables := tbC { billedT with holder := some 5 } [(0, some lineT)]

/-- Index 1024; a FREE record; a wrong tag; a live hold; and requests that pass the hold test, SET_LINE and VOID_LINE of line 0 with
them. -/
theorem witness_ReferencesAndHoldsTested :
    (let r := reqT 5 [0x10400, 0xFF]
     Allowed 5 quiet (stateT .run tbL (some r)) r ∧ 1024 ≤ lo16 (reqWord r 0)) ∧
    (let r := reqT 15 [0x10001, 1]
     Allowed 15 quiet (stateT .run tbL (some r)) r ∧ (tbL.check (lo16 (reqWord r 0))).state = .free) ∧
    (let r := reqT 2 [0x20000, 0x10001, 0]
     Allowed 2 quiet (stateT .run tbL (some r)) r ∧ refTag (reqWord r 0) ≠ (tbL.check (lo16 (reqWord r 0))).tag) ∧
    (let r := reqT 8 [ref0]
     Allowed 8 quiet (stateT .run tbHeld (some r)) r ∧ Names tbHeld (reqWord r 0) 0 ∧ ¬ PassesHold (tbHeld.check 0) r.lane r.takenAt) ∧
    (∀ k, k ∈ [2, 3, 4, 5, 6, 8, 10, 12, 13, 14] →
      let r := reqT k [ref0]
      Allowed k quiet (stateT .run tbL (some r)) r ∧ Names tbL (reqWord r 0) 0 ∧ Live (tbL.check 0) ∧
      PassesHold (tbL.check 0) r.lane r.takenAt ∧ lo16 (reqWord r 1) ∈ (tbL.check 0).lines ∧
      (tbL.line (lo16 (reqWord r 1))).isSome = true ∧ (reqWord r 1).toNat ∈ (tbL.check 0).lines ∧
      (tbL.line (reqWord r 1).toNat).isSome = true) :=
  ⟨by decide +kernel, by decide +kernel, by decide +kernel, by decide +kernel, by decide +kernel⟩

/-- A live hold of another lane met by SET_LINE and VOID_LINE of line 0. -/
theorem witness_ReferencesAndHoldsTested_lines :
    ∀ k, k ∈ [3, 4] →
      let r := reqT k [ref0, 0]
      Allowed k quiet (stateT .run tbHeld (some r)) r ∧ Names tbHeld (reqWord r 0) (lo16 (reqWord r 0)) ∧
      ¬ PassesHold (tbHeld.check (lo16 (reqWord r 0))) r.lane r.takenAt ∧ lo16 (reqWord r 1) ∈ (tbHeld.check 0).lines ∧
      (reqWord r 1).toNat ∈ (tbHeld.check 0).lines ∧ (tbHeld.line 0).isSome = true := by
  decide +kernel

/-- SET_LINE, VOID_LINE and REMAKE of line 1, which is not on the list; and every modifying kind on a PAID and a VOIDED check that nobody
holds. -/
theorem witness_ReferencesAndHoldsTested_lists_and_states :
    (∀ k, k ∈ [3, 4, 24] →
      let r := reqT k [ref0, 1]
      Allowed k quiet (stateT .run tbL (some r)) r ∧ Names tbL (reqWord r 0) (lo16 (reqWord r 0)) ∧
      (if k = 3 then lo16 (reqWord r 1) else (reqWord r 1).toNat) ∉ (tbL.check (lo16 (reqWord r 0))).lines) ∧
    (∀ x, x ∈ [CheckState.paid, .voided] → ∀ k, k ∈ [2, 3, 4, 5, 6, 8, 10, 12, 13, 14] →
      let r := reqT k [ref0, 0]
      let tb := tbC { billedT with state := x } [(0, some lineT)]
      let c := tb.check (lo16 (reqWord r 0))
      Allowed k quiet (stateT .run tb (some r)) r ∧ Names tb (reqWord r 0) (lo16 (reqWord r 0)) ∧
      (c.state = .paid ∨ c.state = .voided) ∧ PassesHold c r.lane r.takenAt ∧ lo16 (reqWord r 1) ∈ c.lines ∧
      (reqWord r 1).toNat ∈ c.lines ∧ (tb.line 0).isSome = true) := by
  decide +kernel

/-! ### Checks, lines and holds -/

/-- Every check record OPEN. -/
def tbFullChecks : Tables := { tbT with checks := (List.range 1024).map (fun i => (i, openT)) }

theorem tget_all {α : Type} (d v : α) (t : List (Nat × α)) (j : Nat) (hv : ∀ p, p ∈ t → p.2 = v) (hj : j ∈ t.map (·.1)) :
    tget d t j = v := by
  induction t with
  | nil => simp at hj
  | cons p t ih =>
    obtain ⟨k, w⟩ := p
    simp only [tget]
    split
    · exact hv (k, w) (by simp)
    · exact ih (fun p hp => hv p (by simp [hp])) (by simpa [*] using hj)

theorem full_checks (j : Nat) (h : j < 1024) : (tbFullChecks.check j).state ≠ .free := by
  have : tbFullChecks.check j = openT := tget_all _ _ _ _ (by simp [tbFullChecks]) (by simp [tbFullChecks]; omega)
  rw [this]; decide

/-- PARKING; the lowest record in RUN at the largest service rate and payer count; record 1023 in LOAD; no FREE record; nine payers. -/
theorem witness_OpenCheckFillsRecord :
    (let r := reqT 1 [0, 0x01000000, 0]
     Allowed 1 quiet (stateT .parking tbT (some r)) r) ∧
    (let r := reqT 1 [0, 0x08010101, 3000]
     let s := stateT .run tbL (some r)
     Allowed 1 quiet s r ∧ (reqByte r 1 0 ≤ 1 ∧ reqByte r 1 2 ≤ 1 ∧ (reqWord r 2).toNat ≤ 3000 ∧ 1 ≤ reqByte r 1 3 ∧ reqByte r 1 3 ≤ 8) ∧
     (s.tb.check 1).state = .free ∧ ∀ j, j < 1 → (s.tb.check j).state ≠ .free) ∧
    (let r := reqT 1 [0x103FF, 0x01000000, 0]
     let s := stateT .load tbL (some r)
     Allowed 1 quiet s r ∧ lo16 (reqWord r 0) = 1023 ∧ refTag (reqWord r 0) ≠ 0 ∧ (s.tb.check 1023).state = .free) ∧
    (let r := reqT 1 [0, 0x01000000, 0]
     let s := stateT .run tbFullChecks (some r)
     Allowed 1 quiet s r ∧ ∀ j, j < 1024 → (s.tb.check j).state ≠ .free) ∧
    (let r := reqT 1 [0, 0x09000000, 0]
     Allowed 1 quiet (stateT .run tbT (some r)) r ∧ ¬ reqByte r 1 3 ≤ 8) :=
  ⟨by decide +kernel, by decide +kernel, by decide +kernel, ⟨by decide +kernel, full_checks⟩, by decide +kernel⟩

/-- In LOAD with a record FREE: index 1024; tag 0; and the OPEN record 0. -/
theorem witness_OpenCheckFillsRecord_load :
    (∀ n, n ∈ [0x10400, 1, 0x10000] →
      let r := reqT 1 [BitVec.ofNat 32 n, 0x01000000, 0]
      let s := stateT .load tbL (some r)
      Allowed 1 quiet s r ∧ (reqByte r 1 0 ≤ 1 ∧ reqByte r 1 2 ≤ 1 ∧ (reqWord r 2).toNat ≤ 3000 ∧ reqByte r 1 3 = 1) ∧
      1023 < 1024 ∧ (s.tb.check 1023).state = .free) ∧
    (lo16 0x10400 = 1024 ∧ lo16 1 = 1 ∧ refTag 1 = 0 ∧ lo16 ref0 = 0 ∧ refTag ref0 ≠ 0 ∧ (tbL.check 0).state ≠ .free) := by
  decide +kernel

/-- The premises of ADD_LINE with line id 0 and the assignment `a`. -/
abbrev addPremises (s : State) (r : Req) (a : Assign) : Prop :=
  let c := s.tb.check 0
  let i := lo16 (reqWord r 1)
  let qty := reqByte r 1 2
  let restored := (reqWord r 2).getLsbD 24
  let demand := if restored then [] else demandOf s.tb i qty
  let l : Line :=
    { lineT with item := i, qty := qty, price := (s.tb.item i).prices.get s.tb.band, taxClass := (s.tb.item i).taxClass, net := 0,
                 group := reqByte r 2 0, assign := a, fired := restored }
  let ls := s.tb.linesOf c.lines ++ [l]
  let f := computeBill c.split c.taxRates c.serviceRate c.payers ls
  (Allowed 2 quiet s r ∧ Names s.tb (reqWord r 0) 0) ∧ (Live c ∧ PassesHold c r.lane r.takenAt ∧ c.lines.length < 64) ∧
  (0 ∉ c.lines ∧ s.tb.line 0 = none) ∧ (1 ≤ i ∧ i ≤ 511 ∧ (s.tb.item i).defined = true) ∧ (1 ≤ qty ∧ qty ≤ 99 ∧ reqByte r 2 0 ≤ 7) ∧
  (restored = true → s.engine = .load) ∧ (if (reqWord r 2).getLsbD 16 then testAssign c (reqByte r 2 1) = .ok a else a = .pool) ∧
  (restored = false → (∀ n, n ∈ stationsOfItem s.tb i → acceptsLine (s.tb.station n) c.openedAt = true) ∧
    (demand.map (·.1)).Nodup ∧ ∀ d, d ∈ demand → d.2 ≤ (s.tb.item d.1).avail) ∧
  totalOf c.taxRates c.serviceRate ls ≤ 99999999 ∧ (c.state = .settling → allDone f.payers = false)

/-- All five portions at once in RUN, in group 7; and a restored line of 99 in LOAD assigned to payer 1. -/
theorem witness_AddLineAppendsReservesAndRecomputes :
    (let r := reqT 2 [ref0, 0x00050001, 7]
     addPremises (stateT .run (tbC openT []) (some r)) r .pool) ∧
    (let r := reqT 2 [ref0, 0x00630001, 0x01010100]
     addPremises (stateT .load (tbC { openT with split := .byLine } []) (some r)) r (.single 1)) :=
  ⟨by decide +kernel, by decide +kernel⟩

/-- A check with ten lines of 99 at 99999, all at the full discount but `n` of them. -/
def tbBig (n : Nat) : Tables :=
  { tbC { openT with lines := List.range 10 }
      ((List.range 10).map (fun k => (k, some { lineT with qty := 99, price := 99999, discount := if k < n then 0 else 100 })))
    with items := [(1, { itemT with prices := ⟨99999, 0, 0, 0⟩, onHand := 65535 })] }

/-- CLOSED at station 1; OUT with six of five portions; and LIMIT with an eleventh line. -/
theorem witness_AddLineAppendsReservesAndRecomputes_refusals :
    (let tb := { tbC openT [] with stations := [] }
     let r := reqT 2 [ref0, 0x00050001, 7]
     Allowed 2 quiet (stateT .run tb (some r)) r ∧ Names tb (reqWord r 0) 0 ∧
     (stationsOfItem tb 1).find? (fun n => !acceptsLine (tb.station n) openT.openedAt) = some 1) ∧
    (let tb := tbC openT []
     let r := reqT 2 [ref0, 0x00060001, 7]
     Allowed 2 quiet (stateT .run tb (some r)) r ∧ reqByte r 1 2 = 6 ∧
     (stationsOfItem tb 1).find? (fun n => !acceptsLine (tb.station n) openT.openedAt) = none ∧
     (demandOf tb 1 6).find? (fun d => decide ((tb.item d.1).avail < d.2)) = some (1, 6)) ∧
    (let tb := tbBig 10
     let r := reqT 2 [ref0, 0x00630001, 7]
     Allowed 2 quiet (stateT .run tb (some r)) r ∧ Names tb (reqWord r 0) 0 ∧ reqByte r 1 2 = 99 ∧ tb.line 10 = none ∧
     (∀ j, j < 10 → (tb.line j).isSome = true) ∧
     (stationsOfItem tb 1).find? (fun n => !acceptsLine (tb.station n) openT.openedAt) = none ∧
     (demandOf tb 1 99).find? (fun d => decide ((tb.item d.1).avail < d.2)) = none ∧
     99999999 < totalOf openT.taxRates 0 (tb.linesOf (List.range 10) ++ [{ lineT with qty := 99, price := 99999 }])) :=
  by decide +kernel

/-- A check of two payers, the second PAID. -/
def paidT : Check :=
  { billedT with payers := [{ emptyPayer with share := 650 },
                            { emptyPayer with status := .paid, share := 649, tendered := 649, tenders := 1 }] }

/-- A list of 64 lines; a quantity of 100; an assignment to payer 3 of two; and one to payers 1 and 2, of whom 2 is PAID. -/
theorem witness_AddLineAppendsReservesAndRecomputes_arguments :
    (let tb := tbC { openT with lines := List.range 64 } []
     let r := reqT 2 [ref0, 0x00010001, 0]
     Allowed 2 quiet (stateT .run tb (some r)) r ∧ Names tb (reqWord r 0) 0 ∧ Live (tb.check 0) ∧
     PassesHold (tb.check 0) r.lane r.takenAt ∧ 64 ≤ (tb.check 0).lines.length) ∧
    (∀ w, w ∈ [[ref0, 0x00640001, 0], [ref0, 0x00010001, 0x00010400], [ref0, 0x00010001, 0x00010300]] →
      let r := reqT 2 w
      let tb := tbC paidT [(0, some lineT)]
      Allowed 2 quiet (stateT .run tb (some r)) r ∧ Names tb (reqWord r 0) 0 ∧ Live paidT ∧ PassesHold paidT r.lane r.takenAt ∧
      paidT.lines.length < 64 ∧ tb.line 1 = none ∧ (tb.item 1).defined = true) ∧
    reqByte (reqT 2 [ref0, 0x00640001, 0]) 1 2 = 100 ∧
    (let r := reqT 2 [ref0, 0x00010001, 0x00010400]
     (reqWord r 2).getLsbD 16 = true ∧ 3 ∈ assignMembers (reqByte r 2 1) ∧ paidT.payers.length = 2) ∧
    (let r := reqT 2 [ref0, 0x00010001, 0x00010300]
     (reqWord r 2).getLsbD 16 = true ∧ assignMembers (reqByte r 2 1) = [1, 2] ∧ (paidT.payers[2 - 1]?).map (·.status) = some .paid) := by
  decide +kernel

/-- All four marks at once: group 7, payer 1, modifier 9, discount 100; and no mark. -/
theorem witness_SetLineChangesAndRecomputes :
    (let r := reqT 3 [ref0, 0x000F0000, 0x64090107]
     let s := stateT .run (tbC { billedT with split := .byLine } [(0, some lineT)]) (some r)
     let c := s.tb.check 0
     let l2 : Line := { lineT with group := 7, isTemplate := true, assign := .single 1, modifier := 9, discount := 100 }
     let ls := linesWith s.tb c.lines 0 (fun _ => l2)
     (Allowed 3 quiet s r ∧ Names s.tb (reqWord r 0) 0) ∧ (Live c ∧ PassesHold c r.lane r.takenAt ∧ lo16 (reqWord r 1) = 0 ∧ 0 ∈ c.lines) ∧
     (s.tb.line 0 = some lineT ∧ lineT.voided = false ∧ reqByte r 1 2 = 15) ∧ (reqByte r 2 0 = 7 ∧ reqByte r 2 3 = 100) ∧
     testAssign c (reqByte r 2 1) = .ok (.single 1) ∧ (s.tb.lane r.lane).role = .supervisor ∧
     totalOf c.taxRates c.serviceRate ls ≤ 99999999 ∧ c.state ≠ .settling) ∧
    (let r := reqT 3 [ref0, 0x00F00000, 0]
     let s := stateT .run tbL (some r)
     (Allowed 3 quiet s r ∧ Names s.tb (reqWord r 0) 0) ∧ (Live billedT ∧ PassesHold billedT r.lane r.takenAt ∧ 0 ∈ billedT.lines) ∧
     s.tb.line 0 = some lineT ∧ reqByte r 1 2 % 16 = 0 ∧
     totalOf billedT.taxRates billedT.serviceRate (linesWith s.tb [0] 0 (fun _ => lineT)) ≤ 99999999) :=
  ⟨by decide +kernel, by decide +kernel⟩

/-- A lifted discount that takes the total past the cap; and a discount of 60 on a SETTLING check, which leaves 520 to pay of the 700
tendered, with a ticket outstanding and without. -/
theorem witness_SetLineChangesAndRecomputes_limit_and_closes :
    (let r := reqT 3 [ref0, 0x00080009, 0]
     let s := stateT .run (tbBig 9) (some r)
     let l : Line := { lineT with qty := 99, price := 99999, discount := 100 }
     (Allowed 3 quiet s r ∧ Names s.tb (reqWord r 0) 0 ∧ lo16 (reqWord r 1) = 9 ∧ s.tb.line 9 = some l) ∧
     99999999 < totalOf openT.taxRates 0 (linesWith s.tb (List.range 10) 9 (fun _ => { l with discount := 0 }))) ∧
    (∀ n, n ∈ [0, 1] →
      let r := reqT 3 [ref0, 0x00080000, 0x3C000000]
      let c : Check := { billedT with state := .settling, outstanding := n,
                                      payers := [{ emptyPayer with status := .part, share := 1299, tendered := 700, tenders := 1 }] }
      let l : Line := { lineT with fired := true }
      let s := stateT .run (tbC c [(0, some l)]) (some r)
      let ls := linesWith s.tb c.lines 0 (fun _ => { l with discount := 60 })
      (Allowed 3 quiet s r ∧ Names s.tb (reqWord r 0) 0 ∧ Live c ∧ PassesHold c r.lane r.takenAt ∧ s.tb.line 0 = some l) ∧
      (reqByte r 1 2 = 8 ∧ reqByte r 2 3 = 60 ∧ (s.tb.lane r.lane).role = .supervisor) ∧
      totalOf c.taxRates c.serviceRate ls = 520 ∧
      allDone (computeBill c.split c.taxRates c.serviceRate c.payers ls).payers = true ∧ unsent s.tb c.lines = [] ∧
      chainsOn s.tb 0 = []) :=
  ⟨by decide +kernel, by decide +kernel⟩

/-- A voided line; group 8, a discount of 101 and payer 3 of two; payer 2, who is PAID; and a discount from a TILL without DISCOUNT. -/
theorem witness_SetLineChangesAndRecomputes_refusals :
    (let r := reqT 3 [ref0, 0x00010000, 0]
     let tb := tbC billedT [(0, some { lineT with voided := true })]
     Allowed 3 quiet (stateT .run tb (some r)) r ∧ Names tb (reqWord r 0) 0 ∧ Live billedT ∧ PassesHold billedT r.lane r.takenAt ∧
     lo16 (reqWord r 1) ∈ billedT.lines ∧ tb.line 0 = some { lineT with voided := true }) ∧
    (∀ q, q ∈ [(0, 0x00010000, 8), (0, 0x00080000, 0x65000000), (0, 0x00020000, 0x400), (0, 0x00020000, 0x200),
        (1, 0x00080000, 0x0A000000)] →
      let r := reqOf q.1 3 [ref0, BitVec.ofNat 32 q.2.1, BitVec.ofNat 32 q.2.2]
      let tb := tbC paidT [(0, some lineT)]
      Allowed 3 quiet (stateT .run tb (some r)) r ∧ Names tb (reqWord r 0) 0 ∧ Live paidT ∧ PassesHold paidT r.lane r.takenAt ∧
      lo16 (reqWord r 1) ∈ paidT.lines ∧ tb.line 0 = some lineT ∧ lineT.voided = false) ∧
    ((reqByte (reqT 3 [ref0, 0x00010000, 8]) 1 2).testBit 0 = true ∧ reqByte (reqT 3 [ref0, 0x00010000, 8]) 2 0 = 8) ∧
    reqByte (reqT 3 [ref0, 0x00080000, 0x65000000]) 2 3 = 101 ∧
    ((reqByte (reqT 3 [ref0, 0x00020000, 0x400]) 1 2).testBit 1 = true ∧
      assignMembers (reqByte (reqT 3 [ref0, 0x00020000, 0x400]) 2 1) = [3] ∧ paidT.payers.length = 2) ∧
    (assignMembers (reqByte (reqT 3 [ref0, 0x00020000, 0x200]) 2 1) = [2] ∧ (paidT.payers[2 - 1]?).map (·.status) = some .paid) ∧
    ((reqByte (reqOf 1 3 [ref0, 0x00080000, 0x0A000000]) 1 2).testBit 3 = true ∧ (tbT.lane 1).role ≠ .supervisor ∧
      (tbT.lane 1).discount = false) :=
  ⟨by decide +kernel, by decide +kernel⟩

/-- A FIRED line of check 0, as `tbL` else. -/
def tbFired : Tables := tbC billedT [(0, some { lineT with fired := true })]

/-- An UNFIRED line; a FIRED one from a SUPERVISOR; and a FIRED one from a TILL without VOID_FIRED. No ticket exists. -/
theorem witness_VoidLineReleasesAndRecomputes :
    (let r := reqT 4 [ref0, 0]
     let s := stateT .run tbL (some r)
     (Allowed 4 quiet s r ∧ Names s.tb (reqWord r 0) 0) ∧ (Live billedT ∧ PassesHold billedT r.lane r.takenAt ∧ 0 ∈ billedT.lines) ∧
     s.tb.line (reqWord r 1).toNat = some lineT ∧ lineT.voided = false ∧ lineT.fired = false ∧ billedT.state ≠ .settling ∧
     s.tb.tickets = []) ∧
    (let r := reqT 4 [ref0, 0]
     let s := stateT .run tbFired (some r)
     (Allowed 4 quiet s r ∧ Names s.tb (reqWord r 0) 0) ∧ s.tb.line 0 = some { lineT with fired := true } ∧
     (s.tb.lane r.lane).role = .supervisor ∧ s.tb.tickets = []) ∧
    (let r := reqOf 1 4 [ref0, 0]
     let s := stateT .run tbFired (some r)
     (Allowed 4 quiet s r ∧ Names s.tb (reqWord r 0) 0) ∧ s.tb.line 0 = some { lineT with fired := true } ∧
     (s.tb.lane r.lane).role ≠ .supervisor ∧ (s.tb.lane r.lane).voidFired = false) :=
  by decide +kernel

def orderT : Order :=
  { check := 1000, checkTag := 1, station := 15, cls := .normal, onRail := false, mark := .unmarked, firedAt := 0, releasedAt := none,
    isRemake := false, course := none, lines := [] }

/-- Ticket memory full of tickets of check 1000. -/
def fullTickets : List (Nat × Ticket) := (List.range 2048).map (fun i => (i, { tag := 1, order := some orderT }))

theorem full_tickets (tb : Tables) : freeTickets { tb with tickets := fullTickets } = 0 := by
  have h : fullTickets.filter (fun p => p.2.order.isSome) = fullTickets := by
    rw [List.filter_eq_self]
    intro p hp
    simp only [fullTickets, List.mem_map] at hp
    obtain ⟨i, _, rfl⟩ := hp
    rfl
  have hl : fullTickets.length = 2048 := by simp [fullTickets]
  simp only [freeTickets, usedTickets, h, hl]
  decide

/-- Group 8; LOAD; no room; and a fire of ALL. -/
theorem witness_SendFiresWholeOrNotAtAll :
    (let r := reqT 5 [ref0, 8]
     let s := stateT .run tbL (some r)
     Allowed 5 quiet s r ∧ Names s.tb (reqWord r 0) 0 ∧ Live (tbL.check 0) ∧ PassesHold (tbL.check 0) r.lane r.takenAt ∧
     7 < (reqWord r 1).toNat ∧ (reqWord r 1).toNat ≠ 0xFF) ∧
    (let r := reqT 5 [ref0, 7]
     Allowed 5 quiet (stateT .load tbL (some r)) r ∧ (reqWord r 1).toNat ≤ 7) ∧
    (let r := reqT 5 [ref0, 0]
     let s := stateT .run { tbL with tickets := fullTickets } (some r)
     (Allowed 5 quiet s r ∧ Names s.tb (reqWord r 0) 0 ∧ (planFire s.tb [0]).length = 1) ∧ freeTickets s.tb < 1) ∧
    (let r := reqT 5 [ref0, 0xFF]
     let s := stateT .run tbL (some r)
     Allowed 5 quiet s r ∧ (planFire s.tb [0]).length ≤ freeTickets s.tb ∧ (planFire s.tb [0]).length = 1) :=
  ⟨by decide +kernel, by decide +kernel, ⟨by decide +kernel, by simp only [stateT, full_tickets]; decide⟩, by decide +kernel⟩

/-- Ticket 0 of check 0: its one line on the rail of station 1. -/
def railT : Order :=
  { check := 0, checkTag := 1, station := 1, cls := .normal, onRail := true, mark := .late, firedAt := 0, releasedAt := some 0,
    isRemake := false, course := none, lines := [{ line := 0, pos := 1, item := 1, qty := 1, modifier := 0, struck := false }] }

def tbK : Tables :=
  { tbFired with checks := [(0, { billedT with outstanding := 1 })], tickets := [(0, { tag := 1, order := some railT })],
                 items := [(1, { itemT with reserved := 1 })], stations := [(1, { stationT with rail := [0] })] }

/-- A voided line; a FIRED line whose ticket the void strikes and withdraws; and a FIRED line a bump has made. -/
theorem witness_VoidLineReleasesAndRecomputes_fired :
    (let r := reqT 4 [ref0, 0]
     Allowed 4 quiet (stateT .run tbK (some r)) r ∧ Names tbK (reqWord r 0) 0 ∧ Live (tbK.check 0) ∧
     PassesHold (tbK.check 0) r.lane r.takenAt ∧ 0 ∈ (tbK.check 0).lines) ∧
    (let tb := { tbK with lines := [(0, some { lineT with voided := true })] }
     (tb.line 0).map (·.voided) = some true) ∧
    (tbK.line 0 = some { lineT with fired := true } ∧ (tbK.lane 0).role = .supervisor ∧ (toStrike tbK 0 0).map (·.item) = [1] ∧
      fullyStruckBy tbK 0 [0] = [0]) ∧
    madeDemand tbFired { lineT with fired := true, made1 := true } = [(1, 1)] ∧ Canonical (stateT .run tbK none) ∧
    Canonical (stateT .run tbL none) ∧ Canonical (stateT .run tbFired none) :=
  ⟨by decide +kernel, by decide +kernel, by decide +kernel, by decide +kernel, by unfold Canonical; decide +kernel,
   by unfold Canonical; decide +kernel, by unfold Canonical; decide +kernel⟩

/-- SETTLING; a FIRED line without VOID_FIRED; and an OPEN check that waits for nothing. -/
theorem witness_VoidCheckFreesCheck :
    (let r := reqT 6 [ref0]
     let s := stateT .run (tbC { billedT with state := .settling } [(0, some lineT)]) (some r)
     Allowed 6 quiet s r ∧ Names s.tb (reqWord r 0) 0 ∧ PassesHold (s.tb.check 0) r.lane r.takenAt ∧ (s.tb.check 0).state = .settling) ∧
    (let r := reqOf 1 6 [ref0]
     let s := stateT .run tbFired (some r)
     Allowed 6 quiet s r ∧ Names s.tb (reqWord r 0) 0 ∧ (s.tb.check 0).state = .opened ∧
     (0 ∈ (s.tb.check 0).lines ∧ s.tb.line 0 = some { lineT with fired := true }) ∧ (s.tb.lane r.lane).role ≠ .supervisor ∧
     (s.tb.lane r.lane).voidFired = false) ∧
    (let r := reqT 6 [ref0]
     let s := stateT .run tbL (some r)
     Allowed 6 quiet s r ∧ Names s.tb (reqWord r 0) 0 ∧ (s.tb.check 0).state = .opened ∧ s.tb.line 0 = some lineT ∧
     (s.tb.check 0).outstanding = 0 ∧ (s.tb.check 0).owed = false ∧ (s.tb.check 0).lines.Nodup ∧ s.tb.tickets = [] ∧
     ∀ n, n < 16 → (s.tb.slot n).isActive = false) :=
  by decide +kernel

/-- A PAID check and a VOIDED one; and an OPEN one whose ticket the void withdraws and whose running chain, of slot 15, ends. -/
theorem witness_VoidCheckFreesCheck_fired :
    (∀ st, st ∈ [CheckState.paid, .voided] →
      let r := reqT 6 [ref0]
      let s := stateT .run (tbC { billedT with state := st } [(0, some lineT)]) (some r)
      Allowed 6 quiet s r ∧ Names s.tb (reqWord r 0) 0 ∧ PassesHold (s.tb.check 0) r.lane r.takenAt ∧ (s.tb.check 0).state = st) ∧
    (let r := reqT 6 [ref0]
     let tb := { tbK with checks := [(0, { billedT with outstanding := 1, chain := some 15 })],
                          slots := [(15, { slot0 with state := .waiting, tag := 1 })] }
     let s := stateT .run tb (some r)
     Canonical s ∧ Allowed 6 quiet s r ∧ Names s.tb (reqWord r 0) 0 ∧ (s.tb.check 0).state = .opened ∧
     (s.tb.lane r.lane).role = .supervisor ∧ (s.tb.check 0).lines.Nodup ∧ chainsOn s.tb 0 = [15] ∧ fullyStruckBy s.tb 0 [0] = [0]) :=
  ⟨by decide +kernel, by unfold Canonical; decide +kernel⟩

/-- Every part and payer number at the ends of its range, and the values past them. -/
theorem witness_ReadsChangeNothing :
    (∀ p, p ∈ [0, 1, 2, 255] →
      let r := reqT 7 [ref0, BitVec.ofNat 32 (p * 65536)]
      Allowed 7 quiet (stateT .run tbL (some r)) r ∧ Names tbL (reqWord r 0) 0 ∧ reqByte r 1 2 = p) ∧
    (∀ p, p ∈ [1, 8, 0, 9] →
      let r := reqT 15 [ref0, BitVec.ofNat 32 p]
      Allowed 15 quiet (stateT .run tbL (some r)) r ∧ Names tbL (reqWord r 0) 0 ∧ (reqWord r 1).toNat = p) ∧
    (∀ p, p ∈ [1, 511, 0, 512] →
      let r := reqT 19 [BitVec.ofNat 32 p]
      Allowed 19 quiet (stateT .run tbL (some r)) r ∧ (reqWord r 0).toNat = p) ∧
    (∀ p, p ∈ [0, 15, 16] →
      let r := reqT 32 [BitVec.ofNat 32 p]
      Allowed 32 quiet (stateT .run tbL (some r)) r ∧ (reqWord r 0).toNat = p) :=
  by decide +kernel

/-- A check of the requesting lane's own; a TRANSFER to lane 1, a TILL; a BREAK with a holder and without. -/
theorem witness_HoldRequestsMoveTheHold :
    (∀ k, k ∈ [8, 9, 10, 11] →
      let r := reqT k [ref0, 1]
      let s := stateT .run tbL (some r)
      Allowed k quiet s r ∧ Names s.tb (reqWord r 0) 0 ∧ Live (s.tb.check 0) ∧ PassesHold (s.tb.check 0) r.lane r.takenAt ∧
      (reqWord r 1).toNat < s.tb.cfg.laneCount ∧ (s.tb.lane 1).role = .till ∧ (s.tb.check 0).holder = none) ∧
    (let r := reqT 11 [ref0]
     Allowed 11 quiet (stateT .run tbHeld (some r)) r ∧ Names tbHeld (reqWord r 0) 0 ∧ (tbHeld.check 0).holder = some 5) :=
  ⟨by decide +kernel, by decide +kernel⟩

/-! ### Payers and settlement -/

/-- `billedT` with two payers, the second of whom has tendered. -/
def twoT : Check :=
  { billedT with payers := [{ emptyPayer with share := 650 }, { emptyPayer with status := .part, share := 649, tendered := 1, tenders := 1 }] }

/-- No payer and nine; a drop of a payer who has tendered; one payer of one; and both modes with one past them. -/
theorem witness_SetPayersAndSetSplitRecompute :
    (∀ n, n ∈ [0, 9] →
      let r := reqT 12 [ref0, BitVec.ofNat 32 n]
      Allowed 12 quiet (stateT .run tbL (some r)) r ∧ Names tbL (reqWord r 0) 0 ∧ Live (tbL.check 0) ∧
      PassesHold (tbL.check 0) r.lane r.takenAt ∧ ((reqWord r 1).toNat = 0 ∨ 8 < (reqWord r 1).toNat)) ∧
    (let r := reqT 12 [ref0, 1]
     let tb := tbC twoT [(0, some lineT)]
     Allowed 12 quiet (stateT .run tb (some r)) r ∧ Names tb (reqWord r 0) 0 ∧ (reqWord r 1).toNat = 1 ∧
     (tb.check 0).payers[1]? = some { emptyPayer with status := .part, share := 649, tendered := 1, tenders := 1 }) ∧
    (∀ n, n ∈ [1, 8] →
      let r := reqT 12 [ref0, BitVec.ofNat 32 n]
      Allowed 12 quiet (stateT .run tbL (some r)) r ∧ (reqWord r 1).toNat = n ∧ (tbL.check 0).payers.length ≤ n ∧
      (tbL.check 0).state ≠ .settling) ∧
    (∀ n, n ∈ [0, 1, 2] →
      let r := reqT 13 [ref0, BitVec.ofNat 32 n]
      Allowed 13 quiet (stateT .run tbL (some r)) r ∧ Names tbL (reqWord r 0) 0 ∧ Live (tbL.check 0) ∧
      PassesHold (tbL.check 0) r.lane r.takenAt ∧ (reqWord r 1).toNat = n ∧ (tbL.check 0).state ≠ .settling) :=
  ⟨by decide +kernel, by decide +kernel, by decide +kernel, by decide +kernel⟩

/-- A check of two payers in SETTLING, whose first has paid its share and whose second owes the rest, with `n` tickets outstanding. -/
def halfT (n : Nat) : Check :=
  { billedT with
    state := .settling, outstanding := n,
    payers := [{ emptyPayer with status := .paid, share := 650, tendered := 650, tenders := 1 }, { emptyPayer with share := 649 }] }

/-- A drop of the payer who owes; and a split between two whose tenders meet even shares: each closes the check, with a ticket
outstanding and without. -/
theorem witness_SetPayersAndSetSplitRecompute_closes :
    ∀ n, n ∈ [0, 1] →
      (let r := reqT 12 [ref0, 1]
       let c := halfT n
       let tb := tbC c [(0, some { lineT with fired := true })]
       let f := computeBill c.split c.taxRates c.serviceRate [c.payers.getD 0 emptyPayer] (tb.linesOf c.lines)
       Allowed 12 quiet (stateT .run tb (some r)) r ∧ Names tb (reqWord r 0) 0 ∧ Live c ∧ PassesHold c r.lane r.takenAt ∧
       (reqWord r 1).toNat = 1 ∧ (∀ i x, 1 ≤ i → c.payers[i]? = some x → x.tenders = 0) ∧ c.state = .settling ∧
       allDone f.payers = true ∧ unsent tb c.lines = [] ∧ chainsOn tb 0 = []) ∧
      (let r := reqT 13 [ref0, 0]
       let c : Check := { halfT n with
         split := .byLine, payers := List.replicate 2 { emptyPayer with status := .part, share := 0, tendered := 650, tenders := 1 } }
       let tb := tbC c [(0, some { lineT with fired := true })]
       let f := computeBill .even c.taxRates c.serviceRate c.payers (tb.linesOf c.lines)
       Allowed 13 quiet (stateT .run tb (some r)) r ∧ Names tb (reqWord r 0) 0 ∧ Live c ∧ PassesHold c r.lane r.takenAt ∧
       (reqWord r 1).toNat = 0 ∧ c.state = .settling ∧ allDone f.payers = true ∧ unsent tb c.lines = [] ∧ chainsOn tb 0 = []) := by
  intro n hn
  refine ⟨⟨?_, ?_, ?_, ?_, ?_, ?_, ?_, ?_, ?_, ?_⟩, ?_⟩
  case refine_6 =>
    intro i x hi hx
    rcases i with _ | _ | i
    · omega
    · cases hx; rfl
    · cases hx
  all_goals (revert n; decide +kernel)

/-- The payment that closes a check whose line is FIRED, and one cent less; tickets outstanding or not does not matter. -/
theorem witness_TenderRecordsAndSettles :
    ∀ n, n ∈ [1299, 1298] →
      let r := reqT 14 [ref0, 1, BitVec.ofNat 32 n, 0]
      let s := stateT .run tbFired (some r)
      let x := billedT.payers.getD 0 emptyPayer
      Allowed 14 quiet s r ∧ Names s.tb (reqWord r 0) 0 ∧ s.tb.check 0 = billedT ∧ Live billedT ∧ PassesHold billedT r.lane r.takenAt ∧
      1 ≤ (reqWord r 1).toNat ∧ (reqWord r 1).toNat ≤ billedT.payers.length ∧ x.status ≠ .paid ∧ (reqWord r 2).toNat = n ∧
      (reqWord r 3).toNat ≤ 99999999 ∧ x.tendered + n ≤ 99999999 ∧ (∀ n, n < 16 → (s.tb.slot n).isActive = false) ∧
      unsent s.tb billedT.lines = [] := by
  decide +kernel

/-- The payment that closes an ON_SEND check with a line it never sent and a running chain. -/
theorem witness_TenderRecordsAndSettles_ends :
    let r := reqT 14 [ref0, 1, 1299, 0]
    let tb := { tbL with checks := [(0, { billedT with chain := some 15 })], slots := [(15, { slot0 with state := .waiting, tag := 1 })] }
    let s := stateT .run tb (some r)
    let c := s.tb.check 0
    Allowed 14 quiet s r ∧ Names s.tb (reqWord r 0) 0 ∧ Live c ∧ PassesHold c r.lane r.takenAt ∧ c.policy ≠ .onClose ∧
    (c.payers.getD 0 emptyPayer).share = 1299 ∧ chainsOn s.tb 0 = [15] ∧ unsent s.tb c.lines = [0] ∧ c.outstanding = 0 := by
  decide +kernel

/-- Payer 0 and payer 3 of two; payer 2, who is PAID; and, for payer 1 of a share of 650, nothing tendered, and a tender and a tip past the
bound. -/
theorem witness_TenderRecordsAndSettles_refusals :
    (∀ q, q ∈ [(0, 1, 0), (3, 1, 0), (2, 1, 0), (1, 0, 0), (1, 100000000, 0), (1, 1, 100000000)] →
      let r := reqT 14 [ref0, BitVec.ofNat 32 q.1, BitVec.ofNat 32 q.2.1, BitVec.ofNat 32 q.2.2]
      let tb := tbC paidT [(0, some lineT)]
      Allowed 14 quiet (stateT .run tb (some r)) r ∧ Names tb (reqWord r 0) 0 ∧ Live paidT ∧ PassesHold paidT r.lane r.takenAt ∧
      (reqWord r 1).toNat = q.1 ∧ (reqWord r 2).toNat = q.2.1 ∧ (reqWord r 3).toNat = q.2.2) ∧
    (paidT.payers.length = 2 ∧ (paidT.payers.getD 1 emptyPayer).status = .paid ∧ (paidT.payers.getD 0 emptyPayer).status ≠ .paid ∧
      (paidT.payers.getD 0 emptyPayer).share ≠ 0) := by
  decide +kernel

/-- The payment that closes an ON_CLOSE check with its line to fire: room for its one ticket, no room, and LOAD. -/
theorem witness_CloseFireFiresOrOwes :
    (∀ e, e ∈ [EngineState.run, .load] →
      let r := reqT 14 [ref0, 1, 1299, 0]
      let tb := { tbL with checks := [(0, { billedT with policy := .onClose })] }
      let s := stateT e tb (some r)
      let c := s.tb.check 0
      let x := c.payers.getD 0 emptyPayer
      let x1 : Payer := { x with tendered := 1299, tenders := 1 }
      let f := computeBill c.split c.taxRates c.serviceRate [x1] (s.tb.linesOf c.lines)
      Allowed 14 quiet s r ∧ Names s.tb (reqWord r 0) 0 ∧ Live c ∧ PassesHold c r.lane r.takenAt ∧ (reqWord r 1).toNat = 1 ∧
      c.payers.length = 1 ∧ x.status ≠ .paid ∧ (reqWord r 2).toNat = 1299 ∧ (reqWord r 3).toNat = 0 ∧ x.tips ≤ 99999999 ∧
      (∀ n, n < 16 → (s.tb.slot n).isActive = false) ∧ c.policy = .onClose ∧ allDone f.payers = true ∧
      (f.payers.getD 0 emptyPayer).status = .paid ∧ f.refund = 0 ∧ unsent s.tb c.lines = [0] ∧
      (planFire s.tb [0]).length = 1 ∧ c.owed = false ∧ 1 ≤ freeTickets s.tb) ∧
    freeTickets { tbL with tickets := fullTickets } < 1 :=
  ⟨by decide +kernel, by rw [full_tickets]; decide⟩

/-! ### The catalogue, stock and the kitchen -/

/-- Items 1 and 511 SIMPLE, 2 a COMPOSITE of nine of item 1. -/
def tbI : Tables :=
  { tbC openT [] with items := [(1, itemT), (2, { item0 with defined := true, kind := .composite, comps := [(1, 9)], level := .available }), (511, itemT)] }

/-- A definition of item 511 with the largest prices; one of a COMPOSITE 3 of nine of item 511; and a removal of item 511. No line
names them. -/
theorem witness_DefineItemWritesOrRefuses_writes :
    (∀ body, body ∈ [[0x000001FF, 0x00000301, 99999, 99999, 99999, 99999], [0x00010003, 0, 5, 5, 5, 5, 0x000901FF], [0x010001FF]] →
      let r := reqT 16 body
      let s := stateT .run tbI (some r)
      let i := lo16 (reqWord r 0)
      let it := s.tb.item i
      let remove := (reqWord r 0).getLsbD 24
      let kind := reqByte r 0 2
      let comps := ([6, 7, 8].map (fun k => (lo16 (reqWord r k), reqByte r k 2))).filter (fun c => decide (c.1 ≠ 0))
      Allowed 16 quiet s r ∧ (1 ≤ i ∧ i ≤ 511) ∧ (remove = true → it.defined = true) ∧
      (remove = false → reqByte r 1 1 ≤ 3 ∧ (∀ k, k < 4 → (reqWord r (2 + k)).toNat ≤ 99999) ∧
        ((kind = 0 ∧ reqByte r 1 0 < 16 ∧ comps = []) ∨
         (kind = 1 ∧ comps = [(511, 9)] ∧ i ≠ 511 ∧ (s.tb.item 511).defined = true ∧ (s.tb.item 511).kind = .simple))) ∧
      (remove = true → it.kind = .simple ∧ it.reserved = 0 ∧ i = 511 ∧ (s.tb.item 2).comps.map (·.1) = [1]) ∧ s.tb.lines = []) ∧
    Canonical (stateT .run tbI (some (reqT 16 []))) :=
  ⟨by decide +kernel, by unfold Canonical; decide +kernel⟩

/-- Index 0 and 512; a removal of an undefined item; and a removal of item 1 for each reason: a line, a reserved portion, a COMPOSITE. -/
theorem witness_DefineItemWritesOrRefuses_refusals :
    (∀ w, w ∈ [0, 512] → lo16 (reqWord (reqT 16 [BitVec.ofNat 32 w]) 0) = w) ∧
    (let r := reqT 16 [0x01000003]
     Allowed 16 quiet (stateT .run tbI (some r)) r ∧ lo16 (reqWord r 0) = 3 ∧ (reqWord r 0).getLsbD 24 = true ∧
     (tbI.item 3).defined = false) ∧
    (let r := reqT 16 [0x01000001]
     Allowed 16 quiet (stateT .run tbL (some r)) r ∧ (reqWord r 0).getLsbD 24 = true ∧ (tbL.item 1).defined = true ∧
     (tbL.line 0 = some lineT ∧ lineT.item = 1)) ∧
    (let tb := { tbL with lines := [], checks := [] }
     tb.lines = [] ∧ (tb.item 1).kind = .simple ∧ 0 < (tb.item 1).reserved) ∧
    (tbI.lines = [] ∧ (tbI.item 1).reserved = 0 ∧ (tbI.item 2).defined = true ∧ (tbI.item 2).kind = .composite ∧
      1 ∈ (tbI.item 2).comps.map (·.1)) :=
  ⟨by decide, by decide +kernel, by decide +kernel, by decide +kernel, by decide +kernel⟩

/-- A COMPOSITE 2 of nine of item 1 with other components, with another count, and made SIMPLE; item 1 made a COMPOSITE; all in range. The
line of check 0 names item 1. -/
theorem witness_DefineItemWritesOrRefuses_reshapes :
    ∀ q, q ∈ [(2, [0x00010002, 0, 5, 5, 5, 5, 0x000901FF]), (2, [0x00010002, 0, 5, 5, 5, 5, 0x00080001]), (2, [0x00000002, 0, 5, 5, 5, 5]),
        (1, [0x00010001, 0, 5, 5, 5, 5, 0x000901FF])] →
      let r := reqT 16 q.2
      let tb := { tbI with lines := [(0, some lineT)] }
      let kind := reqByte r 0 2
      let comps := ([6, 7, 8].map (fun k => (lo16 (reqWord r k), reqByte r k 2))).filter (fun c => decide (c.1 ≠ 0))
      Allowed 16 quiet (stateT .run tb (some r)) r ∧ lo16 (reqWord r 0) = q.1 ∧ (tb.item q.1).defined = true ∧
      (reqWord r 0).getLsbD 24 = false ∧ reqByte r 1 1 ≤ 3 ∧ reqByte r 1 0 < 16 ∧ (kind = 0 → comps = []) ∧
      (kind = 1 → comps.length = 1 ∧ ∀ c, c ∈ comps → c.1 ≠ q.1 ∧ 1 ≤ c.2 ∧ c.2 ≤ 9 ∧ (tb.item c.1).defined = true ∧
        (tb.item c.1).kind = .simple) ∧
      (kind ≠ (tb.item q.1).kind.code ∨ ((tb.item q.1).kind = .composite ∧ comps ≠ (tb.item q.1).comps)) ∧
      tb.line 0 = some lineT ∧ lineT.item = 1 := by
  decide +kernel

theorem witness_SetBandAndClearShort :
    (∀ n, n ∈ [0, 3, 4] →
      let r := reqT 17 [BitVec.ofNat 32 n]
      Allowed 17 quiet (stateT .run tbI (some r)) r ∧ (reqWord r 0).toNat = n) ∧
    (∀ n, n ∈ [1, 511] →
      let r := reqT 18 [BitVec.ofNat 32 n]
      Allowed 18 quiet (stateT .run tbI (some r)) r ∧ (reqWord r 0).toNat = n ∧ (tbI.item n).defined = true ∧ (tbI.item n).kind = .simple) ∧
    (∀ n, n ∈ [0, 512, 3, 2] →
      let r := reqT 18 [BitVec.ofNat 32 n]
      Allowed 18 quiet (stateT .run tbI (some r)) r ∧ (reqWord r 0).toNat = n ∧
      (n = 0 ∨ 511 < n ∨ (tbI.item n).defined = false ∨ (tbI.item n).kind = .composite)) :=
  by decide +kernel

/-- Quantities 0 and 65535 of item 511; an undefined item; 65536; and lane 2's STATION asking for an item that is not its own. -/
theorem witness_StockRequestsChangeOnHand :
    (∀ k, k ∈ [20, 21, 22] → ∀ n, n ∈ [0, 65535] →
      let r := reqT k [511, BitVec.ofNat 32 n]
      Allowed k quiet (stateT .run tbI (some r)) r ∧ (reqWord r 0).toNat = 511 ∧ (tbI.item 511).defined = true ∧
      (tbI.item 511).kind = .simple ∧ (reqWord r 1).toNat = n ∧ (tbI.lane r.lane).role ≠ .station) ∧
    (∀ k, k ∈ [20, 21, 22] →
      let r := reqT k [512, 65536]
      Allowed k quiet (stateT .run tbI (some r)) r ∧ ¬ (reqWord r 0).toNat ≤ 511 ∧ 65535 < (reqWord r 1).toNat) ∧
    (let r := reqOf 2 20 [1, 5]
     let tb := { tbI with items := [(1, { itemT with station := 2 })] }
     Allowed 20 quiet (stateT .run tb (some r)) r ∧ (tb.lane 2).role = .station ∧ (tb.item 1).station ≠ (tb.lane 2).station) :=
  by decide +kernel

/-- Index 2048; a free record; a wrong tag; another station's lane; and a bump. -/
theorem witness_BumpConsumesAndFrees :
    (∀ w, w ∈ [0x10800, 0x10001, 0x20000, 0x10000] →
      Allowed 23 quiet (stateT .run tbK (some (reqT 23 [BitVec.ofNat 32 w]))) (reqT 23 [BitVec.ofNat 32 w])) ∧
    (2048 ≤ lo16 (reqWord (reqT 23 [0x10800]) 0) ∧ lo16 (reqWord (reqT 23 [0x10001]) 0) = 1 ∧ (tbK.ticket 1).order = none) ∧
    ((tbK.ticket 0).order = some railT ∧ refTag (reqWord (reqT 23 [0x20000]) 0) ≠ (tbK.ticket 0).tag) ∧
    (let r := reqOf 2 23 [ref0]
     let tb := { tbK with lanes := [(2, { lane0 with role := .station, station := 3 })] }
     Allowed 23 quiet (stateT .run tb (some r)) r ∧ (tb.lane 2).role = .station ∧ railT.station ≠ (tb.lane 2).station) ∧
    (refTag (reqWord (reqT 23 [ref0]) 0) = (tbK.ticket 0).tag ∧ (tbK.lane 0).role ≠ .station ∧ railT.station < 16 ∧
      (tbK.check 0).state = .opened) :=
  by decide +kernel

/-- The bump that frees a PAID check with a line it never sent. -/
theorem witness_BumpConsumesAndFrees_frees :
    let tb := { tbK with checks := [(0, { billedT with state := .paid, outstanding := 1, lines := [0, 1] })],
                         lines := [(0, some { lineT with fired := true }), (1, some lineT)], items := [(1, { itemT with reserved := 2 })] }
    Allowed 23 quiet (stateT .run tb (some (reqT 23 [ref0]))) (reqT 23 [ref0]) ∧ (tb.ticket 0).order = some railT ∧
    refTag (reqWord (reqT 23 [ref0]) 0) = (tb.ticket 0).tag ∧ (tb.lane 0).role ≠ .station ∧ (tb.check 0).state = .paid ∧
    (tb.check 0).owed = false ∧ unsent tb (tb.check 0).lines = [1] := by
  decide +kernel

/-- LOAD; an UNFIRED line; a check with 64 lines; no room for the ticket; and a remake of the one FIRED line, as line 1. -/
theorem witness_RemakeAddsAndFires :
    (let r := reqT 24 [ref0, 0]
     let s := stateT .load tbK (some r)
     Allowed 24 quiet s r ∧ Names s.tb (reqWord r 0) 0 ∧ (reqWord r 1).toNat ∈ (s.tb.check 0).lines ∧ s.engine = .load) ∧
    (let r := reqT 24 [ref0, 0]
     let s := stateT .run tbL (some r)
     Allowed 24 quiet s r ∧ Names s.tb (reqWord r 0) 0 ∧ s.tb.line 0 = some lineT ∧ (s.tb.check 0).state = .opened ∧ lineT.fired = false) ∧
    (let r := reqT 24 [ref0, 0]
     let tb := { tbK with checks := [(0, { billedT with lines := List.range 64 })] }
     Allowed 24 quiet (stateT .run tb (some r)) r ∧ Names tb (reqWord r 0) 0 ∧ 64 ≤ (tb.check 0).lines.length) ∧
    (let r := reqT 24 [ref0, 0]
     let s := stateT .run tbK (some r)
     let l : Line := { lineT with fired := true }
     let new : Line := { l with price := 0, net := 0, isRemake := true }
     let plan := planFire (s.tb.setLines (tset none s.tb.lines 1 (some new))) [1]
     Allowed 24 quiet s r ∧ Names s.tb (reqWord r 0) 0 ∧ s.tb.line (reqWord r 1).toNat = some l ∧ s.engine ≠ .load ∧
     (s.tb.check 0).state = .opened ∧ l.voided = false ∧ (s.tb.check 0).lines.length < 64 ∧ 1 ∉ (s.tb.check 0).lines ∧
     s.tb.line 1 = none ∧ (∀ j, j < 1 → (s.tb.line j).isSome = true) ∧
     (∀ n, n ∈ stationsOfItem s.tb 1 → acceptsLine (s.tb.station n) (s.tb.check 0).openedAt = true) ∧
     demandOf s.tb 1 1 = [(1, 1)] ∧ 1 ≤ (s.tb.item 1).avail ∧ plan.length = 1 ∧ plan.length ≤ freeTickets s.tb) ∧
    freeTickets { tbK with tickets := fullTickets } < 1 :=
  ⟨by decide +kernel, by decide +kernel, by decide +kernel, by decide +kernel, by rw [full_tickets]; decide⟩

/-- A remake at a closed station, one of an item that is out, and one from the STATION of lane 2 for a line of station 2. -/
theorem witness_RemakeAddsAndFires_refusals :
    (let tb := { tbK with stations := [(1, { stationT with intake := .closed, rail := [0] })] }
     Allowed 24 quiet (stateT .run tb (some (reqT 24 [ref0, 0]))) (reqT 24 [ref0, 0]) ∧ tb.line 0 = some { lineT with fired := true } ∧
     tb.line 1 = none ∧ (stationsOfItem tb 1).find? (fun n => !acceptsLine (tb.station n) (tb.check 0).openedAt) = some 1) ∧
    (let tb := { tbK with items := [(1, { itemT with onHand := 1, reserved := 1 })] }
     Allowed 24 quiet (stateT .run tb (some (reqT 24 [ref0, 0]))) (reqT 24 [ref0, 0]) ∧ tb.line 0 = some { lineT with fired := true } ∧
     (stationsOfItem tb 1).find? (fun n => !acceptsLine (tb.station n) (tb.check 0).openedAt) = none ∧
     (demandOf tb 1 1).find? (fun d => decide ((tb.item d.1).avail < d.2)) = some (1, 1)) ∧
    (let tb := { tbK with items := [(1, { itemT with station := 2 })] }
     let r := reqOf 2 24 [ref0, 0]
     Allowed 24 quiet (stateT .run tb (some r)) r ∧ Names tb (reqWord r 0) 0 ∧ (tb.lane 2).role = .station ∧
     (tb.lane 2).station ∉ stationsOfItem tb 1) :=
  by decide +kernel

/-! ### Stations, timed actions, chains, lanes and counters -/

/-- Stations 0 and 15, both directions and modes, from the SUPERVISOR; station 16; and lane 2's STATION 1 asking for station 3. -/
theorem witness_StepIntakeFollowsTable :
    (∀ w, w ∈ [0, 0x0001010F, 0x00000010, 0x00000200, 0x00020000] →
      Allowed 25 quiet (stateT .run tbI (some (reqT 25 [BitVec.ofNat 32 w]))) (reqT 25 [BitVec.ofNat 32 w])) ∧
    (let r := reqT 25 [0x0001010F]
     reqByte r 0 0 = 15 ∧ reqByte r 0 1 = 1 ∧ reqByte r 0 2 = 1 ∧ (tbI.lane r.lane).role ≠ .station) ∧
    reqByte (reqT 25 [0x00000010]) 0 0 = 16 ∧
    (let r := reqOf 2 25 [3]
     Allowed 25 quiet (stateT .run tbI (some r)) r ∧ (tbI.lane 2).role = .station ∧ reqByte r 0 0 ≠ (tbI.lane 2).station) :=
  by decide +kernel

/-- Station 16; no marks; and every mark at once on station 15: a GATHER gate with threshold, hold, rail limit and aging past their
ranges. -/
theorem witness_SetStationTunesStation :
    (∀ b, b ∈ [[0x00000010], [0x0000000F], [0x00007F0F, 0x0D012101, 0xFF080108, 2]] →
      Allowed 26 quiet (stateT .run tbI (some (reqT 26 b))) (reqT 26 b)) ∧
    (16 ≤ reqByte (reqT 26 [0x00000010]) 0 0 ∧ reqByte (reqT 26 [0x0000000F]) 0 1 % 128 = 0) ∧
    (let r := reqT 26 [0x00007F0F, 0x0D012101, 0xFF080108, 2]
     reqByte r 0 0 = 15 ∧ reqByte r 0 1 = 127 ∧ reqByte r 1 0 = 1 ∧ (reqWord r 3).toNat ≤ 2 ∧ 32 < reqByte r 1 1 ∧ 7 < reqByte r 2 0 ∧
     12 < reqByte r 1 3 ∧ (tbI.station 15).gateMode = .opened ∧ (tbI.station 15).rush1.length + (tbI.station 15).normal.length = 0) :=
  by decide +kernel

/-- Entry 64; entry 63 read; an action code 5; and a write of entry 63 with a period of 255. -/
theorem witness_SetActionWritesEntry :
    (∀ b, b ∈ [[0x40], [0x3F], [0x013F, 0, 5], [0x013F, 0x03FFFF08, 0x03]] →
      Allowed 27 quiet (stateT .run tbI (some (reqT 27 b))) (reqT 27 b)) ∧
    reqByte (reqT 27 [0x40]) 0 0 = 64 ∧ (reqByte (reqT 27 [0x3F]) 0 0 = 63 ∧ reqByte (reqT 27 [0x3F]) 0 1 = 0) ∧
    (reqByte (reqT 27 [0x013F, 0, 5]) 0 1 ≠ 0 ∧ reqByte (reqT 27 [0x013F, 0, 5]) 2 0 = 5) ∧
    (let r := reqT 27 [0x013F, 0x03FFFF08, 0x03]
     reqByte r 0 1 ≠ 0 ∧ reqByte r 1 1 = 255 ∧ reqByte r 1 3 ≤ 3 ∧ reqByte r 2 0 = 3 ∧ reqByte r 2 1 < 16) :=
  by decide +kernel

/-- Entry 0 fires group 1 and leads to entry 1, a wait of two ticks, which leads to the END. -/
def programT : List (Nat × ProgEntry) :=
  [(0, { progEntry0 with kind := .fire, next := some 1, repeats := 2 }), (1, { progEntry0 with dur := ⟨0, 2⟩ })]

/-- `tbL` with its line in group 1 and chain slot `n` of check 0 in a given state at a given entry. -/
def tbChain (n : Nat) (st : ChainState) (cur : Nat) : Tables :=
  { tbL with lines := [(0, some { lineT with group := 1, isTemplate := true })], program := programT,
             slots := [(n, { slot0 with state := st, tag := 1, cur := cur, reps := 2, mode := .loop })] }

/-- The highest values that are in range and the lowest past them; an entry of a loaded path; slots 15 and 16; an idle slot and an
armed one; and a read of an entry that no active slot's path holds and of one that slot 15's holds. -/
theorem witness_ProgramWritesAndChainStops :
    (∀ b, b ∈ [[0x01FF, 0x01000001, 0x1007, 0x08], [0x01FF, 0x01010001, 0x1007], [0x0101, 0x01000000], [0x00FF], [0x0001]] →
      Allowed 28 quiet (stateT .run (tbChain 15 .armed 0) (some (reqT 28 b))) (reqT 28 b)) ∧
    (let r := reqT 28 [0x01FF, 0x01000001, 0x1007, 0x08]
     reqByte r 0 1 ≠ 0 ∧ reqByte r 1 0 ≤ 1 ∧ hi16 (reqWord r 1) = 256 ∧ reqByte r 2 0 = 7 ∧
     ∀ n, n < 16 → ¬ (((tbChain 15 .armed 0).slot n).isActive = true ∧
       reqByte r 0 0 ∈ (pathOf (tbChain 15 .armed 0) ((tbChain 15 .armed 0).slot n).first).1)) ∧
    (let r := reqT 28 [0x01FF, 0x01010001, 0x1007]
     reqByte r 0 1 ≠ 0 ∧ ¬ hi16 (reqWord r 1) ≤ 256) ∧
    (let r := reqT 28 [0x0101, 0x01000000]
     reqByte r 0 1 ≠ 0 ∧ reqByte r 1 0 ≤ 1 ∧ hi16 (reqWord r 1) ≤ 256 ∧ reqByte r 1 0 ≠ 1 ∧
     ((tbChain 15 .armed 0).slot 15).isActive = true ∧
     reqByte r 0 0 ∈ (pathOf (tbChain 15 .armed 0) ((tbChain 15 .armed 0).slot 15).first).1 ∧
     ∀ j, j < 15 → ((tbChain 15 .armed 0).slot j).isActive = false) ∧
    (reqByte (reqT 28 [0x00FF]) 0 1 = 0 ∧ reqByte (reqT 28 [0x00FF]) 0 0 ∉ (pathOf (tbChain 15 .armed 0) 0).1) ∧
    (reqByte (reqT 28 [0x0001]) 0 1 = 0 ∧ reqByte (reqT 28 [0x0001]) 0 0 ∈ (pathOf (tbChain 15 .armed 0) 0).1 ∧
      ((tbChain 15 .armed 0).slot 15).first = 0) ∧
    (∀ n, n ∈ [0, 15, 16] →
      Allowed 31 quiet (stateT .run (tbChain 15 .armed 0) (some (reqT 31 [BitVec.ofNat 32 n]))) (reqT 31 [BitVec.ofNat 32 n])) ∧
    (((tbChain 15 .armed 0).slot 0).state = .idle ∧ ((tbChain 15 .armed 0).slot 15).state = .armed) :=
  by decide +kernel

/-- `tbL` with a program whose entry 2 leads to itself. -/
def tbArm : Tables := { tbChain 15 .armed 0 with program := programT ++ [(2, { progEntry0 with next := some 2 })] }

/-- Mode 3; a FREE check; a wrong tag; an armed slot; a check not live; a path that does not end; one with no FIRE; and one that passes. -/
theorem witness_ArmChainSetsSlotUp :
    (∀ b, b ∈ [[0x01030000, ref0, 0xFF01], [0x01020000, 0x10001, 0xFF01], [0x0102000F, ref0, 0xFF01], [0x01020200, ref0, 0xFF01],
        [0x01020100, ref0, 0xFF01], [0x01020000, ref0, 0x0F01],
        [0x01020000, 0x20000, 0xFF01]] →
      Allowed 29 quiet (stateT .run tbArm (some (reqT 29 b))) (reqT 29 b)) ∧
    reqByte (reqT 29 [0x01030000]) 0 2 = 3 ∧ (tbArm.check 1).state = .free ∧ refTag 0x20000 ≠ (tbArm.check 0).tag ∧ (tbArm.slot 15).state = .armed ∧
    (let tb := { tbArm with checks := [(0, { billedT with state := .paid })] }
     Names tb ref0 0 ∧ (tb.slot 0).state = .idle ∧ ¬ Live (tb.check 0)) ∧
    (Names tbArm ref0 0 ∧ (tbArm.slot 0).state = .idle ∧ Live (tbArm.check 0)) ∧ (pathOf tbArm 2).2 = false ∧
    ((pathOf tbArm 1).2 = true ∧ ∀ e, e ∈ (pathOf tbArm 1).1 → (tbArm.entry e).kind ≠ .fire) ∧
    ((pathOf tbArm 0).2 = true ∧ 0 ∈ (pathOf tbArm 0).1 ∧ (tbArm.entry 0).kind = .fire) :=
  by decide +kernel

/-- Slot 16; an idle slot; a slot armed at the wait, in LOAD and in RUN; one armed at the fire, with room and without. -/
theorem witness_StartChainRunsToRest :
    (∀ n, n ∈ [0, 15, 16] →
      Allowed 30 quiet (stateT .run (tbChain 15 .armed 0) (some (reqT 30 [BitVec.ofNat 32 n]))) (reqT 30 [BitVec.ofNat 32 n]) ∧
      Allowed 30 quiet (stateT .load (tbChain 15 .armed 0) (some (reqT 30 [BitVec.ofNat 32 n]))) (reqT 30 [BitVec.ofNat 32 n])) ∧
    ((tbChain 15 .armed 0).slot 0).state ≠ .armed ∧
    (let tb := tbChain 15 .armed 1
     (tb.slot 15).state = .armed ∧ (tb.check (tb.slot 15).check).chain = none ∧ (tb.entry (tb.slot 15).cur).kind = .wait ∧
     (tb.entry (tb.slot 15).cur).dur.count ≠ 0 ∧ (tb.slot 15).interval ≤ (tb.slot 15).phase) ∧
    (let tb := tbChain 15 .armed 0
     let e := tb.entry (tb.slot 15).cur
     (tb.slot 15).state = .armed ∧ (tb.check (tb.slot 15).check).chain = none ∧ e.kind = .fire ∧
     (tb.check 0).lines.filter (fun id => match tb.line id with
       | some l => !l.fired && !l.voided && l.group == e.group
       | none => false) = [0] ∧
     (planFire tb [0]).length = 1 ∧ 1 ≤ freeTickets tb ∧ 1 < e.repeats ∧ e.next = some 1 ∧ (tb.entry 1).kind = .wait ∧
     (tb.entry 1).dur.count ≠ 0) ∧
    freeTickets { tbChain 15 .armed 0 with tickets := fullTickets } < 1 :=
  ⟨by decide +kernel, by decide +kernel, by decide +kernel, by decide +kernel, by rw [full_tickets]; decide⟩

/-- `tbChain 15 .armed 0` with its line FIRED, a check list `ids` and a REORDER entry. -/
def tbReorder (ids : List Nat) : Tables :=
  { tbChain 15 .armed 0 with
    checks := [(0, { billedT with lines := ids })], lines := [(0, some { lineT with group := 1, isTemplate := true, fired := true })],
    program := [(0, { progEntry0 with kind := .fire, next := some 1, repeats := 2, reorder := true }), (1, { progEntry0 with dur := ⟨0, 2⟩ })] }

/-- No room on the check's list for the copy of its one template, and room for it as line 1. -/
theorem witness_StartChainRunsToRest_copies :
    (∀ ids, ids ∈ [List.range 64, [0]] →
      let tb := tbReorder ids
      let e := tb.entry 0
      (tb.slot 15).state = .armed ∧ (tb.check 0).chain = none ∧ e.kind = .fire ∧ e.reorder = true ∧ 1 < e.repeats ∧ e.next = some 1 ∧
      (tb.entry 1).kind = .wait ∧ (tb.entry 1).dur.count ≠ 0 ∧
      (tb.check 0).lines.filter (fun id => match tb.line id with
        | some l => !l.fired && !l.voided && l.group == e.group
        | none => false) = [] ∧
      (tb.check 0).lines.filter (fun id => match tb.line id with
        | some l => l.isTemplate && !l.voided && l.group == e.group
        | none => false) = [0]) ∧
    (let tb := tbReorder [0]
     let c := tb.check 0
     let new : Line := { lineT with group := 1, fired := true, isCopy := true }
     Live c ∧ tb.line 1 = none ∧ (tb.line 0).isSome = true ∧ (demandOf tb 1 1 = [(1, 1)] ∧ 1 ≤ (tb.item 1).avail) ∧
     (∀ n, n ∈ stationsOfItem tb 1 → acceptsLine (tb.station n) c.openedAt = true) ∧
     (computeBill c.split c.taxRates c.serviceRate c.payers (tb.linesOf c.lines ++ [new])).total ≤ 99999999 ∧
     (planFire (tb.setLines (tset none tb.lines 1 (some new))) [1]).length ≤ freeTickets tb) :=
  ⟨by decide +kernel, by decide +kernel⟩

/-- `tbChain 15 .armed 0` with entry 0, the last FIRE of a pass that is final, executed once; with a next chain; and slot 0 in a state at the
wait of entry 1, for check 1. -/
def tbEnds (next : Option Nat) (st : ChainState) : Tables :=
  { tbChain 15 .armed 0 with
    program := [(0, { progEntry0 with kind := .fire, next := some 1 }), (1, { progEntry0 with dur := ⟨0, 2⟩ })],
    slots := [(0, { slot0 with state := st, check := 1, tag := 1, cur := 1 }), (15, { slot0 with state := .armed, tag := 1, next := next })] }

/-- A completion with no next chain, with one that is not ARMED, and with one that starts and waits. -/
theorem witness_StartChainRunsToRest_completes :
    ∀ p, p ∈ [((none : Option Nat), ChainState.idle), (some 0, .idle), (some 0, .armed)] →
      let tb := tbEnds p.1 p.2
      let y := tb.slot 15
      let e := tb.entry 0
      (y.state = .armed ∧ (tb.check 0).chain = none ∧ e.kind = .fire ∧ e.reorder = false ∧ e.repeats ≤ 1) ∧
      (y.mode = .once ∧ y.passesDone = 0 ∧ y.next = p.1) ∧
      ((pathOf tb y.first).1.filter (fun k => (tb.entry k).kind == .fire)).getLast? = some y.cur ∧
      (planFire tb [0]).length ≤ freeTickets tb ∧
      ((tb.slot 0).state = p.2 ∧ (tb.check (tb.slot 0).check).chain = none ∧ (tb.entry (tb.slot 0).cur).kind = .wait ∧
        (tb.entry (tb.slot 0).cur).dur.count ≠ 0 ∧ (tb.slot 0).interval ≤ (tb.slot 0).phase) := by
  decide +kernel

/-- Lane 64 of 64; a read; a write to a locked lane; and a write that makes lane 1 OFF, no check being held. -/
theorem witness_SetProfileWritesUnlocked :
    (∀ b, b ∈ [[0x40], [0x3F], [0x0101, 0]] →
      Allowed 33 quiet (stateT .run tbL (some (reqT 33 b))) (reqT 33 b) ∧ Canonical (stateT .run tbL (some (reqT 33 b)))) ∧
    (tbL.cfg.laneCount = 64 ∧ reqByte (reqT 33 [0x40]) 0 0 = 64 ∧ reqByte (reqT 33 [0x3F]) 0 1 = 0) ∧
    (({ tbL with lanes := lanesT ++ [(3, { lane0 with lock := true })] } : Tables).lane 3).lock = true ∧
    ((tbL.lane 1).lock = false ∧ ∀ i, 1024 ≤ i → (tbL.check i).holder = none) :=
  ⟨by unfold Canonical; decide +kernel, by decide +kernel, by decide +kernel, ⟨by decide +kernel, fun i h => by
    have : i ≠ 0 := by omega
    simp [Tables.check, tbL, tbC, tget, this, check0, freeCheck]⟩⟩

/-- Station 16, item 512, lane 64 and a set 4; a TILL asking for another lane; and each set's last index, cleared by the SUPERVISOR. -/
theorem witness_ViewReadsAndClears :
    (∀ w, w ∈ [0x00100000, 0x02000001, 0x00400002, 4, 0x000F0100, 0x01FF0101, 0x003F0102, 0x00000103] →
      Allowed 34 quiet (stateT .run tbI (some (reqT 34 [BitVec.ofNat 32 w]))) (reqT 34 [BitVec.ofNat 32 w])) ∧
    (let r := reqOf 1 34 [0x00020002]
     Allowed 34 quiet (stateT .run tbI (some r)) r ∧ (tbI.lane 1).role = .till ∧ reqByte r 0 0 = 2 ∧ hi16 (reqWord r 0) ≠ 1) :=
  ⟨by decide +kernel, by decide +kernel⟩

/-! ### Time -/

theorem witness_BaseTickAdvances :
    let s := stateT .run tbL none
    Canonical s ∧ ticksIn s.engine = true ∧ nextDue s = none ∧ quiet.errs = [] ∧ s.aligned = true ∧ s.tmb.mults.length = 7 ∧
    s.tmb.counters.length = 8 ∧ ticksIn EngineState.parking = true := by
  unfold Canonical
  decide +kernel

/-- A timer at its last tick, the tick having come. -/
def dueT : Timer := { level := 0, left := 1, due := true }

/-- Station 15 with an aging timer and a gate hold that are due, a late ticket waiting in NORMAL behind a closed gate. -/
def tbAging : Tables :=
  { tbFired with tickets := [(0, { tag := 1, order := some { railT with onRail := false, releasedAt := none, station := 15 } })],
                 stations := [(15, { stationT with normal := [0], gateMode := .gather, gateOpen := false, fast := true,
                                                   holdTimer := some dueT, aging := ⟨0, 1⟩, agingTimer := some dueT })] }

/-- `tbAging` with one of the two timers only. -/
def tbOnly (aging : Bool) : Tables :=
  tbAging.setStations (tset station0 tbAging.stations 15
    (let x := tbAging.station 15
     if aging then { x with holdTimer := none } else { x with agingTimer := none }))

/-- Both timers of a station due, its aging alone, its hold alone; and the attention delay. -/
theorem witness_AgingHoldAndDelayExpire :
    (∀ tb, tb ∈ [tbAging, tbOnly true] →
     let s := stateT .run tb none
     let x := s.tb.station 15
     15 < 16 ∧ quiet.errs = [] ∧ s.aligned = true ∧ ticksIn s.engine = true ∧ timerDue x.agingTimer = true ∧
     (x.rail ++ x.rush0 ++ x.rush1 ++ x.normal).Nodup ∧ x.railLimit ≤ 12) ∧
    (timerDue (tbAging.station 15).holdTimer = true ∧ timerDue ((tbOnly true).station 15).holdTimer = false ∧
     timerDue ((tbOnly false).station 15).holdTimer = true ∧ timerDue ((tbOnly false).station 15).agingTimer = false) ∧
    (let s := (stateT .run tbL none).setNtw { ntw0 with count := 1, threshold := 2, timer := .armed dueT }
     ticksIn s.engine = true ∧ s.ntw.timer = .armed dueT ∧ dueT.due = true) :=
  by decide +kernel

/-- Chain slot 15 in a given state at a given entry, the CCU's event waiting; entry 3 is a wait that leads on to the wait of entry 1. -/
def slotT (st : ChainState) (cur : Nat) : State :=
  let tb := tbChain 15 st cur
  let x := { tb.slot 15 with timer := some dueT }
  (stateT .run { tb with program := programT ++ [(3, { progEntry0 with next := some 1, dur := ⟨0, 1⟩ })], slots := [(15, x)] }
    none).setDue { due0 with ccu := true }

/-- The same with slot 0 in the state of slot 15. -/
def slotsT (st : ChainState) (cur : Nat) : State :=
  let s := slotT st cur
  s.setTb (s.tb.setSlots (tset slot0 s.tb.slots 0 (s.tb.slot 15)))

/-- Slot 15 alone, in each of the three states; and the waits of slots 0 and 15 over at one base tick. -/
theorem witness_ChainWalkRunsSlots :
    (∀ p, p ∈ [(ChainState.waiting, 3), (.firing, 3), (.firing, 0), (.stalled, 0)] →
      ∀ k, k < 16 → k ≠ 15 → slotDue ((slotT p.1 p.2).tb.slot k) = none) ∧
    (let s := slotT .waiting 3
     slotIsDue s 15 .wait = true ∧ (s.tb.entry 3).kind = .wait ∧ (s.tb.entry 3).next = some 1 ∧ (s.tb.entry 1).kind = .wait ∧
     (s.tb.entry 1).dur.count ≠ 0 ∧ (s.tb.slot 15).cur = 3 ∧ (s.tb.slot 15).interval ≤ (s.tb.slot 15).phase) ∧
    (let s := slotsT .waiting 3
     slotIsDue s 0 .wait = true ∧ slotIsDue s 15 .wait = true ∧ s.tb.slot 0 = s.tb.slot 15 ∧ s.tb.slot 15 = (slotT .waiting 3).tb.slot 15 ∧
     ∀ k, k < 16 → k ≠ 0 → k ≠ 15 → slotDue (s.tb.slot k) = none) ∧
    (let s := slotT .firing 3
     slotIsDue s 15 .firing = true ∧ (s.tb.entry 3).kind = .wait ∧ (s.tb.entry 3).dur.count ≠ 0 ∧ (s.tb.entry 3).next.isSome = true) ∧
    (∀ p, p ∈ [(ChainState.firing, SlotEvent.firing), (.stalled, .stalled)] →
      let s := slotT p.1 0
      let e := s.tb.entry 0
      slotIsDue s 15 p.2 = true ∧ s.aligned = true ∧ e.kind = .fire ∧
      (planFire s.tb [0]).length = 1 ∧ 1 ≤ freeTickets s.tb ∧ 1 < e.repeats ∧ 1 < (s.tb.slot 15).reps ∧ e.next = some 1 ∧
      (s.tb.entry 1).kind = .wait ∧ (s.tb.entry 1).dur.count ≠ 0) ∧
    freeTickets { (slotT .stalled 0).tb with tickets := fullTickets } < 1 :=
  ⟨by decide +kernel, by decide +kernel, by decide +kernel, by decide +kernel, by decide +kernel, by rw [full_tickets]; decide⟩

/-- A wait over at the end of a path: slot 15 at entry 1, its first entry the wait of entry 3. -/
theorem witness_ChainWalkRunsSlots_pass :
    let s := slotT .waiting 1
    let s1 := s.setTb (s.tb.setSlots (tset slot0 s.tb.slots 15 { s.tb.slot 15 with first := 3 }))
    let y := s1.tb.slot 15
    slotIsDue s1 15 .wait = true ∧ (∀ k, k < 16 → k ≠ 15 → slotDue (s1.tb.slot k) = none) ∧ (s1.tb.entry y.cur).kind = .wait ∧
    (s1.tb.entry y.cur).next = none ∧ (s1.tb.entry y.first).kind = .wait ∧ (s1.tb.entry y.first).dur.count ≠ 0 ∧
    (s1.tb.entry y.first).next.isSome = true := by
  decide +kernel

/-- Entry 63 about to act, for an action of each kind, the TAT's event waiting; and what else is in the table. -/
def actionsT (more : List (Nat × TimedEntry)) (a : Action) : State :=
  (stateT .run { tbChain 15 .armed 1 with
    actions := more ++ [(63, { timedEntry0 with period := 4, countdown := 1, jitter := 3, action := a })] } none).setDue
    { due0 with ticked := 1, tat := true }

def actionT (a : Action) : State := actionsT [] a

/-- Two actions of one kind, entries 0 and 63: bands, prompts, steps and gates that undo each other. -/
def pairsT : List (Action × Action) :=
  [(.setBand 3, .setBand 0), (.prompt 255, .prompt 0), (.stepIntake 15 .opening .direct, .stepIntake 15 .closing .direct),
   (.setGate 15 .gather, .setGate 15 .opened)]

/-- An entry that acts at a tick of level 0. -/
def actingT (a : Action) : TimedEntry := { timedEntry0 with period := 255, countdown := 1, jitter := 2, action := a }

/-- Entry 63 alone, entry 62 counting down; and entries 0 and 63 acting at one base tick. -/
theorem witness_TimedActionActsAndReloads :
    (∀ a, a ∈ [Action.setBand 3, .prompt 255, .stepIntake 15 .opening .staged, .setGate 15 .gather, .startChain 15, .startChain 0] →
      let s := actionsT [(62, { timedEntry0 with period := 9, countdown := 2, jitter := 1 })] a
      let e := s.tb.action 63
      63 < 64 ∧ s.engine = .run ∧ s.due.tat = true ∧ quiet.errs = [] ∧ s.aligned = true ∧ e.action = a ∧
      e.period ≠ 0 ∧ e.level < s.due.ticked ∧ e.countdown ≤ 1 ∧
      (∀ k, k < 64 → k ≠ 63 → (s.tb.action k).period ≠ 0 → (s.tb.action k).level < s.due.ticked → 1 < (s.tb.action k).countdown)) ∧
    (∀ q, q ∈ pairsT →
      let s := actionsT [(0, actingT q.1)] q.2
      let e := s.tb.action 0
      let d := s.tb.action 63
      (s.engine = .run ∧ s.due.tat = true ∧ s.aligned = true ∧ e.action = q.1 ∧ d.action = q.2) ∧
      (e.period ≠ 0 ∧ e.level < s.due.ticked ∧ e.countdown ≤ 1) ∧ (d.period ≠ 0 ∧ d.level < s.due.ticked ∧ d.countdown ≤ 1)) ∧
    (∀ q, q ∈ pairsT → ∀ k, k < 64 → k ≠ 0 → k ≠ 63 → ((actionsT [(0, actingT q.1)] q.2).tb.action k).period = 0) ∧
    (let tb := (actionT (.setGate 15 .gather)).tb
     15 < 16 ∧ (tb.station 15).gateMode = .opened ∧ (tb.station 15).rush1 = [] ∧ (tb.station 15).normal = [] ∧
     (tb.slot 0).state ≠ .armed ∧ (tb.slot 15).state = .armed ∧ (tb.check (tb.slot 15).check).chain = none ∧
     (tb.entry 1).kind = .wait ∧ (tb.entry 1).dur.count ≠ 0 ∧ (tb.slot 15).interval ≤ (tb.slot 15).phase) ∧
    (tbAging.station 15).gateMode = .gather :=
  ⟨by decide +kernel, by decide +kernel, by decide +kernel, by decide +kernel, by decide +kernel⟩

/-- No check owed; check 0 owed and no room; and check 0 owed, its line to fire. -/
theorem witness_OwedRetryBuildsOrCounts :
    (let s := (stateT .run tbL none).setDue { due0 with owed := true }
     isDue s .owed = true ∧ s.tb.owed = []) ∧
    (let s := (stateT .run { tbL with owed := [0] } none).setDue { due0 with owed := true }
     isDue s .owed = true ∧ s.tb.owed = [0] ∧ s.aligned = true ∧ unsent s.tb (s.tb.check 0).lines = [0] ∧
     (planFire s.tb [0]).length = 1 ∧ 1 ≤ freeTickets s.tb) ∧
    freeTickets { ({ tbL with owed := [0] } : Tables) with tickets := fullTickets } < 1 :=
  ⟨by decide +kernel, by decide +kernel, by rw [full_tickets]; decide⟩

/-! ### Bill arithmetic -/

theorem witness_AllocationDividesExactly :
    ([0, 0] : List Nat) ≠ [] ∧ (([0, 5] : List Nat).sum ≠ 0 ∧ [0, 5].getD 0 0 = 0 ∧ [0, 5].getD 1 0 = ([0, 5] : List Nat).sum) ∧
    (99999999 ≤ 99999999 ∧ (0 : Nat) ≤ 99999999) := by
  decide

/-- A PAID payer and an unpaid one; and two unpaid ones over one line. -/
theorem witness_BillFiguresAddUp :
    let paid : Payer := { emptyPayer with status := .paid, share := 2000, tendered := 2000, tenders := 1 }
    let f := computeBill .even ⟨825, 0, 0, 0⟩ 0 [paid, emptyPayer] [lineT]
    (emptyPayer ∈ [paid, emptyPayer] ∧ emptyPayer.status ≠ .paid) ∧ (paid.status = .paid ∧ f.total < 2000) ∧
    (∀ p, p ∈ [emptyPayer, emptyPayer] → p.status ≠ .paid) ∧ [emptyPayer, emptyPayer] ≠ [] ∧ (∀ l, l ∈ [lineT] → l.taxClass ≤ 3) := by
  decide

/-! ### Arithmetic: the tables of the manual -/

/-- The three examples under R25. -/
theorem test_nets :
    [(1950, 15), (1400, 15), (999, 33)].map (fun x => lineNet { lineT with price := x.1, discount := x.2 }) = [1657, 1190, 669] := by
  decide

/-- The examples under R30. -/
theorem test_even_shares :
    allocate 4166 [1, 1, 1] = [1389, 1389, 1388] ∧ allocate 100 (List.replicate 8 1) = [13, 13, 13, 13, 12, 12, 12, 12] ∧
    allocate 7 (List.replicate 8 1) = [1, 1, 1, 1, 1, 1, 1, 0] := by decide

/-- The worked case of chapter 2: four lines among three payers. -/
theorem test_worked_bill :
    let line := fun (p q c : Nat) (a : Assign) => { lineT with price := p, qty := q, taxClass := c, assign := a }
    let f := computeBill .byLine ⟨825, 1000, 0, 0⟩ 0 [emptyPayer, emptyPayer, emptyPayer]
      [line 1250 2 0 (.single 1), line 950 3 1 (.set [1, 2, 3]), line 1100 1 0 (.set [2, 3]), line 500 1 0 .pool]
    f.subtotal = 6950 ∧ f.taxes = ⟨338, 285, 0, 0⟩ ∧ f.total = 7573 ∧ f.payers.map (·.share) = [3932, 1821, 1820] := by
  decide +kernel

/-- The lower ends of the ranges of R122. -/
theorem test_jitter_ranges :
    [1, 8, 10, 20].map (jitterLow 1) = [1, 6, 8, 15] ∧ [1, 8, 10, 20].map (jitterLow 2) = [1, 4, 5, 10] := by decide

/-! ### One step of each command -/

theorem test_powerOn : nextIs (fun t => t.engine == .stopped && t.tb.checks == [] && t.rqu.inFlight == none) (exec .powerOn wSend) = true := by
  decide +kernel
theorem test_start :
    nextIs (fun t => t.engine == .run && t.tb.cfg.laneCount == 64) (exec (.start quiet none) (blockT 64 64)) = true := by decide +kernel
theorem test_start_lanes :
    nextIs (fun t => t.engine == .stopped && t.enc.configError == .cfgLanes) (exec (.start quiet none) (blockT 65 1)) = true := by
  decide +kernel
theorem test_startLoad : nextIs (fun t => t.engine == .load) (exec (.startLoad quiet none) (blockT 1 1)) = true := by decide +kernel
theorem test_run : nextIs (fun t => t.engine == .run) (exec .run (stateT .load tbT none)) = true := by decide +kernel
theorem test_enterRun :
    nextIs (fun t => t.engine == .run)
      (exec .enterRun ((stateT .load tbT none).setEnc { (stateT .load tbT none).enc with runPending := true })) = true := by
  decide +kernel
theorem test_park : nextIs (fun t => t.engine == .parking) (exec .park (stateT .run tbT none)) = true := by decide +kernel
theorem test_enterParked :
    nextIs (fun t => t.engine == .parked)
      (exec .enterParked ((stateT .parking tbT none).setEnc { (stateT .parking tbT none).enc with parkPending := true })) = true := by
  decide +kernel
/-- The default restart policy is CLOSED: station 1 closes, with a notice (R98). -/
theorem test_wake :
    nextIs (fun t => t.engine == .run && (t.tb.station 1).intake == .closed && t.ntw.written == 1)
      (exec (.wake quiet) (stateT .parked tbL none)) = true := by decide +kernel
theorem test_wakeInput_elsewhere : nextIs (fun t => t.engine == .run) (exec (.wakeInput quiet) (stateT .run tbT none)) = true := by
  decide +kernel
/-- RESTART abandons the request in flight with ABORTED (R171). -/
theorem test_restart :
    nextIs (fun t => t.engine == .stopped && t.rqu.inFlight == none && t.rqu.pending.map (·.answer.code.code) == some 16)
      (exec .restart wSend) = true := by decide +kernel
theorem test_baseWrite : nextIs (fun t => t.base == 0x100000000) (exec (.baseWrite true 1) State.reset) = true := by decide +kernel
/-- "hub writes 3" of the worked sequence of chapter 10: a count of 4 falls to 1 and the delay is armed anew. -/
theorem test_attnAck :
    nextIs (fun t => t.ntw.count == 1 && t.ntw.line == false && t.ntw.timer == .armed { level := 1, left := 2, due := false })
      (exec (.attnAck 3) (State.reset.setNtw { ntw0 with count := 4, threshold := 8, delay := ⟨1, 2⟩, timer := .expired, line := true }))
      = true := by decide +kernel
theorem test_registerWrite_restart :
    nextIs (fun t => t.engine == .stopped) (exec (.registerWrite .ctrl 0x20 quiet) (stateT .run tbT none)) = true := by decide +kernel
/-- The sweep takes from slot 7 and its pointer wraps to 0 (R147). -/
theorem test_sweepVisit :
    nextIs (fun t => t.rqu.inFlight.isSome && (t.tb.lane 63).pointer == 0 && t.wordAt (slotOff 63 7) == 2)
      (exec (.sweepVisit quiet) (sweepT .load .supervisor 1)) = true := by decide +kernel
theorem test_badreq : nextIs (fun t => codeAt 0 t == 15) (exec (.badreq quiet) (stateT .run tbT (some (reqT 35 [])))) = true := by
  decide +kernel
theorem test_openCheck :
    nextIs (fun t => codeAt 0 t == 0 && bodyAt 0 0 t == 65536 && bodyAt 0 2 t == 1200 && (t.tb.check 0).state == .opened)
      (exec (.openCheck quiet) (stateT .run tbT (some (reqT 1 [0, 0x01000000, 0])))) = true := by decide +kernel
/-- Two of item 1 at 1200: 2400 and 198 of tax at 825. -/
theorem test_addLine :
    nextIs (fun t => bodyAt 0 1 t == 2400 && bodyAt 0 3 t == 2598 && (t.tb.item 1).reserved == 2)
      (exec (.addLine quiet) (stateT .run (tbC openT []) (some (reqT 2 [ref0, 0x00020001, 0])))) = true := by decide +kernel
/-- Six of five portions: OUT, 5. -/
theorem test_addLine_out :
    nextIs (fun t => codeAt 0 t == 5 && (t.tb.item 1).reserved == 0)
      (exec (.addLine quiet) (stateT .run (tbC openT []) (some (reqT 2 [ref0, 0x00060001, 0])))) = true := by decide +kernel
/-- A discount of 50 on 1200: 600, and 50 of tax (49.5, upward). -/
theorem test_setLine :
    nextIs (fun t => bodyAt 0 0 t == 600 && bodyAt 0 2 t == 650)
      (exec (.setLine quiet) (stateT .run tbL (some (reqT 3 [ref0, 0x00080000, 0x32000000])))) = true := by decide +kernel
theorem test_voidLine :
    nextIs (fun t => bodyAt 0 1 t == 0 && (t.tb.item 1).reserved == 0 && (t.tb.cItem 1).unmade == 1)
      (exec (.voidLine quiet) (stateT .run tbL (some (reqT 4 [ref0, 0])))) = true := by decide +kernel
theorem test_send :
    nextIs (fun t => bodyAt 0 0 t == 1 && bodyAt 0 1 t == 1 && (t.tb.station 1).rail == [0] && (t.tb.check 0).outstanding == 1)
      (exec (.send quiet) (stateT .run tbL (some (reqT 5 [ref0, 0xFF])))) = true := by decide +kernel
theorem test_voidCheck :
    nextIs (fun t => t.tb.check 0 == freeCheck 2 && t.tb.lines == []) (exec (.voidCheck quiet) (stateT .run tbL (some (reqT 6 [ref0]))))
      = true := by decide +kernel
theorem test_readCheck :
    nextIs (fun t => bodyAt 0 14 t == 1299) (exec (.readCheck quiet) (stateT .run tbL (some (reqT 7 [ref0, 0])))) = true := by
  decide +kernel
theorem test_takeHold :
    nextIs (fun t => (t.tb.check 0).holder == some 0 && bodyAt 0 1 t == 1200)
      (exec (.takeHold quiet) (stateT .run tbL (some (reqT 8 [ref0])))) = true := by decide +kernel
theorem test_releaseHold :
    nextIs (fun t => bodyAt 0 0 t == 255) (exec (.releaseHold quiet) (stateT .run tbL (some (reqT 9 [ref0])))) = true := by decide +kernel
theorem test_transfer :
    nextIs (fun t => (t.tb.check 0).holder == some 1) (exec (.transfer quiet) (stateT .run tbL (some (reqT 10 [ref0, 1])))) = true := by
  decide +kernel
theorem test_breakHold :
    nextIs (fun t => (t.tb.check 0).holder == none && bodyAt 0 0 t == 5 && t.ntw.written == 1)
      (exec (.breakHold quiet) (stateT .run tbHeld (some (reqT 11 [ref0])))) = true := by decide +kernel
theorem test_setPayers :
    nextIs (fun t => (t.tb.check 0).payers.map (·.share) == [433, 433, 433])
      (exec (.setPayers quiet) (stateT .run tbL (some (reqT 12 [ref0, 3])))) = true := by decide +kernel
theorem test_setSplit :
    nextIs (fun t => (t.tb.check 0).split == .byLine && bodyAt 0 1 t == 1299)
      (exec (.setSplit quiet) (stateT .run tbL (some (reqT 13 [ref0, 1])))) = true := by decide +kernel
/-- 2000 on a share of 1299: change 701, the check PAID and freed. -/
theorem test_tender :
    nextIs (fun t => bodyAt 0 4 t == 701 && (t.tb.check 0).state == .free && (t.tb.cLane 0).tenderTotal == 2000)
      (exec (.tender quiet) (stateT .run tbFired (some (reqT 14 [ref0, 1, 2000, 0])))) = true := by decide +kernel
theorem test_readSplit :
    nextIs (fun t => codeAt 0 t == 8) (exec (.readSplit quiet) (stateT .run tbL (some (reqT 15 [ref0, 9])))) = true := by decide +kernel
theorem test_defineItem :
    nextIs (fun t => codeAt 0 t == 0 && (t.tb.item 3).prices == ⟨1, 2, 3, 4⟩ && (t.tb.item 3).station == 15)
      (exec (.defineItem quiet) (stateT .run tbI (some (reqT 16 [3, 0x0000010F, 1, 2, 3, 4])))) = true := by decide +kernel
theorem test_setBand :
    nextIs (fun t => t.tb.band == 3 && bodyAt 0 0 t == 768) (exec (.setBand quiet) (stateT .run tbI (some (reqT 17 [3])))) = true := by
  decide +kernel
theorem test_clearShort_composite :
    nextIs (fun t => codeAt 0 t == 8) (exec (.clearShort quiet) (stateT .run tbI (some (reqT 18 [2])))) = true := by decide +kernel
theorem test_readItem :
    nextIs (fun t => codeAt 0 t == 0) (exec (.readItem quiet) (stateT .run tbI (some (reqT 19 [1])))) = true := by decide +kernel
theorem test_yieldItem :
    nextIs (fun t => codeAt 0 t == 1 && (t.tb.item 1).onHand == 65535 && (t.tb.cItem 1).excess == 5)
      (exec (.yieldItem quiet) (stateT .run tbI (some (reqT 20 [1, 65535])))) = true := by decide +kernel
theorem test_waste :
    nextIs (fun t => codeAt 0 t == 1 && (t.tb.item 1).onHand == 0 && (t.tb.item 1).level == .out && t.ntw.written == 1)
      (exec (.waste quiet) (stateT .run tbI (some (reqT 21 [1, 9])))) = true := by decide +kernel
theorem test_stockCount :
    nextIs (fun t => codeAt 0 t == 1 && (t.tb.item 1).onHand == 1) (exec (.stockCount quiet) (stateT .run tbL (some (reqT 22 [1, 0])))) =
      true := by decide +kernel
theorem test_bump :
    nextIs (fun t => (t.tb.item 1).onHand == 4 && (t.tb.item 1).reserved == 0 && t.tb.ticket 0 == { tag := 2, order := none } &&
        (t.tb.cStation 1).onTime == 1)
      (exec (.bump quiet) (stateT .run tbK (some (reqT 23 [ref0])))) = true := by decide +kernel
theorem test_remake :
    nextIs (fun t => (t.tb.line 1).map (·.isRemake) == some true && (t.tb.station 1).rail == [0, 1] && (t.tb.check 0).total == 1299)
      (exec (.remake quiet) (stateT .run tbK (some (reqT 24 [ref0, 0])))) = true := by decide +kernel
theorem test_stepIntake :
    nextIs (fun t => (t.tb.station 1).intake == .lastCall && t.ntw.written == 1)
      (exec (.stepIntake quiet) (stateT .run tbI (some (reqT 25 [0x00000101])))) = true := by decide +kernel
theorem test_setStation :
    nextIs (fun t => codeAt 0 t == 1 && (t.tb.station 15).railLimit == 12)
      (exec (.setStation quiet) (stateT .run tbI (some (reqT 26 [0x0000100F, 0x0D000000])))) = true := by decide +kernel
theorem test_setAction :
    nextIs (fun t => codeAt 0 t == 1 && (t.tb.action 63).countdown == 4)
      (exec (.setAction quiet) (stateT .run tbI (some (reqT 27 [0x013F, 0x00FF0400, 0x03])))) = true := by decide +kernel
theorem test_writeProgram_loaded :
    nextIs (fun t => codeAt 0 t == 11 && bodyAt 0 0 t == 15)
      (exec (.writeProgram quiet) (stateT .run (tbChain 15 .armed 0) (some (reqT 28 [0x0101, 0x01000000])))) = true := by decide +kernel
theorem test_armChain :
    nextIs (fun t => codeAt 0 t == 0 && (t.tb.slot 0).state == .armed && (t.tb.slot 0).check == 0)
      (exec (.armChain quiet) (stateT .run tbArm (some (reqT 29 [0x01020000, ref0, 0xFF01])))) = true := by decide +kernel
theorem test_startChain :
    nextIs (fun t => (t.tb.slot 15).state == .waiting && (t.tb.slot 15).reps == 1 && (t.tb.check 0).outstanding == 1)
      (exec (.startChain quiet) (stateT .run (tbChain 15 .armed 0) (some (reqT 30 [15])))) = true := by decide +kernel
theorem test_stopChain :
    nextIs (fun t => (t.tb.slot 15).state == .done)
      (exec (.stopChain quiet) (stateT .run (tbChain 15 .waiting 1) (some (reqT 31 [15])))) = true := by decide +kernel
theorem test_readChain :
    nextIs (fun t => codeAt 0 t == 8) (exec (.readChain quiet) (stateT .run tbI (some (reqT 32 [16])))) = true := by decide +kernel
theorem test_setProfile :
    nextIs (fun t => (t.tb.lane 1).role == .supervisor && (t.tb.lane 1).lock == true)
      (exec (.setProfile quiet) (stateT .run tbI (some (reqT 33 [0x0101, 0x01000003])))) = true := by decide +kernel
theorem test_view :
    nextIs (fun t => bodyAt 0 4 t == 1 && bodyAt 0 5 t == 2 && t.tb.cLanes == [])
      (exec (.view quiet) (stateT .run { tbI with cLanes := [(3, { laneCount0 with tenderTotal := 8589934593 })] }
        (some (reqT 34 [0x00030102])))) = true := by decide +kernel
theorem test_baseTick :
    nextIs (fun t => t.tb.time == 1 && t.wordAt 0x204 == 1) (exec (.baseTick quiet) (stateT .run tbL none)) = true := by decide +kernel

/-- R96, R112, R122: a step to OPEN and one back to CLOSED at one base tick write two notices and rewrite the window once. -/
theorem test_timedAction_undone :
    nextIs (fun t => (t.tb.station 15).intake == .closed && (t.tb.station 15).winCount == 2 && t.ntw.written == 2)
      (exec (.timedAction 0 quiet) (actionsT [(0, actingT (.stepIntake 15 .opening .direct))] (.stepIntake 15 .closing .direct))) = true :=
  by decide +kernel

theorem test_timedAction :
    nextIs (fun t => t.tb.band == 3 && t.due.tat == false) (exec (.timedAction 63 quiet) (actionT (.setBand 3))) = true := by decide +kernel
theorem test_owedRetry :
    nextIs (fun t => t.tb.owed == [] && (t.tb.station 1).rail == [0])
      (exec (.owedRetry quiet) ((stateT .run { tbL with owed := [0] } none).setDue { due0 with owed := true })) = true := by decide +kernel
/-- A late ticket in NORMAL: OVERDUE, promoted, the gate opened by the fast flag, and the ticket released. -/
theorem test_agingTick :
    nextIs (fun t => (t.tb.station 15).rail == [0] && (t.tb.check 0).overdue && t.ntw.written == 1 && (t.tb.cStation 15).byFast == 1)
      (exec (.agingTick 15 quiet) (stateT .run tbAging none)) = true := by decide +kernel
theorem test_gateHoldExpiry :
    nextIs (fun t => (t.tb.station 15).rail == [0] && (t.tb.cStation 15).byHold == 1)
      (exec (.gateHoldExpiry 15 quiet) (stateT .run tbAging none)) = true := by decide +kernel
theorem test_attentionDelayExpiry :
    nextIs (fun t => t.ntw.line && t.ntw.timer == .expired)
      (exec .attentionDelayExpiry ((stateT .run tbL none).setNtw { ntw0 with count := 1, threshold := 2, timer := .armed dueT })) = true := by
  decide +kernel
theorem test_chainWaitExpiry :
    nextIs (fun t => (t.tb.slot 15).cur == 1 && (t.tb.slot 15).timer == some { level := 0, left := 2, due := false })
      (exec (.chainWaitExpiry 15 quiet) (slotT .waiting 3)) = true := by decide +kernel
theorem test_firingSlotRun :
    nextIs (fun t => (t.tb.slot 15).state == .waiting && (t.tb.station 1).rail == [0])
      (exec (.firingSlotRun 15 quiet) (slotT .firing 0)) = true := by decide +kernel
theorem test_chainStallRetry :
    nextIs (fun t => (t.tb.slot 15).state == .waiting && (t.tb.slot 15).reps == 1)
      (exec (.chainStallRetry 15 quiet) (slotT .stalled 0)) = true := by decide +kernel

end Sys2Proof.Tests
end

section
/-!
The largest-remainder allocation of R29, read by payer index: the order of step 4 as a place for every recipient, the units left over
after the first receipts, and what each recipient receives.
-/

namespace Sys2Proof.Machine

/-! ### The order of step 4 -/

/-- How many of the recipients 0 to `n - 1` stand before recipient `i` in the order of R29 step 4, `rest` being their remainders. -/
def standing (rest : Nat → Nat) (n i : Nat) : Nat :=
  ((List.range n).filter (fun j => decide (rest i < rest j ∨ (rest j = rest i ∧ j < i)))).length

theorem standing_eq_card (rest : Nat → Nat) (n i : Nat) :
    standing rest n i = ((Finset.range n).filter (fun j => rest i < rest j ∨ (rest j = rest i ∧ j < i))).card := rfl

theorem standing_lt (rest : Nat → Nat) {n i : Nat} (hi : i < n) : standing rest n i < n := by
  have self_out : ∃ j ∈ Finset.range n, ¬(rest i < rest j ∨ (rest j = rest i ∧ j < i)) := ⟨i, by simpa using hi, by simp⟩
  simpa [standing_eq_card] using Finset.card_lt_card (Finset.filter_ssubset.2 self_out)

theorem standing_lt_of_before {rest : Nat → Nat} {n i j : Nat} (hj : j < n) (h : rest i < rest j ∨ (rest j = rest i ∧ j < i)) :
    standing rest n j < standing rest n i := by
  rw [standing_eq_card, standing_eq_card]
  refine Finset.card_lt_card ((Finset.ssubset_iff_of_subset fun k hk => ?_).2 ⟨j, by simp [hj, h], by simp⟩)
  simp only [Finset.mem_filter, Finset.mem_range] at hk ⊢
  omega

theorem standing_injOn (rest : Nat → Nat) (n : Nat) : Set.InjOn (standing rest n) (Finset.range n) := by
  intro i hi j hj heq
  simp only [Finset.coe_range, Set.mem_Iio] at hi hj
  by_contra hne
  rcases (by omega : (rest i < rest j ∨ (rest j = rest i ∧ j < i)) ∨ (rest j < rest i ∨ (rest i = rest j ∧ i < j))) with h | h
  · exact absurd (standing_lt_of_before hj h) (by omega)
  · exact absurd (standing_lt_of_before hi h) (by omega)

/-- The places 0 to `n - 1` are each taken once, so exactly `k` recipients stand on the first `k` places. -/
theorem card_standing_lt (rest : Nat → Nat) {n k : Nat} (hk : k ≤ n) :
    ((Finset.range n).filter (fun i => standing rest n i < k)).card = k := by
  have all_places : (Finset.range n).image (standing rest n) = Finset.range n := by
    refine Finset.eq_of_subset_of_card_le (fun m hm => ?_) (by rw [Finset.card_image_of_injOn (standing_injOn rest n)])
    obtain ⟨i, hi, rfl⟩ := Finset.mem_image.1 hm
    simpa using standing_lt rest (by simpa using hi)
  have first_places : ((Finset.range n).filter (fun i => standing rest n i < k)).image (standing rest n) = Finset.range k := by
    rw [← Finset.filter_image (p := (· < k)), all_places]
    ext m
    simp only [Finset.mem_filter, Finset.mem_range]
    omega
  rw [← Finset.card_image_of_injOn ((standing_injOn rest n).mono (Finset.coe_subset.2 (Finset.filter_subset _ _))), first_places,
    Finset.card_range]

/-! ### The units of steps 2 to 4 -/

theorem sum_map_range_eq (f : Nat → Nat) (n : Nat) : ((List.range n).map f).sum = ∑ i ∈ Finset.range n, f i := rfl

theorem map_range_getD (ws : List Nat) : (List.range ws.length).map (fun i => ws.getD i 0) = ws :=
  List.ext_getElem (by simp) (fun i _ hi => by simp [hi])

/-- The first receipt of recipient `i` (R29 step 2). -/
def firstReceipt (x : Nat) (es : List Nat) (i : Nat) : Nat := x * es.getD i 0 / es.sum

/-- The remainder of recipient `i` (R29 step 2). -/
def remainderOf (x : Nat) (es : List Nat) (i : Nat) : Nat := x * es.getD i 0 % es.sum

/-- The units left over after the first receipts (R29 step 3). -/
def leftover (x : Nat) (es : List Nat) : Nat := x - ((List.range es.length).map (firstReceipt x es)).sum

/-- What recipient `i` receives (R29 step 4). -/
def receipt (x : Nat) (es : List Nat) (i : Nat) : Nat :=
  firstReceipt x es i + if standing (remainderOf x es) es.length i < leftover x es then 1 else 0

section Units
variable {x : Nat} {es : List Nat}

theorem remainderOf_lt (hpos : 0 < es.sum) (i : Nat) : remainderOf x es i < es.sum := Nat.mod_lt _ hpos

theorem length_pos_of_sum_pos (hpos : 0 < es.sum) : 0 < es.length := by
  cases es with
  | nil => simp at hpos
  | cons w ws => simp

/-- Dividing each `x * w` by the sum of the weights loses nothing: quotients and remainders together make `x` times that sum. -/
theorem sum_firstReceipt_add_sum_remainderOf (x : Nat) (es : List Nat) :
    es.sum * ((List.range es.length).map (firstReceipt x es)).sum + ((List.range es.length).map (remainderOf x es)).sum =
      x * es.sum := by
  calc _ = ((List.range es.length).map (fun i => x * es.getD i 0)).sum := by
        simp only [sum_map_range_eq, Finset.mul_sum, ← Finset.sum_add_distrib, firstReceipt, remainderOf, Nat.div_add_mod]
    _ = x * es.sum := by rw [List.sum_map_mul_left, map_range_getD]

theorem sum_firstReceipt_le (hpos : 0 < es.sum) : ((List.range es.length).map (firstReceipt x es)).sum ≤ x := by
  have parts := sum_firstReceipt_add_sum_remainderOf x es
  rw [mul_comm x] at parts
  exact Nat.le_of_mul_le_mul_left (by omega) hpos

theorem sum_firstReceipt_add_leftover (hpos : 0 < es.sum) :
    ((List.range es.length).map (firstReceipt x es)).sum + leftover x es = x :=
  Nat.add_sub_cancel' (sum_firstReceipt_le hpos)

/-- The units left over are what the remainders make together. -/
theorem sum_mul_leftover (hpos : 0 < es.sum) :
    es.sum * leftover x es = ((List.range es.length).map (remainderOf x es)).sum := by
  have parts := sum_firstReceipt_add_sum_remainderOf x es
  have whole := congrArg (es.sum * ·) (sum_firstReceipt_add_leftover (x := x) hpos)
  simp only [mul_add, mul_comm _ x] at whole
  omega

/-- Each remainder is less than the sum of the weights, so there are no more units left over than remainders that are not 0. -/
theorem leftover_le_card (hpos : 0 < es.sum) :
    leftover x es ≤ ((Finset.range es.length).filter (fun j => 0 < remainderOf x es j)).card := by
  refine Nat.le_of_mul_le_mul_left ?_ hpos
  calc es.sum * leftover x es = ∑ j ∈ Finset.range es.length, remainderOf x es j := sum_mul_leftover hpos
    _ = ∑ j ∈ (Finset.range es.length).filter (fun j => 0 < remainderOf x es j), remainderOf x es j := by
        simp only [Nat.pos_iff_ne_zero, Finset.sum_filter_ne_zero]
    _ ≤ ((Finset.range es.length).filter (fun j => 0 < remainderOf x es j)).card * es.sum :=
        Finset.sum_le_card_nsmul _ _ _ (fun j _ => (remainderOf_lt hpos j).le)
    _ = _ := mul_comm _ _

/-- A recipient with remainder 0 stands behind all with another one, and so gets none of the units left over. -/
theorem leftover_le_standing (hpos : 0 < es.sum) {i : Nat} (h : remainderOf x es i = 0) :
    leftover x es ≤ standing (remainderOf x es) es.length i := by
  rw [standing_eq_card]
  refine (leftover_le_card hpos).trans (Finset.card_le_card fun j hj => ?_)
  simp only [Finset.mem_filter, h] at hj ⊢
  exact ⟨hj.1, .inl hj.2⟩

theorem leftover_lt_length (hpos : 0 < es.sum) : leftover x es < es.length := by
  have some_recipient := length_pos_of_sum_pos hpos
  refine Nat.lt_of_mul_lt_mul_left (a := es.sum) ?_
  calc es.sum * leftover x es = ∑ j ∈ Finset.range es.length, remainderOf x es j := sum_mul_leftover hpos
    _ < ∑ _j ∈ Finset.range es.length, es.sum :=
        Finset.sum_lt_sum_of_nonempty (by simpa using some_recipient.ne') (fun j _ => remainderOf_lt hpos j)
    _ = es.sum * es.length := by simp [mul_comm]

theorem receipt_of_remainder_zero (hpos : 0 < es.sum) {i : Nat} (h : remainderOf x es i = 0) :
    receipt x es i = firstReceipt x es i := by
  simp [receipt, leftover_le_standing hpos h]

theorem receipt_of_weight_zero (hpos : 0 < es.sum) {i : Nat} (h : es.getD i 0 = 0) : receipt x es i = 0 := by
  rw [receipt_of_remainder_zero hpos (by simp only [remainderOf, h, mul_zero, Nat.zero_mod])]
  simp only [firstReceipt, h, mul_zero, Nat.zero_div]

theorem receipt_of_weight_sum (hpos : 0 < es.sum) {i : Nat} (h : es.getD i 0 = es.sum) : receipt x es i = x := by
  rw [receipt_of_remainder_zero hpos (by simp only [remainderOf, h, Nat.mul_mod_left])]
  simp only [firstReceipt, h, Nat.mul_div_cancel _ hpos]

/-- Of no more than the sum of the weights, no recipient receives more than its weight. -/
theorem receipt_le_weight (hpos : 0 < es.sum) (hx : x ≤ es.sum) (i : Nat) : receipt x es i ≤ es.getD i 0 := by
  rcases Nat.eq_zero_or_pos (es.getD i 0) with hw | hw
  · rw [receipt_of_weight_zero hpos hw]; omega
  rcases hx.lt_or_eq with hlt | rfl
  · have first_lt : firstReceipt x es i < es.getD i 0 := by
      rw [firstReceipt, Nat.div_lt_iff_lt_mul hpos, mul_comm x]
      exact Nat.mul_lt_mul_of_pos_left hlt hw
    simp only [receipt]
    split <;> omega
  · rw [receipt_of_remainder_zero hpos (by simp only [remainderOf, Nat.mul_mod_right]), firstReceipt, Nat.mul_div_cancel_left _ hpos]

theorem sum_receipt (hpos : 0 < es.sum) : ((List.range es.length).map (receipt x es)).sum = x := by
  have extra_units : ∑ i ∈ Finset.range es.length, (if standing (remainderOf x es) es.length i < leftover x es then 1 else 0) =
      leftover x es := by
    rw [Finset.sum_boole, card_standing_lt _ (leftover_lt_length hpos).le, Nat.cast_id]
  calc _ = ((List.range es.length).map (firstReceipt x es)).sum + leftover x es := by
        simp only [sum_map_range_eq, receipt, Finset.sum_add_distrib, extra_units]
    _ = x := sum_firstReceipt_add_leftover hpos

end Units

/-! ### The allocation -/

theorem effectiveWeights_eq (ws : List Nat) : effectiveWeights ws = if ws.sum = 0 then List.replicate ws.length 1 else ws := by
  simp [effectiveWeights, List.map_const']

@[simp] theorem length_effectiveWeights (ws : List Nat) : (effectiveWeights ws).length = ws.length := by
  rw [effectiveWeights_eq]; split <;> simp

theorem effectiveWeights_of_sum_ne_zero {ws : List Nat} (h : ws.sum ≠ 0) : effectiveWeights ws = ws := if_neg h

theorem sum_effectiveWeights_pos {ws : List Nat} (h : ws ≠ []) : 0 < (effectiveWeights ws).sum := by
  have some_recipient := List.length_pos_iff.2 h
  rw [effectiveWeights_eq]
  split
  · simpa using some_recipient
  · omega

theorem remainders_eq (x : Nat) (es : List Nat) : remainders x es = (List.range es.length).map (remainderOf x es) :=
  List.ext_getElem (by simp [remainders]) (fun i _ hi => by
    have in_range : i < es.length := by simpa using hi
    simp [remainders, remainderOf, in_range])

theorem firstReceipts_eq (x : Nat) (es : List Nat) : firstReceipts x es = (List.range es.length).map (firstReceipt x es) :=
  List.ext_getElem (by simp [firstReceipts]) (fun i _ hi => by
    have in_range : i < es.length := by simpa using hi
    simp [firstReceipts, firstReceipt, in_range])

theorem zipIdx_map_range (f : Nat → Nat) (n : Nat) : ((List.range n).map f).zipIdx = (List.range n).map (fun j => (f j, j)) :=
  List.ext_getElem (by simp) (fun i _ _ => by simp)

theorem rankOf_map_range (f : Nat → Nat) (n i : Nat) : rankOf ((List.range n).map f) (f i) i = standing f n i := by
  simp only [rankOf, standing, zipIdx_map_range, List.filter_map, List.length_map]
  rfl

theorem allocate_eq (x : Nat) (ws : List Nat) : allocate x ws = (List.range ws.length).map (receipt x (effectiveWeights ws)) := by
  simp only [allocate, addLeftover, remainders_eq, firstReceipts_eq, zipIdx_map_range, List.zipWith_map, List.zipWith_self,
    rankOf_map_range, length_effectiveWeights]
  exact List.map_congr_left (fun i _ => by simp only [receipt, leftover, length_effectiveWeights])

@[simp] theorem length_allocate (x : Nat) (ws : List Nat) : (allocate x ws).length = ws.length := by simp [allocate_eq]

theorem getD_allocate (x : Nat) {ws : List Nat} {i : Nat} (hi : i < ws.length) :
    (allocate x ws).getD i 0 = receipt x (effectiveWeights ws) i := by
  simp [allocate_eq, hi]

/-- The amounts received always sum to `x` exactly (R29). -/
theorem sum_allocate (x : Nat) {ws : List Nat} (h : ws ≠ []) : (allocate x ws).sum = x := by
  rw [allocate_eq, ← length_effectiveWeights ws]
  exact sum_receipt (sum_effectiveWeights_pos h)

/-- Settles O59: the order of R29 step 4 gives every recipient a place of its own, and the remainders make the units left over. -/
theorem allocationDividesExactly : Obligations.AllocationDividesExactly := by
  refine ⟨fun x ws hws => ?_, fun a b ha hb => ?_, by decide⟩
  · intro es first rest given before
    have hes : es = effectiveWeights ws := (effectiveWeights_eq ws).symm
    have hpos : 0 < es.sum := hes ▸ sum_effectiveWeights_pos hws
    have hlen : es.length = ws.length := by rw [hes, length_effectiveWeights]
    have hgiven : given + leftover x es = x := by
      have whole := sum_firstReceipt_add_leftover (x := x) hpos
      rw [hlen] at whole
      exact whole
    have receives : ∀ i, i < ws.length → (allocate x ws).getD i 0 = receipt x es i := fun i hi => by rw [getD_allocate x hi, hes]
    have hleft : leftover x es = x - given := by omega
    refine ⟨length_allocate x ws, sum_allocate x hws, by omega, ?_, fun i hi => ?_, fun hsum i hi => ?_⟩
    · have := leftover_lt_length (x := x) hpos
      omega
    · rw [receives i hi, receipt, hlen, hleft]
      rfl
    · rw [receives i hi, hes.trans (effectiveWeights_of_sum_ne_zero hsum)]
      exact ⟨receipt_of_weight_zero (by omega), receipt_of_weight_sum (by omega)⟩
  · calc a * b ≤ 99999999 * 99999999 := Nat.mul_le_mul ha hb
      _ < 10 ^ 17 := by norm_num

end Sys2Proof.Machine
end

section
/-!
The split calculator, stage by stage: the ideal shares of stage 5 by payer index, the shares of stage 6 and their sum, and the status
update of stage 7.
-/

namespace Sys2Proof.Machine

/-! ### Lists of amounts by payer -/

@[simp] theorem length_addLists (a b : List Nat) : (addLists a b).length = min a.length b.length := by simp [addLists]

theorem sum_addLists {a b : List Nat} (h : a.length = b.length) : (addLists a b).sum = a.sum + b.sum :=
  (List.sum_add_sum_eq_sum_zipWith_of_length_eq a b h).symm

theorem getD_addLists {a b : List Nat} (h : a.length = b.length) (i : Nat) :
    (addLists a b).getD i 0 = a.getD i 0 + b.getD i 0 := by
  rcases Nat.lt_or_ge i a.length with hi | hi
  · have hib : i < b.length := h ▸ hi
    simp [addLists, hi, hib]
  · have hib : b.length ≤ i := h ▸ hi
    simp [addLists, hi, hib]

theorem addLists_map_range (f g : Nat → Nat) (n : Nat) :
    addLists ((List.range n).map f) ((List.range n).map g) = (List.range n).map (fun i => f i + g i) := by
  simp only [addLists, List.zipWith_map, List.zipWith_self]

/-- Adding the lists of some lines to a list of amounts adds, for each payer, what the lines give it. -/
theorem foldl_addLists {α : Type} {n : Nat} {f : α → List Nat} (hf : ∀ l, (f l).length = n) (ls : List α) (g : Nat → Nat) :
    ls.foldl (fun acc l => addLists acc (f l)) ((List.range n).map g) =
      (List.range n).map (fun i => g i + (ls.map (fun l => (f l).getD i 0)).sum) := by
  induction ls generalizing g with
  | nil => simp
  | cons l ls ih =>
    have by_index : f l = (List.range n).map (fun i => (f l).getD i 0) := by rw [← hf l, map_range_getD]
    rw [List.foldl_cons, by_index, addLists_map_range, ih]
    simp only [List.map_cons, List.sum_cons, Nat.add_assoc]

/-- The amounts of some lines, summed by payer first or by line first. -/
theorem sum_map_range_sum {α : Type} {n : Nat} {f : α → List Nat} (hf : ∀ l, (f l).length = n) (ls : List α) :
    ((List.range n).map (fun i => (ls.map (fun l => (f l).getD i 0)).sum)).sum = (ls.map (fun l => (f l).sum)).sum := by
  induction ls with
  | nil => simp
  | cons l ls ih =>
    have by_index : ((List.range n).map (fun i => (f l).getD i 0)).sum = (f l).sum := by rw [← hf l, map_range_getD]
    simp only [List.map_cons, List.sum_cons, List.sum_map_add, ih, by_index]

/-! ### More of the allocation -/

theorem allocate_zero (ws : List Nat) : allocate 0 ws = List.replicate ws.length 0 := by
  rw [allocate_eq, List.eq_replicate_iff]
  simp [receipt, firstReceipt, leftover]

/-- Of no more than the sum of the weights, no recipient receives more than its weight. -/
theorem getD_allocate_le {x : Nat} {ws : List Nat} (hpos : 0 < ws.sum) (hx : x ≤ ws.sum) {i : Nat} (hi : i < ws.length) :
    (allocate x ws).getD i 0 ≤ ws.getD i 0 := by
  rw [getD_allocate x hi, effectiveWeights_of_sum_ne_zero hpos.ne']
  exact receipt_le_weight hpos hx i

/-! ### Stage 5: BY_LINE (R31, R32) -/

theorem assignWeights_eq (a : Assign) (n : Nat) :
    assignWeights a n = (List.range n).map (fun i => if a = .pool ∨ i + 1 ∈ a.members then 1 else 0) := by
  cases a with
  | pool => simp [assignWeights, List.map_const']
  | single p => simp [assignWeights, Assign.members]
  | set ps => simp [assignWeights, Assign.members]

@[simp] theorem length_assignWeights (a : Assign) (n : Nat) : (assignWeights a n).length = n := by simp [assignWeights_eq]

/-- The net in class `c` of payer `i + 1` among `n` (R31). -/
def payerNet (ls : List Line) (n c : Nat) : Nat → Nat := fun i =>
  ((ls.filter (fun l => decide (l.taxClass = c))).map (fun l => (allocate (lineNet l) (assignWeights l.assign n)).getD i 0)).sum

theorem getD_allocate_voided {l : Line} (h : l.voided = true) (ws : List Nat) (i : Nat) :
    (allocate (lineNet l) ws).getD i 0 = 0 := by
  rw [lineNet, if_pos h, allocate_zero]
  grind

/-- A voided line's net is 0, and so is every payer's part of it: leaving it out changes no sum. -/
theorem sum_parts_not_voided (ls : List Line) (n c i : Nat) :
    ((ls.filter (fun l => l.taxClass == c && !l.voided)).map
      (fun l => (allocate (lineNet l) (assignWeights l.assign n)).getD i 0)).sum = payerNet ls n c i := by
  induction ls with
  | nil => rfl
  | cons l ls ih =>
    simp only [payerNet] at ih
    by_cases hc : l.taxClass = c
    · by_cases hv : l.voided = true
      · simp [-List.getD_eq_getElem?_getD, payerNet, hc, hv, ih, getD_allocate_voided hv]
      · simp [-List.getD_eq_getElem?_getD, payerNet, hc, hv, ih]
    · simp [-List.getD_eq_getElem?_getD, payerNet, hc, ih]

theorem classNets_eq (ls : List Line) (n c : Nat) : classNets ls n c = (List.range n).map (payerNet ls n c) := by
  have zeros : List.replicate n 0 = (List.range n).map (fun _ => 0) := by simp [List.map_const']
  rw [classNets, zeros, foldl_addLists (fun l => by simp)]
  simp only [Nat.zero_add, sum_parts_not_voided]

/-- The payers' nets of a class make the class base. -/
theorem sum_payerNet (ls : List Line) {n : Nat} (hn : n ≠ 0) (c : Nat) :
    ((List.range n).map (payerNet ls n c)).sum = classBase ls c := by
  have parts_sum : ∀ l : Line, (allocate (lineNet l) (assignWeights l.assign n)).sum = lineNet l := fun l =>
    sum_allocate _ (List.ne_nil_of_length_pos (by simp; omega))
  unfold payerNet
  rw [sum_map_range_sum (fun l => by simp)]
  simp only [parts_sum]
  rfl

/-- The lines of the four classes together make the subtotal. -/
theorem sum_classBase {ls : List Line} (h : ∀ l, l ∈ ls → l.taxClass ≤ 3) :
    classBase ls 0 + classBase ls 1 + classBase ls 2 + classBase ls 3 = subtotalOf ls := by
  induction ls with
  | nil => rfl
  | cons l ls ih =>
    obtain ⟨hl, hls⟩ := List.forall_mem_cons.1 h
    have rest := ih hls
    simp only [classBase, subtotalOf] at rest ⊢
    rcases (by omega : l.taxClass = 0 ∨ l.taxClass = 1 ∨ l.taxClass = 2 ∨ l.taxClass = 3) with hc | hc | hc | hc <;>
      · simp [hc]; omega

/-- The net of payer `i + 1` over the four classes. -/
def payerNets (ls : List Line) (n : Nat) : Nat → Nat := fun i =>
  payerNet ls n 0 i + payerNet ls n 1 i + payerNet ls n 2 i + payerNet ls n 3 i

theorem sum_payerNets {ls : List Line} (h : ∀ l, l ∈ ls → l.taxClass ≤ 3) {n : Nat} (hn : n ≠ 0) :
    ((List.range n).map (payerNets ls n)).sum = subtotalOf ls := by
  unfold payerNets
  simp only [List.sum_map_add, sum_payerNet ls hn, sum_classBase h]

/-- Payer nets, the four class taxes by the payers' nets of the class, and the service charge by the payers' nets. -/
theorem idealByLine_eq (rates : Quad) (serviceRate : Nat) (ls : List Line) (n : Nat) :
    let tax := fun x c => allocate x ((List.range n).map (payerNet ls n c))
    let t := taxesOf rates ls
    idealByLine rates serviceRate ls n =
      addLists (addLists ((List.range n).map (payerNets ls n))
          (addLists (addLists (tax t.c0 0) (tax t.c1 1)) (addLists (tax t.c2 2) (tax t.c3 3))))
        (allocate (serviceOf serviceRate ls) ((List.range n).map (payerNets ls n))) := by
  unfold payerNets
  simp only [idealByLine, classNets_eq, addLists_map_range, Nat.add_assoc]

theorem getD_idealByLine (rates : Quad) (serviceRate : Nat) (ls : List Line) {n i : Nat} (hi : i < n) :
    let tax := fun x c => (allocate x ((List.range n).map (payerNet ls n c))).getD i 0
    let t := taxesOf rates ls
    (idealByLine rates serviceRate ls n).getD i 0 =
      payerNets ls n i + tax t.c0 0 + tax t.c1 1 + tax t.c2 2 + tax t.c3 3 +
        (allocate (serviceOf serviceRate ls) ((List.range n).map (payerNets ls n))).getD i 0 := by
  intro tax t
  have net_at : ((List.range n).map (payerNets ls n)).getD i 0 = payerNets ls n i := by simp [hi]
  rw [idealByLine_eq, getD_addLists (by simp), getD_addLists (by simp), getD_addLists (by simp), getD_addLists (by simp),
    getD_addLists (by simp), net_at]
  simp only [tax, t]
  omega

theorem sum_idealByLine (rates : Quad) (serviceRate : Nat) {ls : List Line} (h : ∀ l, l ∈ ls → l.taxClass ≤ 3) {n : Nat}
    (hn : n ≠ 0) : (idealByLine rates serviceRate ls n).sum = totalOf rates serviceRate ls := by
  have some_payer : ∀ w : Nat → Nat, (List.range n).map w ≠ [] := by simpa using hn
  rw [idealByLine_eq, sum_addLists (by simp), sum_addLists (by simp), sum_addLists (by simp), sum_addLists (by simp),
    sum_addLists (by simp)]
  simp only [sum_allocate _ (some_payer _), sum_payerNets h hn, totalOf, Quad.sum]
  omega

@[simp] theorem length_idealShares (mode : SplitMode) (rates : Quad) (serviceRate : Nat) (ls : List Line) (n : Nat) :
    (idealShares mode rates serviceRate ls n).length = n := by
  cases mode with
  | even => simp [idealShares, idealEven]
  | byLine => simp [idealShares, idealByLine_eq]

/-! ### Stage 6 (R33, R34) -/

theorem isPaid_iff (p : Payer) : isPaid p = true ↔ p.status = .paid := by simp [isPaid]

theorem isPaid_eq_false_iff (p : Payer) : isPaid p = false ↔ p.status ≠ .paid := by simp [isPaid]

/-- The drift taken off by places that hold at least as much. -/
theorem sum_zipWith_sub {a b : List Nat} (hlen : a.length = b.length) (hle : ∀ i, i < a.length → b.getD i 0 ≤ a.getD i 0) :
    (List.zipWith (· - ·) a b).sum + b.sum = a.sum := by
  have back : addLists (List.zipWith (· - ·) a b) b = a := by
    refine List.ext_getElem (by simp [hlen]) (fun i _ hi => ?_)
    have hib : i < b.length := hlen ▸ hi
    have := hle i hi
    simp only [List.getD_eq_getElem _ _ hi, List.getD_eq_getElem _ _ hib] at this
    simp only [addLists, List.getElem_zipWith]
    omega
  rw [← sum_addLists (by simp [hlen]), back]

@[simp] theorem length_openShares (rest : Nat) (ideals : List Nat) : (openShares rest ideals).length = ideals.length := by
  rw [openShares]; split <;> simp

/-- The payers that are not PAID share what is left, whether it is more or less than their ideal shares (R33 steps 1 to 4). -/
theorem sum_openShares (rest : Nat) {ideals : List Nat} (h : ideals ≠ []) : (openShares rest ideals).sum = rest := by
  rw [openShares]
  split
  · rw [sum_addLists (by simp), sum_allocate _ h]
    omega
  · have taken := sum_zipWith_sub (a := ideals) (b := allocate (ideals.sum - rest) ideals) (by simp)
      (fun i hi => getD_allocate_le (by omega) (by omega) hi)
    rw [sum_allocate _ h] at taken
    omega

theorem openShares_sum_self (ideals : List Nat) : openShares ideals.sum ideals = ideals := by
  rw [openShares, if_pos (Nat.le_refl _), Nat.sub_self, allocate_zero]
  exact List.ext_getElem (by simp) (fun i _ _ => by simp [addLists])

theorem length_openIdeals {ps : List Payer} {ideal : List Nat} (h : ideal.length = ps.length) :
    (openIdeals ps ideal).length = (ps.filter (fun p => !isPaid p)).length := by
  have payers_of_zip : (ps.zip ideal).map Prod.fst = ps := List.map_fst_zip (by omega)
  conv_rhs => rw [← payers_of_zip, List.filter_map, List.length_map]
  simp only [openIdeals, List.length_map]
  rfl

theorem openIdeals_of_none_paid {ps : List Payer} {ideal : List Nat} (h : ideal.length = ps.length)
    (open_all : ∀ p, p ∈ ps → isPaid p = false) : openIdeals ps ideal = ideal := by
  have all_kept : (ps.zip ideal).filter (fun q => !isPaid q.1) = ps.zip ideal :=
    List.filter_eq_self.2 (fun q hq => by simp [open_all q.1 (List.of_mem_zip hq).1])
  rw [openIdeals, all_kept, List.map_snd_zip (by omega)]

@[simp] theorem length_giveShares (ps : List Payer) (shares : List Nat) : (giveShares ps shares).length = ps.length := by
  induction ps generalizing shares with
  | nil => rfl
  | cons p ps ih => rw [giveShares]; split <;> simp [ih]

/-- What stands at each place after the shares are given: a PAID payer as it was, another one with a share, 0 when none are left. -/
theorem giveShares_getElem? {ps : List Payer} {i : Nat} {p : Payer} (hp : ps[i]? = some p) (shares : List Nat) :
    ∃ v, (giveShares ps shares)[i]? = some (if isPaid p then p else { p with share := v }) ∧ (shares = [] → v = 0) := by
  induction ps generalizing i shares with
  | nil => simp at hp
  | cons p0 ps ih =>
    cases i with
    | zero =>
      obtain rfl : p0 = p := by simpa using hp
      refine ⟨shares.headD 0, ?_, fun h => by simp [h]⟩
      rw [giveShares]; split <;> simp
    | succ i =>
      rw [giveShares]
      split
      · exact ih hp shares
      · obtain ⟨v, hv, hnil⟩ := ih hp shares.tail
        exact ⟨v, hv, fun h => hnil (by simp [h])⟩

/-- The frozen shares stay, and the others make what was given to them. -/
theorem sum_giveShares {ps : List Payer} {shares : List Nat} (h : shares.length ≤ (ps.filter (fun p => !isPaid p)).length) :
    ((giveShares ps shares).map (·.share)).sum = frozenSum ps + shares.sum := by
  induction ps generalizing shares with
  | nil => simp_all [giveShares, frozenSum]
  | cons p ps ih =>
    simp only [frozenSum] at ih
    cases hpaid : isPaid p with
    | true =>
      have := ih (shares := shares) (by simpa [hpaid] using h)
      simp [giveShares, frozenSum, hpaid, this, Nat.add_assoc]
    | false =>
      cases shares with
      | nil =>
        have := ih (shares := []) (by simp)
        simpa [giveShares, frozenSum, hpaid] using this
      | cons v vs =>
        have := ih (shares := vs) (by simpa [hpaid] using h)
        simp [giveShares, frozenSum, hpaid, this, Nat.add_left_comm]

theorem giveShares_of_none_paid {ps : List Payer} {shares : List Nat} (h : shares.length = ps.length)
    (open_all : ∀ p, p ∈ ps → isPaid p = false) : (giveShares ps shares).map (·.share) = shares := by
  induction ps generalizing shares with
  | nil => simpa [giveShares, eq_comm] using h
  | cons p ps ih =>
    obtain ⟨hp, hps⟩ := List.forall_mem_cons.1 open_all
    obtain ⟨v, vs, rfl⟩ := List.exists_cons_of_length_eq_add_one h
    simp [giveShares, hp, ih (shares := vs) (by simpa using h) hps]

theorem frozenSum_of_none_paid {ps : List Payer} (open_all : ∀ p, p ∈ ps → isPaid p = false) : frozenSum ps = 0 := by
  have none_frozen : ps.filter isPaid = [] := List.filter_eq_nil_iff.2 (fun p hp => by simp [open_all p hp])
  simp [frozenSum, none_frozen]

/-- The shares given to the payers that are not PAID (R33, R34). -/
def givenShares (total : Nat) (ps : List Payer) (ideal : List Nat) : List Nat :=
  if frozenSum ps ≤ total then openShares (total - frozenSum ps) (openIdeals ps ideal) else []

theorem freezeShares_eq (total : Nat) (ps : List Payer) (ideal : List Nat) :
    freezeShares total ps ideal = giveShares ps (givenShares total ps ideal) := by
  rw [freezeShares, givenShares]; split <;> rfl

theorem givenShares_of_refund {total : Nat} {ps : List Payer} (h : total < frozenSum ps) (ideal : List Nat) :
    givenShares total ps ideal = [] := if_neg (by omega)

/-- Where some payer is not PAID, all shares make the total and the refund due (R34). -/
theorem sum_freezeShares {total : Nat} {ps : List Payer} {ideal : List Nat} (hlen : ideal.length = ps.length)
    (some_open : ∃ p, p ∈ ps ∧ p.status ≠ .paid) :
    ((freezeShares total ps ideal).map (·.share)).sum = total + refundOf total ps := by
  obtain ⟨p, hp, hopen⟩ := some_open
  have open_length := length_openIdeals hlen
  have open_pos : 0 < (ps.filter (fun p => !isPaid p)).length :=
    List.length_pos_of_mem (List.mem_filter.2 ⟨hp, by simp [(isPaid_eq_false_iff p).2 hopen]⟩)
  rw [freezeShares_eq, refundOf]
  rcases Nat.lt_or_ge total (frozenSum ps) with hlt | hge
  · rw [givenShares_of_refund hlt, sum_giveShares (by simp), List.sum_nil]
    omega
  · rw [givenShares, if_pos hge, sum_giveShares (by rw [length_openShares, open_length]),
      sum_openShares _ (List.ne_nil_of_length_pos (by omega))]
    omega

/-- Where no share is frozen, the shares are the ideal ones. -/
theorem freezeShares_of_none_paid {total : Nat} {ps : List Payer} {ideal : List Nat} (hlen : ideal.length = ps.length)
    (hsum : ps ≠ [] → ideal.sum = total) (none_paid : ∀ p, p ∈ ps → p.status ≠ .paid) :
    (freezeShares total ps ideal).map (·.share) = ideal := by
  have open_all : ∀ p, p ∈ ps → isPaid p = false := fun p hp => (isPaid_eq_false_iff p).2 (none_paid p hp)
  rcases eq_or_ne ps [] with rfl | hne
  · simpa [freezeShares_eq, giveShares, eq_comm] using hlen
  · rw [freezeShares_eq, givenShares, frozenSum_of_none_paid open_all, if_pos (Nat.zero_le _), Nat.sub_zero,
      openIdeals_of_none_paid hlen open_all, ← hsum hne, openShares_sum_self, giveShares_of_none_paid hlen open_all]

/-! ### Stage 7 (R35) -/

theorem settlePayer_of_paid {p : Payer} (h : isPaid p = true) : settlePayer p = p := by simp [settlePayer, h]

@[simp] theorem settlePayer_share (p : Payer) : (settlePayer p).share = p.share := by
  rw [settlePayer]; split <;> rfl

theorem settlePayer_of_open {p : Payer} (h : isPaid p = false) :
    settlePayer p = { p with status := if 1 ≤ p.tenders ∧ p.share ≤ p.tendered then .paid else p.status,
                             change := if 1 ≤ p.tenders ∧ p.share ≤ p.tendered then p.tendered - p.share else p.change } := by
  by_cases pays : 1 ≤ p.tenders ∧ p.share ≤ p.tendered
  · simp [settlePayer, h, pays]
  · have stays : ¬((!isPaid p && decide (1 ≤ p.tenders) && decide (p.share ≤ p.tendered)) = true) := by simpa [h] using pays
    rw [settlePayer, if_neg stays, if_neg pays, if_neg pays]

/-! ### The recomputation -/

section Recomputation
variable (mode : SplitMode) (rates : Quad) (serviceRate : Nat) (ps : List Payer) (ls : List Line)

theorem computeBill_shares :
    (computeBill mode rates serviceRate ps ls).payers.map (·.share) =
      (freezeShares (totalOf rates serviceRate ls) ps (idealShares mode rates serviceRate ls ps.length)).map (·.share) := by
  simp [computeBill]

theorem computeBill_payers_length : (computeBill mode rates serviceRate ps ls).payers.length = ps.length := by
  simp [computeBill, freezeShares_eq]

variable {ps}

/-- The payer record that stages 6 and 7 leave at a place. -/
theorem computeBill_payer {i : Nat} {p q : Payer} (hp : ps[i]? = some p)
    (hq : (computeBill mode rates serviceRate ps ls).payers[i]? = some q) :
    ∃ v, q = settlePayer (if isPaid p then p else { p with share := v }) ∧
      (totalOf rates serviceRate ls < frozenSum ps → v = 0) := by
  obtain ⟨v, hv, hnil⟩ := giveShares_getElem? hp
    (givenShares (totalOf rates serviceRate ls) ps (idealShares mode rates serviceRate ls ps.length))
  simp only [computeBill, freezeShares_eq, List.getElem?_map, hv, Option.map_some, Option.some.injEq] at hq
  exact ⟨v, hq.symm, fun h => hnil (givenShares_of_refund h _)⟩

theorem computeBill_shares_even (none_paid : ∀ p, p ∈ ps → p.status ≠ .paid) :
    (computeBill .even rates serviceRate ps ls).payers.map (·.share) =
      allocate (totalOf rates serviceRate ls) (List.replicate ps.length 1) := by
  rw [computeBill_shares]
  exact freezeShares_of_none_paid (by simp)
    (fun hne => sum_allocate _ (by simpa using hne)) none_paid

variable {ls} in
theorem computeBill_shares_byLine (none_paid : ∀ p, p ∈ ps → p.status ≠ .paid) (h : ∀ l, l ∈ ls → l.taxClass ≤ 3) :
    (computeBill .byLine rates serviceRate ps ls).payers.map (·.share) = idealByLine rates serviceRate ls ps.length := by
  rw [computeBill_shares]
  exact freezeShares_of_none_paid (length_idealShares .byLine rates serviceRate ls _)
    (fun hne => sum_idealByLine rates serviceRate h (by simpa using hne)) none_paid

end Recomputation

/-- Settles O60: stage 5 divides every figure exactly, so the ideal shares make the total; stage 6 gives the others what the frozen
shares leave of it; stage 7 changes no share. -/
theorem billFiguresAddUp : Obligations.BillFiguresAddUp := by
  intro mode rates serviceRate ps ls f net base frozen
  refine ⟨rfl, rfl, rfl, rfl, rfl, computeBill_payers_length mode rates serviceRate ps ls, fun some_open => ?_,
    fun i p q hp hq => ⟨fun hpaid => ?_, fun hopen => ?_⟩, fun none_paid hmode => ?_, fun none_paid hne hmode hclass => ?_⟩
  · exact (congrArg List.sum (computeBill_shares mode rates serviceRate ps ls)).trans (sum_freezeShares (by simp) some_open)
  · obtain ⟨v, rfl, -⟩ := computeBill_payer mode rates serviceRate ls hp hq
    rw [if_pos ((isPaid_iff p).2 hpaid), settlePayer_of_paid ((isPaid_iff p).2 hpaid)]
  · have not_paid := (isPaid_eq_false_iff p).2 hopen
    obtain ⟨v, rfl, refunded⟩ := computeBill_payer mode rates serviceRate ls hp hq
    rw [not_paid, if_neg Bool.false_ne_true, settlePayer_of_open (p := { p with share := v }) not_paid]
    exact ⟨refunded, rfl⟩
  · subst hmode
    exact computeBill_shares_even rates serviceRate ls none_paid
  · subst hmode
    intro part nets all shared i hi
    have nets_eq : ∀ c, nets c = payerNet ls ps.length c := fun c => by
      funext j
      simp only [nets, part, payerNet, assignWeights_eq]
      rfl
    have all_eq : all = payerNets ls ps.length := by
      funext j
      simp only [all, nets_eq, payerNets]
    rw [computeBill_shares_byLine rates serviceRate none_paid hclass, getD_idealByLine rates serviceRate ls hi]
    simp only [shared, nets_eq, all_eq]
    rfl

end Sys2Proof.Machine
end

section
/-!
What leaves the check records alone: the operations of stock, stations, tickets and exchange memory, each with the lemma that it keeps
the table of checks.
-/

namespace Sys2Proof.Machine

/-- A fold keeps what each of its steps keeps. -/
theorem foldl_keeps {α β γ : Type} {f : β → α → β} (g : β → γ) (h : ∀ b a, g (f b a) = g b) (l : List α) (b : β) :
    g (l.foldl f b) = g b := by
  induction l generalizing b with
  | nil => rfl
  | cons a l ih => exact (ih _).trans (h b a)

theorem SameButStock.checks {a b : Ev} (h : SameButStock a b) : b.tb.checks = a.tb.checks := by rw [h.tb]; rfl

theorem SameButStations.checks {a b : Ev} (h : SameButStations a b) : b.tb.checks = a.tb.checks := by rw [h.tb]; rfl

/-! ### Stock -/

@[simp] theorem reserveAll_checks (ev : Ev) (ds : List (Nat × Nat)) : (reserveAll ev ds).tb.checks = ev.tb.checks :=
  foldl_keeps (fun ev : Ev => ev.tb.checks) (fun _ _ => by simp) ds ev

@[simp] theorem releaseDemand_checks (ev : Ev) (ds : List (Nat × Nat)) : (releaseDemand ev ds).tb.checks = ev.tb.checks :=
  (releaseDemand_spec ds ev).1.checks

@[simp] theorem settleLevels_checks (ev : Ev) : (settleLevels ev).tb.checks = ev.tb.checks :=
  foldl_keeps (fun ev : Ev => ev.tb.checks) (fun ev i => (settleItem_spec ev i).1.checks) ev.touched ev

@[simp] theorem consumeLine_checks (ev : Ev) (l : TicketLine) : (consumeLine ev l).tb.checks = ev.tb.checks := by
  unfold consumeLine; split <;> simp [consumeOne]

@[simp] theorem countMadeMarks_checks (ev : Ev) (l : Line) : (countMadeMarks ev l).tb.checks = ev.tb.checks :=
  foldl_keeps (fun ev : Ev => ev.tb.checks) (fun _ _ => by split <;> simp [countMade]) _ ev

/-! ### Stations -/

@[simp] theorem openGate_checks (n : Nat) (cause : GateCause) (ev : Ev) : (openGate n cause ev).tb.checks = ev.tb.checks := by
  simp [openGate]

@[simp] theorem joinQueue_checks (n i : Nat) (c : TicketClass) (ev : Ev) : (joinQueue n i c ev).tb.checks = ev.tb.checks := by
  unfold joinQueue; dsimp only; split <;> simp

@[simp] theorem leaveStation_checks (n i : Nat) (ev : Ev) : (leaveStation n i ev).tb.checks = ev.tb.checks := by
  simp [leaveStation]

@[simp] theorem stepIntakeEv_checks (n : Nat) (d : Direction) (m : StepMode) (ev : Ev) :
    (stepIntakeEv n d m ev).tb.checks = ev.tb.checks := by
  unfold stepIntakeEv; dsimp only; split <;> simp

@[simp] theorem setGateEv_checks (n : Nat) (m : GateMode) (ev : Ev) : (setGateEv n m ev).tb.checks = ev.tb.checks := by
  simp [setGateEv]

@[simp] theorem gateHoldEv_checks (n : Nat) (ev : Ev) : (gateHoldEv n ev).tb.checks = ev.tb.checks := by simp [gateHoldEv]

@[simp] theorem promote_checks (n : Nat) (is : List Nat) (ev : Ev) : (promote n is ev).tb.checks = ev.tb.checks := by
  have recast : ∀ ev : Ev, (is.foldl (fun ev i =>
      ev.updTicket i (fun k => { k with order := k.order.map (fun o => { o with cls := .rush1 }) })) ev).tb.checks = ev.tb.checks :=
    foldl_keeps (fun ev : Ev => ev.tb.checks) (fun _ _ => by simp) is
  unfold promote
  split
  · rfl
  · dsimp only; split <;> simp [recast]

@[simp] theorem runArbiters_checks (ev : Ev) : (runArbiters ev).tb.checks = ev.tb.checks := (runArbiters_arbitrated ev).1.checks

@[simp] theorem closeEv_checks (ev : Ev) : (closeEv ev).tb.checks = ev.tb.checks :=
  (closeEv_arbitrated ev).1.checks.trans (settleLevels_checks ev)

theorem underMark_checks {f : Ev → Ev} (h : ∀ ev, (f ev).tb.checks = ev.tb.checks) (b : Bool) (ev : Ev) :
    (underMark b f ev).tb.checks = ev.tb.checks := by
  unfold underMark; split
  · exact h ev
  · rfl

@[simp] theorem applyThreshold_checks (n v : Nat) (ev : Ev) : (applyThreshold n v ev).tb.checks = ev.tb.checks := by
  unfold applyThreshold; dsimp only; split <;> simp

@[simp] theorem setStationEffect_checks (r : Req) (n : Nat) (m : GateMode) (p : RestartPolicy) (ev : Ev) :
    (setStationEffect r n m p ev).tb.checks = ev.tb.checks := by
  unfold setStationEffect
  repeat rw [underMark_checks]
  all_goals intros; simp

@[simp] theorem wakeEv_checks (ev : Ev) : (wakeEv ev).tb.checks = ev.tb.checks := by
  have policies : ∀ l : List Nat, (l.foldl wakePolicy ev).tb.checks = ev.tb.checks := fun l =>
    foldl_keeps (fun ev : Ev => ev.tb.checks) (fun _ _ => by unfold wakePolicy; dsimp only; split <;> simp) l ev
  simp [wakeEv, policies]

/-! ### Tickets and lines -/

@[simp] theorem strikeTicket_checks (id : Nat) (ev : Ev) (i : Nat) : (strikeTicket id ev i).tb.checks = ev.tb.checks := by
  unfold strikeTicket; split <;> simp

@[simp] theorem strikeLine_checks (ci id : Nat) (ev : Ev) : (strikeLine ci id ev).tb.checks = ev.tb.checks :=
  (foldl_keeps (fun ev : Ev => ev.tb.checks) (strikeTicket_checks id) _ _).trans (releaseDemand_checks ev _)

@[simp] theorem voidOneLine_checks (ci : Nat) (ev : Ev) (id : Nat) : (voidOneLine ci ev id).tb.checks = ev.tb.checks := by
  unfold voidOneLine
  split
  · rfl
  · dsimp only; split <;> simp

@[simp] theorem dropLine_checks (ev : Ev) (id : Nat) : (dropLine ev id).tb.checks = ev.tb.checks := by
  unfold dropLine
  split
  · rfl
  · split <;> simp

@[simp] theorem writeNets_checks (ids : List Nat) (ev : Ev) : (writeNets ids ev).tb.checks = ev.tb.checks :=
  foldl_keeps (fun ev : Ev => ev.tb.checks) (fun _ _ => by simp) ids ev

@[simp] theorem countRemakes_checks (ev : Ev) (plan : List (Nat × List TicketLine)) :
    (countRemakes ev plan).tb.checks = ev.tb.checks :=
  foldl_keeps (fun ev : Ev => ev.tb.checks) (fun _ _ => by simp) plan ev

@[simp] theorem buildTicket_checks (ci : Nat) (remake : Bool) (course : Option Nat) (acc : Ev × List Nat)
    (p : Nat × List TicketLine) : (buildTicket ci remake course acc p).1.tb.checks = acc.1.tb.checks := by
  unfold buildTicket; split <;> simp

@[simp] theorem stall_checks (n : Nat) (ev : Ev) : (stall n ev).tb.checks = ev.tb.checks := by simp [stall]

/-! ### Exchange memory -/

@[simp] theorem busWrite_tb (io : Io) (off : Nat) (w : Word) : (busWrite io off w).st.tb = io.st.tb := by
  unfold busWrite; split <;> rfl

@[simp] theorem busWrites_tb (io : Io) (off : Nat) (ws : List Word) : (busWrites io off ws).1.st.tb = io.st.tb := by
  induction ws generalizing io off with
  | nil => rfl
  | cons w ws ih =>
    rw [busWrites]
    split
    · simp
    · simp [ih]

@[simp] theorem busReads_tb (io : Io) (off n : Nat) : (busReads io off n).1.st.tb = io.st.tb := by
  induction n generalizing io off with
  | zero => rfl
  | succ n ih =>
    have rest := ih { io with acc := io.acc + 1 } (off + 4)
    rw [busReads]
    split
    · rfl
    · split <;> simp_all

@[simp] theorem haltIo_tb (region : FaultRegion) (own : Option Answer) (io : Io) : (haltIo region own io).st.tb = io.st.tb := by
  simp [haltIo, haltIn]

@[simp] theorem writeNotice_checks (own : Option Answer) (io : Io) (n : Notice) :
    (writeNotice own io n).st.tb.checks = io.st.tb.checks := by
  unfold writeNotice
  split
  · rfl
  · dsimp only
    have written := busWrites_tb io (Config.noticesAt + io.st.ntw.written.toNat % 256 * 32) (noticeWords io.st.ntw.written n)
    split
    · next h1 => simpa [h1] using congrArg Tables.checks written
    · next io1 h1 =>
      have kept : io1.st.tb = io.st.tb := by simpa [h1] using written
      cases bad : io1.bad <;> simp [bad, kept, noticeCounted]

@[simp] theorem writeNotices_checks (own : Option Answer) (io : Io) (ns : List Notice) :
    (writeNotices own io ns).st.tb.checks = io.st.tb.checks :=
  foldl_keeps (fun io : Io => io.st.tb.checks) (writeNotice_checks own) ns io

@[simp] theorem writeWindow_checks (own : Option Answer) (io : Io) (n : Nat) :
    (writeWindow own io n).st.tb.checks = io.st.tb.checks := by
  unfold writeWindow
  split
  · rfl
  · dsimp only
    have written := fun io' : Io => busWrites_tb io' (Config.windowsAt + n * 1024)
      (oddAfter (io.st.tb.station n).winCount :: windowWords n (io.st.tb.station n) (windowEntries io.st.tb n))
    specialize written (io.setSt (setWinCount io.st n (oddAfter (io.st.tb.station n).winCount)))
    split
    · next h1 => simpa [h1, setWinCount_tb] using congrArg Tables.checks written
    · next io1 h1 =>
      have kept : io1.st.tb.checks = io.st.tb.checks := by simpa [h1, setWinCount_tb] using congrArg Tables.checks written
      cases bad : io1.bad <;> simp [bad, kept, setWinCount_tb]

@[simp] theorem writeWindows_checks (own : Option Answer) (io : Io) (ns : List Nat) :
    (writeWindows own io ns).st.tb.checks = io.st.tb.checks :=
  foldl_keeps (fun io : Io => io.st.tb.checks) (writeWindow_checks own) ns io

@[simp] theorem commitEv_checks (own : Option Answer) (io : Io) (ev : Ev) : (commitEv own io ev).st.tb.checks = ev.tb.checks := by
  simp [commitEv]

@[simp] theorem endVisit_tb (s : State) : (endVisit s).tb = s.tb := rfl

@[simp] theorem settleVisit_tb (s : State) : (settleVisit s).tb = s.tb := by rw [settleVisit_frame]; rfl

@[simp] theorem countLaneFault_checks (s : State) : (countLaneFault s).tb.checks = s.tb.checks := by
  unfold countLaneFault; split <;> simp

@[simp] theorem faultLane_checks (own : Option Answer) (io : Io) (lane slot : Nat) :
    (faultLane own io lane slot).st.tb.checks = io.st.tb.checks := by
  simp [faultLane]

@[simp] theorem writeBody_tb (io : Io) (lane slot : Nat) (tag : Word) (a : Answer) :
    (writeBody io lane slot tag a).1.st.tb = io.st.tb := by
  have code := busWrites_tb io (slotOff lane slot + 0x0C) [BitVec.ofNat 32 a.code.code]
  unfold writeBody
  dsimp only
  split
  · simp_all
  · next io1 h1 =>
    have body := busWrites_tb io1 (slotOff lane slot + 0x40) (bodyWords a)
    split <;> simp_all

@[simp] theorem writeResult_tb (io : Io) (lane slot : Nat) (tag : Word) (a : Answer) :
    (writeResult io lane slot tag a).1.st.tb = io.st.tb := by
  have body := writeBody_tb io lane slot tag a
  unfold writeResult
  split <;> simp_all

@[simp] theorem countDone_checks (s : State) (lane : Nat) (c : ResultCode) : (countDone s lane c).tb.checks = s.tb.checks := by
  rw [countDone_tb]; split <;> rfl

@[simp] theorem endRequest_tb (io : Io) : (endRequest io).st.tb = io.st.tb := rfl

@[simp] theorem answerRequest_checks (io : Io) (r : Req) (a : Answer) :
    (answerRequest io r a).st.tb.checks = io.st.tb.checks := by
  have result := writeResult_tb io r.lane r.slot r.hubTag a
  unfold answerRequest
  split
  · simp_all
  · dsimp only; split <;> simp_all

@[simp] theorem finishReq_checks (io : Io) (r : Req) (x : Ev × Answer) : (finishReq io r x).st.tb.checks = x.1.tb.checks := by
  unfold finishReq; dsimp only; split <;> simp

end Sys2Proof.Machine
end

section
/-!
The close condition of R49 as a relation between tables: no check meets it after an operation that did not before. What the named
operations of checks, tickets and settlement do to it.
-/

namespace Sys2Proof.Machine

/-- Every check that meets the close condition in `b` met it in `a` (R49). -/
def NoNewClosing (a b : Tables) : Prop := ∀ i, (b.check i).closes = true → (a.check i).closes = true

/-- The same of every check but `ci`, whose own close test is still to run. -/
def NoNewClosingBut (ci : Nat) (a b : Tables) : Prop := ∀ i, i ≠ ci → (b.check i).closes = true → (a.check i).closes = true

namespace NoNewClosing
variable {a b c : Tables}

theorem refl (a : Tables) : NoNewClosing a a := fun _ h => h

theorem trans (h : NoNewClosing a b) (h' : NoNewClosing b c) : NoNewClosing a c := fun i hi => h i (h' i hi)

theorem of_checks (h : b.checks = a.checks) : NoNewClosing a b := fun i hi => by
  simpa only [Tables.check, h] using hi

theorem but (h : NoNewClosing a b) (ci : Nat) : NoNewClosingBut ci a b := fun i _ hi => h i hi

theorem foldl {α : Type} {f : Ev → α → Ev} (h : ∀ ev x, NoNewClosing ev.tb (f ev x).tb) (l : List α) (ev : Ev) :
    NoNewClosing ev.tb (l.foldl f ev).tb := by
  induction l generalizing ev with
  | nil => exact refl _
  | cons x l ih => exact (h ev x).trans (ih (f ev x))

end NoNewClosing

namespace NoNewClosingBut
variable {ci : Nat} {a b c : Tables}

theorem trans (h : NoNewClosingBut ci a b) (h' : NoNewClosingBut ci b c) : NoNewClosingBut ci a c :=
  fun i hne hi => h i hne (h' i hne hi)

/-- Where the excepted check does not meet the condition, there is no exception. -/
theorem closed (h : NoNewClosingBut ci a b) (hci : (b.check ci).closes = false) : NoNewClosing a b := fun i hi => by
  by_cases hne : i = ci
  · subst hne; simp [hci] at hi
  · exact h i hne hi

end NoNewClosingBut

/-! ### Writes to one check record -/

theorem updCheck_check (ev : Ev) (ci : Nat) (f : Check → Check) (i : Nat) :
    (ev.updCheck ci f).tb.check i = if i = ci then f (ev.tb.check ci) else ev.tb.check i := by
  simp [Tables.check, tget_tupd]

theorem updCheck_check_same (ev : Ev) (ci : Nat) (f : Check → Check) : (ev.updCheck ci f).tb.check ci = f (ev.tb.check ci) := by
  rw [updCheck_check, if_pos rfl]

theorem updCheck_but (ev : Ev) (ci : Nat) (f : Check → Check) : NoNewClosingBut ci ev.tb (ev.updCheck ci f).tb :=
  fun i hne hi => by rwa [updCheck_check, if_neg hne] at hi

/-- A write that leaves the state and the payers of the record, or makes the condition fail on it. -/
theorem updCheck_noNewClosing (ev : Ev) (ci : Nat) {f : Check → Check} (h : ∀ c, (f c).closes = true → c.closes = true) :
    NoNewClosing ev.tb (ev.updCheck ci f).tb := fun i hi => by
  rw [updCheck_check] at hi
  split at hi
  · next hi' => subst hi'; exact h _ hi
  · exact hi

theorem not_closes_of_state {c : Check} (h : c.state ≠ .settling) : c.closes = false := by simp [Check.closes, h]

/-! ### Holds, chains and freeing -/

theorem giveHold_noNewClosing (ci lane : Nat) (taken : Word) (ev : Ev) : NoNewClosing ev.tb (giveHold ci lane taken ev).tb :=
  updCheck_noNewClosing ev ci fun _ h => h

theorem renewHold_noNewClosing (ci lane : Nat) (taken : Word) (ev : Ev) : NoNewClosing ev.tb (renewHold ci lane taken ev).tb := by
  unfold renewHold
  split
  · exact giveHold_noNewClosing ci lane taken ev
  · exact .refl _

theorem endSlot_noNewClosing (n : Nat) (ev : Ev) : NoNewClosing ev.tb (endSlot n ev).tb :=
  (NoNewClosing.of_checks rfl).trans (updCheck_noNewClosing _ _ fun c h => by split at h <;> exact h)

theorem endChains_noNewClosing (ci : Nat) (ev : Ev) : NoNewClosing ev.tb (endChains ci ev).tb :=
  .foldl (fun ev n => by simpa using endSlot_noNewClosing n ev) _ ev

theorem freeCheckEv_noNewClosing (ci : Nat) (ev : Ev) : NoNewClosing ev.tb (freeCheckEv ci ev).tb :=
  (NoNewClosing.of_checks (foldl_keeps (fun ev : Ev => ev.tb.checks) dropLine_checks _ _)).trans
    (updCheck_noNewClosing _ _ fun c h => by simp [Check.closes, freeCheck] at h)

theorem freeingTest_noNewClosing (ci : Nat) (ev : Ev) : NoNewClosing ev.tb (freeingTest ci ev).1.tb := by
  unfold freeingTest
  split
  · exact freeCheckEv_noNewClosing ci ev
  · exact .refl _

/-- Entry to VOIDED leaves its check in VOIDED, or FREE, where nothing is left to close (R16, R49). -/
theorem enterVoided_noNewClosing {ci : Nat} {a : Tables} {ev : Ev} (h : NoNewClosingBut ci a ev.tb) :
    NoNewClosing a (enterVoided ci ev).tb := by
  have voided : NoNewClosing a (ev.updCheck ci (fun c => { c with state := .voided, holder := none })).tb :=
    (h.trans (updCheck_but ev ci _)).closed (not_closes_of_state (by rw [updCheck_check_same]; simp))
  exact (voided.trans (endChains_noNewClosing ci _)).trans (freeingTest_noNewClosing ci _)

/-! ### Fires and tickets -/

theorem buildFire_noNewClosing {ci : Nat} {ids : List Nat} {remake : Bool} {course : Option Nat} {ev : Ev} {x : Ev × List Nat}
    (h : buildFire ci ids remake course ev = some x) : NoNewClosing ev.tb x.1.tb := by
  have built := foldl_keeps (fun acc : Ev × List Nat => acc.1.tb.checks) (buildTicket_checks ci remake course)
    (planFire ev.tb ids) (ev, [])
  have fired := foldl_keeps (fun ev : Ev => ev.tb.checks) (f := fun ev id => ev.updLine id (fun l => { l with fired := true }))
    (fun _ _ => by simp) ids
  unfold buildFire at h
  dsimp only at h
  split at h
  · obtain rfl := Option.some.inj h
    exact (NoNewClosing.of_checks ((fired _).trans built)).trans (updCheck_noNewClosing _ _ fun _ h => h)
  · cases h

theorem oweFire_noNewClosing (ci : Nat) (ev : Ev) : NoNewClosing ev.tb (oweFire ci ev).tb :=
  (updCheck_noNewClosing ev ci (f := fun c => { c with owed := true }) fun _ h => h).trans (.of_checks rfl)

theorem freeTicket_noNewClosing (i : Nat) (ev : Ev) : NoNewClosing ev.tb (freeTicket i ev).tb := by
  unfold freeTicket
  split
  · exact .refl _
  · exact (NoNewClosing.of_checks (by simp)).trans (updCheck_noNewClosing _ _ fun _ h => h)

theorem withdrawTicket_noNewClosing (ev : Ev) (i : Nat) : NoNewClosing ev.tb (withdrawTicket ev i).tb := by
  unfold withdrawTicket
  split
  · exact .refl _
  · exact (freeTicket_noNewClosing i ev).trans (.of_checks (by simp))

theorem withdrawAll_noNewClosing (ci : Nat) (ev : Ev) : NoNewClosing ev.tb (withdrawAll ci ev).tb :=
  .foldl withdrawTicket_noNewClosing _ ev

theorem bumpTicket_noNewClosing (i : Nat) (o : Order) (ev : Ev) : NoNewClosing ev.tb (bumpTicket i o ev).tb := by
  have consumed := foldl_keeps (fun ev : Ev => ev.tb.checks) consumeLine_checks o.lines ev
  exact (NoNewClosing.of_checks (by simpa using consumed)).trans (freeTicket_noNewClosing i _)

theorem ageTicket_noNewClosing (ev : Ev) (i : Nat) : NoNewClosing ev.tb (ageTicket ev i).tb := by
  unfold ageTicket
  split
  · exact .refl _
  · dsimp only
    split
    · exact (NoNewClosing.of_checks (by rw [Ev.note_tb]; rfl)).trans (updCheck_noNewClosing _ _ fun _ h => h)
    · exact .of_checks rfl

theorem agingEv_noNewClosing (n : Nat) (ev : Ev) : NoNewClosing ev.tb (agingEv n ev).tb :=
  have walked := NoNewClosing.foldl ageTicket_noNewClosing
    ((ev.tb.station n).rail ++ (ev.tb.station n).rush0 ++ (ev.tb.station n).rush1 ++ (ev.tb.station n).normal) ev
  walked.trans (.of_checks (by simp [agingEv]))

/-! ### Recomputation and settlement -/

/-- A recomputation may make its own check ready to close, and no other (R23, R49). -/
theorem recompute_but (ci : Nat) (ev : Ev) : NoNewClosingBut ci ev.tb (recompute ci ev).tb :=
  (NoNewClosing.of_checks (writeNets_checks _ ev)).but ci |>.trans (updCheck_but _ ci _)

theorem closeFire_noNewClosing (ci : Nat) (ev : Ev) : NoNewClosing ev.tb (closeFire ci ev).tb := by
  unfold closeFire
  dsimp only
  split
  · exact .refl _
  · split
    · exact oweFire_noNewClosing ci ev
    · split
      · next h => exact buildFire_noNewClosing h
      · exact oweFire_noNewClosing ci ev

/-- Entry to PAID leaves its check in PAID, or FREE, where nothing is left to close (R49, R50). -/
theorem entryToPaid_noNewClosing {ci : Nat} {a : Tables} {ev : Ev} (h : NoNewClosingBut ci a ev.tb) :
    NoNewClosing a (entryToPaid ci ev).tb := by
  have paid : NoNewClosing a (ev.updCheck ci (fun c => { c with state := .paid, holder := none })).tb :=
    (h.trans (updCheck_but ev ci _)).closed (not_closes_of_state (by rw [updCheck_check_same]; simp))
  have noted : NoNewClosing a (settleCheck ci ev).tb := by
    unfold settleCheck
    dsimp only
    refine .trans ?_ (endChains_noNewClosing ci _)
    split
    · refine .trans ?_ (closeFire_noNewClosing ci _)
      split <;> simpa only [Ev.note_tb] using paid
    · split <;> simpa only [Ev.note_tb] using paid
  exact noted.trans (freeingTest_noNewClosing ci _)

/-- The close test leaves no check to close that was not, but for its own one, before (R49). -/
theorem closeTest_noNewClosing {ci : Nat} {a : Tables} {ev : Ev} (h : NoNewClosingBut ci a ev.tb) :
    NoNewClosing a (closeTest ci ev).1.tb := by
  unfold closeTest
  split
  · exact entryToPaid_noNewClosing h
  · next hc => exact h.closed (by simpa using hc)

theorem appendLine_noNewClosing (ci id : Nat) (l : Line) (ev : Ev) : NoNewClosing ev.tb (appendLine ci id l ev).tb :=
  (NoNewClosing.of_checks (by simp)).trans (updCheck_noNewClosing _ ci fun _ h => h)

theorem addLineEffect_but (ci id : Nat) (l : Line) (ev : Ev) : NoNewClosingBut ci ev.tb (addLineEffect ci id l ev).tb := by
  unfold addLineEffect
  dsimp only
  refine NoNewClosingBut.trans (NoNewClosing.but ?_ ci) (recompute_but ci _)
  split
  · exact appendLine_noNewClosing ci id l ev
  · exact (appendLine_noNewClosing ci id l ev).trans (.of_checks (by simp))

theorem clearHolds_noNewClosing (p : Nat → Bool) (ev : Ev) : NoNewClosing ev.tb (clearHolds p ev).tb := by
  unfold clearHolds tmap
  generalize ev.tb.checks.map (fun p => p.1) = ks
  have cleared : ∀ t : List (Nat × Check), NoNewClosing (ev.tb.setChecks t) (ev.tb.setChecks (ks.foldl (fun u i =>
      tupd check0 u i (fun c => if heldBy p c then { c with holder := none } else c)) t)) := by
    induction ks with
    | nil => exact fun t => .refl _
    | cons k ks ih =>
      refine fun t => NoNewClosing.trans ?_ (ih _)
      exact updCheck_noNewClosing (ev.setTb (ev.tb.setChecks t)) k fun c h => by split at h <;> exact h
  exact cleared ev.tb.checks

end Sys2Proof.Machine
end

section
/-!
The close condition through the runs of chain slots (08) and the requests (01, 03 to 06, 08 to 10): every one of them that recomputes a
check runs the close test of that check before it ends (R49).
-/

namespace Sys2Proof.Machine

/-! ### Chains -/

theorem makeCopy_noNewClosing (ci id : Nat) (l : Line) (ev : Ev) : NoNewClosing ev.tb (makeCopy ci id l ev).tb :=
  (closeTest_noNewClosing (addLineEffect_but ci id l ev)).trans (.of_checks (by simp [makeCopy]))

theorem copyTemplate_noNewClosing (ci : Nat) (x : Copies) (tid : Nat) : NoNewClosing x.ev.tb (copyTemplate ci x tid).ev.tb := by
  unfold copyTemplate
  split
  · dsimp only
    split
    · exact makeCopy_noNewClosing ci _ _ x.ev
    · exact .refl _
  · exact .refl _

theorem makeCopies_noNewClosing (n ci g : Nat) (ev : Ev) : NoNewClosing ev.tb (makeCopies n ci g ev).ev.tb := by
  have copied : ∀ (l : List Nat) (x : Copies), NoNewClosing x.ev.tb (l.foldl (copyTemplate ci) x).ev.tb := by
    intro l
    induction l with
    | nil => exact fun x => .refl _
    | cons tid l ih => exact fun x => (copyTemplate_noNewClosing ci x tid).trans (ih _)
  have all := copied (templatesOf ev.tb ci g) { ev := ev, made := [], skipped := 0 }
  unfold makeCopies
  dsimp only
  split
  · exact all
  · simpa using all

theorem executionLines_noNewClosing (n : Nat) (retry : Bool) (ev : Ev) :
    NoNewClosing ev.tb (executionLines n retry ev).1.tb := by
  unfold executionLines
  dsimp only
  split
  · exact makeCopies_noNewClosing n _ _ ev
  · exact .refl _

theorem markStarted_noNewClosing (n : Nat) (ev : Ev) : NoNewClosing ev.tb (markStarted n ev).tb :=
  (NoNewClosing.of_checks rfl).trans (updCheck_noNewClosing _ _ fun _ h => h)

/-- The event a step of a running slot leaves, whether the slot rests or goes on. -/
def RunStep.event : RunStep → Ev
  | .rest ev => ev
  | .go _ _ _ ev => ev

theorem waitOr_checks (n : Nat) (d : Duration) (fresh : Bool) (pt : RunPoint) (ev : Ev) :
    (waitOr n d fresh pt ev).event.tb.checks = ev.tb.checks := by
  unfold waitOr; split <;> rfl

theorem reachStep_noNewClosing (n : Nat) (fresh : Bool) (ev : Ev) : NoNewClosing ev.tb (reachStep n fresh ev).event.tb := by
  unfold reachStep
  dsimp only
  split
  · exact .of_checks rfl
  · split
    · exact .refl _
    · exact .of_checks (waitOr_checks _ _ _ _ _)

theorem executeStep_noNewClosing (n : Nat) (fresh retry : Bool) (ev : Ev) :
    NoNewClosing ev.tb (executeStep n fresh retry ev).event.tb := by
  refine (executionLines_noNewClosing n retry ev).trans ?_
  unfold executeStep
  dsimp only
  split
  · next h => exact buildFire_noNewClosing h
  · exact .of_checks (stall_checks n _)

theorem completeStep_noNewClosing (n : Nat) (ev : Ev) : NoNewClosing ev.tb (completeStep n ev).event.tb := by
  unfold completeStep
  dsimp only
  have ended : NoNewClosing ev.tb ((endSlot n (ev.updSlot n (fun s => { s with passesDone := min (s.passesDone + 1) 65535 }))).note
      .chainDone n (ev.tb.slot n).check).tb := by
    rw [Ev.note_tb]
    exact (NoNewClosing.of_checks rfl).trans (endSlot_noNewClosing n _)
  split
  · split
    · exact ended.trans (markStarted_noNewClosing _ _)
    · exact ended
  · exact ended

theorem builtStep_noNewClosing (n : Nat) (fresh : Bool) (ev : Ev) : NoNewClosing ev.tb (builtStep n fresh ev).event.tb := by
  unfold builtStep
  dsimp only
  refine NoNewClosing.trans (b := (ev.updSlot n (fun s => { s with reps := s.reps - 1 })).tb) (.of_checks rfl) ?_
  split
  · split
    · exact .of_checks (waitOr_checks _ _ _ _ _)
    · exact .refl _
  · split
    · exact completeStep_noNewClosing n _
    · exact .refl _

theorem advanceStep_noNewClosing (n : Nat) (fresh : Bool) (ev : Ev) : NoNewClosing ev.tb (advanceStep n fresh ev).event.tb := by
  unfold advanceStep
  split
  · exact .of_checks rfl
  · dsimp only; split <;> exact .of_checks rfl

theorem runStep_noNewClosing (n : Nat) (fresh : Bool) (pt : RunPoint) (ev : Ev) :
    NoNewClosing ev.tb (runStep n fresh pt ev).event.tb := by
  unfold runStep
  split
  · exact .refl _
  · cases pt with
    | reach => exact reachStep_noNewClosing n fresh ev
    | execute retry => exact executeStep_noNewClosing n fresh retry ev
    | built => exact builtStep_noNewClosing n fresh ev
    | advance => exact advanceStep_noNewClosing n fresh ev

theorem runSlot_noNewClosing (fuel n : Nat) (fresh : Bool) (pt : RunPoint) (ev : Ev) :
    NoNewClosing ev.tb (runSlot fuel n fresh pt ev).tb := by
  induction fuel generalizing n fresh pt ev with
  | zero => exact .refl _
  | succ fuel ih =>
    have first := runStep_noNewClosing n fresh pt ev
    rw [runSlot]
    split
    · next h => rwa [h] at first
    · next h => rw [h] at first; exact first.trans (ih _ _ _ _)

theorem runChain_noNewClosing (n : Nat) (fresh : Bool) (pt : RunPoint) (ev : Ev) :
    NoNewClosing ev.tb (runChain n fresh pt ev).tb := runSlot_noNewClosing 400000 n fresh pt ev

theorem startSlot_noNewClosing (n : Nat) (ev : Ev) : NoNewClosing ev.tb (startSlot n ev).tb := by
  unfold startSlot
  dsimp only
  split
  · exact markStarted_noNewClosing n ev
  · exact (markStarted_noNewClosing n ev).trans (runChain_noNewClosing _ _ _ _)

/-! ### What requests share -/

theorem withCheck_noNewClosing {r : Req} {ev : Ev} {k : Nat → Ev × Answer} (h : ∀ ci, NoNewClosing ev.tb (k ci).1.tb) :
    NoNewClosing ev.tb (withCheck r ev k).1.tb := by
  unfold withCheck
  split
  · exact h _
  · exact .refl _

theorem withHold_noNewClosing {r : Req} {ci : Nat} {ev : Ev} {k : Ev → Ev × Answer} (h : ∀ ev, NoNewClosing ev.tb (k ev).1.tb) :
    NoNewClosing ev.tb (withHold r ci ev k).1.tb := by
  unfold withHold
  split
  · exact (renewHold_noNewClosing ci _ _ ev).trans (h _)
  · exact .refl _

theorem withHeldLive_noNewClosing {r : Req} {ci : Nat} {ev : Ev} {k : Ev → Ev × Answer}
    (h : ∀ ev, NoNewClosing ev.tb (k ev).1.tb) : NoNewClosing ev.tb (withHeldLive r ci ev k).1.tb :=
  withHold_noNewClosing fun ev => by
    split
    · exact h ev
    · exact .refl _

theorem unlessRefused_noNewClosing {ev : Ev} {x : Option Answer} {k : Ev × Answer} (h : NoNewClosing ev.tb k.1.tb) :
    NoNewClosing ev.tb (unlessRefused ev x k).1.tb := by
  cases x with
  | none => exact h
  | some a => exact .refl _

/-! ### Checks, lines and payers (01, 03) -/

theorem openCheckReq_noNewClosing (r : Req) (ev : Ev) : NoNewClosing ev.tb (openCheckReq r ev).1.tb := by
  have opened : ∀ ci tag policy mode, NoNewClosing ev.tb (openAt r ci tag policy mode ev).1.tb := fun ci tag policy mode =>
    (updCheck_noNewClosing ev ci fun _ h => by simp [Check.closes, openedCheck] at h).trans (.of_checks (Ev.countLane_tb_checks _ _ _))
  unfold openCheckReq
  split
  · exact .refl _
  · split
    · split
      · exact .refl _
      · split
        · exact .refl _
        · split
          · exact .refl _
          · exact opened _ _ _ _
    · exact .refl _

theorem addLineReq_noNewClosing (r : Req) (ev : Ev) : NoNewClosing ev.tb (addLineReq r ev).1.tb :=
  withCheck_noNewClosing fun ci => withHeldLive_noNewClosing fun ev => by
    dsimp only
    split
    · exact .refl _
    · split
      · exact .refl _
      · split
        · exact .refl _
        · exact .refl _
        · refine unlessRefused_noNewClosing ?_
          split
          · exact .refl _
          · exact closeTest_noNewClosing (addLineEffect_but ci _ _ ev)

theorem setLineRest_noNewClosing (r : Req) (ci id : Nat) (ev : Ev) : NoNewClosing ev.tb (setLineRest r ci id ev).1.tb := by
  unfold setLineRest
  dsimp only
  split
  · exact .refl _
  · split
    · exact .refl _
    · exact .refl _
    · split
      · exact .refl _
      · split
        · exact .refl _
        · split
          · exact .refl _
          · exact closeTest_noNewClosing (recompute_but ci (ev.updLine id _))

theorem setLineReq_noNewClosing (r : Req) (ev : Ev) : NoNewClosing ev.tb (setLineReq r ev).1.tb :=
  withCheck_noNewClosing fun ci => by
    dsimp only
    split
    · exact .refl _
    · exact withHeldLive_noNewClosing fun ev => by
        split
        · exact .refl _
        · exact setLineRest_noNewClosing r ci _ ev

theorem voidLineEffect_but (ci id : Nat) (ev : Ev) : NoNewClosingBut ci ev.tb (voidLineEffect ci id ev).tb :=
  (((NoNewClosing.of_checks (voidOneLine_checks ci ev id)).trans (withdrawAll_noNewClosing ci _)).but ci).trans (recompute_but ci _)

theorem voidLineReq_noNewClosing (r : Req) (ev : Ev) : NoNewClosing ev.tb (voidLineReq r ev).1.tb :=
  withCheck_noNewClosing fun ci => by
    dsimp only
    split
    · exact .refl _
    · exact withHeldLive_noNewClosing fun ev => by
        split
        · exact .refl _
        · split
          · exact .refl _
          · dsimp only
            exact closeTest_noNewClosing (voidLineEffect_but ci _ ev)

theorem sendReq_noNewClosing (r : Req) (ev : Ev) : NoNewClosing ev.tb (sendReq r ev).1.tb :=
  withCheck_noNewClosing fun ci => withHeldLive_noNewClosing fun ev => by
    dsimp only
    split
    · exact .refl _
    · split
      · exact .refl _
      · split
        · exact .refl _
        · next h => exact buildFire_noNewClosing h

theorem voidCheckReq_noNewClosing (r : Req) (ev : Ev) : NoNewClosing ev.tb (voidCheckReq r ev).1.tb :=
  withCheck_noNewClosing fun ci => withHold_noNewClosing fun ev => by
    split
    · exact .refl _
    · split
      · exact .refl _
      · have struck : NoNewClosing ev.tb (withdrawAll ci ((liveLines ev.tb ci).foldl (voidOneLine ci) ev)).tb :=
          (NoNewClosing.foldl (fun ev id => .of_checks (voidOneLine_checks ci ev id)) _ ev).trans (withdrawAll_noNewClosing ci _)
        exact enterVoided_noNewClosing ((struck.but ci).trans (recompute_but ci _))

theorem readCheckReq_tb (r : Req) (ev : Ev) : (readCheckReq r ev).1.tb = ev.tb := by
  unfold readCheckReq withCheck
  split
  · dsimp only; split <;> rfl
  · rfl

theorem takeReq_noNewClosing (r : Req) (ev : Ev) : NoNewClosing ev.tb (takeReq r ev).1.tb :=
  withCheck_noNewClosing fun _ => withHeldLive_noNewClosing fun _ => .refl _

theorem releaseReq_noNewClosing (r : Req) (ev : Ev) : NoNewClosing ev.tb (releaseReq r ev).1.tb :=
  withCheck_noNewClosing fun ci => by
    dsimp only
    split
    · exact updCheck_noNewClosing ev ci fun _ h => h
    · exact .refl _

theorem transferReq_noNewClosing (r : Req) (ev : Ev) : NoNewClosing ev.tb (transferReq r ev).1.tb :=
  withCheck_noNewClosing fun ci => withHeldLive_noNewClosing fun ev => by
    dsimp only
    split
    · exact giveHold_noNewClosing ci _ _ ev
    · exact .refl _

theorem breakReq_noNewClosing (r : Req) (ev : Ev) : NoNewClosing ev.tb (breakReq r ev).1.tb :=
  withCheck_noNewClosing fun ci => by
    have cleared : NoNewClosing ev.tb (ev.updCheck ci (fun c => { c with holder := none })).tb :=
      updCheck_noNewClosing ev ci fun _ h => h
    dsimp only
    split
    · rwa [Ev.note_tb]
    · exact cleared

theorem setPayersEffect_but (ci n : Nat) (ev : Ev) : NoNewClosingBut ci ev.tb (setPayersEffect ci n ev).tb := by
  have rewritten := foldl_keeps (fun ev : Ev => ev.tb.checks) (f := rewriteLine n) (fun _ _ => rfl) (ev.tb.check ci).lines ev
  unfold setPayersEffect
  dsimp only
  refine NoNewClosingBut.trans (NoNewClosing.but (.of_checks ?_) ci) (updCheck_but _ ci _)
  split
  · exact rewritten
  · rfl

theorem setPayersReq_noNewClosing (r : Req) (ev : Ev) : NoNewClosing ev.tb (setPayersReq r ev).1.tb :=
  withCheck_noNewClosing fun ci => withHeldLive_noNewClosing fun ev => by
    dsimp only
    split
    · exact .refl _
    · split
      · exact .refl _
      · dsimp only
        exact closeTest_noNewClosing ((setPayersEffect_but ci _ ev).trans (recompute_but ci _))

theorem setSplitReq_noNewClosing (r : Req) (ev : Ev) : NoNewClosing ev.tb (setSplitReq r ev).1.tb :=
  withCheck_noNewClosing fun ci => withHeldLive_noNewClosing fun ev => by
    split
    · exact .refl _
    · dsimp only
      exact closeTest_noNewClosing ((updCheck_but ev ci _).trans (recompute_but ci _))

theorem tenderEffect_but (ci p amount tip : Nat) (ev : Ev) : NoNewClosingBut ci ev.tb (tenderEffect ci p amount tip ev).tb :=
  (((updCheck_but ev ci _).trans (updCheck_but _ ci _)).trans (recompute_but ci _)).trans (updCheck_but _ ci _)

theorem tenderTaken_noNewClosing (r : Req) (ci p amount tip : Nat) (x : Payer) (ev : Ev) :
    NoNewClosing ev.tb (tenderTaken r ci p amount tip x ev).1.tb := by
  unfold tenderTaken
  dsimp only
  exact (closeTest_noNewClosing (tenderEffect_but ci _ _ _ ev)).trans (.of_checks (Ev.countLane_tb_checks _ _ _))

theorem tenderReq_noNewClosing (r : Req) (ev : Ev) : NoNewClosing ev.tb (tenderReq r ev).1.tb :=
  withCheck_noNewClosing fun ci => withHeldLive_noNewClosing fun ev => by
    dsimp only
    split
    · exact .refl _
    · split
      · exact .refl _
      · split
        · exact .refl _
        · split
          · exact .refl _
          · exact tenderTaken_noNewClosing r ci _ _ _ _ ev

theorem readSplitReq_tb (r : Req) (ev : Ev) : (readSplitReq r ev).1.tb = ev.tb := by
  unfold readSplitReq withCheck
  split
  · dsimp only; split <;> rfl
  · rfl

/-! ### The catalogue (04) -/

theorem defineItemReq_checks (r : Req) (ev : Ev) : (defineItemReq r ev).1.tb.checks = ev.tb.checks := by
  have removed : ∀ i, (removeItem i ev).1.tb.checks = ev.tb.checks := fun i => by
    unfold removeItem
    dsimp only
    split
    · rfl
    · split
      · rfl
      · simp [definedAnswer, putItem]
  have defined : ∀ i d kind, (defineEffect i d kind ev).tb.checks = ev.tb.checks := fun i d kind => by
    unfold defineEffect; dsimp only; split <;> simp [putItem]
  unfold defineItemReq
  dsimp only
  split
  · rfl
  · split
    · exact removed _
    · split
      · rfl
      · split
        · rfl
        · split
          · rfl
          · exact defined _ _ _

theorem setBandReq_checks (r : Req) (ev : Ev) : (setBandReq r ev).1.tb.checks = ev.tb.checks := by
  unfold setBandReq; dsimp only; split <;> rfl

theorem clearShortReq_checks (r : Req) (ev : Ev) : (clearShortReq r ev).1.tb.checks = ev.tb.checks := by
  unfold clearShortReq; dsimp only; split <;> rfl

theorem readItemReq_tb (r : Req) (ev : Ev) : (readItemReq r ev).1.tb = ev.tb := by
  unfold readItemReq; dsimp only; split <;> rfl

theorem stockReq_checks (r : Req) (ev : Ev) (code : Item → Nat → ResultCode) (f : Item → Nat → Item)
    (count : Item → Nat → ItemCount → ItemCount) : (stockReq r ev code f count).1.tb.checks = ev.tb.checks := by
  unfold stockReq
  split
  · rfl
  · simp

/-! ### The kitchen (05, 06) -/

theorem bumpReq_noNewClosing (r : Req) (ev : Ev) : NoNewClosing ev.tb (bumpReq r ev).1.tb := by
  unfold bumpReq
  dsimp only
  split
  · exact .refl _
  · split
    · exact .refl _
    · split
      · exact .refl _
      · split
        · exact .refl _
        · exact (bumpTicket_noNewClosing _ _ ev).trans (freeingTest_noNewClosing _ _)

theorem remakeAdd_but (ci id : Nat) (l : Line) (ev : Ev) : NoNewClosingBut ci ev.tb (remakeAdd ci id l ev).tb := by
  have reserved : NoNewClosing ev.tb (reserveAll (appendLine ci id l ev) (demandOf (appendLine ci id l ev).tb l.item l.qty)).tb :=
    (appendLine_noNewClosing ci id l ev).trans (.of_checks (reserveAll_checks _ _))
  unfold remakeAdd
  dsimp only
  split
  · exact (reserved.but ci).trans (recompute_but ci _)
  · exact reserved.but ci

theorem remakeTaken_noNewClosing (ci id : Nat) (l : Line) (ev : Ev) : NoNewClosing ev.tb (remakeTaken ci id l ev).1.tb := by
  unfold remakeTaken
  dsimp only
  split
  · exact .refl _
  · next h =>
    dsimp only
    exact closeTest_noNewClosing ((remakeAdd_but ci id l ev).trans
        (((buildFire_noNewClosing h).trans (.of_checks (countRemakes_checks _ _))).but ci))

theorem remakeReq_noNewClosing (r : Req) (ev : Ev) : NoNewClosing ev.tb (remakeReq r ev).1.tb :=
  withCheck_noNewClosing fun ci => by
    split
    · exact .refl _
    · dsimp only
      split
      · exact .refl _
      · split
        · exact .refl _
        · split
          · exact .refl _
          · split
            · exact .refl _
            · exact unlessRefused_noNewClosing (remakeTaken_noNewClosing ci _ _ ev)

theorem stepIntakeReq_checks (r : Req) (ev : Ev) : (stepIntakeReq r ev).1.tb.checks = ev.tb.checks := by
  unfold stepIntakeReq
  dsimp only
  split
  · split
    · rfl
    · split
      · rfl
      · exact stepIntakeEv_checks _ _ _ ev
  · rfl

theorem setStationReq_checks (r : Req) (ev : Ev) : (setStationReq r ev).1.tb.checks = ev.tb.checks := by
  unfold setStationReq
  dsimp only
  split
  · rfl
  · split
    · exact setStationEffect_checks _ _ _ _ ev
    · rfl

/-! ### Timed actions, chains and lanes (07 to 10) -/

theorem setActionReq_checks (r : Req) (ev : Ev) : (setActionReq r ev).1.tb.checks = ev.tb.checks := by
  unfold setActionReq
  dsimp only
  split
  · rfl
  · split
    · split
      · rfl
      · split <;> rfl
    · rfl

theorem writeProgramReq_checks (r : Req) (ev : Ev) : (writeProgramReq r ev).1.tb.checks = ev.tb.checks := by
  unfold writeProgramReq
  dsimp only
  split
  · split
    · rfl
    · split
      · rfl
      · split <;> rfl
  · rfl

theorem armChainReq_checks (r : Req) (ev : Ev) : (armChainReq r ev).1.tb.checks = ev.tb.checks := by
  have armed : ∀ n m, (armRest r n m ev).1.tb.checks = ev.tb.checks := fun n m => by
    unfold armRest
    dsimp only
    split
    · rfl
    · split
      · rfl
      · split
        · rfl
        · split <;> rfl
  unfold armChainReq
  dsimp only
  split
  · rfl
  · split
    · rfl
    · split
      · rfl
      · exact armed _ _

theorem startChainReq_noNewClosing (r : Req) (ev : Ev) : NoNewClosing ev.tb (startChainReq r ev).1.tb := by
  unfold startChainReq withSlot
  split
  · dsimp only
    split
    · exact startSlot_noNewClosing _ ev
    · exact .refl _
  · exact .refl _

theorem stopChainReq_noNewClosing (r : Req) (ev : Ev) : NoNewClosing ev.tb (stopChainReq r ev).1.tb := by
  unfold stopChainReq withSlot
  split
  · dsimp only
    split
    · exact endSlot_noNewClosing _ ev
    · exact .refl _
  · exact .refl _

theorem readChainReq_tb (r : Req) (ev : Ev) : (readChainReq r ev).1.tb = ev.tb := by
  unfold readChainReq withSlot; split <;> rfl

theorem setProfileReq_noNewClosing (r : Req) (ev : Ev) : NoNewClosing ev.tb (setProfileReq r ev).1.tb := by
  have written : ∀ n role, NoNewClosing ev.tb (profileWrite r n role ev).1.tb := fun n role => by
    unfold profileWrite
    dsimp only
    split
    · exact .of_checks rfl
    · exact (NoNewClosing.of_checks rfl).trans (clearHolds_noNewClosing _ _)
  unfold setProfileReq
  dsimp only
  split
  · exact .refl _
  · split
    · split
      · exact .refl _
      · split
        · exact .refl _
        · exact written _ _
    · exact .refl _

theorem viewReq_checks (r : Req) (ev : Ev) : (viewReq r ev).1.tb.checks = ev.tb.checks := by
  have cleared : ∀ v i, (clearView v i ev).tb.checks = ev.tb.checks := fun v i => by cases v <;> rfl
  unfold viewReq
  dsimp only
  split
  · rfl
  · split
    · rfl
    · split
      · rfl
      · split
        · rfl
        · dsimp only
          split
          · exact cleared _ _
          · rfl

end Sys2Proof.Machine
end

section
/-!
The close condition through timed events (07), the sweep (09), engine control (11) and so every step: R49 as an invariant.
-/

namespace Sys2Proof.Machine

/-! ### Timed events -/

theorem timedEvent_noNewClosing {f : Ev → Ev} (h : ∀ ev, NoNewClosing ev.tb (f ev).tb) {a : Tables} {io : Io}
    (hio : io.st.tb = a) : NoNewClosing a (timedEvent f io).st.tb :=
  hio ▸ (h io.st.event).trans (.of_checks (by simp [timedEvent]))

theorem actionEv_noNewClosing (i : Nat) (a : Action) (ev : Ev) : NoNewClosing ev.tb (actionEv i a ev).tb := by
  cases a with
  | setBand b => exact .of_checks rfl
  | stepIntake n d m => exact .of_checks (stepIntakeEv_checks n d m ev)
  | setGate n m => exact .of_checks (setGateEv_checks n m ev)
  | startChain n =>
    unfold actionEv
    dsimp only
    split
    · exact startSlot_noNewClosing n ev
    · exact .refl _
  | prompt c => exact .of_checks (by simp [actionEv])

theorem walkEntry_noNewClosing (ticked : Nat) (ev : Ev) (i : Nat) : NoNewClosing ev.tb (walkEntry ticked ev i).tb := by
  unfold walkEntry
  dsimp only
  split
  · exact (actionEv_noNewClosing i _ ev).trans (.of_checks rfl)
  · split
    · exact .of_checks rfl
    · exact .refl _

theorem walkEv_noNewClosing (ticked : Nat) (ev : Ev) : NoNewClosing ev.tb (walkEv ticked ev).tb :=
  .foldl (walkEntry_noNewClosing ticked) _ ev

theorem owedBuilt_noNewClosing (ci : Nat) (ev : Ev) : NoNewClosing ev.tb (owedBuilt ci ev).tb :=
  ((updCheck_noNewClosing ev ci (f := fun c => { c with owed := false }) fun _ h => h).trans (.of_checks rfl)).trans
    (freeingTest_noNewClosing ci _)

theorem retryOwed_noNewClosing (cis : List Nat) (ev : Ev) : NoNewClosing ev.tb (retryOwed cis ev).tb := by
  induction cis generalizing ev with
  | nil => exact .refl _
  | cons ci cis ih =>
    rw [retryOwed]
    split
    · next h => exact ((buildFire_noNewClosing h).trans (owedBuilt_noNewClosing ci _)).trans (ih _)
    · exact .of_checks (Ev.countEngine_tb_checks _ _)

theorem stallRetryEv_noNewClosing (n : Nat) (ev : Ev) : NoNewClosing ev.tb (stallRetryEv n ev).tb := by
  unfold stallRetryEv
  split
  · exact (NoNewClosing.of_checks rfl).trans (runChain_noNewClosing n _ _ (resume n ev))
  · exact .of_checks rfl

theorem walkSlot_noNewClosing (ev : Ev) (n : Nat) : NoNewClosing ev.tb (walkSlot ev n).tb := by
  unfold walkSlot
  split
  · exact (NoNewClosing.of_checks rfl).trans (runChain_noNewClosing n _ _ (resume n ev))
  · exact (NoNewClosing.of_checks rfl).trans (runChain_noNewClosing n _ _ (resume n ev))
  · exact stallRetryEv_noNewClosing n ev
  · exact .refl _

theorem chainsEv_noNewClosing (ev : Ev) : NoNewClosing ev.tb (chainsEv ev).tb := .foldl walkSlot_noNewClosing _ ev

theorem holdPart_noNewClosing (n : Nat) (ev : Ev) : NoNewClosing ev.tb (holdPart n ev).tb := by
  unfold holdPart
  split
  · exact .of_checks (gateHoldEv_checks n ev)
  · exact .refl _

theorem agingPart_noNewClosing (n : Nat) (ev : Ev) : NoNewClosing ev.tb (agingPart n ev).tb := by
  unfold agingPart
  split
  · exact agingEv_noNewClosing n ev
  · exact .refl _

theorem runDue_noNewClosing (d : DueEvent) (io : Io) : NoNewClosing io.st.tb (runDue d io).st.tb := by
  cases d with
  | hold n =>
    rw [runDue]
    exact timedEvent_noNewClosing
      (fun ev => (NoNewClosing.of_checks (gateHoldEv_checks n ev)).trans (agingPart_noNewClosing n _)) rfl
  | aging n =>
    rw [runDue]
    exact timedEvent_noNewClosing (fun ev => (agingEv_noNewClosing n ev).trans (holdPart_noNewClosing n _)) rfl
  | chains =>
    rw [runDue]
    exact timedEvent_noNewClosing chainsEv_noNewClosing rfl
  | actions =>
    rw [runDue]
    exact timedEvent_noNewClosing (walkEv_noNewClosing _) rfl
  | delay => exact .of_checks rfl
  | owed =>
    rw [runDue]
    exact timedEvent_noNewClosing (fun ev => retryOwed_noNewClosing _ ev) rfl

theorem runIfDue_noNewClosing (d : DueEvent) (io : Io) : NoNewClosing io.st.tb (runIfDue d io).st.tb := by
  unfold runIfDue
  split
  · exact runDue_noNewClosing d io
  · exact .refl _

theorem runIfSlotDue_noNewClosing (n : Nat) (e : SlotEvent) (io : Io) : NoNewClosing io.st.tb (runIfSlotDue n e io).st.tb := by
  unfold runIfSlotDue
  split
  · exact runDue_noNewClosing .chains io
  · exact .refl _

theorem runIfEntryDue_noNewClosing (i : Nat) (io : Io) : NoNewClosing io.st.tb (runIfEntryDue i io).st.tb := by
  unfold runIfEntryDue
  split
  · exact runDue_noNewClosing .actions io
  · exact .refl _

theorem drainDues_noNewClosing (fuel : Nat) (io : Io) : NoNewClosing io.st.tb (drainDues fuel io).st.tb := by
  induction fuel generalizing io with
  | zero => exact .refl _
  | succ fuel ih =>
    rw [drainDues]
    split
    · exact (runDue_noNewClosing _ io).trans (ih _)
    · exact .refl _

theorem tickActions_noNewClosing (s : State) : NoNewClosing s.tb (tickActions s).tb := by
  unfold tickActions
  split
  · split
    · exact .refl _
    · rw [State.setTb_tb]
      exact walkEv_noNewClosing s.due.ticked s.event
  · exact .refl _

theorem tickNow_noNewClosing (io : Io) : NoNewClosing io.st.tb (tickNow io).st.tb := by
  unfold tickNow
  dsimp only
  split
  · exact .of_checks (by simp)
  · exact (NoNewClosing.of_checks (by simp [lowerTimers])).trans (tickActions_noNewClosing _)

theorem baseTickIo_noNewClosing (io : Io) : NoNewClosing io.st.tb (baseTickIo io).st.tb := by
  unfold baseTickIo
  split
  · dsimp only
    split
    · exact (drainDues_noNewClosing 40 io).trans (tickNow_noNewClosing _)
    · exact drainDues_noNewClosing 40 io
  · exact .refl _

/-! ### The sweep -/

theorem takePosted_checks (lane slot : Nat) (io : Io) : (takePosted lane slot io).st.tb.checks = io.st.tb.checks := by
  have posted : (readPosted io (slotOff lane slot)).1.st.tb = io.st.tb := by
    have head := busReads_tb io (slotOff lane slot + 0x04) 2
    unfold readPosted
    split
    · simp_all
    · next io1 words h1 =>
      have body := busReads_tb io1 (slotOff lane slot + 0x10) 12
      split <;> simp_all
  unfold takePosted
  split
  · simp_all
  · dsimp only; split <;> simp_all [handOver, State.event]

theorem lookAt_checks (lane : Nat) (io : Io) : (lookAt lane io).st.tb.checks = io.st.tb.checks := by
  have state := busReads_tb io (slotOff lane (io.st.tb.lane lane).pointer) 1
  unfold lookAt
  dsimp only
  split
  · split
    · rw [takePosted_checks]; simp_all
    · split <;> simp_all
  · simp_all

theorem sweepIo_checks (io : Io) : (sweepIo io).st.tb.checks = io.st.tb.checks := by
  unfold sweepIo
  split
  · rfl
  · split
    · rfl
    · exact lookAt_checks _ io

/-! ### Starting and engine control -/

@[simp] theorem dropDues_checks (s : State) : (dropDues s).tb.checks = s.tb.checks := rfl

@[simp] theorem advanceStart_tb (f : StartOp → StartOp) (io : Io) : (advanceStart f io).st.tb = io.st.tb := rfl

@[simp] theorem failStart_tb (e : ConfigError) (io : Io) : (failStart e io).st.tb = io.st.tb := rfl

theorem startAnswer_checks (io : Io) : (startAnswer io).st.tb.checks = io.st.tb.checks := by
  have written : ∀ p, (writePending io p).1.st.tb = io.st.tb := fun p => by
    have body := writeBody_tb io p.lane p.slot p.hubTag p.answer
    unfold writePending
    split
    · simp_all
    · split <;> simp_all
  unfold startAnswer
  split
  · rfl
  · next p _ =>
    have kept := written p
    split <;> simp_all [dropAnswer]

theorem startRead_checks (io : Io) : (startRead io).st.tb.checks = io.st.tb.checks := by
  have block := busReads_tb io Config.configAt 128
  unfold startRead
  split <;> simp_all

theorem startApply_noNewClosing (op : StartOp) (io : Io) : NoNewClosing io.st.tb (startApply op io).st.tb :=
  NoNewClosing.trans (.of_checks rfl) (clearHolds_noNewClosing _ _)

theorem startPage_checks (io : Io) : (startPage io).st.tb.checks = io.st.tb.checks := by
  have page := busWrites_tb io Config.statusAt (statusWords io.st.ntw.written io.st.tb.time io.st.doneCount)
  unfold startPage
  split <;> simp_all

theorem startEnter_checks (op : StartOp) (io : Io) : (startEnter op io).st.tb.checks = io.st.tb.checks := by
  unfold startEnter
  generalize (if op.load then EngineState.load else .run) = e
  dsimp only
  split
  · simp [State.inEngine, State.event]
  · simp [endStart, State.inEngine, State.event]

theorem startStep_noNewClosing (op : StartOp) (io : Io) : NoNewClosing io.st.tb (startStep op io).st.tb := by
  unfold startStep
  split
  · unfold startBase; split <;> exact .of_checks rfl
  · exact .of_checks (startAnswer_checks io)
  · exact .of_checks (startRead_checks io)
  · unfold startTest; split <;> exact .of_checks rfl
  · exact startApply_noNewClosing op io
  · exact .of_checks (startPage_checks io)
  · exact .of_checks (startEnter_checks op io)

theorem runStart_noNewClosing (k : Nat) (s : State) : NoNewClosing s.tb (runStart k s).tb := by
  induction k generalizing s with
  | zero => exact .refl _
  | succ k ih =>
    rw [runStart]
    split
    · exact .refl _
    · next op _ => exact (startStep_noNewClosing op { st := s, errs := op.errs, acc := op.acc }).trans (ih _)

theorem takeCommand_noNewClosing {f : State → State} (h : ∀ s, NoNewClosing s.tb (f s).tb) (ok : Bool) (s : State) :
    NoNewClosing s.tb (takeCommand ok f s).tb := by
  unfold takeCommand
  split
  · exact h (setCommandError false s)
  · exact .of_checks rfl

theorem doStart_noNewClosing (load : Bool) (bus : Bus) (cut : Option Nat) (s : State) :
    NoNewClosing s.tb (doStart load bus cut s).tb :=
  takeCommand_noNewClosing (fun s => runStart_noNewClosing _ (acceptStart load bus.errs s)) _ (s.afterHub bus)

theorem doRun_noNewClosing (s : State) : NoNewClosing s.tb (doRun s).tb :=
  takeCommand_noNewClosing (fun s => by unfold runFromLoad; split <;> exact .of_checks rfl) _ s

theorem doPark_noNewClosing (s : State) : NoNewClosing s.tb (doPark s).tb :=
  takeCommand_noNewClosing (fun s => by
    split
    · exact .of_checks rfl
    · unfold pendPark; split <;> exact .of_checks rfl) _ s

theorem wakeIo_checks (io : Io) : (wakeIo io).st.tb.checks = io.st.tb.checks := by
  simp [wakeIo, State.event, State.inEngine, zeroCounters]

theorem doWake_noNewClosing (bus : Bus) (s : State) : NoNewClosing s.tb (doWake bus s).tb :=
  takeCommand_noNewClosing (fun s' => .of_checks (wakeIo_checks ((Io.start s bus).setSt s'))) _ (s.afterHub bus)

theorem doRestart_checks (s : State) : (doRestart s).tb.checks = s.tb.checks := rfl

theorem doBaseWrite_checks (hi : Bool) (v : Word) (s : State) : (doBaseWrite hi v s).tb.checks = s.tb.checks := by
  unfold doBaseWrite; split <;> rfl

theorem ctrlWrite_noNewClosing (v : Word) (bus : Bus) (s : State) : NoNewClosing s.tb (ctrlWrite v bus s).tb := by
  unfold ctrlWrite
  split
  · exact .of_checks rfl
  · exact doStart_noNewClosing false bus none s
  · exact doStart_noNewClosing true bus none s
  · exact doRun_noNewClosing (s.afterHub bus)
  · exact doPark_noNewClosing (s.afterHub bus)
  · exact doWake_noNewClosing bus s
  · exact .of_checks (doRestart_checks (s.afterHub bus))
  · exact .of_checks rfl

theorem registerWrite_noNewClosing (reg : Reg) (v : Word) (bus : Bus) (s : State) :
    NoNewClosing s.tb (registerWrite reg v bus s).tb := by
  cases reg with
  | baseLo => exact .of_checks (doBaseWrite_checks false v (s.afterHub bus))
  | baseHi => exact .of_checks (doBaseWrite_checks true v (s.afterHub bus))
  | ctrl => exact ctrlWrite_noNewClosing v bus s
  | stat => exact .of_checks rfl
  | attn => exact .of_checks rfl

/-! ### Every step -/

theorem completeStepFor_noNewClosing {h : Req → Ev → Ev × Answer} (hh : ∀ r ev, NoNewClosing ev.tb (h r ev).1.tb)
    (p : Nat → Bool) (bus : Bus) (s : State) : NoNewClosing s.tb (completeStepFor p h bus s).tb := by
  unfold completeStepFor
  dsimp only
  split
  · exact .of_checks rfl
  · next r _ => exact (hh r s.event).trans (.of_checks (finishReq_checks _ _ _))

theorem completeKind_noNewClosing {h : Req → Ev → Ev × Answer} (hh : ∀ r ev, NoNewClosing ev.tb (h r ev).1.tb)
    (kind : Nat) (bus : Bus) (s : State) : NoNewClosing s.tb (completeKind kind h bus s).tb :=
  completeStepFor_noNewClosing (fun r ev => by
    unfold decideReq
    split
    · exact hh r ev
    · exact .refl _) _ bus s

/-- A request that leaves the check records alone. -/
theorem completeKind_noNewClosing_of_checks {h : Req → Ev → Ev × Answer} (hh : ∀ r ev, (h r ev).1.tb.checks = ev.tb.checks)
    (kind : Nat) (bus : Bus) (s : State) : NoNewClosing s.tb (completeKind kind h bus s).tb :=
  completeKind_noNewClosing (fun r ev => .of_checks (hh r ev)) kind bus s

theorem reset_closes (i : Nat) : (State.reset.tb.check i).closes = false := rfl

/-- The state in which a command leaves the engine; every command answers a next state. -/
theorem exec_noNewClosing (c : Instr) {s t : State} (h : exec c s = .next t) : NoNewClosing s.tb t.tb := by
  cases c <;> obtain rfl := Host.Outcome.next.inj h
  case powerOn => exact fun i hi => absurd hi (by simp [reset_closes])
  case start bus cut => exact doStart_noNewClosing false bus cut s
  case startLoad bus cut => exact doStart_noNewClosing true bus cut s
  case run => exact doRun_noNewClosing s
  case enterRun => split <;> exact .of_checks rfl
  case park => exact doPark_noNewClosing s
  case enterParked => split <;> exact .of_checks rfl
  case wake bus => exact doWake_noNewClosing bus s
  case wakeInput bus =>
    split
    · exact .of_checks (wakeIo_checks (Io.start s bus))
    · exact .of_checks rfl
  case restart => exact .of_checks (doRestart_checks s)
  case baseWrite hi v => exact .of_checks (doBaseWrite_checks hi v s)
  case attnAck v => exact .of_checks rfl
  case registerWrite reg v bus => exact registerWrite_noNewClosing reg v bus s
  case sweepVisit bus => exact .of_checks (sweepIo_checks (Io.start s bus))
  case badreq bus => exact completeStepFor_noNewClosing (fun _ _ => .refl _) _ bus s
  case openCheck bus => exact completeKind_noNewClosing openCheckReq_noNewClosing _ bus s
  case addLine bus => exact completeKind_noNewClosing addLineReq_noNewClosing _ bus s
  case setLine bus => exact completeKind_noNewClosing setLineReq_noNewClosing _ bus s
  case voidLine bus => exact completeKind_noNewClosing voidLineReq_noNewClosing _ bus s
  case send bus => exact completeKind_noNewClosing sendReq_noNewClosing _ bus s
  case voidCheck bus => exact completeKind_noNewClosing voidCheckReq_noNewClosing _ bus s
  case readCheck bus => exact completeKind_noNewClosing_of_checks (fun r ev => congrArg _ (readCheckReq_tb r ev)) _ bus s
  case takeHold bus => exact completeKind_noNewClosing takeReq_noNewClosing _ bus s
  case releaseHold bus => exact completeKind_noNewClosing releaseReq_noNewClosing _ bus s
  case transfer bus => exact completeKind_noNewClosing transferReq_noNewClosing _ bus s
  case breakHold bus => exact completeKind_noNewClosing breakReq_noNewClosing _ bus s
  case setPayers bus => exact completeKind_noNewClosing setPayersReq_noNewClosing _ bus s
  case setSplit bus => exact completeKind_noNewClosing setSplitReq_noNewClosing _ bus s
  case tender bus => exact completeKind_noNewClosing tenderReq_noNewClosing _ bus s
  case readSplit bus => exact completeKind_noNewClosing_of_checks (fun r ev => congrArg _ (readSplitReq_tb r ev)) _ bus s
  case defineItem bus => exact completeKind_noNewClosing_of_checks defineItemReq_checks _ bus s
  case setBand bus => exact completeKind_noNewClosing_of_checks setBandReq_checks _ bus s
  case clearShort bus => exact completeKind_noNewClosing_of_checks clearShortReq_checks _ bus s
  case readItem bus => exact completeKind_noNewClosing_of_checks (fun r ev => congrArg _ (readItemReq_tb r ev)) _ bus s
  case yieldItem bus => exact completeKind_noNewClosing_of_checks (fun r ev => stockReq_checks r ev _ _ _) _ bus s
  case waste bus => exact completeKind_noNewClosing_of_checks (fun r ev => stockReq_checks r ev _ _ _) _ bus s
  case stockCount bus => exact completeKind_noNewClosing_of_checks (fun r ev => stockReq_checks r ev _ _ _) _ bus s
  case bump bus => exact completeKind_noNewClosing bumpReq_noNewClosing _ bus s
  case remake bus => exact completeKind_noNewClosing remakeReq_noNewClosing _ bus s
  case stepIntake bus => exact completeKind_noNewClosing_of_checks stepIntakeReq_checks _ bus s
  case setStation bus => exact completeKind_noNewClosing_of_checks setStationReq_checks _ bus s
  case setAction bus => exact completeKind_noNewClosing_of_checks setActionReq_checks _ bus s
  case writeProgram bus => exact completeKind_noNewClosing_of_checks writeProgramReq_checks _ bus s
  case armChain bus => exact completeKind_noNewClosing_of_checks armChainReq_checks _ bus s
  case startChain bus => exact completeKind_noNewClosing startChainReq_noNewClosing _ bus s
  case stopChain bus => exact completeKind_noNewClosing stopChainReq_noNewClosing _ bus s
  case readChain bus => exact completeKind_noNewClosing_of_checks (fun r ev => congrArg _ (readChainReq_tb r ev)) _ bus s
  case setProfile bus => exact completeKind_noNewClosing setProfileReq_noNewClosing _ bus s
  case view bus => exact completeKind_noNewClosing_of_checks viewReq_checks _ bus s
  case baseTick bus => exact baseTickIo_noNewClosing (Io.start s bus)
  case timedAction i bus => exact runIfEntryDue_noNewClosing i (Io.start s bus)
  case owedRetry bus => exact runIfDue_noNewClosing .owed (Io.start s bus)
  case agingTick n bus => exact runIfDue_noNewClosing (.aging n) (Io.start s bus)
  case gateHoldExpiry n bus => exact runIfDue_noNewClosing (.hold n) (Io.start s bus)
  case attentionDelayExpiry => split <;> exact .of_checks rfl
  case chainWaitExpiry n bus => exact runIfSlotDue_noNewClosing n .wait (Io.start s bus)
  case firingSlotRun n bus => exact runIfSlotDue_noNewClosing n .firing (Io.start s bus)
  case chainStallRetry n bus => exact runIfSlotDue_noNewClosing n .stalled (Io.start s bus)

theorem idle_noNewClosing (s : State) : NoNewClosing s.tb (idle s).tb := by
  unfold idle
  split
  · exact runStart_noNewClosing 1 s
  · split
    · split <;> exact .of_checks rfl
    · split
      · exact runDue_noNewClosing _ (Io.start s quietBus)
      · unfold millisecond
        split
        · dsimp only
          split
          · exact baseTickIo_noNewClosing (Io.start s quietBus)
          · exact .of_checks rfl
        · exact .refl _

theorem step_noNewClosing {s t : State} (h : step s = .next t) : NoNewClosing s.tb t.tb := by
  unfold step at h
  split at h
  · obtain rfl := Host.Outcome.next.inj h
    exact idle_noNewClosing s
  · next c rest _ => exact exec_noNewClosing c (s := s.setPending rest) h

theorem closes_eq_false_iff (c : Check) : c.closes = false ↔ (c.state = .settling → allDone c.payers = false) := by
  simp [Check.closes, allDone]

/-- Settles O8: every operation that can make a check ready to close ends in the close test of that check, so no step leaves one
behind that was not there before. -/
theorem noCheckLeftToClose : Obligations.NoCheckLeftToClose := by
  intro s t none_before hstep i
  rw [← closes_eq_false_iff, Bool.eq_false_iff]
  intro left
  have before := (closes_eq_false_iff (s.tb.check i)).2 (none_before i)
  simp [step_noNewClosing hstep i left] at before

end Sys2Proof.Machine
end

section
/-!
Building a fire (R78 to R82): what a ticket's joining does to its station, ticket by ticket and for several tickets, and what a whole
fire leaves, in the terms of the statements.
-/

namespace Sys2Proof.Machine

/-! ### The free ticket records -/

/-- The free ticket records, lowest first. -/
def freeRecords (tb : Tables) : List Nat := (List.range 2048).filter (fun i => (tb.ticket i).order.isNone)

theorem firedTickets_eq (tb : Tables) (plan : List (Nat × List TicketLine)) : firedTickets tb plan = (freeRecords tb).zip plan := rfl

theorem freeRecords_nodup (tb : Tables) : (freeRecords tb).Nodup := List.nodup_range.filter _

theorem findFrom_eq_find? (p : Nat → Bool) (fuel i : Nat) : findFrom p fuel i = (List.range' i fuel).find? p := by
  induction fuel generalizing i with
  | zero => rfl
  | succ n ih => simp only [findFrom, List.range'_succ, List.find?_cons, ih]; cases p i <;> rfl

theorem lowestTicket_eq (tb : Tables) : lowestTicket tb = (freeRecords tb).head? := by
  rw [freeRecords, List.head?_filter, List.range_eq_range']
  exact findFrom_eq_find? _ _ _

/-- The value at an index of a table, when it is not the default, is a listed one. -/
theorem mem_of_tget_ne {α : Type} {d : α} {t : List (Nat × α)} {i : Nat} (h : tget d t i ≠ d) : (i, tget d t i) ∈ t := by
  induction t with
  | nil => exact absurd rfl h
  | cons p t ih =>
    obtain ⟨k, v⟩ := p
    rw [tget] at h ⊢
    split at h
    · next hi => simp [hi]
    · next hi => rw [if_neg hi]; exact List.mem_cons_of_mem _ (ih h)

/-- The records in use are listed, so those the free count leaves are free (R81). -/
theorem freeTickets_le (tb : Tables) : freeTickets tb ≤ (freeRecords tb).length := by
  have used : ((List.range 2048).filter (fun i => !(tb.ticket i).order.isNone)).length ≤ usedTickets tb := by
    unfold usedTickets
    rw [← List.length_map (fun p : Nat × Ticket => p.1)]
    refine List.Subperm.length_le (List.subperm_of_subset (List.nodup_range.filter _) (fun i hi => ?_))
    have hsome : (tb.ticket i).order.isSome = true := by
      have := (List.mem_filter.1 hi).2
      cases ho : (tb.ticket i).order <;> simp_all
    have listed : (i, tb.ticket i) ∈ tb.tickets := mem_of_tget_ne (fun h => by
      rw [show tb.ticket i = ticket0 from h] at hsome; exact absurd hsome (by decide))
    exact List.mem_map.2 ⟨_, List.mem_filter.2 ⟨listed, hsome⟩, rfl⟩
  have whole := List.length_eq_length_filter_add (l := List.range 2048) (fun i => (tb.ticket i).order.isNone)
  rw [List.length_range] at whole
  unfold freeTickets Config.ticketTotal freeRecords
  omega

/-! ### Joining a station (R99, R101, R102) -/

/-- A join to a station as it stands arms the hold (R101). -/
abbrev ArmsHold (c : TicketClass) (x : Station) : Prop := x.gateMode = .gather ∧ c ≠ .rush0 ∧ x.rush1 = [] ∧ x.normal = []

theorem armHold_eq (c : TicketClass) (x : Station) :
    x.armHold c = { x with holdTimer := if ArmsHold c x then armTimer x.hold else x.holdTimer } := by
  have arms : (x.gateMode = .gather ∧ c ≠ .rush0 ∧ x.gathered = 0) ↔ ArmsHold c x := by simp [Station.gathered]
  simp only [Station.armHold, arms]
  split <;> rfl

theorem joinCause_enqueued (c : TicketClass) (x : Station) (i : Nat) : joinCause ((x.armHold c).enqueue i c) c = gateOpenedBy c x 1 := by
  rw [armHold_eq]
  cases c <;> simp [joinCause, gateOpenedBy, Station.enqueue, Station.gathered, Nat.add_assoc, Nat.add_comm, Nat.add_left_comm]

/-- A station that one ticket has joined: the hold armed, the ticket queued, and the gate open when the join opens it. -/
theorem afterJoining_one (c : TicketClass) (x : Station) (i : Nat) :
    afterJoining c x [i] =
      if (gateOpenedBy c x 1).isSome then { (x.armHold c).enqueue i c with gateOpen := true, holdTimer := none }
      else (x.armHold c).enqueue i c := by
  rw [armHold_eq]
  simp only [afterJoining, List.length_singleton]
  generalize (gateOpenedBy c x 1).isSome = opens
  cases c <;> cases opens <;> simp [Station.enqueue, ArmsHold]

theorem afterJoining_nil (c : TicketClass) (x : Station) : afterJoining c x [] = x := rfl

theorem gateOpenedBy_zero (c : TicketClass) (x : Station) : gateOpenedBy c x 0 = none := by simp [gateOpenedBy]

theorem gateOpenedBy_open {c : TicketClass} {x : Station} (h : x.gateOpen = true) (k : Nat) : gateOpenedBy c x k = none := by
  simp [gateOpenedBy, h]

/-- What the next joins look at, once a ticket has joined. -/
theorem afterJoining_one_fields (c : TicketClass) (x : Station) (i : Nat) :
    let y := afterJoining c x [i]
    y.gateMode = x.gateMode ∧ y.gateOpen = (x.gateOpen || (gateOpenedBy c x 1).isSome) ∧ y.fast = x.fast ∧
      y.threshold = x.threshold ∧ (c ≠ .rush0 → y.rush1.length + y.normal.length = x.rush1.length + x.normal.length + 1) := by
  simp only [afterJoining, List.length_singleton]
  cases c <;> simp [Nat.add_assoc, Nat.add_comm, Nat.add_left_comm]

/-- The gate opens at the first join, or later. -/
theorem gateOpenedBy_succ (c : TicketClass) (x : Station) (i k : Nat) :
    gateOpenedBy c x (k + 1) = (gateOpenedBy c x 1).or (gateOpenedBy c (afterJoining c x [i]) k) := by
  obtain ⟨hm, ho, hf, ht, hg⟩ := afterJoining_one_fields c x i
  by_cases shut : x.gateMode = .gather ∧ x.gateOpen = false ∧ c ≠ .rush0
  · obtain ⟨s1, s2, s3⟩ := shut
    by_cases fast : c = .rush1 ∧ x.fast = true
    · simp [gateOpenedBy, s1, s2, fast]
    · by_cases first : x.threshold ≤ x.rush1.length + x.normal.length + 1
      · have later : x.threshold ≤ x.rush1.length + x.normal.length + (k + 1) := by omega
        simp [gateOpenedBy, s1, s2, s3, fast, first, later]
      · have none1 : gateOpenedBy c x 1 = none := by simp [gateOpenedBy, s1, s2, s3, fast, first]
        rw [none1, Option.none_or]
        rw [none1, s2] at ho
        cases k with
        | zero => rw [gateOpenedBy_zero]; exact none1
        | succ k =>
          simp only [gateOpenedBy, hm, ho, hf, ht, hg s3, s1, s2]
          simp [s3, fast, Nat.add_assoc, Nat.add_comm, Nat.add_left_comm]
  · have never : ∀ n, gateOpenedBy c x n = none := fun n => by
      unfold gateOpenedBy; rw [if_neg (fun h => shut ⟨h.1, h.2.1, h.2.2.1⟩)]
    have neverAfter : gateOpenedBy c (afterJoining c x [i]) k = none := by
      unfold gateOpenedBy
      rw [hm, ho, never, Option.isSome_none, Bool.or_false, if_neg (fun h => shut ⟨h.1, h.2.1, h.2.2.1⟩)]
    rw [never, never, neverAfter]; rfl

/-- Several tickets join as the first and then the others: only the first can find the gathered set empty, and the gate opens once. -/
theorem afterJoining_cons (c : TicketClass) (x : Station) (i : Nat) (is : List Nat) :
    afterJoining c x (i :: is) = afterJoining c (afterJoining c x [i]) is := by
  by_cases he : is = []
  · rw [he]; rfl
  · have opens : (gateOpenedBy c x (i :: is).length).isSome =
        ((gateOpenedBy c x 1).isSome || (gateOpenedBy c (afterJoining c x [i]) is.length).isSome) := by
      rw [List.length_cons, gateOpenedBy_succ c x i, Option.isSome_or]
    generalize hlater : (gateOpenedBy c (afterJoining c x [i]) is.length).isSome = later at opens
    rw [afterJoining.eq_1 c (afterJoining c x [i]) is, afterJoining.eq_1 c x (i :: is), if_neg he, if_neg (List.cons_ne_nil _ _)]
    simp only [hlater]
    simp only [opens, afterJoining, List.length_singleton]
    generalize (gateOpenedBy c x 1).isSome = first
    cases c <;> cases first <;> cases later <;> simp

/-- A gate's opening is counted once, whichever join opens it. -/
theorem openingCounted_succ (c : TicketClass) (x : Station) (i k : Nat) (y : StationCount) :
    openingCounted (gateOpenedBy c x (k + 1)) y =
      openingCounted (gateOpenedBy c (afterJoining c x [i]) k) (openingCounted (gateOpenedBy c x 1) y) := by
  rw [gateOpenedBy_succ c x i k]
  cases h : gateOpenedBy c x 1 with
  | none => rfl
  | some cause =>
    have shown : (afterJoining c x [i]).gateOpen = true := by rw [(afterJoining_one_fields c x i).2.1, h]; simp
    rw [gateOpenedBy_open shown]; rfl

/-! ### Tickets built in an event (R79, R80) -/

/-- The tickets of a list of builds (record, station, ticket lines) that join a station. -/
def joining (qs : List (Nat × Nat × List TicketLine)) (n : Nat) : List Nat := (qs.filter (fun q => q.2.1 == n)).map (·.1)

theorem joinersOf_eq (tb : Tables) (plan : List (Nat × List TicketLine)) (n : Nat) :
    joinersOf tb plan n = joining (firedTickets tb plan) n := rfl

/-- A ticket record after a list of builds. -/
def builtRecord (mk : Nat × List TicketLine → Order) (qs : List (Nat × Nat × List TicketLine)) (j : Nat) (k : Ticket) : Ticket :=
  match qs.find? (fun q => q.1 == j) with
  | some q => { tag := k.tag, order := some (mk q.2) }
  | none => k

/-- `ev1` is `ev` after the builds `qs` of tickets of one class, each filled by `mk`; nothing else differs. -/
structure TicketsBuilt (cls : TicketClass) (mk : Nat × List TicketLine → Order) (qs : List (Nat × Nat × List TicketLine))
    (ev ev1 : Ev) : Prop where
  tb : ev1.tb = ((ev.tb.setStations ev1.tb.stations).setTickets ev1.tb.tickets).setCStations ev1.tb.cStations
  mode : ev1.mode = ev.mode
  notes : ev1.notes = ev.notes
  touched : ev1.touched = ev.touched
  rewrites : ev1.rewrites = ev.rewrites
  reached : ∀ n, n ∈ ev1.reached ↔ n ∈ ev.reached ∨ n ∈ qs.map (·.2.1)
  stations : ∀ n, ev1.tb.station n = afterJoining cls (ev.tb.station n) (joining qs n)
  tickets : ∀ j, ev1.tb.ticket j = builtRecord mk qs j (ev.tb.ticket j)
  counts : ∀ n, ev1.tb.cStation n =
    if ev.inLoad = false then openingCounted (gateOpenedBy cls (ev.tb.station n) (joining qs n).length) (ev.tb.cStation n)
    else ev.tb.cStation n

theorem TicketsBuilt.refl (cls : TicketClass) (mk : Nat × List TicketLine → Order) (ev : Ev) : TicketsBuilt cls mk [] ev ev where
  tb := rfl
  mode := rfl
  notes := rfl
  touched := rfl
  rewrites := rfl
  reached := by simp
  stations _ := rfl
  tickets _ := rfl
  counts n := by simp [joining, gateOpenedBy_zero, openingCounted]

theorem joining_cons (q : Nat × Nat × List TicketLine) (qs : List (Nat × Nat × List TicketLine)) (n : Nat) :
    joining (q :: qs) n = if q.2.1 = n then q.1 :: joining qs n else joining qs n := by
  unfold joining; rw [List.filter_cons]; split <;> simp_all

/-- One build, then others in other records. -/
theorem TicketsBuilt.cons {cls : TicketClass} {mk : Nat × List TicketLine → Order} {q : Nat × Nat × List TicketLine}
    {qs : List (Nat × Nat × List TicketLine)} {a b c : Ev} (h : TicketsBuilt cls mk [q] a b) (h1 : TicketsBuilt cls mk qs b c)
    (fresh : q.1 ∉ qs.map (·.1)) : TicketsBuilt cls mk (q :: qs) a c where
  tb := by rw [h1.tb, h.tb]; rfl
  mode := h1.mode.trans h.mode
  notes := h1.notes.trans h.notes
  touched := h1.touched.trans h.touched
  rewrites := h1.rewrites.trans h.rewrites
  reached n := by rw [h1.reached, h.reached]; simp [or_assoc]
  stations n := by
    rw [h1.stations, h.stations, joining_cons, joining_cons]
    split
    · exact (afterJoining_cons cls _ _ _).symm
    · rfl
  tickets j := by
    rw [h1.tickets, h.tickets]
    unfold builtRecord
    by_cases hj : q.1 = j
    · have : qs.find? (fun p => p.1 == j) = none := by
        rw [List.find?_eq_none]
        rintro p hp he
        exact fresh (List.mem_map.2 ⟨p, hp, by rw [hj]; simpa using he⟩)
      simp [this, hj]
    · simp [hj]
  counts n := by
    have load : b.inLoad = a.inLoad := by simp [Ev.inLoad, h.mode]
    rw [h1.counts, h.counts, h.stations, load, joining_cons, joining_cons]
    split
    · split
      · exact (openingCounted_succ cls _ _ _ _).symm
      · simp [joining, gateOpenedBy_zero, openingCounted, afterJoining_nil]
    · rfl

theorem mem_reach (ev : Ev) (n k : Nat) : k ∈ (ev.reach n).reached ↔ k ∈ ev.reached ∨ k = n := by
  unfold Ev.reach
  split
  · next h => exact ⟨.inl, fun x => x.elim id (fun e => e ▸ h)⟩
  · simp

theorem updStation_station (ev : Ev) (n : Nat) (f : Station → Station) (k : Nat) :
    (ev.updStation n f).tb.station k = if k = n then f (ev.tb.station n) else ev.tb.station k := by
  simp [Tables.station, tget_tupd]

theorem updStation_reach_same (ev : Ev) (n : Nat) (f : Station → Station) :
    SameButStations (ev.reach n) ((ev.updStation n f).reach n) := by
  by_cases h : n ∈ ev.reached
  · rw [show ev.reach n = ev from if_pos h, show (ev.updStation n f).reach n = ev.updStation n f from if_pos h]
    exact ⟨rfl, rfl, rfl, rfl, rfl, rfl⟩
  · rw [show ev.reach n = _ from if_neg h, show (ev.updStation n f).reach n = _ from if_neg h]
    exact ⟨rfl, rfl, rfl, rfl, rfl, rfl⟩

theorem openGate_same (n : Nat) (cause : GateCause) (ev : Ev) : SameButStations ev (openGate n cause ev) :=
  SameButStations.trans (b := ev.updStation n (fun s => { s with gateOpen := true, holdTimer := none }))
    ⟨rfl, rfl, rfl, rfl, rfl, rfl⟩ (countStation_same n (countCause cause) _)

@[simp] theorem openGate_tickets (n : Nat) (cause : GateCause) (ev : Ev) : (openGate n cause ev).tb.tickets = ev.tb.tickets := by
  simp [openGate]

theorem openGate_station (n : Nat) (cause : GateCause) (ev : Ev) (k : Nat) :
    (openGate n cause ev).tb.station k =
      if k = n then { ev.tb.station n with gateOpen := true, holdTimer := none } else ev.tb.station k := by
  rw [openGate, Tables.station, Ev.countStation_tb_stations]
  exact updStation_station ev n _ k

theorem openGate_count (n : Nat) (cause : GateCause) (ev : Ev) (k : Nat) :
    (openGate n cause ev).tb.cStation k =
      if k = n ∧ ev.inLoad = false then openingCounted (some cause) (ev.tb.cStation n) else ev.tb.cStation k := by
  have counted : countCause cause (ev.tb.cStation n) = openingCounted (some cause) (ev.tb.cStation n) := by cases cause <;> rfl
  rw [openGate, countStation_count, ← counted]
  rfl

/-- A ticket's joining, in the terms of the statements. -/
theorem joinQueue_spec (n i : Nat) (c : TicketClass) (ev : Ev) :
    SameButStations (ev.reach n) (joinQueue n i c ev) ∧
    (∀ k, (joinQueue n i c ev).tb.station k = if k = n then afterJoining c (ev.tb.station n) [i] else ev.tb.station k) ∧
    (joinQueue n i c ev).tb.tickets = ev.tb.tickets ∧
    (∀ k, (joinQueue n i c ev).tb.cStation k =
      if k = n ∧ ev.inLoad = false then openingCounted (gateOpenedBy c (ev.tb.station n) 1) (ev.tb.cStation n)
      else ev.tb.cStation k) := by
  set ev1 := (ev.updStation n (fun s => (s.armHold c).enqueue i c)).reach n with h1
  have same : SameButStations (ev.reach n) ev1 := updStation_reach_same ev n _
  have stations : ∀ k, ev1.tb.station k = if k = n then ((ev.tb.station n).armHold c).enqueue i c else ev.tb.station k := fun k => by
    rw [h1, Ev.reach_tb]; exact updStation_station ev n _ k
  have tickets : ev1.tb.tickets = ev.tb.tickets := by simp [h1]
  have counts : ev1.tb.cStations = ev.tb.cStations := by simp [h1]
  have load : ev1.inLoad = ev.inLoad := by simp [Ev.inLoad, h1]
  have cause : joinCause (ev1.tb.station n) c = gateOpenedBy c (ev.tb.station n) 1 := by
    rw [stations, if_pos rfl, joinCause_enqueued]
  have joined : joinQueue n i c ev = match gateOpenedBy c (ev.tb.station n) 1 with
      | some cause => openGate n cause ev1
      | none => ev1 := by
    rw [← cause, h1]; rfl
  rw [joined]
  cases hg : gateOpenedBy c (ev.tb.station n) 1 with
  | none =>
    refine ⟨same, fun k => ?_, tickets, fun k => ?_⟩
    · rw [stations, afterJoining_one, hg]; rfl
    · unfold Tables.cStation; rw [counts]; split <;> simp_all [openingCounted]
  | some cause =>
    refine ⟨same.trans (openGate_same n cause ev1), fun k => ?_, ?_, fun k => ?_⟩
    · rw [openGate_station, stations, stations, afterJoining_one, hg]
      split <;> simp_all
    · rw [openGate_tickets, tickets]
    · rw [openGate_count, load]; unfold Tables.cStation; rw [counts]

/-- One ticket built: its record filled, and its joining of its station. -/
theorem ticketBuilt (cls : TicketClass) (mk : Nat × List TicketLine → Order) (i : Nat) (p : Nat × List TicketLine) (ev : Ev) :
    TicketsBuilt cls mk [(i, p)] ev (joinQueue p.1 i cls (ev.updTicket i (fun k => { k with order := some (mk p) }))) := by
  obtain ⟨hs, h1, h2, h3⟩ := joinQueue_spec p.1 i cls (ev.updTicket i (fun k => { k with order := some (mk p) }))
  exact {
    tb := hs.tb.trans (by rw [Ev.reach_tb]; rfl)
    mode := by rw [hs.mode]; simp
    notes := by rw [hs.notes]; simp
    touched := by rw [hs.touched]; simp
    rewrites := by rw [hs.rewrites]; simp
    reached := fun n => by rw [hs.reached, mem_reach]; simp
    stations := fun n => by
      rw [h1, joining_cons]
      by_cases hn : n = p.1
      · simp [hn, joining, Tables.station]
      · simp [hn, Ne.symm hn, joining, afterJoining_nil, Tables.station]
    tickets := fun j => by
      unfold Tables.ticket builtRecord
      rw [h2, Ev.updTicket_tb, Tables.setTickets_tickets, tget_tupd]
      by_cases hj : j = i
      · simp [hj]
      · simp [hj, Ne.symm hj]
    counts := fun n => by
      rw [h3, joining_cons]
      have load : (ev.updTicket i (fun k => { k with order := some (mk p) })).inLoad = ev.inLoad := rfl
      rw [load]
      by_cases hn : n = p.1
      · simp [hn, joining, Tables.station, Tables.cStation]
      · simp [hn, Ne.symm hn, joining, gateOpenedBy_zero, openingCounted, Tables.cStation] }

/-! ### Whole fires (R78 to R82) -/

theorem TicketsBuilt.checks {cls : TicketClass} {mk : Nat × List TicketLine → Order} {qs : List (Nat × Nat × List TicketLine)}
    {a b : Ev} (h : TicketsBuilt cls mk qs a b) : b.tb.checks = a.tb.checks := by rw [h.tb]; rfl

theorem TicketsBuilt.time {cls : TicketClass} {mk : Nat × List TicketLine → Order} {qs : List (Nat × Nat × List TicketLine)} {a b : Ev}
    (h : TicketsBuilt cls mk qs a b) : b.tb.time = a.tb.time := by rw [h.tb]; rfl

/-- A build in the lowest free record takes it from the free ones. -/
theorem TicketsBuilt.free_tail {cls : TicketClass} {mk : Nat × List TicketLine → Order} {i : Nat} {p : Nat × List TicketLine}
    {a b : Ev} (h : TicketsBuilt cls mk [(i, p)] a b) {is : List Nat} (hi : freeRecords a.tb = i :: is) : freeRecords b.tb = is := by
  have nodup := freeRecords_nodup a.tb
  rw [hi, List.nodup_cons] at nodup
  have step : freeRecords b.tb = (freeRecords a.tb).filter (fun j => decide (j ≠ i)) := by
    unfold freeRecords
    rw [List.filter_filter]
    refine List.filter_congr (fun j _ => ?_)
    rw [h.tickets j]
    by_cases hj : i = j
    · simp [builtRecord, hj]
    · simp [builtRecord, hj, Ne.symm hj]
  rw [step, hi, List.filter_cons_of_neg (by simp)]
  exact List.filter_eq_self.2 (fun j hj => by simpa using fun e : j = i => nodup.1 (e ▸ hj))

/-- Tickets built one after another in the lowest free records, when there are enough (R79, R80). -/
theorem buildTickets_spec (ci : Nat) (remake : Bool) (course : Option Nat) (plan : List (Nat × List TicketLine)) (ev : Ev) (bs : List Nat)
    (fits : plan.length ≤ (freeRecords ev.tb).length) :
    ∃ ev1, plan.foldl (buildTicket ci remake course) (ev, bs) = (ev1, bs ++ (freeRecords ev.tb).take plan.length) ∧
      TicketsBuilt (fireClass (ev.tb.check ci) remake) (fun p => newOrder ev.tb ci remake course p.1 p.2) (firedTickets ev.tb plan)
        ev ev1 := by
  induction plan generalizing ev bs with
  | nil => exact ⟨ev, by simp, by rw [firedTickets_eq, List.zip_nil_right]; exact .refl _ _ ev⟩
  | cons p ps ih =>
    obtain ⟨i, is, hi⟩ : ∃ i is, freeRecords ev.tb = i :: is := by
      cases h : freeRecords ev.tb with
      | nil => rw [h] at fits; simp at fits
      | cons i is => exact ⟨i, is, rfl⟩
    set mk : Nat × List TicketLine → Order := fun p => newOrder ev.tb ci remake course p.1 p.2 with hmk
    set cls := fireClass (ev.tb.check ci) remake with hcls
    set ev1 := joinQueue p.1 i cls (ev.updTicket i (fun k => { k with order := some (mk p) })) with h1
    have one : TicketsBuilt cls mk [(i, p)] ev ev1 := ticketBuilt cls mk i p ev
    have step : buildTicket ci remake course (ev, bs) p = (ev1, bs ++ [i]) := by
      unfold buildTicket; simp only [lowestTicket_eq, hi, List.head?_cons]; rfl
    have free1 : freeRecords ev1.tb = is := one.free_tail hi
    have check1 : ev1.tb.check ci = ev.tb.check ci := by unfold Tables.check; rw [one.checks]
    obtain ⟨ev2, e, built⟩ := ih ev1 (bs ++ [i]) (by rw [free1]; rw [hi] at fits; simpa using fits)
    have mk1 : (fun p : Nat × List TicketLine => newOrder ev1.tb ci remake course p.1 p.2) = mk := by
      rw [hmk]; funext p; unfold newOrder; rw [check1, one.time]
    rw [check1, mk1, firedTickets_eq, free1] at built
    refine ⟨ev2, ?_, ?_⟩
    · rw [List.foldl_cons, step, e, free1, hi]; simp
    · rw [firedTickets_eq, hi, List.zip_cons_cons]
      refine one.cons built (fun hm => ?_)
      obtain ⟨q, hq, rfl⟩ := List.mem_map.1 hm
      have nodup := freeRecords_nodup ev.tb
      rw [hi, List.nodup_cons] at nodup
      exact nodup.1 (List.of_mem_zip hq).1

/-- A change of the lines of a list, one after another. -/
def updLines (ids : List Nat) (f : Line → Line) (ev : Ev) : Ev := ids.foldl (fun ev id => ev.updLine id f) ev

theorem writeNets_eq (ids : List Nat) (ev : Ev) : writeNets ids ev = updLines ids (fun l => { l with net := lineNet l }) ev := rfl

/-- A change that is the same once and twice changes each line of the list once, and nothing else. -/
theorem updLines_spec (ids : List Nat) {f : Line → Line} (hf : ∀ l, f (f l) = f l) (ev : Ev) :
    ∃ L, updLines ids f ev = ev.setTb (ev.tb.setLines L) ∧
      ∀ j, tget none L j = if j ∈ ids then (ev.tb.line j).map f else ev.tb.line j := by
  induction ids generalizing ev with
  | nil => exact ⟨ev.tb.lines, rfl, fun _ => rfl⟩
  | cons id ids ih =>
    obtain ⟨L, e, h⟩ := ih (ev.updLine id f)
    refine ⟨L, by rw [updLines, List.foldl_cons]; exact e, fun j => ?_⟩
    have changed : (ev.updLine id f).tb.line j = if j = id then (ev.tb.line id).map f else ev.tb.line j := by
      simp [Tables.line, tget_tupd]
    rw [h, changed]
    by_cases hj : j = id
    · subst hj
      cases ev.tb.line j <;> simp [hf]
    · simp [hj]

/-- The event after a fire of lines of a check that has built `plan` (R82): `L` are the lines, those fired marked, and the check counts
its tickets. -/
def fireDone (ci : Nat) (plan : List (Nat × List TicketLine)) (L : List (Nat × Option Line)) (ev : Ev) : Ev :=
  (ev.setTb (ev.tb.setLines L)).updCheck ci (fun c => { c with outstanding := c.outstanding + plan.length })

/-- A fire that ticket memory holds is built whole (R81, R82). -/
theorem buildFire_fits (ci : Nat) (ids : List Nat) (remake : Bool) (course : Option Nat) (ev : Ev)
    (fits : (planFire ev.tb ids).length ≤ freeTickets ev.tb) :
    ∃ ev1 L built, buildFire ci ids remake course ev = some (fireDone ci (planFire ev.tb ids) L ev1, built) ∧
      TicketsBuilt (fireClass (ev.tb.check ci) remake) (fun p => newOrder ev.tb ci remake course p.1 p.2)
        (firedTickets ev.tb (planFire ev.tb ids)) ev ev1 ∧
      ∀ j, tget none L j = if j ∈ ids then (ev.tb.line j).map (fun l => { l with fired := true }) else ev.tb.line j := by
  obtain ⟨ev1, e, hb⟩ := buildTickets_spec ci remake course (planFire ev.tb ids) ev [] (fits.trans (freeTickets_le ev.tb))
  obtain ⟨L, e1, hl⟩ := updLines_spec ids (f := fun l => { l with fired := true }) (fun _ => rfl) ev1
  have lines : ev1.tb.line = ev.tb.line := by funext j; unfold Tables.line; rw [hb.tb]; rfl
  refine ⟨ev1, L, (freeRecords ev.tb).take (planFire ev.tb ids).length, ?_, hb, fun j => by rw [hl, lines]⟩
  unfold buildFire
  simp only [if_pos fits, e]
  rw [← updLines, e1]
  rfl

/-- A fire that ticket memory does not hold leaves everything as it was (R81). -/
theorem buildFire_short (ci : Nat) (ids : List Nat) (remake : Bool) (course : Option Nat) (ev : Ev)
    (short : freeTickets ev.tb < (planFire ev.tb ids).length) : buildFire ci ids remake course ev = none := by
  unfold buildFire; exact if_neg (by omega)

/-! ### A fire at the end of its event -/

theorem settleLevels_untouched {ev : Ev} (ht : ev.touched = []) : settleLevels ev = ev := by
  obtain ⟨tb, mode, notes, touched, reached, rewrites⟩ := ev
  obtain rfl : touched = [] := ht
  rfl

/-- What `Fired` looks at of the tables before the fire. -/
theorem Fired.congr {tb tb1 X : Tables} {ci : Nat} {remake : Bool} {course : Option Nat} {plan : List (Nat × List TicketLine)}
    (h : Fired tb1 X ci remake course plan) (stations : tb1.stations = tb.stations) (tickets : tb1.tickets = tb.tickets)
    (counts : tb1.cStations = tb.cStations) (time : tb1.time = tb.time) (tag : (tb1.check ci).tag = (tb.check ci).tag)
    (rush : (tb1.check ci).rush = (tb.check ci).rush) : Fired tb X ci remake course plan := by
  have e1 : tb1.station = tb.station := by funext n; unfold Tables.station; rw [stations]
  have e2 : tb1.ticket = tb.ticket := by funext n; unfold Tables.ticket; rw [tickets]
  have e3 : tb1.cStation = tb.cStation := by funext n; unfold Tables.cStation; rw [counts]
  have e4 : firedTickets tb1 plan = firedTickets tb plan := by unfold firedTickets; rw [e2]
  have e5 : joinersOf tb1 plan = joinersOf tb plan := by funext n; unfold joinersOf; rw [e4]
  unfold Fired at *
  simpa only [e1, e2, e3, e4, e5, time, tag, rush] using h

/-- The tickets of a fire that is no remake are built, and the event ends with the arbiters of their stations (R104). -/
theorem fired_of_built {ci : Nat} {course : Option Nat} {plan : List (Nat × List TicketLine)} {ev ev1 ev2 : Ev}
    (hb : TicketsBuilt (fireClass (ev.tb.check ci) false) (fun p => newOrder ev.tb ci false course p.1 p.2)
      (firedTickets ev.tb plan) ev ev1)
    (enough : plan.length ≤ (freeRecords ev.tb).length) (load : ev.inLoad = false) (unreached : ev.reached = [])
    (mode : ev2.mode = ev1.mode) (untouched : ev2.touched = []) (reached : ev2.reached = ev1.reached)
    (stations : ev2.tb.stations = ev1.tb.stations) (tickets : ev2.tb.tickets = ev1.tb.tickets)
    (counts : ev2.tb.cStations = ev1.tb.cStations) (time : ev2.tb.time = ev1.tb.time) :
    Fired ev.tb (closeEv ev2).tb ci false course plan := by
  obtain ⟨hs, ht, hc⟩ := (closeEv_arbitrated ev2).2
  rw [settleLevels_untouched untouched] at hs ht hc
  have members : ∀ n, n ∈ ev2.reached ↔ n ∈ plan.map (·.1) := fun n => by
    have snd : (firedTickets ev.tb plan).map (·.2.1) = plan.map (·.1) := by
      rw [firedTickets_eq, ← List.map_snd_zip enough, List.map_map, List.map_snd_zip enough]; rfl
    rw [reached, hb.reached, unreached, snd]
    simp
  have load2 : ev2.inLoad = false := by rw [← load]; simp [Ev.inLoad, mode, hb.mode]
  have y : ∀ n, ev2.tb.station n = afterJoining (fireClass (ev.tb.check ci) false) (ev.tb.station n) (joinersOf ev.tb plan n) :=
    fun n => by rw [joinersOf_eq, ← hb.stations]; unfold Tables.station; rw [stations]
  have k : ∀ j, ev2.tb.ticket j =
      builtRecord (fun p => newOrder ev.tb ci false course p.1 p.2) (firedTickets ev.tb plan) j (ev.tb.ticket j) :=
    fun j => by rw [← hb.tickets]; unfold Tables.ticket; rw [tickets]
  have c : ∀ n, ev2.tb.cStation n =
      openingCounted (gateOpenedBy (fireClass (ev.tb.check ci) false) (ev.tb.station n) (joinersOf ev.tb plan n).length)
        (ev.tb.cStation n) := fun n => by
    have := hb.counts n
    rw [if_pos load, ← joinersOf_eq] at this
    rw [← this]; unfold Tables.cStation; rw [counts]
  refine ⟨fun n => ?_, fun j => ?_, fun n => ?_⟩
  · simp only [hs, members, y]; rfl
  · simp only [ht, members, y, k, time, hb.time]
    unfold builtRecord
    generalize (firedTickets ev.tb plan).find? (fun q => q.1 == j) = found
    cases found <;> rfl
  · simp only [hc, members, y, c, load2]; rfl

end Sys2Proof.Machine
end

section
/-!
The owed fires of a base tick (R84).
-/

namespace Sys2Proof.Machine

/-- The end of an event that touched no item changes stations, tickets and station counters only (R104). -/
theorem closeEv_same {ev : Ev} (ht : ev.touched = []) : SameButStations ev (closeEv ev) := by
  have h := (closeEv_arbitrated ev).1
  rwa [settleLevels_untouched ht] at h

/-- The lines a fire of all lines takes are those neither fired nor voided (R51, R83). -/
theorem unfiredLines_all (tb : Tables) (ci : Nat) : unfiredLines tb ci (fun _ => true) = unsent tb (tb.check ci).lines := by
  unfold unfiredLines unsent
  refine List.filter_congr (fun id _ => ?_)
  cases tb.line id <;> simp

theorem freeingTest_kept {ci : Nat} {ev : Ev} (h : (ev.tb.check ci).outstanding ≠ 0 ∨ (ev.tb.check ci).owed = true) :
    freeingTest ci ev = (ev, false) := by
  unfold freeingTest Check.isFreeable
  rw [if_neg]
  rcases h with h | h <;> simp [h]

/-- A timed event that raised no notice, touched no item and left stations and tickets leaves exactly its tables. -/
theorem timedEvent_still {f : Ev → Ev} {io : Io} {ev : Ev} (hf : f io.st.event = ev) (hn : ev.notes = []) (ht : ev.touched = [])
    (hr : ev.reached = []) (hm : ev.rewrites = []) (h1 : ev.tb.stations = io.st.tb.stations) (h2 : ev.tb.tickets = io.st.tb.tickets) :
    timedEvent f io = io.setSt (io.st.setTb ev.tb) := by
  unfold timedEvent
  rw [hf, closeEv_still ht hr, commitEv_still _ _ _ hn (rewrittenWindows_none hm h1 h2)]

/-- The check of a fire that is built: its count of tickets, and each other check as it was. -/
theorem fireDone_check (ci : Nat) (plan : List (Nat × List TicketLine)) (L : List (Nat × Option Line)) (ev : Ev) (i : Nat) :
    (fireDone ci plan L ev).tb.check i =
      if i = ci then { ev.tb.check ci with outstanding := (ev.tb.check ci).outstanding + plan.length } else ev.tb.check i := by
  rw [fireDone, updCheck_check]; rfl

theorem fireDone_counts (ci : Nat) {plan : List (Nat × List TicketLine)} (some1 : plan ≠ []) (L : List (Nat × Option Line)) (ev : Ev) :
    ((fireDone ci plan L ev).tb.check ci).outstanding ≠ 0 := by
  have := List.length_pos_iff.2 some1
  rw [fireDone_check, if_pos rfl]
  show _ + plan.length ≠ 0
  omega

/-- The event of an owed fire that has been built: off the owed list, and not freed, as it counts its tickets (R52, R84). -/
def owedTaken (ci : Nat) (ev : Ev) : Ev := (ev.updCheck ci (fun c => { c with owed := false })).setOwed (ev.tb.owed.filter (· ≠ ci))

theorem owedBuilt_kept {ci : Nat} {ev : Ev} (h : (ev.tb.check ci).outstanding ≠ 0) : owedBuilt ci ev = owedTaken ci ev := by
  have kept : ((owedTaken ci ev).tb.check ci).outstanding ≠ 0 := by
    have : (owedTaken ci ev).tb.check ci = (ev.updCheck ci (fun c => { c with owed := false })).tb.check ci := rfl
    rw [this, updCheck_check, if_pos rfl]; exact h
  exact congrArg Prod.fst (freeingTest_kept (.inl kept))

theorem exec_owedRetry (bus : Bus) (s : State) : exec (.owedRetry bus) s = execOwedRetry bus s := rfl

/-- The owed retry that is due is a timed event. -/
theorem exec_owedRetry_due {bus : Bus} {s : State} (h : isDue s .owed = true) :
    exec (.owedRetry bus) s = .next (timedEvent (fun ev => retryOwed ev.tb.owed ev)
      ((Io.start s bus).setSt ((s.afterHub bus).setDue { s.due with owed := false }))).st := by
  rw [exec_owedRetry, execOwedRetry, runIfDue, if_pos (show isDue (Io.start s bus).st .owed = true from h)]
  rfl

/-- An event is due only while time runs: not in LOAD, and not once halted. -/
theorem isDue_engine {s : State} {d : DueEvent} (h : isDue s d = true) : s.engine ≠ .load ∧ s.enc.engine ≠ .halted := by
  have ticks : ticksIn s.engine = true := by unfold isDue at h; exact (Bool.and_eq_true_iff.1 h).1
  constructor
  · intro e; rw [e] at ticks; exact absurd ticks (by decide)
  · intro e; rw [show s.engine = .halted from e] at ticks; exact absurd ticks (by decide)

theorem event_inLoad {s : State} (h : s.engine ≠ .load) : s.event.inLoad = false := by
  simpa [State.event, Ev.ofTables, Ev.inLoad] using h

/-- The only owed fire, built: the event the tick ends with. -/
theorem retryOwed_one {ci : Nat} {ev ev1 : Ev} {plan : List (Nat × List TicketLine)} {L : List (Nat × Option Line)} {built : List Nat}
    (fires : buildFire ci (unfiredLines ev.tb ci (fun _ => true)) false none ev = some (fireDone ci plan L ev1, built))
    (some1 : plan ≠ []) : retryOwed [ci] ev = owedTaken ci (fireDone ci plan L ev1) := by
  simp only [retryOwed, fires]
  exact owedBuilt_kept (fireDone_counts ci some1 L ev1)

/-- Nothing of the engine's settings, stock and chains, nor of the counters of lanes and engine, differs. -/
structure SameButFires (tb X : Tables) : Prop where
  settings : SameSettings tb X
  stock : SameStock tb X
  slots : X.slots = tb.slots
  lanes : X.cLanes = tb.cLanes
  engine : X.cEngine = tb.cEngine

theorem SameButFires.trans {a b c : Tables} (h : SameButFires a b) (h1 : SameButFires b c) : SameButFires a c := by
  obtain ⟨⟨a1, a2, a3, a4, a5, a6, a7⟩, ⟨a8, a9⟩, a10, a11, a12⟩ := h
  obtain ⟨⟨b1, b2, b3, b4, b5, b6, b7⟩, ⟨b8, b9⟩, b10, b11, b12⟩ := h1
  exact ⟨⟨b1.trans a1, b2.trans a2, b3.trans a3, b4.trans a4, b5.trans a5, b6.trans a6, b7.trans a7⟩, ⟨b8.trans a8, b9.trans a9⟩,
    b10.trans a10, b11.trans a11, b12.trans a12⟩

/-- Tables that differ in stations, tickets and station counters only. -/
theorem SameButFires.of_eq {tb X : Tables} {x : List (Nat × Station)} {y : List (Nat × Ticket)} {z : List (Nat × StationCount)}
    (h : X = ((tb.setStations x).setTickets y).setCStations z) : SameButFires tb X := by
  subst h; exact ⟨⟨rfl, rfl, rfl, rfl, rfl, rfl, rfl⟩, ⟨rfl, rfl⟩, rfl, rfl, rfl⟩

theorem fireDone_same (ci : Nat) (plan : List (Nat × List TicketLine)) (L : List (Nat × Option Line)) (ev : Ev) :
    SameButFires ev.tb (fireDone ci plan L ev).tb :=
  ⟨⟨rfl, rfl, rfl, rfl, rfl, rfl, rfl⟩, ⟨rfl, rfl⟩, rfl, rfl, rfl⟩

theorem owedTaken_same (ci : Nat) (ev : Ev) : SameButFires ev.tb (owedTaken ci ev).tb :=
  ⟨⟨rfl, rfl, rfl, rfl, rfl, rfl, rfl⟩, ⟨rfl, rfl⟩, rfl, rfl, rfl⟩

/-- What the event of a single owed fire that is built leaves (R52, R84). -/
theorem owedTaken_spec {ci : Nat} {s : State} {ev1 : Ev} {L : List (Nat × Option Line)} (plan : List (Nat × List TicketLine))
    (hb : TicketsBuilt (fireClass (s.tb.check ci) false) (fun p => newOrder s.tb ci false none p.1 p.2)
      (firedTickets s.tb plan) s.event ev1)
    (fits : plan.length ≤ freeTickets s.tb) (load : s.engine ≠ .load) (only : s.tb.owed = [ci]) :
    let ev2 := owedTaken ci (fireDone ci plan L ev1)
    let X := (closeEv ev2).tb
    let c := s.tb.check ci
    (closeEv ev2).notes = [] ∧ (closeEv ev2).rewrites = [] ∧
      (∀ j, X.check j = if j = ci then { c with owed := false, outstanding := c.outstanding + plan.length } else s.tb.check j) ∧
      X.owed = [] ∧ X.lines = L ∧ Fired s.tb X ci false none plan ∧ SameButFires s.tb X := by
  intro ev2 X c
  have same : SameButStations ev2 (closeEv ev2) := closeEv_same hb.touched
  have owed1 : ev1.tb.owed = [ci] := (congrArg Tables.owed hb.tb).trans only
  have checks1 : ev1.tb.check = s.tb.check := by funext j; unfold Tables.check; rw [hb.checks]; rfl
  refine ⟨same.notes.trans hb.notes, same.rewrites.trans hb.rewrites, fun j => ?_, ?_, congrArg Tables.lines same.tb, ?_, ?_⟩
  · have kept : X.check j = ((fireDone ci plan L ev1).updCheck ci (fun c => { c with owed := false })).tb.check j := by
      unfold Tables.check; rw [show X.checks = ev2.tb.checks from same.checks]; rfl
    rw [kept, updCheck_check, fireDone_check, fireDone_check, checks1, if_pos rfl]
    by_cases hj : j = ci
    · rw [if_pos hj, if_pos hj]
    · rw [if_neg hj, if_neg hj, if_neg hj]
  · have kept : X.owed = ev1.tb.owed.filter (· ≠ ci) := congrArg Tables.owed same.tb
    rw [kept, owed1]; simp
  · exact fired_of_built (ev := s.event) hb (fits.trans (freeTickets_le s.tb)) (event_inLoad load) rfl rfl hb.touched rfl rfl rfl rfl rfl
  · exact (((SameButFires.of_eq hb.tb).trans (fireDone_same ci plan L ev1)).trans (owedTaken_same ci _)).trans (.of_eq same.tb)

/-- Settles O58: the tick tries its owed list in order, so it ends at once on none, counts a retry at a first fire that does not fit, and
builds a single one that fits. -/
theorem owedRetryBuildsOrCounts : Obligations.OwedRetryBuildsOrCounts := by
  intro bus s due passed plan
  obtain ⟨load, running⟩ := isDue_engine due
  refine ⟨fun none_owed => ?_, fun ci rest owed short => ?_, fun ci only quiet aligned some1 fits => ?_⟩
  · rw [exec_owedRetry_due due, timedEvent_still (ev := passed.event) ?_ rfl rfl rfl rfl rfl rfl]
    · rfl
    · show retryOwed s.tb.owed _ = _
      rw [none_owed]; rfl
  · rw [exec_owedRetry_due due, timedEvent_still
      (ev := passed.event.setTb (s.tb.setCEngine { s.tb.cEngine with retries := satCount s.tb.cEngine.retries 1 })) ?_
      rfl rfl rfl rfl rfl rfl]
    · rfl
    · show retryOwed s.tb.owed passed.event = _
      have misses : buildFire ci (unfiredLines passed.event.tb ci (fun _ => true)) false none passed.event = none := by
        rw [unfiredLines_all]; exact buildFire_short ci _ false none passed.event short
      rw [owed]
      simp only [retryOwed, misses]
      exact if_neg (by rw [event_inLoad (s := passed) load]; simp)
  · obtain ⟨ev1, L, built, fires, hb, lines⟩ := buildFire_fits ci (unsent s.tb (s.tb.check ci).lines) false none passed.event fits
    obtain ⟨notes, marks, checks, owed, hL, fired, frame⟩ := owedTaken_spec (s := passed) (L := L) (plan ci) hb fits load only
    obtain ⟨k, m, e, committed⟩ := timedEvent_quiet (fun ev => retryOwed ev.tb.owed ev)
      (io := { st := passed, errs := bus.errs, acc := 0 }) quiet running aligned
    have event : retryOwed passed.event.tb.owed passed.event = owedTaken ci (fireDone ci (plan ci) L ev1) := by
      rw [show passed.event.tb.owed = [ci] from only]
      exact retryOwed_one (by rw [unfiredLines_all]; exact fires) some1
    rw [event, notes, rewrittenWindows_eq (by rw [marks]; simp)] at committed
    refine ⟨m, _, ?_, committed, ?_, fun j hj => ?_, owed, fun j => ?_, fired, frame.settings, frame.stock, frame.slots, frame.lanes,
      frame.engine⟩
    · rw [exec_owedRetry_due due]; exact congrArg (fun io : Io => Host.Outcome.next io.st) e
    · rw [checks, if_pos rfl]; rfl
    · rw [checks, if_neg hj]; rfl
    · rw [Tables.line, hL, lines]; rfl

end Sys2Proof.Machine
end

section
/-!
The close fire of a TENDER (R51): the tender as one write of its check and of the nets of its lines, and the fire that its close calls for.
-/

namespace Sys2Proof.Machine

/-! ### One check written -/

theorem tins_tins {α : Type} (i : Nat) (a b : α) (t : List (Nat × α)) : tins i b (tins i a t) = tins i b t := by
  induction t with
  | nil => simp [tins]
  | cons p t ih =>
    obtain ⟨k, w⟩ := p
    by_cases h1 : i < k
    · simp [tins, h1]
    · by_cases h2 : i = k
      · simp [tins, h2]
      · simp [tins, h1, h2, ih]

/-- Of two writes of one index the second stands. -/
theorem tset_tset {α : Type} [DecidableEq α] {d a b : α} (t : List (Nat × α)) (i : Nat) (ha : a ≠ d) (hb : b ≠ d) :
    tset d (tset d t i a) i b = tset d t i b := by
  unfold tset; rw [if_neg ha, if_neg hb, if_neg hb, tins_tins]

theorem ne_check0 {c : Check} (h : c.state ≠ .free) : c ≠ check0 := by rintro rfl; exact h rfl

/-- An event with the record of one check and the lines written. -/
def billed (ci : Nat) (c : Check) (L : List (Nat × Option Line)) (ev : Ev) : Ev :=
  ev.setTb ((ev.tb.setLines L).setChecks (tset check0 ev.tb.checks ci c))

@[simp] theorem billed_check (ci : Nat) (c : Check) (L : List (Nat × Option Line)) (ev : Ev) : (billed ci c L ev).tb.check ci = c :=
  tget_tset_same _ _ _ _

theorem updCheck_eq_billed (ev : Ev) (ci : Nat) (f : Check → Check) :
    ev.updCheck ci f = billed ci (f (ev.tb.check ci)) ev.tb.lines ev := rfl

theorem billed_updCheck {ci : Nat} {c : Check} (L : List (Nat × Option Line)) (ev : Ev) {f : Check → Check} (hc : c.state ≠ .free)
    (hf : (f c).state ≠ .free) : (billed ci c L ev).updCheck ci f = billed ci (f c) L ev := by
  rw [updCheck_eq_billed, billed_check]
  show ev.setTb ((ev.tb.setLines L).setChecks (tset check0 (tset check0 ev.tb.checks ci c) ci (f c))) = _
  rw [tset_tset _ _ (ne_check0 hc) (ne_check0 hf)]
  rfl

theorem billed_same (ci : Nat) (c : Check) (L : List (Nat × Option Line)) (ev : Ev) : SameButFires ev.tb (billed ci c L ev).tb :=
  ⟨⟨rfl, rfl, rfl, rfl, rfl, rfl, rfl⟩, ⟨rfl, rfl⟩, rfl, rfl, rfl⟩

theorem billed_setLines (ci : Nat) (c : Check) (L M : List (Nat × Option Line)) (ev : Ev) :
    (billed ci c L ev).setTb ((billed ci c L ev).tb.setLines M) = billed ci c M ev := rfl

/-! ### The steps of a tender -/

theorem modify_eq_set_getD {α : Type} (g : α → α) (d : α) (l : List α) (i : Nat) : l.modify i g = l.set i (g (l.getD i d)) := by
  rw [List.modify_eq_set_getElem?, List.getD_eq_getElem?_getD]
  cases h : l[i]? with
  | some a => rfl
  | none => exact (List.set_eq_of_length_le (List.getElem?_eq_none_iff.1 h)).symm

/-- A change that keeps the element it meets keeps the list. -/
theorem modify_of_fixed {α : Type} {g : α → α} {d : α} {l : List α} {i : Nat} (h : g (l.getD i d) = l.getD i d) :
    l.modify i g = l := by
  rw [modify_eq_set_getD g d, h]
  by_cases hi : i < l.length
  · rw [List.getD_eq_getElem _ _ hi, List.set_getElem_self]
  · exact List.set_eq_of_length_le (by omega)

/-- The tables of a tender before its close test: its check SETTLING with the figures `f`, and the nets of its lines. -/
theorem tenderEffect_billed {ci p amount : Nat} {c : Check} {ev : Ev} (live : c.state ≠ .free) (paid : Payer) (f : Figures)
    (hx : ((c.payers.getD (p - 1) emptyPayer).addTender amount 0) = paid)
    (hf : f = computeBill c.split c.taxRates c.serviceRate (c.payers.set (p - 1) paid) (ev.tb.linesOf c.lines))
    (hp : (f.payers.getD (p - 1) emptyPayer).status = .paid) :
    ∃ L, tenderEffect ci p amount 0 (billed ci c ev.tb.lines ev) = billed ci { c.withFigures f with state := .settling } L ev ∧
      ∀ j, tget none L j = if j ∈ c.lines then (ev.tb.line j).map (fun l => { l with net := lineNet l }) else ev.tb.line j := by
  set c1 : Check := { c with state := .settling, payers := c.payers.set (p - 1) paid } with h1
  have tendered : updPayer ci p (fun x => x.addTender amount 0)
      ((billed ci c ev.tb.lines ev).updCheck ci (fun c => { c with state := .settling })) = billed ci c1 ev.tb.lines ev := by
    rw [billed_updCheck _ _ live (by simp), updPayer, billed_updCheck _ _ (by simp) (by simp)]
    simp only [modify_eq_set_getD _ emptyPayer, hx, h1]
  have figures : figuresOf (billed ci c1 ev.tb.lines ev).tb ci = f := by
    unfold figuresOf; rw [billed_check, hf]; rfl
  obtain ⟨L, e, hL⟩ := updLines_spec c.lines (f := fun l => { l with net := lineNet l }) (fun _ => rfl) (billed ci c1 ev.tb.lines ev)
  have nets : writeNets ((billed ci c1 ev.tb.lines ev).tb.check ci).lines (billed ci c1 ev.tb.lines ev) = billed ci c1 L ev := by
    rw [billed_check, writeNets_eq, show c1.lines = c.lines from rfl, e, billed_setLines]
  have marked : f.payers.modify (p - 1) Payer.markPart = f.payers :=
    modify_of_fixed (d := emptyPayer) (by unfold Payer.markPart isPaid; rw [hp]; rfl)
  refine ⟨L, ?_, hL⟩
  unfold tenderEffect
  simp only [tendered]
  unfold recompute
  simp only [figures, nets]
  rw [billed_updCheck _ _ (by simp [h1]) (by simp [h1, Check.withFigures]), updPayer,
    billed_updCheck _ _ (by simp [h1, Check.withFigures]) (by simp [h1, Check.withFigures])]
  simp only [Check.withFigures, marked, h1]

/-! ### What a fire reads of the lines -/

/-- A line but for its net. -/
def Line.netless (l : Line) : Line := { l with net := 0 }

/-- The lines of two tables differ in their nets only. -/
def SameButNets (tb tb1 : Tables) : Prop := ∀ j, (tb1.line j).map Line.netless = (tb.line j).map Line.netless

theorem SameButNets.unsent {tb tb1 : Tables} (h : SameButNets tb tb1) (ids : List Nat) : unsent tb1 ids = unsent tb ids := by
  refine List.filter_congr (fun id _ => ?_)
  have same := h id
  cases h1 : tb1.line id <;> cases h2 : tb.line id <;> simp_all [Line.netless]

theorem SameButNets.planFire {tb tb1 : Tables} (h : SameButNets tb tb1) (items : tb1.items = tb.items) (ids : List Nat) :
    planFire tb1 ids = planFire tb ids := by
  have item : tb1.item = tb.item := by funext i; unfold Tables.item; rw [items]
  have netless : ∀ (t : Tables) (id : Nat), expandLine t id = ((t.line id).map Line.netless).elim []
      (fun l => ((demandOf t l.item l.qty).zipIdx 1).map (fun d =>
        ((t.item d.1.1).station,
          { line := id, pos := d.2, item := d.1.1, qty := d.1.2, modifier := l.modifier, struck := false }))) := fun t id => by
    unfold expandLine; cases t.line id <;> rfl
  have expand : expandLine tb1 = expandLine tb := by
    funext id
    rw [netless, netless, h id]
    unfold demandOf
    rw [item]
  unfold Machine.planFire
  rw [expand]

/-! ### The close of a check -/

theorem closeTest_closes {ci : Nat} {ev : Ev} (h : (ev.tb.check ci).closes = true) : closeTest ci ev = (entryToPaid ci ev, true) := if_pos h

theorem endChains_none {ci : Nat} {ev : Ev} (h : ∀ n, n < 16 → (ev.tb.slot n).check = ci → (ev.tb.slot n).isActive = false) :
    endChains ci ev = ev := by
  have none_on : slotsOnCheck ev.tb ci = [] := by
    refine List.filter_eq_nil_iff.2 (fun n hn => ?_)
    by_cases hc : (ev.tb.slot n).check = ci
    · simp [h n (List.mem_range.1 hn) hc]
    · simp [hc]
  unfold endChains; rw [none_on]; rfl

/-- A check that closes with no refund due enters PAID, and its close fire comes where its policy calls for it (R50, R51). -/
theorem settleCheck_billed {ci : Nat} {c : Check} (L : List (Nat × Option Line)) (ev : Ev) (live : c.state ≠ .free)
    (refund : c.refund = 0) (policy : c.policy = .onClose) :
    settleCheck ci (billed ci c L ev) = endChains ci (closeFire ci (billed ci { c with state := .paid, holder := none } L ev)) := by
  unfold settleCheck
  have nothing_due : ¬ 0 < c.refund := by omega
  simp only [billed_check]
  rw [if_neg nothing_due, if_pos policy, billed_updCheck _ _ live (by simp)]

/-- A close fire that ticket memory holds, outside LOAD (R51). -/
theorem closeFire_fits {ci : Nat} {ev : Ev} (load : ev.inLoad = false) (ids : List Nat) (hids : unsent ev.tb (ev.tb.check ci).lines = ids)
    (some1 : ids ≠ []) (fits : (planFire ev.tb ids).length ≤ freeTickets ev.tb) :
    ∃ ev1 L, closeFire ci ev = fireDone ci (planFire ev.tb ids) L ev1 ∧
      TicketsBuilt (fireClass (ev.tb.check ci) false) (fun p => newOrder ev.tb ci false none p.1 p.2)
        (firedTickets ev.tb (planFire ev.tb ids)) ev ev1 ∧
      ∀ j, tget none L j = if j ∈ ids then (ev.tb.line j).map (fun l => { l with fired := true }) else ev.tb.line j := by
  obtain ⟨ev1, L, built, fires, hb, hL⟩ := buildFire_fits ci ids false none ev fits
  refine ⟨ev1, L, ?_, hb, hL⟩
  unfold closeFire
  simp only [unfiredLines_all, hids, if_neg some1, load, fires]
  rfl

/-- A close fire in LOAD, or one that ticket memory does not hold, is owed (R51, R55). -/
theorem closeFire_owes {ci : Nat} {ev : Ev} (ids : List Nat) (hids : unsent ev.tb (ev.tb.check ci).lines = ids) (some1 : ids ≠ [])
    (h : ev.inLoad = true ∨ freeTickets ev.tb < (planFire ev.tb ids).length) : closeFire ci ev = oweFire ci ev := by
  unfold closeFire
  simp only [unfiredLines_all, hids, if_neg some1]
  by_cases load : ev.inLoad = true
  · rw [if_pos load]
  · rw [if_neg load, buildFire_short ci ids false none ev (h.resolve_left load)]

/-! ### The tender that closes an ON_CLOSE check -/

/-- The tests of a request on a check pass (R9, R18). -/
theorem withHeldLive_passes {r : Req} {s : State} {ci : Nat} (names : Names s.tb (reqWord r 0) ci) (live : Live (s.tb.check ci))
    (holds : PassesHold (s.tb.check ci) r.lane r.takenAt) (k : Nat → Ev → Ev × Answer) :
    (withCheck r s.event fun ci => withHeldLive r ci s.event (k ci)) =
      k ci (billed ci (heldCheck s.tb (s.tb.check ci) r.lane r.takenAt) s.tb.lines s.event) := by
  obtain ⟨index, inside, used, tag⟩ := names
  have current : refCurrent s.tb (reqWord r 0) = true := by
    unfold refCurrent; rw [index]; simp [inside, used, tag]
  have passes : holdPasses (s.tb.check ci) r.lane r.takenAt = true := by
    unfold holdPasses
    rcases holds with h | h | h
    · rw [h]
    · rw [h]; simp
    · have past : isPast r.takenAt (s.tb.check ci).expiry = true := decide_eq_true ⟨h.1, Nat.lt_succ_of_le h.2⟩
      cases (s.tb.check ci).holder <;> simp [past]
  have isLive : (s.tb.check ci).isLive = true := by
    unfold Check.isLive; rcases live with h | h <;> rw [h] <;> rfl
  unfold withCheck
  rw [if_pos (show refCurrent s.event.tb (reqWord r 0) = true from current), index]
  unfold withHeldLive withHold renewHold
  dsimp only
  rw [if_pos (show holdPasses (s.event.tb.check ci) r.lane r.takenAt = true from passes),
    if_pos (show (s.event.tb.check ci).isLive = true from isLive)]
  have given : giveHold ci r.lane r.takenAt s.event = billed ci (heldCheck s.tb (s.tb.check ci) r.lane r.takenAt) s.tb.lines s.event := rfl
  rw [given, billed_check, if_pos]
  exact isLive

/-- A check that closes with a close fire that leaves it tickets or owed, and with no chain, is PAID and kept. -/
theorem closeTest_onClose {ci : Nat} {c : Check} {L : List (Nat × Option Line)} {ev ev3 : Ev} (settling : c.state = .settling)
    (done : allDone c.payers = true) (refund : c.refund = 0) (policy : c.policy = .onClose)
    (fire : closeFire ci (billed ci { c with state := .paid, holder := none } L ev) = ev3)
    (chains : ∀ n, n < 16 → (ev3.tb.slot n).check = ci → (ev3.tb.slot n).isActive = false)
    (kept : (ev3.tb.check ci).outstanding ≠ 0 ∨ (ev3.tb.check ci).owed = true) :
    closeTest ci (billed ci c L ev) = (ev3, true) := by
  have closes : ((billed ci c L ev).tb.check ci).closes = true := by
    rw [billed_check]; unfold Check.closes; rw [settling]; exact done
  rw [closeTest_closes closes, entryToPaid, settleCheck_billed L ev (by rw [settling]; decide) refund policy, fire, endChains_none chains,
    freeingTest_kept kept]

/-- A tender without tip that closes its check with no refund due: `x1` is the payer with the tender added and `f` the bill then,
`L` are the lines with their nets; what is left is the close fire (R45, R49, R50). -/
theorem tenderTaken_closes {r : Req} {ci p amount : Nat} {c : Check} {ev : Ev} (live : c.state ≠ .free) (x1 : Payer) (f : Figures)
    (hx : ((c.payers.getD (p - 1) emptyPayer).addTender amount 0) = x1)
    (hf : f = computeBill c.split c.taxRates c.serviceRate (c.payers.set (p - 1) x1) (ev.tb.linesOf c.lines))
    (hp : (f.payers.getD (p - 1) emptyPayer).status = .paid) (done : allDone f.payers = true) (refund : f.refund = 0)
    (policy : c.policy = .onClose) :
    ∃ L, (∀ j, tget none L j = if j ∈ c.lines then (ev.tb.line j).map (fun l => { l with net := lineNet l }) else ev.tb.line j) ∧
      ∀ ev3 (T : Ev × Answer), closeFire ci (billed ci { c.withFigures f with state := .paid, holder := none } L ev) = ev3 →
        (∀ n, n < 16 → (ev3.tb.slot n).check = ci → (ev3.tb.slot n).isActive = false) →
        ((ev3.tb.check ci).outstanding ≠ 0 ∨ (ev3.tb.check ci).owed = true) →
        T = tenderTaken r ci p amount 0 (c.payers.getD (p - 1) emptyPayer) (billed ci c ev.tb.lines ev) →
        T.1 = ev3.countLane r.lane (countTender amount 0) ∧ T.2.code = .ok := by
  obtain ⟨L, e, hL⟩ := tenderEffect_billed (ci := ci) (p := p) (amount := amount) live x1 f hx hf hp
  refine ⟨L, hL, fun ev3 T fire chains kept eT => ?_⟩
  have closed := closeTest_onClose (L := L) (ev := ev) (c := { c.withFigures f with state := .settling }) rfl done refund policy fire
    chains kept
  have tip : ∀ share cap, tipTaken share cap 0 = 0 := fun share cap => Nat.zero_min _
  rw [eT]
  unfold tenderTaken
  simp [tip, e, closed, answer]

/-- A tender's tests pass (R44). -/
theorem tenderReq_taken {r : Req} {s : State} {ci : Nat} (names : Names s.tb (reqWord r 0) ci) (live : Live (s.tb.check ci))
    (holds : PassesHold (s.tb.check ci) r.lane r.takenAt) (first : 1 ≤ (reqWord r 1).toNat)
    (last : (reqWord r 1).toNat ≤ (s.tb.check ci).payers.length)
    (unpaid : ((s.tb.check ci).payers.getD ((reqWord r 1).toNat - 1) emptyPayer).status ≠ .paid)
    (amount : (reqWord r 2).toNat ≤ 99999999) (tip : (reqWord r 3).toNat = 0)
    (sum : ((s.tb.check ci).payers.getD ((reqWord r 1).toNat - 1) emptyPayer).tendered + (reqWord r 2).toNat ≤ 99999999)
    (zero : (reqWord r 2).toNat = 0 → ((s.tb.check ci).payers.getD ((reqWord r 1).toNat - 1) emptyPayer).share = 0) :
    tenderReq r s.event = tenderTaken r ci (reqWord r 1).toNat (reqWord r 2).toNat 0
      ((s.tb.check ci).payers.getD ((reqWord r 1).toNat - 1) emptyPayer)
      (billed ci (heldCheck s.tb (s.tb.check ci) r.lane r.takenAt) s.tb.lines s.event) := by
  rw [show tenderReq r s.event = _ from withHeldLive_passes names live holds _]
  simp only [billed_check, tip]
  have payers : (heldCheck s.tb (s.tb.check ci) r.lane r.takenAt).payers = (s.tb.check ci).payers := rfl
  have inRange : tenderAmountsOk ((s.tb.check ci).payers.getD ((reqWord r 1).toNat - 1) emptyPayer) (reqWord r 2).toNat 0 = true :=
    decide_eq_true ⟨amount, Nat.zero_le _, sum⟩
  rw [payers, if_neg (by omega), if_neg (by simpa [isPaid] using unpaid),
    if_neg (by rw [inRange]; simp), if_neg (fun h => h.2 (zero h.1))]

/-! ### What the close leaves -/

theorem sameSettings_trans {a b c : Tables} (h : SameSettings a b) (h1 : SameSettings b c) : SameSettings a c := by
  obtain ⟨a1, a2, a3, a4, a5, a6, a7⟩ := h
  obtain ⟨b1, b2, b3, b4, b5, b6, b7⟩ := h1
  exact ⟨b1.trans a1, b2.trans a2, b3.trans a3, b4.trans a4, b5.trans a5, b6.trans a6, b7.trans a7⟩

/-- The end of an event that touched no item and counted a lane. -/
theorem closeEv_countLane {ev : Ev} (lane : Nat) (f : LaneCount → LaneCount) (ht : ev.touched = []) :
    let ev1 := closeEv (ev.countLane lane f)
    ev1.notes = ev.notes ∧ ev1.rewrites = ev.rewrites ∧ ev1.tb.checks = ev.tb.checks ∧ ev1.tb.lines = ev.tb.lines ∧
      ev1.tb.owed = ev.tb.owed ∧ SameSettings ev.tb ev1.tb ∧ SameStock ev.tb ev1.tb := by
  intro ev1
  have same : SameButStations (ev.countLane lane f) ev1 := closeEv_same (by simp [ht])
  have counted : SameButFires (ev.countLane lane f).tb ev1.tb := .of_eq same.tb
  have settings : SameSettings ev.tb ev1.tb := by simpa [SameSettings] using counted.settings
  have stock : SameStock ev.tb ev1.tb := by simpa [SameStock] using counted.stock
  refine ⟨?_, ?_, ?_, ?_, ?_, settings, stock⟩
  · simp [same.notes]
  · simp [same.rewrites]
  · simp [same.checks]
  · simpa using congrArg Tables.lines same.tb
  · simpa using congrArg Tables.owed same.tb

/-- The close fire of the check of a tender is built (R51, R78 to R82). -/
theorem fireDone_closed {ci lane : Nat} {s : State} {c : Check} {L M : List (Nat × Option Line)} {ev1 : Ev} (f : LaneCount → LaneCount)
    (plan : List (Nat × List TicketLine)) (tag : c.tag = (s.tb.check ci).tag) (rush : c.rush = (s.tb.check ci).rush)
    (used : c.state ≠ .free)
    (hb : TicketsBuilt (fireClass c false) (fun p => newOrder (billed ci c L s.event).tb ci false none p.1 p.2) (firedTickets s.tb plan)
      (billed ci c L s.event) ev1)
    (load : s.engine ≠ .load) (fits : plan.length ≤ freeTickets s.tb) :
    let ev2 := closeEv ((fireDone ci plan M ev1).countLane lane f)
    ev2.notes = [] ∧ ev2.rewrites = [] ∧
      ev2.tb.checks = tset check0 s.tb.checks ci { c with outstanding := c.outstanding + plan.length } ∧
      ev2.tb.owed = s.tb.owed ∧ ev2.tb.lines = M ∧ Fired s.tb ev2.tb ci false none plan ∧ SameSettings s.tb ev2.tb ∧
      SameStock s.tb ev2.tb := by
  intro ev2
  obtain ⟨notes, marks, checks, lines, owed, settings, stock⟩ := closeEv_countLane (ev := fireDone ci plan M ev1) lane f hb.touched
  have before : SameButFires s.tb (fireDone ci plan M ev1).tb :=
    ((billed_same ci c L s.event).trans (.of_eq hb.tb)).trans (fireDone_same ci plan M ev1)
  have written : (fireDone ci plan M ev1).tb.checks = tset check0 s.tb.checks ci { c with outstanding := c.outstanding + plan.length } := by
    have was : ev1.tb.checks = tset check0 s.tb.checks ci c := hb.checks
    have here : ev1.tb.check ci = c := by unfold Tables.check; rw [was]; exact tget_tset_same _ _ _ _
    have : (fireDone ci plan M ev1).tb.checks =
        tset check0 ev1.tb.checks ci { ev1.tb.check ci with outstanding := (ev1.tb.check ci).outstanding + plan.length } := rfl
    rw [this, here, was]
    exact tset_tset _ _ (ne_check0 used) (ne_check0 used)
  have fired : Fired (billed ci c L s.event).tb ev2.tb ci false none plan :=
    fired_of_built (ev1 := ev1) (by rw [billed_check]; exact hb) (fits.trans (freeTickets_le s.tb)) (event_inLoad load) rfl
      (by simp [fireDone]) ((Ev.countLane_touched _ _ _).trans hb.touched) (by simp [fireDone]) (by simp [fireDone]) (by simp [fireDone])
      (by simp [fireDone]) (by simp [fireDone])
  refine ⟨notes.trans hb.notes, marks.trans hb.rewrites, checks.trans written, ?_, lines, fired.congr rfl rfl rfl rfl ?_ ?_, ?_, ?_⟩
  · exact owed.trans (show ev1.tb.owed = s.tb.owed by rw [hb.tb]; rfl)
  · rw [billed_check, tag]
  · rw [billed_check, rush]
  · exact sameSettings_trans before.settings settings
  · exact ⟨stock.1.trans before.stock.1, stock.2.trans before.stock.2⟩

/-- The close fire of the check of a tender is owed (R51, R83). -/
theorem oweFire_closed {ci lane : Nat} {s : State} {c : Check} (L : List (Nat × Option Line)) (f : LaneCount → LaneCount)
    (used : c.state ≠ .free) :
    let ev2 := closeEv ((oweFire ci (billed ci c L s.event)).countLane lane f)
    ev2.notes = [] ∧ ev2.rewrites = [] ∧ ev2.tb.checks = tset check0 s.tb.checks ci { c with owed := true } ∧
      ev2.tb.owed = s.tb.owed.filter (fun j => decide (j ≠ ci)) ++ [ci] ∧ ev2.tb.lines = L ∧ ev2.tb.tickets = s.tb.tickets ∧
      ev2.tb.stations = s.tb.stations ∧ SameSettings s.tb ev2.tb ∧ SameStock s.tb ev2.tb := by
  intro ev2
  have owes : oweFire ci (billed ci c L s.event) =
      (billed ci { c with owed := true } L s.event).setOwed (s.tb.owed.filter (fun j => decide (j ≠ ci)) ++ [ci]) := by
    unfold oweFire; rw [billed_updCheck _ _ used (by exact used)]; rfl
  have still : ev2 = ((billed ci { c with owed := true } L s.event).setOwed
      (s.tb.owed.filter (fun j => decide (j ≠ ci)) ++ [ci])).countLane lane f := by
    rw [← owes]; exact closeEv_still ((Ev.countLane_touched _ _ _).trans rfl) ((Ev.countLane_reached _ _ _).trans rfl)
  rw [still]
  refine ⟨?_, ?_, ?_, ?_, ?_, ?_, ?_, ?_, ?_⟩
  all_goals simp [billed, SameSettings, SameStock, State.event, Ev.ofTables]

theorem oweFire_owed (ci : Nat) (ev : Ev) : ((oweFire ci ev).tb.check ci).owed = true := by
  have : (oweFire ci ev).tb.check ci = (ev.updCheck ci (fun c => { c with owed := true })).tb.check ci := rfl
  rw [this, updCheck_check, if_pos rfl]

/-- A tender answered OK whose event raised no notice and marked no window. -/
theorem tender_committed {bus : Bus} {s : State} {r : Req} {ev : Ev} (allowed : Allowed 14 bus s r) (event : (tenderReq r s.event).1 = ev)
    (code : (tenderReq r s.event).2.code = .ok) (notes : (closeEv ev).notes = []) (marks : (closeEv ev).rewrites = []) :
    ∃ m t b, exec (.tender bus) s = .next t ∧ Committed (s.afterHub bus) m (closeEv ev).tb [] ∧
      Answered m t r { code := .ok, body := b } := by
  obtain ⟨m, committed, answered⟩ := completeKind_allowed allowed tenderReq
  rw [event, notes, rewrittenWindows_eq (by rw [marks]; simp)] at committed
  refine ⟨m, _, (tenderReq r s.event).2.body, rfl, committed, ?_⟩
  rw [← code]
  exact answered

/-- A tender that writes its check as `paid` and the nets of its lines as `L`, and then has only its close fire to see to; it is answered
OK wherever that fire leaves the check tickets or owed. -/
structure TenderCloses (r : Req) (s : State) (ci : Nat) (paid : Check) (L : List (Nat × Option Line)) (count : LaneCount → LaneCount) :
    Prop where
  used : paid.state ≠ .free
  tag : paid.tag = (s.tb.check ci).tag
  rush : paid.rush = (s.tb.check ci).rush
  listed : paid.lines = (s.tb.check ci).lines
  nets : ∀ j, tget none L j =
    if j ∈ (s.tb.check ci).lines then (s.tb.line j).map (fun l => { l with net := lineNet l }) else s.tb.line j
  fire : ∀ ev, closeFire ci (billed ci paid L s.event) = ev → ev.tb.slots = s.tb.slots →
    ((ev.tb.check ci).outstanding ≠ 0 ∨ (ev.tb.check ci).owed = true) →
    (tenderReq r s.event).1 = ev.countLane r.lane count ∧ (tenderReq r s.event).2.code = .ok

section
variable {r : Req} {s : State} {ci : Nat} {paid : Check} {L : List (Nat × Option Line)} {count : LaneCount → LaneCount}

theorem TenderCloses.sameButNets (h : TenderCloses r s ci paid L count) : SameButNets s.tb (billed ci paid L s.event).tb := fun j => by
  rw [show (billed ci paid L s.event).tb.line j = tget none L j from rfl, h.nets]
  split
  · show ((s.tb.line j).map _).map _ = _
    rw [Option.map_map]; rfl
  · rfl

/-- The lines left to fire are those of before the tender. -/
theorem TenderCloses.unsent (h : TenderCloses r s ci paid L count) :
    Machine.unsent (billed ci paid L s.event).tb ((billed ci paid L s.event).tb.check ci).lines =
      Machine.unsent s.tb (s.tb.check ci).lines := by
  rw [billed_check, h.sameButNets.unsent, h.listed]

/-- A line left to fire has its net written. -/
theorem TenderCloses.line (h : TenderCloses r s ci paid L count) {j : Nat} (hj : j ∈ Machine.unsent s.tb (s.tb.check ci).lines) :
    tget none L j = (s.tb.line j).map (fun l => { l with net := lineNet l }) := by
  rw [h.nets, if_pos (List.mem_filter.1 hj).1]

/-- The close fire built whole (R51, R78 to R82). -/
theorem TenderCloses.fires (h : TenderCloses r s ci paid L count) {bus : Bus} (allowed : Allowed 14 bus s r) {ids : List Nat}
    {plan : List (Nat × List TicketLine)} (hids : Machine.unsent s.tb (s.tb.check ci).lines = ids) (hplan : planFire s.tb ids = plan)
    (some1 : ids ≠ []) (some2 : plan ≠ []) (load : s.engine ≠ .load) (fits : plan.length ≤ freeTickets s.tb) :
    ∃ m t X b, exec (.tender bus) s = .next t ∧ Committed (s.afterHub bus) m X [] ∧ Answered m t r { code := .ok, body := b } ∧
      (X.checks = tset check0 s.tb.checks ci { paid with outstanding := paid.outstanding + plan.length } ∧ X.owed = s.tb.owed ∧
        Fired s.tb X ci false none plan ∧
        ∀ j, j ∈ ids → X.line j = (s.tb.line j).map (fun l => { l with net := lineNet l, fired := true })) ∧
      SameSettings s.tb X ∧ SameStock s.tb X := by
  have same := h.sameButNets.planFire rfl ids
  obtain ⟨ev1, M, fire, hb, hM⟩ := closeFire_fits (ci := ci) (ev := billed ci paid L s.event) (event_inLoad load) ids
    (h.unsent.trans hids) some1 (by rw [same, hplan]; exact fits)
  rw [same, hplan] at fire hb
  rw [billed_check] at hb
  obtain ⟨notes, marks, checks, owed, lines, fired, settings, stock⟩ :=
    fireDone_closed (lane := r.lane) (M := M) count plan h.tag h.rush h.used hb load fits
  obtain ⟨event, code⟩ := h.fire _ fire (by rw [(fireDone_same ci plan M ev1).slots, hb.tb]; rfl)
    (.inl (fireDone_counts ci some2 M ev1))
  obtain ⟨m, t, b, runs, committed, answered⟩ := tender_committed allowed event code notes marks
  refine ⟨m, t, _, b, runs, committed, answered, ⟨checks, owed, fired, fun j hj => ?_⟩, settings, stock⟩
  rw [Tables.line, lines, hM, if_pos hj]
  show (tget none L j).map _ = _
  rw [h.line (hids ▸ hj), Option.map_map]; rfl

/-- The close fire owed (R51, R55, R83). -/
theorem TenderCloses.owes (h : TenderCloses r s ci paid L count) {bus : Bus} (allowed : Allowed 14 bus s r) {ids : List Nat}
    {plan : List (Nat × List TicketLine)} (hids : Machine.unsent s.tb (s.tb.check ci).lines = ids) (hplan : planFire s.tb ids = plan)
    (some1 : ids ≠ []) (short : s.engine = .load ∨ freeTickets s.tb < plan.length) :
    ∃ m t X b, exec (.tender bus) s = .next t ∧ Committed (s.afterHub bus) m X [] ∧ Answered m t r { code := .ok, body := b } ∧
      (X.checks = tset check0 s.tb.checks ci { paid with owed := true } ∧
        X.owed = s.tb.owed.filter (fun j => decide (j ≠ ci)) ++ [ci] ∧ X.tickets = s.tb.tickets ∧ X.stations = s.tb.stations ∧
        ∀ j, j ∈ ids → X.line j = (s.tb.line j).map (fun l => { l with net := lineNet l })) ∧
      SameSettings s.tb X ∧ SameStock s.tb X := by
  have missed : (billed ci paid L s.event).inLoad = true ∨
      freeTickets (billed ci paid L s.event).tb < (planFire (billed ci paid L s.event).tb ids).length := by
    rw [h.sameButNets.planFire rfl ids, hplan]
    exact short.imp (fun load => by rw [show (billed ci paid L s.event).inLoad = (s.engine == .load) from rfl, load]; rfl) id
  have fire := closeFire_owes ids (h.unsent.trans hids) some1 missed
  obtain ⟨notes, marks, checks, owed, lines, tickets, stations, settings, stock⟩ :=
    oweFire_closed (ci := ci) (lane := r.lane) (s := s) L count h.used
  obtain ⟨event, code⟩ := h.fire _ fire rfl (.inr (oweFire_owed ci _))
  obtain ⟨m, t, b, runs, committed, answered⟩ := tender_committed allowed event code notes marks
  refine ⟨m, t, _, b, runs, committed, answered, ⟨checks, owed, tickets, stations, fun j hj => ?_⟩, settings, stock⟩
  rw [Tables.line, lines, h.line (hids ▸ hj)]

end

/-- Settles O40: the tender writes its check PAID and the nets of its lines, and the close fire then finds ticket memory large enough or
the check is owed it; either way the check is kept. -/
theorem closeFireFiresOrOwes : Obligations.CloseFireFiresOrOwes := by
  intro bus s r ci allowed names c p amount x x1 f ids plan paid live holds first last unpaid top tip tips sum zero chains policy done hp
    refund some1 some2 unowed
  have used : (heldCheck s.tb c r.lane r.takenAt).state ≠ .free := by
    show c.state ≠ .free
    rcases live with h | h <;> rw [h] <;> decide
  have tendered : x.addTender amount 0 = x1 := by
    have kept : min (x.tips + 0) Config.amountTop = x.tips := Nat.min_eq_left tips
    unfold Payer.addTender
    rw [kept]
  obtain ⟨L, nets, closes⟩ := tenderTaken_closes (r := r) (ci := ci) (p := p) (amount := amount) (ev := s.event) used x1 f tendered
    rfl hp done refund policy
  have closing : TenderCloses r s ci paid L (countTender amount 0) := {
    used := by show CheckState.paid ≠ CheckState.free; decide
    tag := rfl
    rush := rfl
    listed := rfl
    nets := nets
    fire := fun ev fire slots kept => closes ev _ fire
      (fun n hn => by unfold Tables.slot; rw [slots]; exact chains n hn) kept
      (tenderReq_taken names live holds first last unpaid top tip sum zero) }
  by_cases builds : s.engine ≠ .load ∧ plan.length ≤ freeTickets s.tb
  · obtain ⟨m, t, X, b, runs, committed, answered, built, rest⟩ := closing.fires allowed rfl rfl some1 some2 builds.1 builds.2
    refine ⟨m, t, X, b, runs, committed, answered, fun _ => built, fun h => ?_, rest⟩
    exact (h.elim builds.1 (fun short => by omega)).elim
  · have short : s.engine = .load ∨ freeTickets s.tb < plan.length := by
      by_contra h
      rw [not_or, Nat.not_lt] at h
      exact builds h
    obtain ⟨m, t, X, b, runs, committed, answered, owed, rest⟩ := closing.owes allowed rfl rfl some1 short
    exact ⟨m, t, X, b, runs, committed, answered, fun h => absurd h builds, fun _ => owed, rest⟩

end Sys2Proof.Machine
end

section
/-!
What leaves the catalogue alone: the operations of stations, tickets, checks and exchange memory, each with the lemma that it keeps the
table of items.
-/

namespace Sys2Proof.Machine

theorem SameButStations.items {a b : Ev} (h : SameButStations a b) : b.tb.items = a.tb.items := by rw [h.tb]; rfl

theorem TicketsBuilt.items {cls : TicketClass} {mk : Nat × List TicketLine → Order} {qs : List (Nat × Nat × List TicketLine)}
    {a b : Ev} (h : TicketsBuilt cls mk qs a b) : b.tb.items = a.tb.items := by rw [h.tb]; rfl

/-! ### Stations -/

@[simp] theorem openGate_items (n : Nat) (cause : GateCause) (ev : Ev) : (openGate n cause ev).tb.items = ev.tb.items :=
  (openGate_same n cause ev).items

@[simp] theorem joinQueue_items (n i : Nat) (c : TicketClass) (ev : Ev) : (joinQueue n i c ev).tb.items = ev.tb.items :=
  (joinQueue_spec n i c ev).1.items.trans (by simp)

@[simp] theorem leaveStation_items (n i : Nat) (ev : Ev) : (leaveStation n i ev).tb.items = ev.tb.items := by
  simp [leaveStation]

@[simp] theorem stepIntakeEv_items (n : Nat) (d : Direction) (m : StepMode) (ev : Ev) :
    (stepIntakeEv n d m ev).tb.items = ev.tb.items := by
  unfold stepIntakeEv; dsimp only; split <;> simp

@[simp] theorem setGateEv_items (n : Nat) (m : GateMode) (ev : Ev) : (setGateEv n m ev).tb.items = ev.tb.items := by
  simp [setGateEv]

@[simp] theorem gateHoldEv_items (n : Nat) (ev : Ev) : (gateHoldEv n ev).tb.items = ev.tb.items := by simp [gateHoldEv]

@[simp] theorem promote_items (n : Nat) (is : List Nat) (ev : Ev) : (promote n is ev).tb.items = ev.tb.items := by
  have recast : ∀ ev : Ev, (is.foldl (fun ev i =>
      ev.updTicket i (fun k => { k with order := k.order.map (fun o => { o with cls := .rush1 }) })) ev).tb.items = ev.tb.items :=
    foldl_keeps (fun ev : Ev => ev.tb.items) (fun _ _ => by simp) is
  unfold promote
  split
  · rfl
  · dsimp only; split <;> simp [recast]

@[simp] theorem ageTicket_items (ev : Ev) (i : Nat) : (ageTicket ev i).tb.items = ev.tb.items := by
  unfold ageTicket
  split
  · rfl
  · dsimp only; split <;> simp

@[simp] theorem agingEv_items (n : Nat) (ev : Ev) : (agingEv n ev).tb.items = ev.tb.items := by
  have walked : ∀ (is : List Nat) (ev : Ev), (is.foldl ageTicket ev).tb.items = ev.tb.items :=
    foldl_keeps (fun ev : Ev => ev.tb.items) ageTicket_items
  simp [agingEv, walked]

@[simp] theorem applyThreshold_items (n v : Nat) (ev : Ev) : (applyThreshold n v ev).tb.items = ev.tb.items := by
  unfold applyThreshold; dsimp only; split <;> simp

theorem underMark_items {f : Ev → Ev} (h : ∀ ev, (f ev).tb.items = ev.tb.items) (b : Bool) (ev : Ev) :
    (underMark b f ev).tb.items = ev.tb.items := by
  unfold underMark; split
  · exact h ev
  · rfl

@[simp] theorem setStationEffect_items (r : Req) (n : Nat) (m : GateMode) (p : RestartPolicy) (ev : Ev) :
    (setStationEffect r n m p ev).tb.items = ev.tb.items := by
  unfold setStationEffect
  repeat rw [underMark_items]
  all_goals intros; simp

@[simp] theorem runArbiters_items (ev : Ev) : (runArbiters ev).tb.items = ev.tb.items := (runArbiters_arbitrated ev).1.items

@[simp] theorem wakeEv_items (ev : Ev) : (wakeEv ev).tb.items = ev.tb.items := by
  have policies : ∀ l : List Nat, (l.foldl wakePolicy ev).tb.items = ev.tb.items := fun l =>
    foldl_keeps (fun ev : Ev => ev.tb.items) (fun _ _ => by unfold wakePolicy; dsimp only; split <;> simp) l ev
  simp [wakeEv, policies]

/-! ### Tickets and fires -/

@[simp] theorem freeTicket_items (i : Nat) (ev : Ev) : (freeTicket i ev).tb.items = ev.tb.items := by
  unfold freeTicket; split <;> simp

@[simp] theorem strikeTicket_items (id : Nat) (ev : Ev) (i : Nat) : (strikeTicket id ev i).tb.items = ev.tb.items := by
  unfold strikeTicket; split <;> simp

@[simp] theorem withdrawAll_items (ci : Nat) (ev : Ev) : (withdrawAll ci ev).tb.items = ev.tb.items :=
  foldl_keeps (fun ev : Ev => ev.tb.items) (fun _ _ => by unfold withdrawTicket; split <;> simp) _ ev

@[simp] theorem countMadeMarks_items (ev : Ev) (l : Line) : (countMadeMarks ev l).tb.items = ev.tb.items :=
  foldl_keeps (fun ev : Ev => ev.tb.items) (fun _ _ => by split <;> simp [countMade]) _ ev

@[simp] theorem countRemakes_items (ev : Ev) (plan : List (Nat × List TicketLine)) :
    (countRemakes ev plan).tb.items = ev.tb.items :=
  foldl_keeps (fun ev : Ev => ev.tb.items) (fun _ _ => by simp) plan ev

theorem buildFire_items {ci : Nat} {ids : List Nat} {remake : Bool} {course : Option Nat} {ev : Ev} {x : Ev × List Nat}
    (h : buildFire ci ids remake course ev = some x) : x.1.tb.items = ev.tb.items := by
  by_cases fits : (planFire ev.tb ids).length ≤ freeTickets ev.tb
  · obtain ⟨ev1, L, built, e, hb, -⟩ := buildFire_fits ci ids remake course ev fits
    obtain rfl := Option.some.inj (h.symm.trans e)
    exact hb.items
  · rw [buildFire_short ci ids remake course ev (by omega)] at h; cases h

/-! ### Checks and chains -/

@[simp] theorem renewHold_items (ci lane : Nat) (taken : Word) (ev : Ev) : (renewHold ci lane taken ev).tb.items = ev.tb.items := by
  unfold renewHold; split <;> rfl

@[simp] theorem endChains_items (ci : Nat) (ev : Ev) : (endChains ci ev).tb.items = ev.tb.items :=
  foldl_keeps (fun ev : Ev => ev.tb.items) (fun _ _ => by simp [endSlot]) _ ev

@[simp] theorem recompute_items (ci : Nat) (ev : Ev) : (recompute ci ev).tb.items = ev.tb.items :=
  foldl_keeps (fun ev : Ev => ev.tb.items) (fun _ _ => by simp) (ev.tb.check ci).lines ev

@[simp] theorem closeFire_items (ci : Nat) (ev : Ev) : (closeFire ci ev).tb.items = ev.tb.items := by
  unfold closeFire
  dsimp only
  split
  · rfl
  · split
    · rfl
    · split
      · next h => exact buildFire_items h
      · rfl

@[simp] theorem settleCheck_items (ci : Nat) (ev : Ev) : (settleCheck ci ev).tb.items = ev.tb.items := by
  unfold settleCheck
  dsimp only
  rw [endChains_items]
  split <;> split <;> simp

@[simp] theorem markStarted_items (n : Nat) (ev : Ev) : (markStarted n ev).tb.items = ev.tb.items := rfl

@[simp] theorem stall_items (n : Nat) (ev : Ev) : (stall n ev).tb.items = ev.tb.items := by simp [stall]

/-! ### Exchange memory -/

@[simp] theorem writeNotice_items (own : Option Answer) (io : Io) (n : Notice) :
    (writeNotice own io n).st.tb.items = io.st.tb.items := by
  unfold writeNotice
  split
  · rfl
  · dsimp only
    have written := busWrites_tb io (Config.noticesAt + io.st.ntw.written.toNat % 256 * 32) (noticeWords io.st.ntw.written n)
    split
    · next h1 => simpa [h1] using congrArg Tables.items written
    · next io1 h1 =>
      have kept : io1.st.tb = io.st.tb := by simpa [h1] using written
      cases bad : io1.bad <;> simp [bad, kept, noticeCounted]

@[simp] theorem writeNotices_items (own : Option Answer) (io : Io) (ns : List Notice) :
    (writeNotices own io ns).st.tb.items = io.st.tb.items :=
  foldl_keeps (fun io : Io => io.st.tb.items) (writeNotice_items own) ns io

@[simp] theorem writeWindow_items (own : Option Answer) (io : Io) (n : Nat) :
    (writeWindow own io n).st.tb.items = io.st.tb.items := by
  unfold writeWindow
  split
  · rfl
  · dsimp only
    have written := busWrites_tb (io.setSt (setWinCount io.st n (oddAfter (io.st.tb.station n).winCount)))
      (Config.windowsAt + n * 1024)
      (oddAfter (io.st.tb.station n).winCount :: windowWords n (io.st.tb.station n) (windowEntries io.st.tb n))
    split
    · next h1 => simpa [h1, setWinCount_tb] using congrArg Tables.items written
    · next io1 h1 =>
      have kept : io1.st.tb.items = io.st.tb.items := by simpa [h1, setWinCount_tb] using congrArg Tables.items written
      cases bad : io1.bad <;> simp [bad, kept, setWinCount_tb]

@[simp] theorem writeWindows_items (own : Option Answer) (io : Io) (ns : List Nat) :
    (writeWindows own io ns).st.tb.items = io.st.tb.items :=
  foldl_keeps (fun io : Io => io.st.tb.items) (writeWindow_items own) ns io

@[simp] theorem commitEv_items (own : Option Answer) (io : Io) (ev : Ev) : (commitEv own io ev).st.tb.items = ev.tb.items := by
  simp [commitEv]

@[simp] theorem faultLane_items (own : Option Answer) (io : Io) (lane slot : Nat) :
    (faultLane own io lane slot).st.tb.items = io.st.tb.items := by
  unfold faultLane countLaneFault
  dsimp only
  split <;> simp

@[simp] theorem countDone_items (s : State) (lane : Nat) (c : ResultCode) : (countDone s lane c).tb.items = s.tb.items := by
  rw [countDone_tb]; split <;> rfl

@[simp] theorem answerRequest_items (io : Io) (r : Req) (a : Answer) : (answerRequest io r a).st.tb.items = io.st.tb.items := by
  have result := writeResult_tb io r.lane r.slot r.hubTag a
  unfold answerRequest
  split
  · simp_all
  · dsimp only; split <;> simp_all

end Sys2Proof.Machine
end

section
/-!
The portion bounds of R63 as a relation between tables: every item that meets them before an operation meets them after it. What the named
operations of items, lines, tickets and checks do to it.
-/

namespace Sys2Proof.Machine

/-! ### One item record (R64 to R72) -/

namespace Item
variable {it : Item}

theorem bounded_of_counts {it' : Item} (h : it.bounded) (hOn : it'.onHand = it.onHand) (hRes : it'.reserved = it.reserved)
    (hKind : it'.kind = it.kind) (hDef : it'.defined = it.defined) : it'.bounded := by
  unfold bounded; rwa [hOn, hRes, hKind, hDef]

theorem bounded_zero (hOn : it.onHand = 0) (hRes : it.reserved = 0) : it.bounded :=
  ⟨by omega, by omega, fun _ => ⟨hOn, hRes⟩⟩

/-- A reservation takes no more than avail, which is 0 where both counts are. -/
theorem reserve_bounded (n : Nat) (h : it.bounded) : (it.reserve n).bounded := by
  obtain ⟨covered, top, unused⟩ := h
  unfold reserve avail
  split
  · refine ⟨by dsimp only; omega, top, fun hk => ?_⟩
    have := unused hk
    dsimp only
    omega
  · exact ⟨covered, top, unused⟩

theorem release_bounded (n : Nat) (h : it.bounded) : (it.release n).bounded := by
  obtain ⟨covered, top, unused⟩ := h
  refine ⟨by dsimp only [release]; omega, top, fun hk => ?_⟩
  have := unused hk
  dsimp only [release]
  omega

/-- A consumption takes the same from both counts, so that what remains reserved is still covered. -/
theorem consume_bounded (n : Nat) (h : it.bounded) : (it.consume n).bounded := by
  obtain ⟨covered, top, unused⟩ := h
  refine ⟨by dsimp only [consume]; omega, by dsimp only [consume]; omega, fun hk => ?_⟩
  have := unused hk
  dsimp only [consume]
  omega

theorem settle_bounded (h : it.bounded) : it.settle.bounded := by
  unfold settle
  split
  · exact bounded_of_counts h rfl rfl rfl rfl
  · exact h

theorem clearShort_bounded (h : it.bounded) : it.clearShort.bounded := bounded_of_counts h rfl rfl rfl rfl

/-- The counts of a SIMPLE item are bounded by what the bounds say of them alone. -/
theorem bounded_of_simple (hs : it.isSimple = true) (covered : it.reserved ≤ it.onHand) (top : it.onHand ≤ Config.portionTop) :
    it.bounded := by
  obtain ⟨hd, hk⟩ : it.defined = true ∧ it.kind = .simple := by simpa [isSimple] using hs
  exact ⟨covered, top, fun h => by simp [hd, hk] at h⟩

theorem yielded_bounded (n : Nat) (hs : it.isSimple = true) (h : it.bounded) : (it.yielded n).bounded := by
  obtain ⟨covered, top, -⟩ := h
  exact bounded_of_simple (it := it.yielded n) hs (by dsimp only [yielded]; omega)
    (by dsimp only [yielded, yieldAmount]; omega)

theorem wasted_bounded (n : Nat) (hs : it.isSimple = true) (h : it.bounded) : (it.wasted n).bounded := by
  obtain ⟨covered, top, -⟩ := h
  exact bounded_of_simple (it := it.wasted n) hs (by dsimp only [wasted, wasteAmount, avail]; omega) (by dsimp only [wasted]; omega)

theorem counted_bounded (n : Nat) (hn : n ≤ Config.portionTop) (hs : it.isSimple = true) (h : it.bounded) :
    (it.counted n).bounded := by
  obtain ⟨covered, top, -⟩ := h
  exact bounded_of_simple (it := it.counted n) hs (by dsimp only [counted]; omega) (by dsimp only [counted]; omega)

theorem definedItem_bounded (d : ItemDef) (kind : ItemKind) (h : it.bounded) : (definedItem it d kind).bounded := by
  unfold definedItem
  split
  · split
    · exact bounded_of_counts h rfl rfl rfl rfl
    · exact bounded_zero rfl rfl
  · exact bounded_zero rfl rfl

end Item

/-! ### The relation between tables -/

/-- Every item that meets the portion bounds in `a` meets them in `b` (R63). -/
def PortionsKept (a b : Tables) : Prop := ∀ i, (a.item i).bounded → (b.item i).bounded

namespace PortionsKept
variable {a b c : Tables}

theorem refl (a : Tables) : PortionsKept a a := fun _ h => h

theorem trans (h : PortionsKept a b) (h' : PortionsKept b c) : PortionsKept a c := fun i hi => h' i (h i hi)

theorem of_items (h : b.items = a.items) : PortionsKept a b := fun i hi => by
  simpa only [Tables.item, h] using hi

/-- An operation followed by one that leaves the items alone. -/
theorem items (h : PortionsKept a b) (h' : c.items = b.items) : PortionsKept a c := h.trans (of_items h')

theorem of_eq (h : b = a) : PortionsKept a b := of_items (congrArg _ h)

theorem foldl {α : Type} {f : Ev → α → Ev} (h : ∀ ev x, PortionsKept ev.tb (f ev x).tb) (l : List α) (ev : Ev) :
    PortionsKept ev.tb (l.foldl f ev).tb := by
  induction l generalizing ev with
  | nil => exact refl _
  | cons x l ih => exact (h ev x).trans (ih (f ev x))

end PortionsKept

/-- A write to one item record that keeps its bounds. -/
theorem updItem_portionsKept (ev : Ev) (i : Nat) {f : Item → Item} (h : (ev.tb.item i).bounded → (f (ev.tb.item i)).bounded) :
    PortionsKept ev.tb (ev.updItem i f).tb := fun k hk => by
  have written : (ev.updItem i f).tb.item k = if k = i then f (ev.tb.item i) else ev.tb.item k := by
    simp [Tables.item, tget_tupd]
  rw [written]
  split
  · next hki => subst hki; exact h hk
  · exact hk

/-! ### Stock (R64 to R66) -/

theorem reserveAll_portionsKept (ev : Ev) (ds : List (Nat × Nat)) : PortionsKept ev.tb (reserveAll ev ds).tb :=
  .foldl (fun ev d =>
    (updItem_portionsKept ev d.1 (f := fun it => it.reserve d.2) (Item.reserve_bounded d.2)).items (by rw [Ev.touch_tb])) ds ev

theorem releaseDemand_portionsKept (ev : Ev) (ds : List (Nat × Nat)) : PortionsKept ev.tb (releaseDemand ev ds).tb :=
  .foldl (fun ev d =>
    (updItem_portionsKept ev d.1 (f := fun it => it.release d.2) (Item.release_bounded d.2)).items (by simp [releaseOne])) ds ev

theorem settleItem_portionsKept (ev : Ev) (i : Nat) : PortionsKept ev.tb (settleItem ev i).tb := fun k hk => by
  obtain ⟨-, -, settled, -⟩ := settleItem_spec ev i
  rw [settled]
  split
  · next hki => subst hki; exact Item.settle_bounded hk
  · exact hk

theorem settleLevels_portionsKept (ev : Ev) : PortionsKept ev.tb (settleLevels ev).tb :=
  PortionsKept.foldl settleItem_portionsKept ev.touched ev

theorem closeEv_portionsKept (ev : Ev) : PortionsKept ev.tb (closeEv ev).tb :=
  (settleLevels_portionsKept ev).items (closeEv_arbitrated ev).1.items

theorem consumeLine_portionsKept (ev : Ev) (l : TicketLine) : PortionsKept ev.tb (consumeLine ev l).tb := by
  unfold consumeLine
  split
  · exact .refl _
  · exact (updItem_portionsKept ev l.item (f := fun it => it.consume l.qty) (Item.consume_bounded l.qty)).items (by simp [consumeOne])

/-! ### Voids, freeing and bumps (R4, R86, R89) -/

theorem strikeLine_portionsKept (ci id : Nat) (ev : Ev) : PortionsKept ev.tb (strikeLine ci id ev).tb :=
  (releaseDemand_portionsKept ev _).items (foldl_keeps (fun ev : Ev => ev.tb.items) (strikeTicket_items id) _ _)

theorem voidOneLine_portionsKept (ci : Nat) (ev : Ev) (id : Nat) : PortionsKept ev.tb (voidOneLine ci ev id).tb := by
  unfold voidOneLine
  split
  · exact .refl _
  · dsimp only
    refine PortionsKept.trans (b := (ev.updLine id (fun l => { l with voided := true })).tb) (.of_items rfl) ?_
    split
    · exact (strikeLine_portionsKept ci id _).items (countMadeMarks_items _ _)
    · exact releaseDemand_portionsKept _ _

theorem dropLine_portionsKept (ev : Ev) (id : Nat) : PortionsKept ev.tb (dropLine ev id).tb := by
  unfold dropLine
  split
  · exact .refl _
  · split
    · exact .of_items rfl
    · exact (releaseDemand_portionsKept ev _).items rfl

theorem freeCheckEv_portionsKept (ci : Nat) (ev : Ev) : PortionsKept ev.tb (freeCheckEv ci ev).tb :=
  (PortionsKept.foldl dropLine_portionsKept _ ev).items rfl

theorem freeingTest_portionsKept (ci : Nat) (ev : Ev) : PortionsKept ev.tb (freeingTest ci ev).1.tb := by
  unfold freeingTest
  split
  · exact freeCheckEv_portionsKept ci ev
  · exact .refl _

theorem bumpTicket_portionsKept (i : Nat) (o : Order) (ev : Ev) : PortionsKept ev.tb (bumpTicket i o ev).tb :=
  (PortionsKept.foldl consumeLine_portionsKept o.lines ev).items (by simp [bumpTicket])

theorem enterVoided_portionsKept {ci : Nat} {a : Tables} {ev : Ev} (h : PortionsKept a ev.tb) :
    PortionsKept a (enterVoided ci ev).tb :=
  (h.items (by simp)).trans (freeingTest_portionsKept ci _)

/-! ### Settlement and lines (R12, R49, R50) -/

theorem entryToPaid_portionsKept (ci : Nat) (ev : Ev) : PortionsKept ev.tb (entryToPaid ci ev).tb :=
  PortionsKept.trans (.of_items (settleCheck_items ci ev)) (freeingTest_portionsKept ci _)

/-- The close test that ends a request keeps what the request before it has kept. -/
theorem closeTest_portionsKept {ci : Nat} {a : Tables} {ev : Ev} (h : PortionsKept a ev.tb) :
    PortionsKept a (closeTest ci ev).1.tb := by
  unfold closeTest
  split
  · exact h.trans (entryToPaid_portionsKept ci ev)
  · exact h

theorem addLineEffect_portionsKept (ci id : Nat) (l : Line) (ev : Ev) : PortionsKept ev.tb (addLineEffect ci id l ev).tb := by
  unfold addLineEffect
  dsimp only
  refine PortionsKept.items ?_ (recompute_items ci _)
  refine PortionsKept.trans (b := (appendLine ci id l ev).tb) (.of_items rfl) ?_
  split
  · exact .refl _
  · exact reserveAll_portionsKept _ _

/-! ### Chains (R133 to R136) -/

theorem makeCopy_portionsKept (ci id : Nat) (l : Line) (ev : Ev) : PortionsKept ev.tb (makeCopy ci id l ev).tb :=
  (closeTest_portionsKept (addLineEffect_portionsKept ci id l ev)).trans (settleLevels_portionsKept _)

theorem copyTemplate_portionsKept (ci : Nat) (x : Copies) (tid : Nat) : PortionsKept x.ev.tb (copyTemplate ci x tid).ev.tb := by
  unfold copyTemplate
  split
  · dsimp only
    split
    · exact makeCopy_portionsKept ci _ _ x.ev
    · exact .refl _
  · exact .refl _

theorem makeCopies_portionsKept (n ci g : Nat) (ev : Ev) : PortionsKept ev.tb (makeCopies n ci g ev).ev.tb := by
  have copied : ∀ (l : List Nat) (x : Copies), PortionsKept x.ev.tb (l.foldl (copyTemplate ci) x).ev.tb := by
    intro l
    induction l with
    | nil => exact fun x => .refl _
    | cons tid l ih => exact fun x => (copyTemplate_portionsKept ci x tid).trans (ih _)
  have all := copied (templatesOf ev.tb ci g) { ev := ev, made := [], skipped := 0 }
  unfold makeCopies
  dsimp only
  split
  · exact all
  · simpa using all

theorem executionLines_portionsKept (n : Nat) (retry : Bool) (ev : Ev) :
    PortionsKept ev.tb (executionLines n retry ev).1.tb := by
  unfold executionLines
  dsimp only
  split
  · exact makeCopies_portionsKept n _ _ ev
  · exact .refl _

theorem waitOr_items (n : Nat) (d : Duration) (fresh : Bool) (pt : RunPoint) (ev : Ev) :
    (waitOr n d fresh pt ev).event.tb.items = ev.tb.items := by
  unfold waitOr; split <;> rfl

theorem reachStep_items (n : Nat) (fresh : Bool) (ev : Ev) : (reachStep n fresh ev).event.tb.items = ev.tb.items := by
  unfold reachStep
  dsimp only
  split
  · rfl
  · split
    · rfl
    · exact waitOr_items _ _ _ _ _

theorem executeStep_portionsKept (n : Nat) (fresh retry : Bool) (ev : Ev) :
    PortionsKept ev.tb (executeStep n fresh retry ev).event.tb := by
  refine (executionLines_portionsKept n retry ev).items ?_
  unfold executeStep
  dsimp only
  split
  · next h => exact buildFire_items h
  · exact stall_items n _

theorem completeStep_items (n : Nat) (ev : Ev) : (completeStep n ev).event.tb.items = ev.tb.items := by
  have ended : ((endSlot n (ev.updSlot n (fun s => { s with passesDone := min (s.passesDone + 1) 65535 }))).note
      .chainDone n (ev.tb.slot n).check).tb.items = ev.tb.items := by
    rw [Ev.note_tb]; rfl
  unfold completeStep
  dsimp only
  split
  · split
    · exact ended
    · exact ended
  · exact ended

theorem builtStep_items (n : Nat) (fresh : Bool) (ev : Ev) : (builtStep n fresh ev).event.tb.items = ev.tb.items := by
  unfold builtStep
  dsimp only
  split
  · split
    · exact waitOr_items _ _ _ _ _
    · rfl
  · split
    · exact completeStep_items n _
    · rfl

theorem advanceStep_items (n : Nat) (fresh : Bool) (ev : Ev) : (advanceStep n fresh ev).event.tb.items = ev.tb.items := by
  unfold advanceStep
  split
  · rfl
  · dsimp only; split <;> rfl

theorem runStep_portionsKept (n : Nat) (fresh : Bool) (pt : RunPoint) (ev : Ev) :
    PortionsKept ev.tb (runStep n fresh pt ev).event.tb := by
  unfold runStep
  split
  · exact .refl _
  · cases pt with
    | reach => exact .of_items (reachStep_items n fresh ev)
    | execute retry => exact executeStep_portionsKept n fresh retry ev
    | built => exact .of_items (builtStep_items n fresh ev)
    | advance => exact .of_items (advanceStep_items n fresh ev)

theorem runSlot_portionsKept (fuel n : Nat) (fresh : Bool) (pt : RunPoint) (ev : Ev) :
    PortionsKept ev.tb (runSlot fuel n fresh pt ev).tb := by
  induction fuel generalizing n fresh pt ev with
  | zero => exact .refl _
  | succ fuel ih =>
    have first := runStep_portionsKept n fresh pt ev
    rw [runSlot]
    split
    · next h => rwa [h] at first
    · next h => rw [h] at first; exact first.trans (ih _ _ _ _)

theorem runChain_portionsKept (n : Nat) (fresh : Bool) (pt : RunPoint) (ev : Ev) :
    PortionsKept ev.tb (runChain n fresh pt ev).tb := runSlot_portionsKept 400000 n fresh pt ev

theorem startSlot_portionsKept (n : Nat) (ev : Ev) : PortionsKept ev.tb (startSlot n ev).tb := by
  unfold startSlot
  dsimp only
  split
  · exact .of_items rfl
  · exact PortionsKept.trans (b := (markStarted n ev).tb) (.of_items rfl) (runChain_portionsKept _ _ _ _)

end Sys2Proof.Machine
end

section
/-!
The portion bounds through the requests (01, 03 to 06, 08 to 10).
-/

namespace Sys2Proof.Machine

/-! ### What requests share -/

theorem withCheck_portionsKept {r : Req} {ev : Ev} {k : Nat → Ev × Answer} (h : ∀ ci, PortionsKept ev.tb (k ci).1.tb) :
    PortionsKept ev.tb (withCheck r ev k).1.tb := by
  unfold withCheck
  split
  · exact h _
  · exact .refl _

theorem withHold_portionsKept {r : Req} {ci : Nat} {ev : Ev} {k : Ev → Ev × Answer} (h : ∀ ev, PortionsKept ev.tb (k ev).1.tb) :
    PortionsKept ev.tb (withHold r ci ev k).1.tb := by
  unfold withHold
  split
  · exact PortionsKept.trans (.of_items (renewHold_items ci _ _ ev)) (h _)
  · exact .refl _

theorem withHeldLive_portionsKept {r : Req} {ci : Nat} {ev : Ev} {k : Ev → Ev × Answer}
    (h : ∀ ev, PortionsKept ev.tb (k ev).1.tb) : PortionsKept ev.tb (withHeldLive r ci ev k).1.tb :=
  withHold_portionsKept fun ev => by
    split
    · exact h ev
    · exact .refl _

theorem unlessRefused_portionsKept {ev : Ev} {x : Option Answer} {k : Ev × Answer} (h : PortionsKept ev.tb k.1.tb) :
    PortionsKept ev.tb (unlessRefused ev x k).1.tb := by
  cases x with
  | none => exact h
  | some a => exact .refl _

/-! ### Checks, lines and payers (01, 03) -/

theorem openCheckReq_portionsKept (r : Req) (ev : Ev) : PortionsKept ev.tb (openCheckReq r ev).1.tb := by
  have opened : ∀ ci tag policy mode, (openAt r ci tag policy mode ev).1.tb.items = ev.tb.items := fun ci tag policy mode => by
    simp [openAt]
  unfold openCheckReq
  split
  · exact .refl _
  · split
    · split
      · exact .refl _
      · split
        · exact .refl _
        · split
          · exact .refl _
          · exact .of_items (opened _ _ _ _)
    · exact .refl _

theorem addLineReq_portionsKept (r : Req) (ev : Ev) : PortionsKept ev.tb (addLineReq r ev).1.tb :=
  withCheck_portionsKept fun ci => withHeldLive_portionsKept fun ev => by
    dsimp only
    split
    · exact .refl _
    · split
      · exact .refl _
      · split
        · exact .refl _
        · exact .refl _
        · refine unlessRefused_portionsKept ?_
          split
          · exact .refl _
          · exact closeTest_portionsKept (addLineEffect_portionsKept ci _ _ ev)

theorem setLineRest_portionsKept (r : Req) (ci id : Nat) (ev : Ev) : PortionsKept ev.tb (setLineRest r ci id ev).1.tb := by
  unfold setLineRest
  dsimp only
  split
  · exact .refl _
  · split
    · exact .refl _
    · exact .refl _
    · split
      · exact .refl _
      · split
        · exact .refl _
        · split
          · exact .refl _
          · exact closeTest_portionsKept (.of_items (recompute_items ci (ev.updLine id _)))

theorem setLineReq_portionsKept (r : Req) (ev : Ev) : PortionsKept ev.tb (setLineReq r ev).1.tb :=
  withCheck_portionsKept fun ci => by
    dsimp only
    split
    · exact .refl _
    · exact withHeldLive_portionsKept fun ev => by
        split
        · exact .refl _
        · exact setLineRest_portionsKept r ci _ ev

theorem voidLineEffect_portionsKept (ci id : Nat) (ev : Ev) : PortionsKept ev.tb (voidLineEffect ci id ev).tb :=
  (voidOneLine_portionsKept ci ev id).items (by simp [voidLineEffect])

theorem voidLineReq_portionsKept (r : Req) (ev : Ev) : PortionsKept ev.tb (voidLineReq r ev).1.tb :=
  withCheck_portionsKept fun ci => by
    dsimp only
    split
    · exact .refl _
    · exact withHeldLive_portionsKept fun ev => by
        split
        · exact .refl _
        · split
          · exact .refl _
          · dsimp only
            exact closeTest_portionsKept (voidLineEffect_portionsKept ci _ ev)

theorem sendReq_portionsKept (r : Req) (ev : Ev) : PortionsKept ev.tb (sendReq r ev).1.tb :=
  withCheck_portionsKept fun ci => withHeldLive_portionsKept fun ev => by
    dsimp only
    split
    · exact .refl _
    · split
      · exact .refl _
      · split
        · exact .refl _
        · next h => exact .of_items (buildFire_items h)

theorem voidCheckReq_portionsKept (r : Req) (ev : Ev) : PortionsKept ev.tb (voidCheckReq r ev).1.tb :=
  withCheck_portionsKept fun ci => withHold_portionsKept fun ev => by
    split
    · exact .refl _
    · split
      · exact .refl _
      · have voided := PortionsKept.foldl (voidOneLine_portionsKept ci) (liveLines ev.tb ci) ev
        exact enterVoided_portionsKept (voided.items ((recompute_items ci _).trans (withdrawAll_items ci _)))

theorem takeReq_portionsKept (r : Req) (ev : Ev) : PortionsKept ev.tb (takeReq r ev).1.tb :=
  withCheck_portionsKept fun _ => withHeldLive_portionsKept fun _ => .refl _

theorem releaseReq_portionsKept (r : Req) (ev : Ev) : PortionsKept ev.tb (releaseReq r ev).1.tb :=
  withCheck_portionsKept fun ci => by
    dsimp only
    split <;> exact .of_items rfl

theorem transferReq_portionsKept (r : Req) (ev : Ev) : PortionsKept ev.tb (transferReq r ev).1.tb :=
  withCheck_portionsKept fun ci => withHeldLive_portionsKept fun ev => by
    dsimp only
    split <;> exact .of_items rfl

theorem breakReq_portionsKept (r : Req) (ev : Ev) : PortionsKept ev.tb (breakReq r ev).1.tb :=
  withCheck_portionsKept fun ci => by
    dsimp only
    split
    · exact .of_items (by simp)
    · exact .of_items rfl

theorem setPayersEffect_items (ci n : Nat) (ev : Ev) : (setPayersEffect ci n ev).tb.items = ev.tb.items := by
  have rewritten := foldl_keeps (fun ev : Ev => ev.tb.items) (f := rewriteLine n) (fun _ _ => rfl) (ev.tb.check ci).lines ev
  unfold setPayersEffect
  dsimp only
  split
  · exact rewritten
  · rfl

theorem setPayersReq_portionsKept (r : Req) (ev : Ev) : PortionsKept ev.tb (setPayersReq r ev).1.tb :=
  withCheck_portionsKept fun ci => withHeldLive_portionsKept fun ev => by
    dsimp only
    split
    · exact .refl _
    · split
      · exact .refl _
      · dsimp only
        exact closeTest_portionsKept (.of_items ((recompute_items ci _).trans (setPayersEffect_items ci _ ev)))

theorem setSplitReq_portionsKept (r : Req) (ev : Ev) : PortionsKept ev.tb (setSplitReq r ev).1.tb :=
  withCheck_portionsKept fun ci => withHeldLive_portionsKept fun ev => by
    split
    · exact .refl _
    · dsimp only
      exact closeTest_portionsKept (.of_items (recompute_items ci (ev.updCheck ci _)))

theorem tenderTaken_portionsKept (r : Req) (ci p amount tip : Nat) (x : Payer) (ev : Ev) :
    PortionsKept ev.tb (tenderTaken r ci p amount tip x ev).1.tb := by
  have tendered : ∀ took, (tenderEffect ci p amount took ev).tb.items = ev.tb.items := fun took => by
    simp [tenderEffect, updPayer]
  unfold tenderTaken
  dsimp only
  exact (closeTest_portionsKept (.of_items (tendered _))).items (Ev.countLane_tb_items _ _ _)

theorem tenderReq_portionsKept (r : Req) (ev : Ev) : PortionsKept ev.tb (tenderReq r ev).1.tb :=
  withCheck_portionsKept fun ci => withHeldLive_portionsKept fun ev => by
    dsimp only
    split
    · exact .refl _
    · split
      · exact .refl _
      · split
        · exact .refl _
        · split
          · exact .refl _
          · exact tenderTaken_portionsKept r ci _ _ _ _ ev

/-! ### The catalogue (04) -/

theorem putItem_portionsKept (i lost : Nat) {new : Item} (ev : Ev) (h : (ev.tb.item i).bounded → new.bounded) :
    PortionsKept ev.tb (putItem i new lost ev).tb :=
  (updItem_portionsKept ev i (f := fun _ => new) h).items (by simp [putItem])

theorem removeItem_portionsKept (i : Nat) (ev : Ev) : PortionsKept ev.tb (removeItem i ev).1.tb := by
  unfold removeItem
  dsimp only
  split
  · exact .refl _
  · split
    · exact .refl _
    · exact putItem_portionsKept i _ ev fun _ => Item.bounded_zero rfl rfl

theorem defineEffect_portionsKept (i : Nat) (d : ItemDef) (kind : ItemKind) (ev : Ev) :
    PortionsKept ev.tb (defineEffect i d kind ev).tb := by
  have put := fun lost => putItem_portionsKept i lost ev (Item.definedItem_bounded (it := ev.tb.item i) d kind)
  unfold defineEffect
  dsimp only
  split
  · rw [Ev.touch_tb]; exact put _
  · exact put _

theorem defineItemReq_portionsKept (r : Req) (ev : Ev) : PortionsKept ev.tb (defineItemReq r ev).1.tb := by
  unfold defineItemReq
  dsimp only
  split
  · exact .refl _
  · split
    · exact removeItem_portionsKept _ ev
    · split
      · exact .refl _
      · split
        · exact .refl _
        · split
          · exact .refl _
          · exact defineEffect_portionsKept _ _ _ ev

theorem setBandReq_portionsKept (r : Req) (ev : Ev) : PortionsKept ev.tb (setBandReq r ev).1.tb := by
  unfold setBandReq; dsimp only; split <;> exact .of_items rfl

theorem clearShortReq_portionsKept (r : Req) (ev : Ev) : PortionsKept ev.tb (clearShortReq r ev).1.tb := by
  unfold clearShortReq
  dsimp only
  split
  · exact updItem_portionsKept ev _ (f := Item.clearShort) Item.clearShort_bounded
  · exact .refl _

/-- A stock request that passes its tests changes a SIMPLE item by no more than 65535 portions (R69). -/
theorem stockTest_passes {r : Req} {ev : Ev} (h : stockTest r ev = none) :
    (ev.tb.item (reqWord r 0).toNat).isSimple = true ∧ (reqWord r 1).toNat ≤ Config.portionTop := by
  unfold stockTest at h
  dsimp only at h
  split at h
  · cases h
  · next hi =>
    split at h
    · cases h
    · next hn => exact ⟨by simp_all, by omega⟩

theorem stockReq_portionsKept (r : Req) (ev : Ev) (code : Item → Nat → ResultCode) (f : Item → Nat → Item)
    (count : Item → Nat → ItemCount → ItemCount)
    (h : ∀ (it : Item) (n : Nat), n ≤ Config.portionTop → it.isSimple = true → it.bounded → (f it n).bounded) :
    PortionsKept ev.tb (stockReq r ev code f count).1.tb := by
  unfold stockReq
  split
  · exact .refl _
  · next passed =>
    obtain ⟨simple, hn⟩ := stockTest_passes passed
    dsimp only
    exact (updItem_portionsKept ev _ (f := fun x => f x _) (h _ _ hn simple)).items (by simp)

theorem yieldReq_portionsKept (r : Req) (ev : Ev) : PortionsKept ev.tb (yieldReq r ev).1.tb :=
  stockReq_portionsKept r ev _ _ _ fun _ n _ => Item.yielded_bounded n

theorem wasteReq_portionsKept (r : Req) (ev : Ev) : PortionsKept ev.tb (wasteReq r ev).1.tb :=
  stockReq_portionsKept r ev _ _ _ fun _ n _ => Item.wasted_bounded n

theorem stockCountReq_portionsKept (r : Req) (ev : Ev) : PortionsKept ev.tb (stockCountReq r ev).1.tb :=
  stockReq_portionsKept r ev _ _ _ fun _ n => Item.counted_bounded n

/-! ### The kitchen (05, 06) -/

theorem bumpReq_portionsKept (r : Req) (ev : Ev) : PortionsKept ev.tb (bumpReq r ev).1.tb := by
  unfold bumpReq
  dsimp only
  split
  · exact .refl _
  · split
    · exact .refl _
    · split
      · exact .refl _
      · split
        · exact .refl _
        · exact (bumpTicket_portionsKept _ _ ev).trans (freeingTest_portionsKept _ _)

theorem remakeAdd_portionsKept (ci id : Nat) (l : Line) (ev : Ev) : PortionsKept ev.tb (remakeAdd ci id l ev).tb := by
  have reserved : PortionsKept ev.tb (reserveAll (appendLine ci id l ev) (demandOf (appendLine ci id l ev).tb l.item l.qty)).tb :=
    PortionsKept.trans (b := (appendLine ci id l ev).tb) (.of_items rfl) (reserveAll_portionsKept _ _)
  unfold remakeAdd
  dsimp only
  split
  · exact reserved.items (recompute_items ci _)
  · exact reserved

theorem remakeTaken_portionsKept (ci id : Nat) (l : Line) (ev : Ev) : PortionsKept ev.tb (remakeTaken ci id l ev).1.tb := by
  unfold remakeTaken
  dsimp only
  split
  · exact .refl _
  · next h =>
    dsimp only
    exact closeTest_portionsKept (((remakeAdd_portionsKept ci id l ev).items (buildFire_items h)).items (countRemakes_items _ _))

theorem remakeReq_portionsKept (r : Req) (ev : Ev) : PortionsKept ev.tb (remakeReq r ev).1.tb :=
  withCheck_portionsKept fun ci => by
    split
    · exact .refl _
    · dsimp only
      split
      · exact .refl _
      · split
        · exact .refl _
        · split
          · exact .refl _
          · split
            · exact .refl _
            · exact unlessRefused_portionsKept (remakeTaken_portionsKept ci _ _ ev)

theorem stepIntakeReq_items (r : Req) (ev : Ev) : (stepIntakeReq r ev).1.tb.items = ev.tb.items := by
  unfold stepIntakeReq
  dsimp only
  split
  · split
    · rfl
    · split
      · rfl
      · exact stepIntakeEv_items _ _ _ ev
  · rfl

theorem setStationReq_items (r : Req) (ev : Ev) : (setStationReq r ev).1.tb.items = ev.tb.items := by
  unfold setStationReq
  dsimp only
  split
  · rfl
  · split
    · exact setStationEffect_items _ _ _ _ ev
    · rfl

/-! ### Timed actions, chains and lanes (07 to 10) -/

theorem setActionReq_items (r : Req) (ev : Ev) : (setActionReq r ev).1.tb.items = ev.tb.items := by
  unfold setActionReq
  dsimp only
  split
  · rfl
  · split
    · split
      · rfl
      · split <;> rfl
    · rfl

theorem writeProgramReq_items (r : Req) (ev : Ev) : (writeProgramReq r ev).1.tb.items = ev.tb.items := by
  unfold writeProgramReq
  dsimp only
  split
  · split
    · rfl
    · split
      · rfl
      · split <;> rfl
  · rfl

theorem armChainReq_items (r : Req) (ev : Ev) : (armChainReq r ev).1.tb.items = ev.tb.items := by
  have armed : ∀ n m, (armRest r n m ev).1.tb.items = ev.tb.items := fun n m => by
    unfold armRest
    dsimp only
    split
    · rfl
    · split
      · rfl
      · split
        · rfl
        · split <;> rfl
  unfold armChainReq
  dsimp only
  split
  · rfl
  · split
    · rfl
    · split
      · rfl
      · exact armed _ _

theorem startChainReq_portionsKept (r : Req) (ev : Ev) : PortionsKept ev.tb (startChainReq r ev).1.tb := by
  unfold startChainReq withSlot
  split
  · dsimp only
    split
    · exact startSlot_portionsKept _ ev
    · exact .refl _
  · exact .refl _

theorem stopChainReq_items (r : Req) (ev : Ev) : (stopChainReq r ev).1.tb.items = ev.tb.items := by
  unfold stopChainReq withSlot
  split
  · dsimp only; split <;> rfl
  · rfl

theorem setProfileReq_items (r : Req) (ev : Ev) : (setProfileReq r ev).1.tb.items = ev.tb.items := by
  have written : ∀ n role, (profileWrite r n role ev).1.tb.items = ev.tb.items := fun n role => by
    unfold profileWrite; dsimp only; split <;> rfl
  unfold setProfileReq
  dsimp only
  split
  · rfl
  · split
    · split
      · rfl
      · split
        · rfl
        · exact written _ _
    · rfl

theorem viewReq_items (r : Req) (ev : Ev) : (viewReq r ev).1.tb.items = ev.tb.items := by
  have cleared : ∀ v i, (clearView v i ev).tb.items = ev.tb.items := fun v i => by cases v <;> rfl
  unfold viewReq
  dsimp only
  split
  · rfl
  · split
    · rfl
    · split
      · rfl
      · split
        · rfl
        · dsimp only
          split
          · exact cleared _ _
          · rfl

end Sys2Proof.Machine
end

section
/-!
The portion bounds through timed events (07), the sweep (09), engine control (11) and so every step: R63 as an invariant.
-/

namespace Sys2Proof.Machine

/-! ### Timed events -/

theorem timedEvent_portionsKept {f : Ev → Ev} (h : ∀ ev, PortionsKept ev.tb (f ev).tb) {a : Tables} {io : Io}
    (hio : io.st.tb = a) : PortionsKept a (timedEvent f io).st.tb :=
  hio ▸ ((h io.st.event).trans (closeEv_portionsKept _)).items (commitEv_items _ _ _)

theorem actionEv_portionsKept (i : Nat) (a : Action) (ev : Ev) : PortionsKept ev.tb (actionEv i a ev).tb := by
  cases a with
  | setBand b => exact .of_items rfl
  | stepIntake n d m => exact .of_items (stepIntakeEv_items n d m ev)
  | setGate n m => exact .of_items (setGateEv_items n m ev)
  | startChain n =>
    unfold actionEv
    dsimp only
    split
    · exact startSlot_portionsKept n ev
    · exact .refl _
  | prompt c => exact .of_items (by simp [actionEv])

theorem walkEntry_portionsKept (ticked : Nat) (ev : Ev) (i : Nat) : PortionsKept ev.tb (walkEntry ticked ev i).tb := by
  unfold walkEntry
  dsimp only
  split
  · exact (actionEv_portionsKept i _ ev).items rfl
  · split
    · exact .of_items rfl
    · exact .refl _

theorem walkEv_portionsKept (ticked : Nat) (ev : Ev) : PortionsKept ev.tb (walkEv ticked ev).tb :=
  .foldl (walkEntry_portionsKept ticked) _ ev

theorem owedBuilt_portionsKept (ci : Nat) (ev : Ev) : PortionsKept ev.tb (owedBuilt ci ev).tb :=
  PortionsKept.trans (.of_items rfl) (freeingTest_portionsKept ci ((ev.updCheck ci fun c => { c with owed := false }).setOwed _))

theorem retryOwed_portionsKept (cis : List Nat) (ev : Ev) : PortionsKept ev.tb (retryOwed cis ev).tb := by
  induction cis generalizing ev with
  | nil => exact .refl _
  | cons ci cis ih =>
    rw [retryOwed]
    split
    · next h => exact (PortionsKept.trans (.of_items (buildFire_items h)) (owedBuilt_portionsKept ci _)).trans (ih _)
    · exact .of_items (Ev.countEngine_tb_items _ _)

theorem resume_items (n : Nat) (ev : Ev) : (resume n ev).tb.items = ev.tb.items := rfl

theorem stallRetryEv_portionsKept (n : Nat) (ev : Ev) : PortionsKept ev.tb (stallRetryEv n ev).tb := by
  unfold stallRetryEv
  split
  · exact PortionsKept.trans (.of_items (resume_items n ev)) (runChain_portionsKept n _ _ _)
  · exact .of_items rfl

theorem walkSlot_portionsKept (ev : Ev) (n : Nat) : PortionsKept ev.tb (walkSlot ev n).tb := by
  unfold walkSlot
  split
  · exact PortionsKept.trans (.of_items (resume_items n ev)) (runChain_portionsKept n _ _ _)
  · exact PortionsKept.trans (.of_items (resume_items n ev)) (runChain_portionsKept n _ _ _)
  · exact stallRetryEv_portionsKept n ev
  · exact .refl _

theorem chainsEv_portionsKept (ev : Ev) : PortionsKept ev.tb (chainsEv ev).tb := .foldl walkSlot_portionsKept _ ev

theorem holdPart_items (n : Nat) (ev : Ev) : (holdPart n ev).tb.items = ev.tb.items := by
  unfold holdPart
  split
  · exact gateHoldEv_items n ev
  · rfl

theorem agingPart_items (n : Nat) (ev : Ev) : (agingPart n ev).tb.items = ev.tb.items := by
  unfold agingPart
  split
  · exact agingEv_items n ev
  · rfl

theorem runDue_portionsKept (d : DueEvent) (io : Io) : PortionsKept io.st.tb (runDue d io).st.tb := by
  cases d with
  | hold n =>
    rw [runDue]
    exact timedEvent_portionsKept (fun ev => .of_items ((agingPart_items n _).trans (gateHoldEv_items n ev))) rfl
  | aging n =>
    rw [runDue]
    exact timedEvent_portionsKept (fun ev => .of_items ((holdPart_items n _).trans (agingEv_items n ev))) rfl
  | chains =>
    rw [runDue]
    exact timedEvent_portionsKept chainsEv_portionsKept rfl
  | actions =>
    rw [runDue]
    exact timedEvent_portionsKept (walkEv_portionsKept _) rfl
  | delay => exact .of_items rfl
  | owed =>
    rw [runDue]
    exact timedEvent_portionsKept (fun ev => retryOwed_portionsKept _ ev) rfl

theorem runIfDue_portionsKept (d : DueEvent) (io : Io) : PortionsKept io.st.tb (runIfDue d io).st.tb := by
  unfold runIfDue
  split
  · exact runDue_portionsKept d io
  · exact .refl _

theorem runIfSlotDue_portionsKept (n : Nat) (e : SlotEvent) (io : Io) : PortionsKept io.st.tb (runIfSlotDue n e io).st.tb := by
  unfold runIfSlotDue
  split
  · exact runDue_portionsKept .chains io
  · exact .refl _

theorem runIfEntryDue_portionsKept (i : Nat) (io : Io) : PortionsKept io.st.tb (runIfEntryDue i io).st.tb := by
  unfold runIfEntryDue
  split
  · exact runDue_portionsKept .actions io
  · exact .refl _

theorem drainDues_portionsKept (fuel : Nat) (io : Io) : PortionsKept io.st.tb (drainDues fuel io).st.tb := by
  induction fuel generalizing io with
  | zero => exact .refl _
  | succ fuel ih =>
    rw [drainDues]
    split
    · exact (runDue_portionsKept _ io).trans (ih _)
    · exact .refl _

theorem tickActions_portionsKept (s : State) : PortionsKept s.tb (tickActions s).tb := by
  unfold tickActions
  split
  · split
    · exact .refl _
    · rw [State.setTb_tb]
      exact walkEv_portionsKept s.due.ticked s.event
  · exact .refl _

theorem tickNow_portionsKept (io : Io) : PortionsKept io.st.tb (tickNow io).st.tb := by
  unfold tickNow
  dsimp only
  split
  · exact .of_items (by simp)
  · exact PortionsKept.trans (.of_items (by simp [lowerTimers])) (tickActions_portionsKept _)

theorem baseTickIo_portionsKept (io : Io) : PortionsKept io.st.tb (baseTickIo io).st.tb := by
  unfold baseTickIo
  split
  · dsimp only
    split
    · exact (drainDues_portionsKept 40 io).trans (tickNow_portionsKept _)
    · exact drainDues_portionsKept 40 io
  · exact .refl _

/-! ### The sweep -/

theorem takePosted_items (lane slot : Nat) (io : Io) : (takePosted lane slot io).st.tb.items = io.st.tb.items := by
  have posted : (readPosted io (slotOff lane slot)).1.st.tb = io.st.tb := by
    have head := busReads_tb io (slotOff lane slot + 0x04) 2
    unfold readPosted
    split
    · simp_all
    · next io1 words h1 =>
      have body := busReads_tb io1 (slotOff lane slot + 0x10) 12
      split <;> simp_all
  unfold takePosted
  split
  · simp_all
  · dsimp only; split <;> simp_all [handOver, State.event]

theorem lookAt_items (lane : Nat) (io : Io) : (lookAt lane io).st.tb.items = io.st.tb.items := by
  have state := busReads_tb io (slotOff lane (io.st.tb.lane lane).pointer) 1
  unfold lookAt
  dsimp only
  split
  · split
    · rw [takePosted_items]; simp_all
    · split <;> simp_all
  · simp_all

theorem sweepIo_items (io : Io) : (sweepIo io).st.tb.items = io.st.tb.items := by
  unfold sweepIo
  split
  · rfl
  · split
    · rfl
    · exact lookAt_items _ io

/-! ### Starting and engine control -/

theorem startAnswer_items (io : Io) : (startAnswer io).st.tb.items = io.st.tb.items := by
  have written : ∀ p, (writePending io p).1.st.tb = io.st.tb := fun p => by
    have body := writeBody_tb io p.lane p.slot p.hubTag p.answer
    unfold writePending
    split
    · simp_all
    · split <;> simp_all
  unfold startAnswer
  split
  · rfl
  · next p _ =>
    have kept := written p
    split <;> simp_all [dropAnswer]

theorem startRead_items (io : Io) : (startRead io).st.tb.items = io.st.tb.items := by
  have block := busReads_tb io Config.configAt 128
  unfold startRead
  split <;> simp_all

theorem startPage_items (io : Io) : (startPage io).st.tb.items = io.st.tb.items := by
  have page := busWrites_tb io Config.statusAt (statusWords io.st.ntw.written io.st.tb.time io.st.doneCount)
  unfold startPage
  split <;> simp_all

@[simp] theorem dropDues_items (s : State) : (dropDues s).tb.items = s.tb.items := rfl

theorem startEnter_items (op : StartOp) (io : Io) : (startEnter op io).st.tb.items = io.st.tb.items := by
  unfold startEnter
  generalize (if op.load then EngineState.load else .run) = e
  dsimp only
  split
  · simp [State.inEngine, State.event]
  · simp [endStart, State.inEngine, State.event]

theorem startStep_items (op : StartOp) (io : Io) : (startStep op io).st.tb.items = io.st.tb.items := by
  unfold startStep
  split
  · unfold startBase; split <;> rfl
  · exact startAnswer_items io
  · exact startRead_items io
  · unfold startTest; split <;> rfl
  · rfl
  · exact startPage_items io
  · exact startEnter_items op io

theorem runStart_items (k : Nat) (s : State) : (runStart k s).tb.items = s.tb.items := by
  induction k generalizing s with
  | zero => rfl
  | succ k ih =>
    rw [runStart]
    split
    · rfl
    · next op _ => exact (ih _).trans (startStep_items op { st := s, errs := op.errs, acc := op.acc })

theorem takeCommand_items {f : State → State} (h : ∀ s, (f s).tb.items = s.tb.items) (ok : Bool) (s : State) :
    (takeCommand ok f s).tb.items = s.tb.items := by
  unfold takeCommand
  split
  · exact h (setCommandError false s)
  · rfl

theorem doStart_items (load : Bool) (bus : Bus) (cut : Option Nat) (s : State) :
    (doStart load bus cut s).tb.items = s.tb.items :=
  takeCommand_items (fun s => runStart_items _ (acceptStart load bus.errs s)) _ (s.afterHub bus)

theorem doRun_items (s : State) : (doRun s).tb.items = s.tb.items :=
  takeCommand_items (fun s => by unfold runFromLoad; split <;> rfl) _ s

theorem doPark_items (s : State) : (doPark s).tb.items = s.tb.items :=
  takeCommand_items (fun s => by
    split
    · rfl
    · unfold pendPark; split <;> rfl) _ s

theorem wakeIo_items (io : Io) : (wakeIo io).st.tb.items = io.st.tb.items := by
  simp [wakeIo, State.event, State.inEngine, zeroCounters]

theorem doWake_items (bus : Bus) (s : State) : (doWake bus s).tb.items = s.tb.items :=
  takeCommand_items (fun s' => wakeIo_items ((Io.start s bus).setSt s')) _ (s.afterHub bus)

theorem doBaseWrite_items (hi : Bool) (v : Word) (s : State) : (doBaseWrite hi v s).tb.items = s.tb.items := by
  unfold doBaseWrite; split <;> rfl

theorem ctrlWrite_items (v : Word) (bus : Bus) (s : State) : (ctrlWrite v bus s).tb.items = s.tb.items := by
  unfold ctrlWrite
  split
  · rfl
  · exact doStart_items false bus none s
  · exact doStart_items true bus none s
  · exact doRun_items (s.afterHub bus)
  · exact doPark_items (s.afterHub bus)
  · exact doWake_items bus s
  · rfl
  · rfl

theorem registerWrite_items (reg : Reg) (v : Word) (bus : Bus) (s : State) :
    (registerWrite reg v bus s).tb.items = s.tb.items := by
  cases reg with
  | baseLo => exact doBaseWrite_items false v (s.afterHub bus)
  | baseHi => exact doBaseWrite_items true v (s.afterHub bus)
  | ctrl => exact ctrlWrite_items v bus s
  | stat => rfl
  | attn => rfl

/-! ### Every step -/

theorem finishReq_portionsKept (io : Io) (r : Req) (x : Ev × Answer) : PortionsKept x.1.tb (finishReq io r x).st.tb := by
  unfold finishReq
  dsimp only
  split <;> exact (closeEv_portionsKept x.1).items (by simp)

theorem completeStepFor_portionsKept {h : Req → Ev → Ev × Answer} (hh : ∀ r ev, PortionsKept ev.tb (h r ev).1.tb)
    (p : Nat → Bool) (bus : Bus) (s : State) : PortionsKept s.tb (completeStepFor p h bus s).tb := by
  unfold completeStepFor
  dsimp only
  split
  · exact .of_items rfl
  · next r _ => exact (hh r s.event).trans (finishReq_portionsKept _ _ _)

theorem completeKind_portionsKept {h : Req → Ev → Ev × Answer} (hh : ∀ r ev, PortionsKept ev.tb (h r ev).1.tb)
    (kind : Nat) (bus : Bus) (s : State) : PortionsKept s.tb (completeKind kind h bus s).tb :=
  completeStepFor_portionsKept (fun r ev => by
    unfold decideReq
    split
    · exact hh r ev
    · exact .refl _) _ bus s

/-- A request that leaves the catalogue alone. -/
theorem completeKind_portionsKept_of_items {h : Req → Ev → Ev × Answer} (hh : ∀ r ev, (h r ev).1.tb.items = ev.tb.items)
    (kind : Nat) (bus : Bus) (s : State) : PortionsKept s.tb (completeKind kind h bus s).tb :=
  completeKind_portionsKept (fun r ev => .of_items (hh r ev)) kind bus s

theorem reset_bounded (i : Nat) : (State.reset.tb.item i).bounded := Item.bounded_zero rfl rfl

/-- The items in the state in which a command leaves the engine; every command answers a next state. -/
theorem exec_portionsKept (c : Instr) {s t : State} (h : exec c s = .next t) : PortionsKept s.tb t.tb := by
  cases c <;> obtain rfl := Host.Outcome.next.inj h
  case powerOn => exact fun i _ => reset_bounded i
  case start bus cut => exact .of_items (doStart_items false bus cut s)
  case startLoad bus cut => exact .of_items (doStart_items true bus cut s)
  case run => exact .of_items (doRun_items s)
  case enterRun => split <;> exact .of_items rfl
  case park => exact .of_items (doPark_items s)
  case enterParked => split <;> exact .of_items rfl
  case wake bus => exact .of_items (doWake_items bus s)
  case wakeInput bus =>
    split
    · exact .of_items (wakeIo_items (Io.start s bus))
    · exact .of_items rfl
  case restart => exact .of_items rfl
  case baseWrite hi v => exact .of_items (doBaseWrite_items hi v s)
  case attnAck v => exact .of_items rfl
  case registerWrite reg v bus => exact .of_items (registerWrite_items reg v bus s)
  case sweepVisit bus => exact .of_items (sweepIo_items (Io.start s bus))
  case badreq bus => exact completeStepFor_portionsKept (fun _ _ => .refl _) _ bus s
  case openCheck bus => exact completeKind_portionsKept openCheckReq_portionsKept _ bus s
  case addLine bus => exact completeKind_portionsKept addLineReq_portionsKept _ bus s
  case setLine bus => exact completeKind_portionsKept setLineReq_portionsKept _ bus s
  case voidLine bus => exact completeKind_portionsKept voidLineReq_portionsKept _ bus s
  case send bus => exact completeKind_portionsKept sendReq_portionsKept _ bus s
  case voidCheck bus => exact completeKind_portionsKept voidCheckReq_portionsKept _ bus s
  case readCheck bus => exact completeKind_portionsKept (fun r ev => .of_eq (readCheckReq_tb r ev)) _ bus s
  case takeHold bus => exact completeKind_portionsKept takeReq_portionsKept _ bus s
  case releaseHold bus => exact completeKind_portionsKept releaseReq_portionsKept _ bus s
  case transfer bus => exact completeKind_portionsKept transferReq_portionsKept _ bus s
  case breakHold bus => exact completeKind_portionsKept breakReq_portionsKept _ bus s
  case setPayers bus => exact completeKind_portionsKept setPayersReq_portionsKept _ bus s
  case setSplit bus => exact completeKind_portionsKept setSplitReq_portionsKept _ bus s
  case tender bus => exact completeKind_portionsKept tenderReq_portionsKept _ bus s
  case readSplit bus => exact completeKind_portionsKept (fun r ev => .of_eq (readSplitReq_tb r ev)) _ bus s
  case defineItem bus => exact completeKind_portionsKept defineItemReq_portionsKept _ bus s
  case setBand bus => exact completeKind_portionsKept setBandReq_portionsKept _ bus s
  case clearShort bus => exact completeKind_portionsKept clearShortReq_portionsKept _ bus s
  case readItem bus => exact completeKind_portionsKept (fun r ev => .of_eq (readItemReq_tb r ev)) _ bus s
  case yieldItem bus => exact completeKind_portionsKept yieldReq_portionsKept _ bus s
  case waste bus => exact completeKind_portionsKept wasteReq_portionsKept _ bus s
  case stockCount bus => exact completeKind_portionsKept stockCountReq_portionsKept _ bus s
  case bump bus => exact completeKind_portionsKept bumpReq_portionsKept _ bus s
  case remake bus => exact completeKind_portionsKept remakeReq_portionsKept _ bus s
  case stepIntake bus => exact completeKind_portionsKept_of_items stepIntakeReq_items _ bus s
  case setStation bus => exact completeKind_portionsKept_of_items setStationReq_items _ bus s
  case setAction bus => exact completeKind_portionsKept_of_items setActionReq_items _ bus s
  case writeProgram bus => exact completeKind_portionsKept_of_items writeProgramReq_items _ bus s
  case armChain bus => exact completeKind_portionsKept_of_items armChainReq_items _ bus s
  case startChain bus => exact completeKind_portionsKept startChainReq_portionsKept _ bus s
  case stopChain bus => exact completeKind_portionsKept_of_items stopChainReq_items _ bus s
  case readChain bus => exact completeKind_portionsKept (fun r ev => .of_eq (readChainReq_tb r ev)) _ bus s
  case setProfile bus => exact completeKind_portionsKept_of_items setProfileReq_items _ bus s
  case view bus => exact completeKind_portionsKept_of_items viewReq_items _ bus s
  case baseTick bus => exact baseTickIo_portionsKept (Io.start s bus)
  case timedAction i bus => exact runIfEntryDue_portionsKept i (Io.start s bus)
  case owedRetry bus => exact runIfDue_portionsKept .owed (Io.start s bus)
  case agingTick n bus => exact runIfDue_portionsKept (.aging n) (Io.start s bus)
  case gateHoldExpiry n bus => exact runIfDue_portionsKept (.hold n) (Io.start s bus)
  case attentionDelayExpiry => split <;> exact .of_items rfl
  case chainWaitExpiry n bus => exact runIfSlotDue_portionsKept n .wait (Io.start s bus)
  case firingSlotRun n bus => exact runIfSlotDue_portionsKept n .firing (Io.start s bus)
  case chainStallRetry n bus => exact runIfSlotDue_portionsKept n .stalled (Io.start s bus)

theorem idle_portionsKept (s : State) : PortionsKept s.tb (idle s).tb := by
  unfold idle
  split
  · exact .of_items (runStart_items 1 s)
  · split
    · split <;> exact .of_items rfl
    · split
      · exact runDue_portionsKept _ (Io.start s quietBus)
      · unfold millisecond
        split
        · dsimp only
          split
          · exact baseTickIo_portionsKept (Io.start s quietBus)
          · exact .of_items rfl
        · exact .refl _

theorem step_portionsKept {s t : State} (h : step s = .next t) : PortionsKept s.tb t.tb := by
  unfold step at h
  split at h
  · obtain rfl := Host.Outcome.next.inj h
    exact idle_portionsKept s
  · next c rest _ => exact exec_portionsKept c (s := s.setPending rest) h

/-- Settles O6: every step keeps the bounds of each item by itself, since a reservation takes no more than avail, a consumption lowers both
counts by the same, and only a SIMPLE item's on_hand is ever raised, to 65535 at most. -/
theorem portionBoundsKept : Obligations.PortionBoundsKept :=
  fun _ _ before hstep i => step_portionsKept hstep i (before i)

end Sys2Proof.Machine
end

section
/-!
SET_BAND and CLEAR_SHORT (04): each writes one field of the tables, or refuses and leaves them.
-/

namespace Sys2Proof.Machine

/-- A completion that leaves the tables of its request's event untouched, as every refusal does. -/
theorem completeKind_unchanged {k : Nat} {bus : Bus} {s : State} {r : Req} (h : Allowed k bus s r) {f : Req → Ev → Ev × Answer}
    {a : Answer} (hf : f r s.event = (s.event, a)) : Answered (s.afterHub bus) (completeKind k f bus s) r a :=
  completeKind_still h f hf rfl rfl rfl rfl rfl rfl

theorem itemInRange_iff (i : Nat) : itemInRange i = true ↔ 1 ≤ i ∧ i ≤ 511 := decide_eq_true_iff

theorem Item.isSimple_iff (it : Item) : it.isSimple = true ↔ it.defined = true ∧ it.kind = .simple := by simp [Item.isSimple]

theorem Level.code_lt (l : Level) : l.code < 256 := by cases l <;> decide

theorem flagCode_lt (b : Bool) : flagCode b < 256 := by cases b <;> decide

/-! ### SET_BAND (R59) -/

theorem setBandReq_ok {r : Req} (ev : Ev) (h : (reqWord r 0).toNat ≤ 3) :
    setBandReq r ev = (ev.setBand (reqWord r 0).toNat,
      { code := .ok, body := [BitVec.ofNat 32 (ev.tb.band % 256 + (reqWord r 0).toNat * 256)] }) := by
  unfold setBandReq
  rw [if_neg (by omega)]
  have small : (reqWord r 0).toNat % 256 = (reqWord r 0).toNat := Nat.mod_eq_of_lt (by omega)
  simp [answer, pack, packFrom, small]

theorem setBandReq_range {r : Req} (ev : Ev) (h : 3 < (reqWord r 0).toNat) :
    setBandReq r ev = (ev, { code := .range, body := [] }) := by
  unfold setBandReq
  rw [if_pos h]
  rfl

/-! ### CLEAR_SHORT (R68) -/

theorem clearShortReq_ok {r : Req} (ev : Ev) (inRange : itemInRange (reqWord r 0).toNat = true)
    (simple : (ev.tb.item (reqWord r 0).toNat).isSimple = true) :
    clearShortReq r ev =
      let it := (ev.tb.item (reqWord r 0).toNat).clearShort
      (ev.setTb (ev.tb.setItems (tset item0 ev.tb.items (reqWord r 0).toNat it)),
        { code := .ok, body := [BitVec.ofNat 32 (flagCode it.short + flagCode it.wasShort * 256 + it.level.code * 65536),
                                BitVec.ofNat 32 (it.onHand - it.reserved)] }) := by
  have written : (ev.updItem (reqWord r 0).toNat Item.clearShort).tb.item (reqWord r 0).toNat =
      (ev.tb.item (reqWord r 0).toNat).clearShort := by
    simp [Tables.item]
  unfold clearShortReq
  rw [if_pos (by rw [inRange, simple]; rfl)]
  dsimp only
  rw [written]
  simp only [answer, pack, packFrom, wn, Nat.mod_eq_of_lt, flagCode_lt, Level.code_lt]
  simp [Item.avail]
  rfl

theorem clearShortReq_range {r : Req} (ev : Ev)
    (h : ¬ (itemInRange (reqWord r 0).toNat = true ∧ (ev.tb.item (reqWord r 0).toNat).isSimple = true)) :
    clearShortReq r ev = (ev, { code := .range, body := [] }) := by
  unfold clearShortReq
  dsimp only
  rw [if_neg (by simpa using h)]
  rfl

/-- Settles O42: SET_BAND and CLEAR_SHORT raise no notice and mark no window, so each leaves exactly the field it writes. -/
theorem setBandAndClearShort : Obligations.SetBandAndClearShort := by
  intro bus s r m v it was
  refine ⟨fun allowed small => ⟨_, rfl, ?_⟩, fun allowed big => ⟨_, rfl, ?_⟩,
    fun allowed low high defined simple => ⟨_, rfl, ?_⟩, fun allowed bad => ⟨_, rfl, ?_⟩⟩
  · exact completeKind_still allowed setBandReq (setBandReq_ok s.event small) rfl rfl rfl rfl rfl rfl
  · exact completeKind_unchanged allowed (setBandReq_range s.event big)
  · have passes := clearShortReq_ok (r := r) s.event ((itemInRange_iff v).2 ⟨low, high⟩)
      ((Item.isSimple_iff it).2 ⟨defined, simple⟩)
    exact completeKind_still allowed clearShortReq passes rfl rfl rfl rfl rfl rfl
  · refine completeKind_unchanged allowed (clearShortReq_range s.event ?_)
    rw [itemInRange_iff, Item.isSimple_iff]
    rintro ⟨⟨low, high⟩, defined, simple⟩
    rcases bad with h | h | h | h
    · omega
    · omega
    · exact absurd (defined.symm.trans h) (by decide)
    · exact absurd (simple.symm.trans h) (by decide)

end Sys2Proof.Machine
end

section
/-!
Stock changes of one item (04): the end of an event that wrote one item record and its counters, and the requests YIELD, WASTE and
STOCK_COUNT.
-/

namespace Sys2Proof.Machine

/-! ### The end of a stock change (R66, R67) -/

theorem settleLevels_same (ev : Ev) : SameButStock ev (settleLevels ev) := by
  have settled : ∀ (is : List Nat) (ev : Ev), SameButStock ev (is.foldl settleItem ev) := by
    intro is
    induction is with
    | nil => exact .refl
    | cons i is ih => exact fun ev => (settleItem_spec ev i).1.trans (ih _)
  obtain ⟨tb, mode, reached, rewrites⟩ := settled ev.touched ev
  exact ⟨tb, mode, reached, rewrites⟩

/-- An item that keeps its level counts no out event. -/
theorem outCounted_same (load : Bool) (it : Item) (c : ItemCount) : outCounted load it it c = c :=
  if_neg fun h => h.2.1 h.2.2

/-- An event that changed the items `is`, in the order of their first touch, ends as the level rules say. -/
theorem settleLevels_moved {s : State} {ev : Ev} {is : List Nat} {f : Nat → Item → Item} {g : Nat → ItemCount → ItemCount}
    (nodup : is.Nodup) (touched : ev.touched = is) (load : ev.inLoad = (s.engine == .load)) (time : ev.tb.time = s.tb.time)
    (silent : ev.notes = []) (items : ∀ k, ev.tb.item k = if k ∈ is then f k (s.tb.item k) else s.tb.item k)
    (level : ∀ k, k ∈ is → (f k (s.tb.item k)).level = (s.tb.item k).level)
    (counts : ∀ k, ev.tb.cItem k = if s.engine ≠ .load then g k (s.tb.cItem k) else s.tb.cItem k) :
    StockMoved s (settleLevels ev).tb is f g (settleLevels ev).notes := by
  obtain ⟨-, -, items2, counts2, notes2⟩ := settleLevels_spec ev (touched ▸ nodup)
  have moved : ∀ k, k ∈ is → (settleLevels ev).tb.item k = (f k (s.tb.item k)).settle := fun k hk => by
    rw [items2, touched, if_pos hk, items, if_pos hk]
  have still : ∀ k, k ∉ is → (settleLevels ev).tb.item k = s.tb.item k := fun k hk => by
    rw [items2, touched, if_neg hk, items, if_neg hk]
  refine ⟨fun k => ?_, fun k => ?_, ?_⟩
  · split
    · next hk => exact moved k hk
    · next hk => exact still k hk
  · rw [counts2, touched, counts, load]
    by_cases hk : k ∈ is
    · rw [if_pos hk, moved k hk, items, if_pos hk]
      unfold outCounted
      rw [level k hk]
    · rw [if_neg hk, still k hk, outCounted_same]
  · have notices : is.filterMap (itemNotice ev.tb) = levelNotices s.tb (settleLevels ev).tb is :=
      List.filterMap_congr fun k hk => by
        rw [itemNotice, moved k hk, items, if_pos hk, level k hk, time]
    rw [notes2, silent, touched, load, notices]
    by_cases hl : s.engine = .load <;> simp [hl]

/-- One item and its counters written, the item touched. -/
def stockChange (i : Nat) (new : Item) (g : ItemCount → ItemCount) (ev : Ev) : Ev :=
  ((ev.updItem i (fun _ => new)).countItem i g).touch i

/-- The end of a stock change that leaves the level for the level rules to work out. -/
theorem stockChange_closed (s : State) (i : Nat) (new : Item) (g : ItemCount → ItemCount) {f : Nat → Item → Item}
    (level : new.level = (s.tb.item i).level) (written : f i (s.tb.item i) = new) :
    SameButStock s.event (closeEv (stockChange i new g s.event)) ∧
    StockMoved s (closeEv (stockChange i new g s.event)).tb [i] f (fun k x => if k = i then g x else x)
      (closeEv (stockChange i new g s.event)).notes := by
  obtain ⟨same1, notes1, touched1, items1, counts1⟩ := stockStep_spec (fun _ _ => new) (fun _ => g) s.event (i, 0)
  rw [show stockStep (fun _ _ => new) (fun _ => g) s.event (i, 0) = stockChange i new g s.event from rfl]
    at same1 notes1 touched1 items1 counts1
  generalize stockChange i new g s.event = ev at same1 notes1 touched1 items1 counts1
  have same := same1.trans (settleLevels_same ev)
  rw [closeEv_unreached (same.reached.trans rfl)]
  refine ⟨same, settleLevels_moved (List.nodup_singleton i) touched1 same1.inLoad same1.time notes1 (fun k => ?_) (fun k hk => ?_)
    fun k => ?_⟩
  · by_cases hk : k = i
    · subst hk; simp [items1, written]
    · simp [items1, hk, State.event, Ev.ofTables]
  · obtain rfl := List.mem_singleton.1 hk
    rw [written, level]
  · by_cases hl : s.engine = .load <;> by_cases hk : k = i <;> simp [counts1, hl, hk, State.event, Ev.ofTables, Ev.inLoad]

/-- A completion whose event marks no window: the windows rewritten are those that show something else (R112). -/
theorem completeKind_committed {k : Nat} {bus : Bus} {s : State} {r : Req} (h : Allowed k bus s r) {f : Req → Ev → Ev × Answer} {ev : Ev}
    {a : Answer} (hf : f r s.event = (ev, a)) (marks : (closeEv ev).rewrites = []) :
    ∃ m, Committed (s.afterHub bus) m (closeEv ev).tb (closeEv ev).notes ∧ Answered m (completeKind k f bus s) r a := by
  obtain ⟨m, committed, answered⟩ := completeKind_allowed h f
  rw [hf] at committed answered
  rw [rewrittenWindows_eq (by rw [marks]; simp)] at committed
  exact ⟨m, committed, answered⟩

theorem SameButStock.sameSettings {s : State} {ev : Ev} (h : SameButStock s.event ev) : SameSettings s.tb ev.tb := by
  rw [h.tb]; exact ⟨rfl, rfl, rfl, rfl, rfl, rfl, rfl⟩

theorem SameButStock.sameKitchen {s : State} {ev : Ev} (h : SameButStock s.event ev) : SameKitchen s.tb ev.tb := by
  rw [h.tb]; exact ⟨rfl, rfl, rfl, rfl, rfl, rfl, rfl⟩

theorem SameButStock.lines {a b : Ev} (h : SameButStock a b) : b.tb.lines = a.tb.lines := by rw [h.tb]; rfl

/-! ### The tests of a stock request (R69) -/

/-- A stock request names a defined SIMPLE item. -/
def StockNamed (tb : Tables) (i : Nat) : Prop := 1 ≤ i ∧ i ≤ 511 ∧ (tb.item i).defined = true ∧ (tb.item i).kind = .simple

/-- A lane may change the stock of an item: a STATION lane of its own station only. -/
def MayStock (tb : Tables) (lane i : Nat) : Prop := (tb.lane lane).role = .station → (tb.item i).station = (tb.lane lane).station

theorem stockNamed_iff (tb : Tables) (i : Nat) : (itemInRange i && (tb.item i).isSimple) = true ↔ StockNamed tb i := by
  rw [Bool.and_eq_true, itemInRange_iff, Item.isSimple_iff, and_assoc]
  rfl

theorem stockTest_none {r : Req} {ev : Ev} (named : StockNamed ev.tb (reqWord r 0).toNat) (few : (reqWord r 1).toNat ≤ 65535)
    (own : MayStock ev.tb r.lane (reqWord r 0).toNat) : stockTest r ev = none := by
  unfold stockTest
  dsimp only
  rw [(stockNamed_iff _ _).2 named, if_neg (by simp), if_neg (by simpa [Config.portionTop] using few), if_neg]
  rintro ⟨station, foreign⟩
  exact foreign (own station)

theorem stockTest_unnamed {r : Req} {ev : Ev} (unnamed : ¬ StockNamed ev.tb (reqWord r 0).toNat) : stockTest r ev = some .range := by
  unfold stockTest
  dsimp only
  rw [← stockNamed_iff, Bool.not_eq_true] at unnamed
  rw [unnamed, if_pos (by simp)]

theorem stockTest_many {r : Req} {ev : Ev} (named : StockNamed ev.tb (reqWord r 0).toNat) (many : 65535 < (reqWord r 1).toNat) :
    stockTest r ev = some .range := by
  unfold stockTest
  dsimp only
  rw [(stockNamed_iff _ _).2 named, if_neg (by simp), if_pos (by simpa [Config.portionTop] using many)]

theorem stockTest_foreign {r : Req} {ev : Ev} (named : StockNamed ev.tb (reqWord r 0).toNat) (few : (reqWord r 1).toNat ≤ 65535)
    (foreign : ¬ MayStock ev.tb r.lane (reqWord r 0).toNat) : stockTest r ev = some .role := by
  unfold stockTest
  dsimp only
  rw [(stockNamed_iff _ _).2 named, if_neg (by simp), if_neg (by simpa [Config.portionTop] using few), if_pos]
  simpa [MayStock] using foreign

/-! ### Stock requests (R69 to R72) -/

section
variable {k : Nat} {bus : Bus} {s : State} {r : Req} {code : Item → Nat → ResultCode} {f : Item → Nat → Item}
  {count : Item → Nat → ItemCount → ItemCount}

theorem stockReq_passes (passed : stockTest r s.event = none) :
    stockReq r s.event code f count =
      let it := s.tb.item (reqWord r 0).toNat
      let n := (reqWord r 1).toNat
      (stockChange (reqWord r 0).toNat (f it n) (count it n) s.event, stockAnswer (code it n) it (f it n)) := by
  unfold stockReq
  rw [passed]
  rfl

theorem stockReq_refuses {c : ResultCode} (failed : stockTest r s.event = some c) :
    stockReq r s.event code f count = (s.event, { code := c, body := [] }) := by
  unfold stockReq
  rw [failed]
  rfl

/-- The words of a stock answer (R69, 12). -/
theorem stockAnswer_eq (c : ResultCode) (before after : Item) : stockAnswer c before after =
    { code := c,
      body := [BitVec.ofNat 32 after.settle.onHand, BitVec.ofNat 32 after.settle.reserved,
               BitVec.ofNat 32 (after.settle.onHand - after.settle.reserved),
               BitVec.ofNat 32 (after.settle.level.code + flagCode after.settle.short * 256),
               BitVec.ofNat 32 after.settle.onHand - BitVec.ofNat 32 before.onHand] } := by
  simp [stockAnswer, answer, pack, packFrom, wn, Nat.mod_eq_of_lt, flagCode_lt, Level.code_lt, Item.avail]

/-- A stock request that passes its tests is a stock change of its item that leaves the level to the level rules. -/
theorem stockReq_moves (allowed : Allowed k bus s r) (named : StockNamed s.tb (reqWord r 0).toNat) (few : (reqWord r 1).toNat ≤ 65535)
    (own : MayStock s.tb r.lane (reqWord r 0).toNat) (level : ∀ it n, (f it n).level = it.level) (g : Nat → Item → Item)
    (written : g (reqWord r 0).toNat (s.tb.item (reqWord r 0).toNat) =
      f (s.tb.item (reqWord r 0).toNat) (reqWord r 1).toNat) :
    let i := (reqWord r 0).toNat
    let n := (reqWord r 1).toNat
    let it := s.tb.item i
    ∃ m X ns, Committed (s.afterHub bus) m X ns ∧
      Answered m (completeKind k (fun r ev => stockReq r ev code f count) bus s) r
        { code := code it n,
          body := [BitVec.ofNat 32 (X.item i).onHand, BitVec.ofNat 32 (X.item i).reserved,
                   BitVec.ofNat 32 ((X.item i).onHand - (X.item i).reserved),
                   BitVec.ofNat 32 ((X.item i).level.code + flagCode (X.item i).short * 256),
                   BitVec.ofNat 32 (X.item i).onHand - BitVec.ofNat 32 it.onHand] } ∧
      StockMoved s X [i] g (fun k x => if k = i then count it n x else x) ns ∧
      X.checks = s.tb.checks ∧ X.lines = s.tb.lines ∧ SameSettings s.tb X ∧ SameKitchen s.tb X := by
  intro i n it
  obtain ⟨same, moved⟩ := stockChange_closed s i (f it n) (count it n) (level it n) written
  obtain ⟨m, committed, answered⟩ := completeKind_committed allowed (f := fun r ev => stockReq r ev code f count)
    (stockReq_passes (stockTest_none named few own)) same.rewrites
  have settled : (closeEv (stockChange i (f it n) (count it n) s.event)).tb.item i = (f it n).settle := by
    rw [moved.items, if_pos (by simp), written]
  rw [stockAnswer_eq, ← settled] at answered
  exact ⟨m, _, _, committed, answered, moved, same.checks, same.lines, same.sameSettings, same.sameKitchen⟩

theorem stockReq_refused (allowed : Allowed k bus s r) :
    let i := (reqWord r 0).toNat
    let refuses := fun c => Answered (s.afterHub bus) (completeKind k (fun r ev => stockReq r ev code f count) bus s) r
      { code := c, body := [] }
    (¬ StockNamed s.tb i → refuses .range) ∧ (StockNamed s.tb i → 65535 < (reqWord r 1).toNat → refuses .range) ∧
    (StockNamed s.tb i → (reqWord r 1).toNat ≤ 65535 → ¬ MayStock s.tb r.lane i → refuses .role) :=
  ⟨fun unnamed => completeKind_unchanged allowed (stockReq_refuses (stockTest_unnamed unnamed)),
   fun named many => completeKind_unchanged allowed (stockReq_refuses (stockTest_many named many)),
   fun named few foreign => completeKind_unchanged allowed (stockReq_refuses (stockTest_foreign named few foreign))⟩

end

/-- Settles O43: the three requests are one stock change each, which differ in what they leave of on_hand and in the counters. -/
theorem stockRequestsChangeOnHand : Obligations.StockRequestsChangeOnHand := by
  intro bus s r i n it lane known own add take words does refuses
  refine ⟨fun allowed named few mine => ?_, fun allowed named few mine => ?_, fun allowed named few mine => ?_,
    fun c k kind allowed => ?_⟩
  · obtain ⟨m, X, ns, rest⟩ := stockReq_moves (code := fun it n => if yieldAmount it n < n then .clamped else .ok) (f := Item.yielded)
      (count := fun it n c => { c with yields := satCount c.yields (yieldAmount it n),
                                       excess := satCount c.excess (n - yieldAmount it n) })
      allowed named few mine (fun _ _ => rfl) (fun _ x => { x with onHand := it.onHand + add }) rfl
    exact ⟨m, _, X, ns, rfl, rest⟩
  · obtain ⟨m, X, ns, rest⟩ := stockReq_moves (code := fun it n => if wasteAmount it n < n then .clamped else .ok) (f := Item.wasted)
      (count := fun it n c => { c with wasted := satCount c.wasted (wasteAmount it n) })
      allowed named few mine (fun _ _ => rfl) (fun _ x => { x with onHand := it.onHand - take }) rfl
    exact ⟨m, _, X, ns, rfl, rest⟩
  · obtain ⟨m, X, ns, rest⟩ := stockReq_moves (code := fun it n => if n < it.reserved then .clamped else .ok) (f := Item.counted)
      (count := fun _ _ c => c) allowed named few mine (fun _ _ => rfl) (fun _ x => { x with onHand := max n it.reserved }) rfl
    exact ⟨m, _, X, ns, rfl, rest⟩
  · simp only [List.mem_cons, Prod.mk.injEq, List.not_mem_nil, or_false] at kind
    rcases kind with ⟨rfl, rfl⟩ | ⟨rfl, rfl⟩ | ⟨rfl, rfl⟩
    all_goals
      obtain ⟨unnamed, many, foreign⟩ := stockReq_refused allowed
      exact ⟨fun h => ⟨_, rfl, unnamed h⟩, fun h few => ⟨_, rfl, many h few⟩,
        fun h few mine => ⟨_, rfl, foreign h few mine⟩⟩

end Sys2Proof.Machine
end

section
/-!
DEFINE_ITEM (04): what its tests find, read off the tables index by index, and what it leaves of the record before.
-/

namespace Sys2Proof.Machine

/-! ### Searches of a table in canonical form -/

theorem tget_of_mem {α : Type} [DecidableEq α] {d : α} {t : List (Nat × α)} (h : twf d t = true) {p : Nat × α} (hp : p ∈ t) :
    tget d t p.1 = p.2 := by
  induction t with
  | nil => cases hp
  | cons q t ih =>
    obtain ⟨k, v⟩ := q
    simp only [twf, Bool.and_eq_true, decide_eq_true_eq] at h
    obtain ⟨⟨-, above⟩, rest⟩ := h
    rcases List.mem_cons.1 hp with rfl | hp
    · simp [tget]
    · have later := keysAbove_iff.1 above p hp
      rw [tget, if_neg (by omega)]
      exact ih rest hp

/-- A search of a table finds what meets a test that the default fails exactly where an index holds such a value. -/
theorem tany_iff {α : Type} [DecidableEq α] {d : α} {t : List (Nat × α)} (h : twf d t = true) {q : α → Bool} (hd : q d = false) :
    t.any (fun p => q p.2) = true ↔ ∃ i, q (tget d t i) = true := by
  constructor
  · intro found
    obtain ⟨p, hp, hq⟩ := List.any_eq_true.1 found
    exact ⟨p.1, by rwa [tget_of_mem h hp]⟩
  · rintro ⟨i, hi⟩
    have listed : tget d t i ≠ d := by
      rintro same
      rw [same, hd] at hi
      cases hi
    exact List.any_eq_true.2 ⟨_, mem_of_tget_ne listed, hi⟩

/-! ### The reference tests (R61) -/

theorem lineNames_iff {tb : Tables} (h : twf none tb.lines = true) (i : Nat) :
    lineNames tb i = true ↔ ∃ id l, tb.line id = some l ∧ l.item = i := by
  refine (tany_iff h (q := fun x => match x with
    | some l => l.item == i
    | none => false) rfl).trans ⟨?_, ?_⟩
  · rintro ⟨id, hid⟩
    split at hid
    · next l hl => exact ⟨id, l, hl, by simpa using hid⟩
    · cases hid
  · rintro ⟨id, l, hl, hi⟩
    refine ⟨id, ?_⟩
    rw [show tget none tb.lines id = some l from hl]
    simpa using hi

theorem isComponent_iff {tb : Tables} (h : twf item0 tb.items = true) (i : Nat) :
    isComponent tb i = true ↔
      ∃ k, (tb.item k).defined = true ∧ (tb.item k).kind = .composite ∧ i ∈ (tb.item k).comps.map (·.1) := by
  refine (tany_iff h (q := fun it => it.defined && it.kind == .composite && it.comps.any (fun c => c.1 == i)) rfl).trans ?_
  simp [Tables.item, and_assoc]

theorem refReason_named {tb : Tables} {i : Nat} (h : lineNames tb i = true) : refReason tb i = some 1 := by
  simp [refReason, h]

theorem refReason_reserved {tb : Tables} {i : Nat} (h : lineNames tb i = false) (simple : (tb.item i).kind = .simple)
    (reserved : 0 < (tb.item i).reserved) : refReason tb i = some 2 := by
  simp [refReason, h, simple, reserved]

theorem refReason_component {tb : Tables} {i : Nat} (h : lineNames tb i = false) (simple : (tb.item i).kind = .simple)
    (free : (tb.item i).reserved = 0) (part : isComponent tb i = true) : refReason tb i = some 3 := by
  simp [refReason, h, simple, free, part]

theorem refReason_none {tb : Tables} {i : Nat} (h : lineNames tb i = false)
    (free : (tb.item i).kind = .simple → (tb.item i).reserved = 0 ∧ isComponent tb i = false) : refReason tb i = none := by
  unfold refReason
  dsimp only
  rw [h, if_neg (by simp), if_neg, if_neg]
  · rintro ⟨simple, part⟩
    simp [(free simple).2] at part
  · rintro ⟨simple, reserved⟩
    simp [(free simple).1] at reserved

/-- An item that no line names and, if SIMPLE, that has nothing reserved and is no component, is free to change. -/
theorem refReason_unreferenced {tb : Tables} {i : Nat} (linesWf : twf none tb.lines = true) (itemsWf : twf item0 tb.items = true)
    (unnamed : ∀ id l, tb.line id = some l → l.item ≠ i)
    (unused : (tb.item i).kind = .simple → (tb.item i).reserved = 0 ∧
      ∀ k, (tb.item k).defined = true → (tb.item k).kind = .composite → i ∉ (tb.item k).comps.map (·.1)) :
    refReason tb i = none := by
  refine refReason_none ?_ fun simple => ⟨(unused simple).1, ?_⟩
  · rw [← Bool.not_eq_true, lineNames_iff linesWf]
    rintro ⟨id, l, hl, hi⟩
    exact unnamed id l hl hi
  · rw [← Bool.not_eq_true, isComponent_iff itemsWf]
    rintro ⟨k, hd, hk, hi⟩
    exact (unused simple).2 k hd hk hi

/-! ### The field tests (R58, R61) -/

theorem forall_four (p : Nat → Prop) : (∀ k, k < 4 → p k) ↔ p 0 ∧ p 1 ∧ p 2 ∧ p 3 := by
  constructor
  · exact fun h => ⟨h 0 (by omega), h 1 (by omega), h 2 (by omega), h 3 (by omega)⟩
  · rintro ⟨p0, p1, p2, p3⟩ k hk
    match k, hk with
    | 0, _ => exact p0
    | 1, _ => exact p1
    | 2, _ => exact p2
    | 3, _ => exact p3

/-- The component tests in the words of R58; that there are at most three, each with an index above 0, is in how they are read. -/
def ComponentsFit (tb : Tables) (i : Nat) (cs : List (Nat × Nat)) : Prop :=
  1 ≤ cs.length ∧ (cs.map (·.1)).Nodup ∧
  ∀ c, c ∈ cs → c.1 ≤ 511 ∧ c.1 ≠ i ∧ 1 ≤ c.2 ∧ c.2 ≤ 9 ∧ (tb.item c.1).defined = true ∧ (tb.item c.1).kind = .simple

theorem defComps_length (r : Req) : (defComps r).length ≤ 3 := List.length_filter_le _ _

theorem defComps_ne {r : Req} {c : Nat × Nat} (h : c ∈ defComps r) : c.1 ≠ 0 := by
  simpa using (List.mem_filter.1 h).2

theorem compsOk_defComps (tb : Tables) (i : Nat) (r : Req) : compsOk tb i (defComps r) = true ↔ ComponentsFit tb i (defComps r) := by
  have short := defComps_length r
  have each : ∀ c, c ∈ defComps r →
      ((itemInRange c.1 && (tb.item c.1).isSimple && decide (c.1 ≠ i) && decide (1 ≤ c.2 ∧ c.2 ≤ 9)) = true ↔
        (c.1 ≤ 511 ∧ c.1 ≠ i ∧ 1 ≤ c.2 ∧ c.2 ≤ 9 ∧ (tb.item c.1).defined = true ∧ (tb.item c.1).kind = .simple)) := fun c hc => by
    have above : 1 ≤ c.1 := Nat.one_le_iff_ne_zero.2 (defComps_ne hc)
    simp only [Bool.and_eq_true, itemInRange_iff, Item.isSimple_iff, decide_eq_true_eq]
    tauto
  unfold compsOk ComponentsFit
  rw [Bool.and_eq_true, Bool.and_eq_true, decide_eq_true_iff, decide_eq_true_iff, List.all_eq_true, and_assoc]
  constructor
  · rintro ⟨⟨some1, -⟩, nodup, all⟩
    exact ⟨some1, nodup, fun c hc => (each c hc).1 (all c hc)⟩
  · rintro ⟨some1, nodup, all⟩
    exact ⟨⟨some1, short⟩, nodup, fun c hc => (each c hc).2 (all c hc)⟩

/-- The field tests of a definition in the words of R61. -/
def FieldsFit (tb : Tables) (i : Nat) (r : Req) : Prop :=
  reqByte r 1 1 ≤ 3 ∧ ((reqWord r 2).toNat ≤ 99999 ∧ (reqWord r 3).toNat ≤ 99999 ∧ (reqWord r 4).toNat ≤ 99999 ∧
    (reqWord r 5).toNat ≤ 99999) ∧
  ((reqByte r 0 2 = 0 ∧ reqByte r 1 0 < 16 ∧ defComps r = []) ∨ (reqByte r 0 2 = 1 ∧ ComponentsFit tb i (defComps r)))

theorem ItemKind.ofCode_eq_some (n : Nat) (k : ItemKind) : ItemKind.ofCode n = some k ↔ n = k.code := by
  unfold ItemKind.ofCode
  split <;> cases k <;> simp_all [ItemKind.code]

theorem ItemKind.ofCode_eq_none (n : Nat) : ItemKind.ofCode n = none ↔ n ≠ 0 ∧ n ≠ 1 := by
  unfold ItemKind.ofCode
  split <;> simp_all

theorem defFieldsOk_iff (tb : Tables) (i : Nat) (r : Req) : defFieldsOk tb i (itemDef r) = true ↔ FieldsFit tb i r := by
  unfold defFieldsOk FieldsFit
  rw [Bool.and_eq_true, Bool.and_eq_true, decide_eq_true_iff, decide_eq_true_iff, and_assoc]
  refine and_congr_right fun _ => and_congr_right fun _ => ?_
  rcases hk : (itemDef r).kind with _ | _ | _
  · have none := (ItemKind.ofCode_eq_none _).1 hk
    simp [none]
  · have code : reqByte r 0 2 = 0 := (ItemKind.ofCode_eq_some _ _).1 hk
    simp [code, itemDef, Config.stationTotal]
  · have code : reqByte r 0 2 = 1 := (ItemKind.ofCode_eq_some _ _).1 hk
    simpa [code, itemDef] using compsOk_defComps tb i r

/-! ### The refusals (R61) -/

section
variable {r : Req} {ev : Ev}

theorem defineItemReq_unranged (h : itemInRange (lo16 (reqWord r 0)) = false) :
    defineItemReq r ev = (ev, { code := .range, body := [] }) := by
  unfold defineItemReq
  dsimp only
  rw [h, if_pos (by simp)]
  rfl

theorem defineItemReq_removes (h : itemInRange (lo16 (reqWord r 0)) = true) (remove : (reqWord r 0).getLsbD 24 = true) :
    defineItemReq r ev = removeItem (lo16 (reqWord r 0)) ev := by
  unfold defineItemReq
  dsimp only
  rw [h, if_neg (by simp), if_pos (show bitOf _ _ = true from remove)]

theorem removeItem_undefined {i : Nat} (h : (ev.tb.item i).defined = false) :
    removeItem i ev = (ev, { code := .range, body := [] }) := by
  unfold removeItem
  dsimp only
  rw [h, if_pos (by simp)]
  rfl

theorem removeItem_referenced {i n : Nat} (h : (ev.tb.item i).defined = true) (reason : refReason ev.tb i = some n) :
    removeItem i ev = (ev, referencedAnswer n) := by
  unfold removeItem
  dsimp only
  rw [h, if_neg (by simp), reason]

theorem removeItem_free {i : Nat} (h : (ev.tb.item i).defined = true) (reason : refReason ev.tb i = none) :
    removeItem i ev = definedAnswer i (putItem i item0 (discarded (ev.tb.item i) false) ev) := by
  unfold removeItem
  dsimp only
  rw [h, if_neg (by simp), reason]

variable (inRange : itemInRange (lo16 (reqWord r 0)) = true) (kept : (reqWord r 0).getLsbD 24 = false)
include inRange kept

theorem defineItemReq_unfit (unfit : ¬ FieldsFit ev.tb (lo16 (reqWord r 0)) r) :
    defineItemReq r ev = (ev, { code := .range, body := [] }) := by
  have failed : defFieldsOk ev.tb (lo16 (reqWord r 0)) (itemDef r) = false := by
    rwa [← Bool.not_eq_true, defFieldsOk_iff]
  unfold defineItemReq
  dsimp only
  rw [inRange, if_neg (by simp), if_neg (by rw [bitOf, kept]; simp)]
  split
  · rfl
  · rw [failed, if_pos (by simp)]; rfl

section
variable (fits : FieldsFit ev.tb (lo16 (reqWord r 0)) r) {kind : ItemKind} (code : reqByte r 0 2 = kind.code)
include fits code

theorem defineItemReq_reshapes {n : Nat} (changes : changesShape (ev.tb.item (lo16 (reqWord r 0))) (itemDef r) = true)
    (reason : refReason ev.tb (lo16 (reqWord r 0)) = some n) : defineItemReq r ev = (ev, referencedAnswer n) := by
  have named : (itemDef r).kind = some kind := (ItemKind.ofCode_eq_some _ _).2 code
  unfold defineItemReq
  dsimp only
  rw [inRange, if_neg (by simp), if_neg (by rw [bitOf, kept]; simp), named]
  dsimp only
  rw [(defFieldsOk_iff _ _ _).2 fits, if_neg (by simp), if_pos changes, reason]

theorem defineItemReq_defines (free : changesShape (ev.tb.item (lo16 (reqWord r 0))) (itemDef r) = true →
      refReason ev.tb (lo16 (reqWord r 0)) = none) :
    defineItemReq r ev = definedAnswer (lo16 (reqWord r 0)) (defineEffect (lo16 (reqWord r 0)) (itemDef r) kind ev) := by
  have named : (itemDef r).kind = some kind := (ItemKind.ofCode_eq_some _ _).2 code
  unfold defineItemReq
  dsimp only
  rw [inRange, if_neg (by simp), if_neg (by rw [bitOf, kept]; simp), named]
  dsimp only
  rw [(defFieldsOk_iff _ _ _).2 fits, if_neg (by simp)]
  split
  · next n reason =>
    split at reason
    · next changes => rw [free changes] at reason; cases reason
    · cases reason
  · rfl

end

end

/-- A definition of a defined item changes its shape where the kind or a composite's components are others (R61 step 3). -/
theorem changesShape_iff (it : Item) (r : Req) : changesShape it (itemDef r) = true ↔
    it.defined = true ∧ (reqByte r 0 2 ≠ it.kind.code ∨ (it.kind = .composite ∧ defComps r ≠ it.comps)) := by
  have kinds : (itemDef r).kind ≠ some it.kind ↔ reqByte r 0 2 ≠ it.kind.code := not_congr (ItemKind.ofCode_eq_some _ _)
  unfold changesShape
  rw [Bool.and_eq_true, Bool.or_eq_true, Bool.and_eq_true, decide_eq_true_iff, decide_eq_true_iff, kinds, beq_iff_eq]
  rfl

/-- A removal, or a definition that changes the shape of its item, is refused with the first reason that holds. -/
theorem defineItemReq_referenced {r : Req} {ev : Ev} {n : Nat} (inRange : itemInRange (lo16 (reqWord r 0)) = true)
    (defined : (ev.tb.item (lo16 (reqWord r 0))).defined = true)
    (shape : (reqWord r 0).getLsbD 24 = true ∨ ((reqWord r 0).getLsbD 24 = false ∧ FieldsFit ev.tb (lo16 (reqWord r 0)) r ∧
      changesShape (ev.tb.item (lo16 (reqWord r 0))) (itemDef r) = true))
    (reason : refReason ev.tb (lo16 (reqWord r 0)) = some n) : defineItemReq r ev = (ev, referencedAnswer n) := by
  rcases shape with remove | ⟨kept, fits, changes⟩
  · rw [defineItemReq_removes inRange remove, removeItem_referenced defined reason]
  · obtain ⟨kind, code⟩ : ∃ kind : ItemKind, reqByte r 0 2 = kind.code := by
      obtain ⟨-, -, ⟨code, -⟩ | ⟨code, -⟩⟩ := fits
      exacts [⟨.simple, code⟩, ⟨.composite, code⟩]
    exact defineItemReq_reshapes inRange kept fits code changes reason

/-! ### The effects (R62) -/

/-- A record written without a stock change: nothing is left for the level rules. -/
theorem putItem_closed (s : State) (i : Nat) (new : Item) (lost : Nat) :
    closeEv (putItem i new lost s.event) = putItem i new lost s.event ∧ (putItem i new lost s.event).notes = [] ∧
    SameButStock s.event (putItem i new lost s.event) ∧
    (∀ k, (putItem i new lost s.event).tb.item k = if k = i then new else s.tb.item k) ∧
    (∀ k, (putItem i new lost s.event).tb.cItem k =
      if k = i ∧ s.engine ≠ .load then { s.tb.cItem i with wasted := satCount (s.tb.cItem i).wasted lost } else s.tb.cItem k) := by
  have same : SameButStock s.event (putItem i new lost s.event) :=
    SameButStock.trans (b := s.event.updItem i (fun _ => new)) ⟨rfl, rfl, rfl, rfl⟩ (countItem_same i _ _)
  refine ⟨closeEv_still (by simp [putItem, State.event, Ev.ofTables]) same.reached, by simp [putItem, State.event, Ev.ofTables],
    same, fun k => by simp [putItem, Tables.item, tget_tupd, State.event, Ev.ofTables], fun k => ?_⟩
  rw [putItem, countItem_count]
  simp [State.event, Ev.ofTables, Ev.inLoad]

theorem defineEffect_simple {s : State} {i : Nat} {d : ItemDef} (h : (s.tb.item i).isSimple = true) :
    defineEffect i d .simple s.event =
      stockChange i { s.tb.item i with station := d.station, taxClass := d.taxClass, prices := d.prices, low := d.low }
        (fun c => { c with wasted := satCount c.wasted 0 }) s.event := by
  have simple : (s.event.tb.item i).isSimple = true := h
  unfold defineEffect
  dsimp only
  rw [if_pos ⟨simple, rfl⟩, definedItem, if_pos simple, discarded, simple]
  rfl

theorem defineEffect_put {s : State} {i : Nat} {d : ItemDef} {kind : ItemKind}
    (h : ¬ ((s.tb.item i).isSimple = true ∧ kind = .simple)) :
    defineEffect i d kind s.event =
      putItem i (definedItem (s.tb.item i) d kind) (discarded (s.tb.item i) (kind == .simple)) s.event := if_neg h

end Sys2Proof.Machine
end

section
/-!
DEFINE_ITEM (04): the completion of a definition or a removal, and its refusals.
-/

namespace Sys2Proof.Machine

theorem stockChange_same (i : Nat) (new : Item) (g : ItemCount → ItemCount) (ev : Ev) :
    SameButStock ev (stockChange i new g ev) := (stockStep_spec (fun _ _ => new) (fun _ => g) ev (i, 0)).1

/-- A definition or a removal that passes its tests is answered with the record at the end of its event (R62). -/
theorem defineItem_completes {bus : Bus} {s : State} {r : Req} {i : Nat} {ev : Ev} (allowed : Allowed 16 bus s r)
    (effect : defineItemReq r s.event = definedAnswer i ev) (same : SameButStock s.event ev) :
    ∃ m t, exec (.defineItem bus) s = .next t ∧ Committed (s.afterHub bus) m (closeEv ev).tb (closeEv ev).notes ∧
      Answered m t r { code := .ok, body := itemWords (closeEv ev).tb i } ∧
      (closeEv ev).tb.checks = s.tb.checks ∧ (closeEv ev).tb.lines = s.tb.lines ∧ SameSettings s.tb (closeEv ev).tb ∧
      SameKitchen s.tb (closeEv ev).tb := by
  have whole := same.trans (settleLevels_same ev)
  have settled : closeEv ev = settleLevels ev := closeEv_unreached whole.reached
  rw [← settled] at whole
  rw [definedAnswer, ← settled] at effect
  obtain ⟨m, committed, answered⟩ := completeKind_committed allowed effect whole.rewrites
  exact ⟨m, _, rfl, committed, answered, whole.checks, whole.lines, whole.sameSettings, whole.sameKitchen⟩

/-! ### How a definition ends (R62) -/

/-- DEFINE_ITEM has written the record `new` over item `i` and thrown `lost` portions away; where `kept` holds, as a stock change. -/
def ItemDefined (bus : Bus) (s : State) (r : Req) (i : Nat) (new : Item) (lost : Nat) (kept : Prop) [Decidable kept] : Prop :=
  ∃ m t X ns, exec (.defineItem bus) s = .next t ∧ Committed (s.afterHub bus) m X ns ∧
    Answered m t r { code := .ok, body := itemWords X i } ∧
    (∀ k, X.item k = if k = i then new else s.tb.item k) ∧
    (∀ k, X.cItem k = if k = i then
        outCounted (s.engine == .load || !decide kept) (s.tb.item i) new
          (if s.engine = .load then s.tb.cItem i else { s.tb.cItem i with wasted := satCount (s.tb.cItem i).wasted lost })
      else s.tb.cItem k) ∧
    ns = (if kept ∧ s.engine ≠ .load then levelNotices s.tb X [i] else []) ∧
    X.checks = s.tb.checks ∧ X.lines = s.tb.lines ∧ SameSettings s.tb X ∧ SameKitchen s.tb X

section
variable {bus : Bus} {s : State} {r : Req} {i : Nat} {kept : Prop} [Decidable kept]

theorem itemDefined_put (allowed : Allowed 16 bus s r) {new : Item} {lost : Nat}
    (effect : defineItemReq r s.event = definedAnswer i (putItem i new lost s.event)) (fresh : ¬ kept) :
    ItemDefined bus s r i new lost kept := by
  obtain ⟨still, notes, same, items, counts⟩ := putItem_closed s i new lost
  obtain ⟨m, t, runs, committed, answered, frame⟩ := defineItem_completes allowed effect same
  rw [still] at committed answered frame
  refine ⟨m, t, _, _, runs, committed, answered, items, fun k => ?_, by rw [notes, if_neg fun h => fresh h.1], frame⟩
  rw [counts]
  by_cases hk : k = i
  · by_cases hl : s.engine = .load <;> simp [hk, hl, fresh, outCounted]
  · simp [hk]

theorem itemDefined_kept (allowed : Allowed 16 bus s r) {tuned : Item} (level : tuned.level = (s.tb.item i).level)
    (effect : defineItemReq r s.event =
      definedAnswer i (stockChange i tuned (fun c => { c with wasted := satCount c.wasted 0 }) s.event)) (stays : kept) :
    ItemDefined bus s r i tuned.settle 0 kept := by
  obtain ⟨-, items, counts, notices⟩ := stockChange_closed s i tuned (fun c => { c with wasted := satCount c.wasted 0 })
    (f := fun _ _ => tuned) level rfl
  obtain ⟨m, t, runs, committed, answered, frame⟩ := defineItem_completes allowed effect (stockChange_same _ _ _ _)
  refine ⟨m, t, _, _, runs, committed, answered, fun k => by simpa using items k, fun k => ?_, ?_, frame⟩
  · rw [counts, items]
    by_cases hk : k = i
    · by_cases hl : s.engine = .load <;> simp [hk, hl, stays]
    · simp [hk, outCounted_same]
  · rw [notices]
    by_cases hl : s.engine = .load <;> simp [hl, stays]

end

theorem definedItem_newSimple {it : Item} (h : ¬ it.isSimple = true) (d : ItemDef) : definedItem it d .simple = newSimple d := by
  rw [definedItem, if_neg h]

theorem discarded_simple {it : Item} (h : it.isSimple = true) : discarded it false = it.onHand := by simp [discarded, h]

theorem discarded_other {it : Item} (h : ¬ it.isSimple = true) (kept : Bool) : discarded it kept = 0 := by simp [discarded, h]

/-- A removal and a change to a COMPOSITE throw away all portions of a SIMPLE item. -/
theorem discarded_all (it : Item) {p : Prop} [Decidable p] (h : p) :
    (if (it.defined = true ∧ it.kind = .simple) ∧ p then it.onHand else 0) = discarded it false := by
  by_cases hs : it.isSimple = true
  · rw [discarded_simple hs, if_pos ⟨(Item.isSimple_iff it).1 hs, h⟩]
  · rw [discarded_other hs, if_neg fun h => hs ((Item.isSimple_iff it).2 h.1)]

/-- Settles O41: a definition that passes its tests writes one record, as a stock change where a SIMPLE item stays SIMPLE; the tests are
read off the tables through their canonical form. -/
theorem defineItemWritesOrRefuses : Obligations.DefineItemWritesOrRefuses := by
  refine ⟨?_, ?_⟩
  · intro bus s r canonical allowed i it remove kind simple prices comps kept tuned new lost low high known fields refs
    show ItemDefined bus s r i new lost kept
    obtain ⟨-, -, -, linesWf, itemsWf, -⟩ := canonical
    have inRange : itemInRange i = true := (itemInRange_iff i).2 ⟨low, high⟩
    have simple_iff : it.isSimple = true ↔ simple := Item.isSimple_iff it
    have free := fun h => refReason_unreferenced linesWf itemsWf (refs h).1 (refs h).2
    by_cases rem : remove = true
    · have new_eq : new = item0 := if_pos rem
      have lost_eq : lost = discarded it false := discarded_all it (.inl rem)
      rw [new_eq, lost_eq]
      exact itemDefined_put allowed ((defineItemReq_removes inRange rem).trans (removeItem_free (known rem) (free (.inl rem))))
        fun h => Bool.noConfusion (rem.symm.trans h.1)
    · have keep : remove = false := by simpa using rem
      have fits : FieldsFit s.tb i r := by
        obtain ⟨tax, p0, p1, p2, p3, shape⟩ := fields keep
        exact ⟨tax, ⟨p0, p1, p2, p3⟩, shape⟩
      have shapeless : changesShape it (itemDef r) = true → refReason s.tb i = none := fun h =>
        free (.inr ((changesShape_iff it r).1 h))
      have defines := fun {k : ItemKind} (code : kind = k.code) =>
        defineItemReq_defines (ev := s.event) inRange keep fits code shapeless
      by_cases stays : kept
      · obtain ⟨-, hs, kind0⟩ := id stays
        have new_eq : new = tuned.settle := (if_neg rem).trans (if_pos stays)
        have lost_eq : lost = 0 := if_neg fun h => by
          rcases h.2 with h | h
          · exact rem h
          · omega
        rw [new_eq, lost_eq]
        refine itemDefined_kept allowed (tuned := tuned) rfl ?_ stays
        rw [defines (k := .simple) kind0, defineEffect_simple (simple_iff.2 hs)]
        rfl
      · have made : new = if kind = 0 then newSimple (itemDef r) else newComposite (itemDef r) := by
          refine ((if_neg rem).trans (if_neg stays)).trans ?_
          split <;> simp_all <;> rfl
        rcases fields keep with ⟨-, -, -, -, -, ⟨kind0, -, -⟩ | ⟨kind1, -⟩⟩
        · have unsimple : ¬ it.isSimple = true := fun h => stays ⟨keep, simple_iff.1 h, kind0⟩
          have lost_eq : lost = discarded it true := by
            rw [discarded_other unsimple]; exact if_neg fun h => unsimple (simple_iff.2 h.1)
          rw [made, if_pos kind0, lost_eq]
          refine itemDefined_put allowed ?_ stays
          rw [defines (k := .simple) kind0, defineEffect_put fun h => unsimple h.1, definedItem_newSimple unsimple]
          rfl
        · have lost_eq : lost = discarded it false := discarded_all it (.inr kind1)
          rw [made, if_neg (by omega), lost_eq]
          refine itemDefined_put allowed ?_ stays
          rw [defines (k := .composite) kind1, defineEffect_put fun h => ItemKind.noConfusion h.2]
          rfl
  · intro bus s r canonical allowed i it kind remove comps fieldsOk reshapes named part refused
    obtain ⟨-, -, -, linesWf, itemsWf, -⟩ := canonical
    have inRange : 1 ≤ i → i ≤ 511 → itemInRange i = true := fun low high => (itemInRange_iff i).2 ⟨low, high⟩
    have fits : fieldsOk ↔ FieldsFit s.tb i r := and_congr_right fun _ => and_congr_left fun _ => forall_four _
    have answers : ∀ {a : Answer}, defineItemReq r s.event = (s.event, a) → refused a :=
      fun h => ⟨_, rfl, completeKind_unchanged allowed h⟩
    have isNamed : lineNames s.tb i = true ↔ named := lineNames_iff linesWf i
    have isPart : isComponent s.tb i = true ↔ part := isComponent_iff itemsWf i
    refine ⟨fun out => answers (defineItemReq_unranged ?_), fun low high rem undefined => ?_, fun low high keep bad => ?_,
      fun low high defined shape => ?_⟩
    · rw [← Bool.not_eq_true, itemInRange_iff]
      show ¬ (1 ≤ i ∧ i ≤ 511)
      omega
    · exact answers ((defineItemReq_removes (inRange low high) rem).trans (removeItem_undefined undefined))
    · exact answers (defineItemReq_unfit (inRange low high) keep fun h => bad (fits.2 h))
    · have changes : remove = true ∨ (remove = false ∧ FieldsFit s.tb i r ∧ changesShape it (itemDef r) = true) := by
        refine shape.imp_right fun ⟨keep, fit, other⟩ => ⟨keep, fits.1 fit, (changesShape_iff it r).2 ⟨defined, other⟩⟩
      have refers : ∀ {n : Nat}, refReason s.tb i = some n → refused (referencedAnswer n) := fun reason =>
        answers (defineItemReq_referenced (inRange low high) defined changes reason)
      refine ⟨fun h => refers (refReason_named (isNamed.2 h)), fun free simple reserved => ?_, fun free simple none comp => ?_⟩
      · exact refers (refReason_reserved (by rwa [← Bool.not_eq_true, isNamed]) simple reserved)
      · exact refers (refReason_component (by rwa [← Bool.not_eq_true, isNamed]) simple none (isPart.2 comp))
end Sys2Proof.Machine
end

section
/-!
The run of a chain slot (08): its steps one by one, and what its event looks like while one slot and its check are all it has written.
-/

namespace Sys2Proof.Machine

/-! ### Runs in few steps (R132) -/

/-- From here a slot comes to rest within `k` steps, and leaves `ev1`. -/
def RunsIn (k n : Nat) (fresh : Bool) (pt : RunPoint) (ev ev1 : Ev) : Prop := ∀ fuel, k ≤ fuel → runSlot fuel n fresh pt ev = ev1

theorem RunsIn.rest {n : Nat} {fresh : Bool} {pt : RunPoint} {ev ev1 : Ev} (h : runStep n fresh pt ev = .rest ev1) :
    RunsIn 1 n fresh pt ev ev1 := fun fuel hf => by
  obtain ⟨fuel, rfl⟩ := Nat.exists_eq_add_one.2 hf
  rw [runSlot, h]

theorem RunsIn.go {k n m : Nat} {fresh fresh1 : Bool} {pt pt1 : RunPoint} {ev ev1 ev2 : Ev}
    (h : runStep n fresh pt ev = .go m fresh1 pt1 ev1) (later : RunsIn k m fresh1 pt1 ev1 ev2) : RunsIn (k + 1) n fresh pt ev ev2 :=
  fun fuel hf => by
    obtain ⟨fuel, rfl⟩ := Nat.exists_eq_add_one.2 (Nat.lt_of_lt_of_le (Nat.succ_pos k) hf)
    rw [runSlot, h]
    exact later fuel (by omega)

/-- The fuel of a run is enough for one in few steps. -/
theorem RunsIn.runChain {k n : Nat} {fresh : Bool} {pt : RunPoint} {ev ev1 : Ev} (h : RunsIn k n fresh pt ev ev1) (few : k ≤ 400000) :
    runChain n fresh pt ev = ev1 := h 400000 few

section
variable {n : Nat} {fresh : Bool} {ev ev1 : Ev} {x : Slot} {e : ProgEntry}

theorem armTimer_some {d : Duration} (h : d.count ≠ 0) : armTimer d = some { level := d.level, left := d.count, due := false } :=
  if_neg h

/-- A slot put to wait for a duration (R118, R132). -/
def waitOf (d : Duration) (x : Slot) : Slot :=
  { x with state := .waiting, timer := some { level := d.level, left := d.count, due := false } }

theorem waitOr_waits {d : Duration} (h : d.count ≠ 0) (pt : RunPoint) :
    waitOr n d fresh pt ev = .rest (ev.updSlot n (waitOf d)) := by
  unfold waitOr
  rw [armTimer_some h]
  rfl

/-- A running slot that has reached a WAIT entry whose wait is not skipped rests in it (R132, R136). -/
theorem reach_waits (slot : ev.tb.slot n = x) (firing : x.state = .firing) (entry : ev.tb.entry x.cur = e) (wait : e.kind = .wait)
    (count : e.dur.count ≠ 0) (unskipped : e.next.isSome = true ∨ x.interval ≤ x.phase) :
    RunsIn 1 n fresh .reach ev (ev.updSlot n (waitOf e.dur)) := by
  have waits : skipsWait e x = false := by
    unfold skipsWait
    rcases unskipped with h | h
    · simp [Option.isSome_iff_ne_none.1 h]
    · simp [Nat.not_lt.2 h]
  refine .rest ?_
  unfold runStep
  rw [slot, if_neg (by simp [firing])]
  dsimp only [reachStep]
  rw [slot, entry, wait]
  dsimp only
  rw [waits, if_neg (by simp), waitOr_waits count]

/-- A running slot that has reached a FIRE entry goes on to its first execution. -/
theorem reach_fires (slot : ev.tb.slot n = x) (firing : x.state = .firing) (entry : ev.tb.entry x.cur = e) (fire : e.kind = .fire) :
    runStep n fresh .reach ev = .go n fresh (.execute false) (ev.updSlot n (fun s => { s with reps := e.repeats })) := by
  unfold runStep
  rw [slot, if_neg (by simp [firing])]
  dsimp only [reachStep]
  rw [slot, entry, fire]

/-- An execution whose fire ticket memory does not hold stalls the slot (R137). -/
theorem execute_stalls {retry : Bool} {ids : List Nat} (slot : ev.tb.slot n = x) (firing : x.state = .firing)
    (lines : executionLines n retry ev = (ev1, ids)) (short : buildFire x.check ids false (some x.cur) ev1 = none) :
    runStep n fresh (.execute retry) ev = .rest (stall n ev1) := by
  unfold runStep
  rw [slot, if_neg (by simp [firing])]
  dsimp only [executeStep]
  rw [slot, lines]
  dsimp only
  rw [short]

/-- An execution that is built (R133). -/
theorem execute_builds {retry : Bool} {ids built : List Nat} {ev2 : Ev} (slot : ev.tb.slot n = x) (firing : x.state = .firing)
    (lines : executionLines n retry ev = (ev1, ids)) (builds : buildFire x.check ids false (some x.cur) ev1 = some (ev2, built)) :
    runStep n fresh (.execute retry) ev = .go n fresh .built ev2 := by
  unfold runStep
  rw [slot, if_neg (by simp [firing])]
  dsimp only [executeStep]
  rw [slot, lines]
  dsimp only
  rw [builds]

/-- The slot after an execution that was built. -/
def repDone (x : Slot) : Slot := { x with reps := x.reps - 1 }

/-- An execution that is not the entry's last rests in the WAIT that follows the entry (R127, R132). -/
theorem built_waits {k : Nat} (slot : ev.tb.slot n = x) (firing : x.state = .firing) (entry : ev.tb.entry x.cur = e) (more : 1 < x.reps)
    (next : e.next = some k) (wait : (ev.tb.entry k).kind = .wait) (count : (ev.tb.entry k).dur.count ≠ 0) :
    RunsIn 1 n fresh .built ev ((ev.updSlot n repDone).updSlot n (waitOf (ev.tb.entry k).dur)) := by
  refine .rest ?_
  have spaced : spacingWait ev.tb e = some (ev.tb.entry k).dur := by
    unfold spacingWait
    rw [next]
    exact if_pos wait
  unfold runStep
  rw [slot, if_neg (by simp [firing])]
  dsimp only [builtStep]
  rw [slot, entry, if_pos more, spaced]
  exact waitOr_waits count _

/-- The last execution of the last FIRE entry of a final pass completes the chain (R136). -/
theorem built_completes (slot : ev.tb.slot n = x) (firing : x.state = .firing) (last : x.reps ≤ 1) (final : x.onFinalPass = true)
    (fires : lastFire ev.tb x.first = some x.cur) :
    runStep n fresh .built ev = completeStep n (ev.updSlot n repDone) := by
  unfold runStep
  rw [slot, if_neg (by simp [firing])]
  dsimp only [builtStep]
  rw [slot, if_neg (by omega), if_pos ⟨final, fires⟩]
  rfl

end

/-! ### One slot and one check written -/

/-- A change at an index just written. -/
theorem tupd_tset {α : Type} [DecidableEq α] {d a : α} {f : α → α} (t : List (Nat × α)) (i : Nat) (ha : a ≠ d) (hf : f a ≠ d) :
    tupd d (tset d t i a) i f = tset d t i (f a) := by
  rw [tupd, tget_tset_same, tset_tset t i ha hf]

theorem ne_slot0 {x : Slot} (h : x.state ≠ .idle) : x ≠ slot0 := by rintro rfl; exact h rfl

theorem chain_ne_check0 {c : Check} (h : c.chain ≠ none) : c ≠ check0 := by rintro rfl; exact h rfl

/-- An event with slot `n` and check `ci` written. -/
def chained (n ci : Nat) (x : Slot) (c : Check) (ev : Ev) : Ev :=
  ev.setTb ((ev.tb.setSlots (tset slot0 ev.tb.slots n x)).setChecks (tset check0 ev.tb.checks ci c))

section
variable {n ci : Nat} {x : Slot} {c : Check} {ev : Ev}

theorem chained_slot_at (k : Nat) : (chained n ci x c ev).tb.slot k = if k = n then x else ev.tb.slot k := tget_tset _ _ _ _ _

theorem chained_check_at (i : Nat) : (chained n ci x c ev).tb.check i = if i = ci then c else ev.tb.check i := tget_tset _ _ _ _ _

@[simp] theorem chained_slot : (chained n ci x c ev).tb.slot n = x := tget_tset_same _ _ _ _

@[simp] theorem chained_check : (chained n ci x c ev).tb.check ci = c := tget_tset_same _ _ _ _

theorem chained_updSlot {f : Slot → Slot} (hx : x.state ≠ .idle) (hf : (f x).state ≠ .idle) :
    (chained n ci x c ev).updSlot n f = chained n ci (f x) c ev :=
  congrArg (fun t => ev.setTb ((ev.tb.setSlots t).setChecks (tset check0 ev.tb.checks ci c)))
    (tupd_tset ev.tb.slots n (ne_slot0 hx) (ne_slot0 hf))

theorem chained_updCheck {f : Check → Check} (hc : c.chain ≠ none) (hf : (f c).chain ≠ none) :
    (chained n ci x c ev).updCheck ci f = chained n ci x (f c) ev :=
  congrArg (fun t => ev.setTb ((ev.tb.setSlots (tset slot0 ev.tb.slots n x)).setChecks t))
    (tupd_tset ev.tb.checks ci (chain_ne_check0 hc) (chain_ne_check0 hf))

/-- A start (R131): the slot FIRING and its check naming it. -/
theorem markStarted_eq (n : Nat) (ev : Ev) : markStarted n ev =
    let y := ev.tb.slot n
    chained n y.check { y with state := .firing, ran := y.ran || !ev.inLoad } { ev.tb.check y.check with chain := some n } ev := rfl

end

end Sys2Proof.Machine
end

section
/-!
START_CHAIN (08): its refusals, the start in LOAD, and the runs that come to rest without building a ticket.
-/

namespace Sys2Proof.Machine

/-! ### The request (R131) -/

section
variable {r : Req} {ev : Ev}

theorem startChainReq_unranged (h : 16 ≤ (reqWord r 0).toNat) : startChainReq r ev = (ev, { code := .range, body := [] }) :=
  if_neg (by simpa [Config.slotTotal] using h)

theorem startChainReq_named (h : (reqWord r 0).toNat < 16) : startChainReq r ev =
    if startable ev.tb (reqWord r 0).toNat then
      (startSlot (reqWord r 0).toNat ev,
        answer .ok [.b ((startSlot (reqWord r 0).toNat ev).tb.slot (reqWord r 0).toNat).state.code])
    else refuse ev .state := if_pos h

theorem startable_iff (tb : Tables) (n : Nat) :
    startable tb n = true ↔ (tb.slot n).state = .armed ∧ (tb.check (tb.slot n).check).chain = none := by
  simp [startable]

theorem startChainReq_unready (h : (reqWord r 0).toNat < 16)
    (unready : (ev.tb.slot (reqWord r 0).toNat).state ≠ .armed ∨
      (ev.tb.check (ev.tb.slot (reqWord r 0).toNat).check).chain ≠ none) :
    startChainReq r ev = (ev, { code := .state, body := [] }) := by
  rw [startChainReq_named h, if_neg]
  · rfl
  · rw [startable_iff]
    rintro ⟨armed, free⟩
    exact unready.elim (· armed) (· free)

theorem ChainState.code_lt (x : ChainState) : x.code < 256 := by cases x <;> decide

theorem startChainReq_starts {ev1 : Ev} {x : ChainState} (h : (reqWord r 0).toNat < 16)
    (armed : (ev.tb.slot (reqWord r 0).toNat).state = .armed)
    (free : (ev.tb.check (ev.tb.slot (reqWord r 0).toNat).check).chain = none) (starts : startSlot (reqWord r 0).toNat ev = ev1)
    (left : (ev1.tb.slot (reqWord r 0).toNat).state = x) :
    startChainReq r ev = (ev1, { code := .ok, body := [BitVec.ofNat 32 x.code] }) := by
  rw [startChainReq_named h, if_pos ((startable_iff _ _).2 ⟨armed, free⟩), starts, left]
  simp [answer, pack, packFrom, Nat.mod_eq_of_lt, ChainState.code_lt]

end

theorem startSlot_load {n : Nat} {ev : Ev} (load : ev.inLoad = true) : startSlot n ev = markStarted n ev := if_pos load

theorem startSlot_runs {n k : Nat} {ev ev1 : Ev} (load : ev.inLoad = false) (runs : RunsIn k n true .reach (markStarted n ev) ev1)
    (few : k ≤ 400000) : startSlot n ev = ev1 := by
  unfold startSlot
  rw [load]
  exact runs.runChain few

/-- A started slot (R131). -/
def startedSlot (y : Slot) : Slot := { y with state := .firing, ran := true }

theorem markStarted_running {n : Nat} {ev : Ev} (load : ev.inLoad = false) : markStarted n ev =
    chained n (ev.tb.slot n).check (startedSlot (ev.tb.slot n)) { ev.tb.check (ev.tb.slot n).check with chain := some n } ev := by
  rw [markStarted_eq, load]
  simp [startedSlot]

theorem markStarted_loading {n : Nat} {ev : Ev} (load : ev.inLoad = true) : markStarted n ev =
    chained n (ev.tb.slot n).check { ev.tb.slot n with state := .firing }
      { ev.tb.check (ev.tb.slot n).check with chain := some n } ev := by
  rw [markStarted_eq, load]
  simp

/-! ### What an execution takes (R133, R134) -/

/-- The lines of a list in group `g` that are neither fired nor voided. -/
def groupUnsent (tb : Tables) (ids : List Nat) (g : Nat) : List Nat :=
  ids.filter (fun id => match tb.line id with
    | some l => !l.fired && !l.voided && l.group == g
    | none => false)

/-- The templates of a list in group `g`. -/
def groupTemplates (tb : Tables) (ids : List Nat) (g : Nat) : List Nat :=
  ids.filter (fun id => match tb.line id with
    | some l => l.isTemplate && !l.voided && l.group == g
    | none => false)

theorem unfiredLines_group (tb : Tables) (ci g : Nat) :
    unfiredLines tb ci (fun l => l.group == g) = groupUnsent tb (tb.check ci).lines g := rfl

theorem templatesOf_eq (tb : Tables) (ci g : Nat) : templatesOf tb ci g = groupTemplates tb (tb.check ci).lines g := rfl

section
variable {n : Nat} {ev : Ev} {x : Slot} {e : ProgEntry} {ids : List Nat}
variable (slot : ev.tb.slot n = x) (entry : ev.tb.entry x.cur = e) (lines : groupUnsent ev.tb (ev.tb.check x.check).lines e.group = ids)
include slot entry lines

theorem executionLines_takes (takes : ids ≠ [] ∨ e.reorder = false) : executionLines n false ev = (ev, ids) := by
  unfold executionLines
  dsimp only
  rw [slot, entry, unfiredLines_group, lines, if_neg]
  rintro ⟨nothing, reorder, -⟩
  rcases takes with h | h
  · exact h nothing
  · rw [h] at reorder; cases reorder

theorem executionLines_copies (nothing : ids = []) (reorder : e.reorder = true) :
    executionLines n false ev = ((makeCopies n x.check e.group ev).ev, (makeCopies n x.check e.group ev).made) := by
  unfold executionLines
  dsimp only
  rw [slot, entry, unfiredLines_group, lines, if_pos ⟨nothing, reorder, rfl⟩]

end

/-! ### Copies that find no room (R135) -/

theorem copyTemplate_full {ci tid : Nat} {x : Copies} (full : 64 ≤ (x.ev.tb.check ci).lines.length) : copyTemplate ci x tid = x.skip := by
  have room : roomFor x.ev.tb ci = none := if_neg (by simpa [Config.linesPerCheck] using full)
  unfold copyTemplate
  rw [room]
  cases x.ev.tb.line tid <;> rfl

/-- Where the check's list is full, every template is skipped, with one notice. -/
theorem makeCopies_full {n ci g : Nat} {ev : Ev} (full : 64 ≤ (ev.tb.check ci).lines.length) (some1 : templatesOf ev.tb ci g ≠ []) :
    makeCopies n ci g ev =
      { ev := ev.note .chainSkip n (templatesOf ev.tb ci g).length, made := [], skipped := (templatesOf ev.tb ci g).length } := by
  have skips : ∀ (l : List Nat) (k : Nat), l.foldl (copyTemplate ci) { ev := ev, made := [], skipped := k } =
      { ev := ev, made := [], skipped := k + l.length } := by
    intro l
    induction l with
    | nil => exact fun k => rfl
    | cons tid l ih =>
      intro k
      rw [List.foldl_cons, copyTemplate_full full, Copies.skip, ih]
      simp only [List.length_cons, Nat.add_assoc, Nat.add_comm 1]
  have skipped := List.length_pos_iff.2 some1
  unfold makeCopies
  rw [skips]
  dsimp only
  rw [Nat.zero_add, if_neg (by omega)]

/-- A fire of no lines builds nothing (R133). -/
theorem buildFire_nothing (ci : Nat) (remake : Bool) (course : Option Nat) (ev : Ev) :
    buildFire ci [] remake course ev = some (ev.updCheck ci (fun c => { c with outstanding := c.outstanding + 0 }), []) := by
  have plan : planFire ev.tb [] = [] := by simp [planFire, cutTickets]
  unfold buildFire
  simp [plan]

/-! ### Runs that build no ticket -/

section
variable {n ci : Nat} {x : Slot} {c : Check} {ev : Ev} {e : ProgEntry} {ids : List Nat}

/-- The slot at its first execution of a FIRE entry. -/
def repsOf (e : ProgEntry) (x : Slot) : Slot := { x with reps := e.repeats }

theorem chained_note (k : NoticeKind) (a b : Nat) : (chained n ci x c ev).note k a b = chained n ci x c (ev.note k a b) := by
  unfold Ev.note
  split
  · next h => rw [if_pos (show ev.inLoad = true from h)]
  · next h => rw [if_neg (show ¬ ev.inLoad = true from h)]; rfl

variable (firing : x.state = .firing) (entry : ev.tb.entry x.cur = e)
include firing entry

theorem chained_waits (wait : e.kind = .wait) (count : e.dur.count ≠ 0) (unskipped : e.next.isSome = true ∨ x.interval ≤ x.phase) :
    RunsIn 1 n true .reach (chained n ci x c ev) (chained n ci (waitOf e.dur x) c ev) := by
  have runs := reach_waits (n := n) (fresh := true) (ev := chained n ci x c ev) chained_slot firing entry wait count unskipped
  rwa [chained_updSlot (by simp [firing]) (by simp [waitOf])] at runs

theorem chained_fires (fire : e.kind = .fire) :
    runStep n true .reach (chained n ci x c ev) = .go n true (.execute false) (chained n ci (repsOf e x) c ev) := by
  rw [reach_fires (ev := chained n ci x c ev) chained_slot firing entry fire,
    chained_updSlot (by simp [firing]) (by simp [firing])]
  rfl

omit firing in
theorem chained_takes (check : x.check = ci) (lines : groupUnsent ev.tb c.lines e.group = ids)
    (takes : ids ≠ [] ∨ e.reorder = false) :
    executionLines n false (chained n ci (repsOf e x) c ev) = (chained n ci (repsOf e x) c ev, ids) := by
  refine executionLines_takes chained_slot entry ?_ takes
  rw [show (repsOf e x).check = ci from check, chained_check]
  exact lines

variable (check : x.check = ci) (fire : e.kind = .fire) (lines : groupUnsent ev.tb c.lines e.group = ids)
include check fire lines

/-- A fire that ticket memory does not hold stalls the slot (R137). -/
theorem chained_stalls (takes : ids ≠ [] ∨ e.reorder = false) (short : freeTickets ev.tb < (planFire ev.tb ids).length) :
    RunsIn 2 n true .reach (chained n ci x c ev) (stall n (chained n ci (repsOf e x) c ev)) := by
  refine .go (chained_fires firing entry fire) (.rest (execute_stalls chained_slot firing
    (chained_takes entry check lines takes) ?_))
  exact buildFire_short _ _ _ _ _ short

/-- Of an entry that copies, with nothing left to fire and no room on the list, the execution builds nothing and skips every template
(R135); the slot rests in the wait that follows. -/
theorem chained_skips {k : Nat} (chain : c.chain ≠ none) (nothing : ids = []) (reorder : e.reorder = true)
    (templates : groupTemplates ev.tb c.lines e.group ≠ []) (full : 64 ≤ c.lines.length) (more : 1 < e.repeats) (next : e.next = some k)
    (wait : (ev.tb.entry k).kind = .wait) (count : (ev.tb.entry k).dur.count ≠ 0) :
    RunsIn 3 n true .reach (chained n ci x c ev)
      (chained n ci (waitOf (ev.tb.entry k).dur (repDone (repsOf e x))) c
        (ev.note .chainSkip n (groupTemplates ev.tb c.lines e.group).length)) := by
  set ev1 := ev.note .chainSkip n (groupTemplates ev.tb c.lines e.group).length with h1
  have checked : (chained n ci (repsOf e x) c ev).tb.check (repsOf e x).check = c := by
    rw [show (repsOf e x).check = ci from check, chained_check]
  have skipped : executionLines n false (chained n ci (repsOf e x) c ev) = (chained n ci (repsOf e x) c ev1, []) := by
    have copies : templatesOf (chained n ci (repsOf e x) c ev).tb (repsOf e x).check e.group = groupTemplates ev.tb c.lines e.group := by
      rw [templatesOf_eq, checked]; rfl
    rw [executionLines_copies (x := repsOf e x) chained_slot entry (by rw [checked]; exact lines) nothing reorder,
      makeCopies_full (by rw [checked]; exact full) (by rw [copies]; exact templates), copies, chained_note]
  have built : buildFire (repsOf e x).check [] false (some (repsOf e x).cur) (chained n ci (repsOf e x) c ev1) =
      some (chained n ci (repsOf e x) c ev1, []) := by
    rw [buildFire_nothing, show (repsOf e x).check = ci from check, chained_updCheck chain chain]
    rfl
  have program : ev1.tb = ev.tb := by rw [h1, Ev.note_tb]
  have rests := built_waits (n := n) (fresh := true) (ev := chained n ci (repsOf e x) c ev1) (e := e) (k := k) chained_slot firing
    (show ev1.tb.entry x.cur = e by rw [program, entry]) more next (show (ev1.tb.entry k).kind = .wait by rw [program, wait])
    (show (ev1.tb.entry k).dur.count ≠ 0 by rw [program]; exact count)
  rw [chained_updSlot (by simp [repsOf, firing]) (by simp [repDone, repsOf, firing]),
    chained_updSlot (by simp [repDone, repsOf, firing]) (by simp [waitOf])] at rests
  refine .go (chained_fires firing entry fire) (.go (execute_builds chained_slot firing skipped built) ?_)
  rw [← program]
  exact rests

end

end Sys2Proof.Machine
end

section
/-!
The fires of chains (08): an execution that is built, and the end of the event that goes on from it with slots, checks and notices only.
-/

namespace Sys2Proof.Machine

/-! ### What follows a fire within its event -/

/-- Only slots, checks and notices differ. -/
structure SameButChains (a b : Ev) : Prop where
  tb : b.tb = (a.tb.setSlots b.tb.slots).setChecks b.tb.checks
  mode : b.mode = a.mode
  touched : b.touched = a.touched
  reached : b.reached = a.reached
  rewrites : b.rewrites = a.rewrites

namespace SameButChains
variable {a b c : Ev}

theorem refl (a : Ev) : SameButChains a a := ⟨rfl, rfl, rfl, rfl, rfl⟩

theorem trans (h : SameButChains a b) (h1 : SameButChains b c) : SameButChains a c :=
  ⟨by rw [h1.tb, h.tb]; rfl, h1.mode.trans h.mode, h1.touched.trans h.touched, h1.reached.trans h.reached,
    h1.rewrites.trans h.rewrites⟩

theorem updSlot (h : SameButChains a b) (n : Nat) (f : Slot → Slot) : SameButChains a (b.updSlot n f) :=
  h.trans ⟨rfl, rfl, rfl, rfl, rfl⟩

theorem updCheck (h : SameButChains a b) (ci : Nat) (f : Check → Check) : SameButChains a (b.updCheck ci f) :=
  h.trans ⟨rfl, rfl, rfl, rfl, rfl⟩

theorem note (h : SameButChains a b) (k : NoticeKind) (x y : Nat) : SameButChains a (b.note k x y) := by
  refine h.trans ?_
  unfold Ev.note
  split <;> exact ⟨rfl, rfl, rfl, rfl, rfl⟩

theorem program (h : SameButChains a b) : b.tb.program = a.tb.program := by rw [h.tb]; rfl

end SameButChains

/-- The end of an event `ev1` that fired the lines `ids` of check `ci` from `ev`, at program entry `cur`, and changed slots, checks and
notices besides. -/
structure ChainFired (ci cur : Nat) (ids : List Nat) (ev ev1 : Ev) : Prop where
  slots : (closeEv ev1).tb.slots = ev1.tb.slots
  checks : (closeEv ev1).tb.checks = ev1.tb.checks
  notes : (closeEv ev1).notes = ev1.notes
  rewrites : (closeEv ev1).rewrites = ev.rewrites
  lines : ∀ j, (closeEv ev1).tb.line j = if j ∈ ids then (ev.tb.line j).map (fun l => { l with fired := true }) else ev.tb.line j
  fired : Fired ev.tb (closeEv ev1).tb ci false (some cur) (planFire ev.tb ids)
  settings : SameSettings ev.tb (closeEv ev1).tb
  stock : SameStock ev.tb (closeEv ev1).tb
  owed : (closeEv ev1).tb.owed = ev.tb.owed
  lanes : (closeEv ev1).tb.cLanes = ev.tb.cLanes
  engine : (closeEv ev1).tb.cEngine = ev.tb.cEngine

/-- A fire whose event goes on with slots, checks and notices ends with its own effects and theirs. -/
theorem chainFired_of_built {ci cur : Nat} {ids : List Nat} {ev ev1 ev2 : Ev} {L : List (Nat × Option Line)}
    (hb : TicketsBuilt (fireClass (ev.tb.check ci) false) (fun p => newOrder ev.tb ci false (some cur) p.1 p.2)
      (firedTickets ev.tb (planFire ev.tb ids)) ev ev1)
    (hL : ∀ j, tget none L j = if j ∈ ids then (ev.tb.line j).map (fun l => { l with fired := true }) else ev.tb.line j)
    (fits : (planFire ev.tb ids).length ≤ freeTickets ev.tb) (load : ev.inLoad = false) (untouched : ev.touched = [])
    (unreached : ev.reached = []) (same : SameButChains (fireDone ci (planFire ev.tb ids) L ev1) ev2) :
    ChainFired ci cur ids ev ev2 := by
  have touched : ev2.touched = [] := same.touched.trans (hb.touched.trans untouched)
  have close := closeEv_same touched
  have whole : (closeEv ev2).tb = (((((ev.tb.setLines L).setStations (closeEv ev2).tb.stations).setTickets
      (closeEv ev2).tb.tickets).setCStations (closeEv ev2).tb.cStations).setSlots ev2.tb.slots).setChecks ev2.tb.checks := by
    rw [close.tb, same.tb, fireDone, hb.tb]; rfl
  exact {
    slots := by rw [whole]; rfl
    checks := by rw [whole]; rfl
    notes := close.notes
    rewrites := close.rewrites.trans (same.rewrites.trans hb.rewrites)
    lines := fun j => by rw [whole]; exact hL j
    fired := fired_of_built hb (fits.trans (freeTickets_le ev.tb)) load unreached same.mode touched same.reached
      (by rw [same.tb]; rfl) (by rw [same.tb]; rfl) (by rw [same.tb]; rfl) (by rw [same.tb]; rfl)
    settings := by rw [whole]; exact ⟨rfl, rfl, rfl, rfl, rfl, rfl, rfl⟩
    stock := by rw [whole]; exact ⟨rfl, rfl⟩
    owed := by rw [whole]; rfl
    lanes := by rw [whole]; rfl
    engine := by rw [whole]; rfl }

/-! ### An execution that is built, and where it leads -/

section
variable {n : Nat} {x : Slot} {c : Check} {ids : List Nat} {ev : Ev} {S : List (Nat × Slot)} {C : List (Nat × Check)}

/-- The event just after an execution of slot `n` has been built: the slot as before, its check counting the tickets, and whatever slots,
checks and notices follow, the fire stands. -/
structure ExecutionBuilt (n : Nat) (x : Slot) (c : Check) (ids : List Nat) (ev : Ev) (S : List (Nat × Slot)) (C : List (Nat × Check))
    (ev2 : Ev) : Prop where
  slots : ev2.tb.slots = tset slot0 S n x
  checks : ev2.tb.checks = tset check0 C x.check { c with outstanding := c.outstanding + (planFire ev.tb ids).length }
  program : ev2.tb.program = ev.tb.program
  time : ev2.tb.time = ev.tb.time
  notes : ev2.notes = ev.notes
  mode : ev2.mode = ev.mode
  ends : ∀ ev3, SameButChains ev2 ev3 → ChainFired x.check x.cur ids ev ev3

theorem execution_builds (slots : ev.tb.slots = tset slot0 S n x) (checks : ev.tb.checks = tset check0 C x.check c)
    (chain : c.chain ≠ none) (fits : (planFire ev.tb ids).length ≤ freeTickets ev.tb) (load : ev.inLoad = false)
    (untouched : ev.touched = []) (unreached : ev.reached = []) :
    ∃ ev2 built, buildFire x.check ids false (some x.cur) ev = some (ev2, built) ∧ ExecutionBuilt n x c ids ev S C ev2 := by
  obtain ⟨ev1, L, built, fires, hb, hL⟩ := buildFire_fits x.check ids false (some x.cur) ev fits
  refine ⟨_, built, fires, ?_⟩
  have checks1 : ev1.tb.checks = tset check0 C x.check c := hb.checks.trans checks
  exact {
    slots := (show ev1.tb.slots = ev.tb.slots by rw [hb.tb]; rfl).trans slots
    checks := by
      have counted : (fireDone x.check (planFire ev.tb ids) L ev1).tb.checks = tupd check0 ev1.tb.checks x.check
          (fun c => { c with outstanding := c.outstanding + (planFire ev.tb ids).length }) := rfl
      rw [counted, checks1, tupd_tset _ _ (chain_ne_check0 chain) (chain_ne_check0 chain)]
    program := by show ev1.tb.program = _; rw [hb.tb]; rfl
    time := hb.time
    notes := hb.notes
    mode := hb.mode
    ends := fun ev3 same => chainFired_of_built hb hL fits load untouched unreached same }

/-- A built execution that is not its entry's last rests in the WAIT that follows (R132). -/
theorem ExecutionBuilt.spaced {ev2 : Ev} {e : ProgEntry} {k : Nat} (h : ExecutionBuilt n x c ids ev S C ev2) (firing : x.state = .firing)
    (entry : ev.tb.entry x.cur = e) (more : 1 < x.reps) (next : e.next = some k) (wait : (ev.tb.entry k).kind = .wait)
    (count : (ev.tb.entry k).dur.count ≠ 0) :
    ∃ ev3, RunsIn 1 n true .built ev2 ev3 ∧ ev3.notes = ev.notes ∧ ChainFired x.check x.cur ids ev ev3 ∧
      ev3.tb.slots = tset slot0 S n (waitOf (ev.tb.entry k).dur (repDone x)) ∧ ev3.tb.checks = ev2.tb.checks := by
  have program : ev2.tb.entry = ev.tb.entry := by funext j; unfold Tables.entry; rw [h.program]
  have slot : ev2.tb.slot n = x := by unfold Tables.slot; rw [h.slots, tget_tset_same]
  have rests := built_waits (n := n) (fresh := true) (ev := ev2) (x := x) (e := e) slot firing (by rw [program, entry]) more next
    (by rw [program, wait]) (by rw [program]; exact count)
  rw [program] at rests
  refine ⟨_, rests, h.notes, h.ends _ (((SameButChains.refl ev2).updSlot _ _).updSlot _ _), ?_, rfl⟩
  rw [Ev.updSlot_tb, Ev.updSlot_tb, Tables.setSlots_slots, Tables.setSlots_slots, h.slots,
    tupd_tset _ _ (ne_slot0 (by simp [firing])) (ne_slot0 (by simp [repDone, firing])),
    tupd_tset _ _ (ne_slot0 (by simp [repDone, firing])) (ne_slot0 (by simp [waitOf]))]

end

end Sys2Proof.Machine
end

section
/-!
The completion of a chain (08): what its last execution leaves, and the chain that it starts.
-/

namespace Sys2Proof.Machine

/-! ### What a completion looks at (R127, R136) -/

theorem walkPath_congr {tb tb1 : Tables} (h : tb1.entry = tb.entry) (fuel : Nat) (seen : List Nat) (e : Nat) :
    walkPath tb1 fuel seen e = walkPath tb fuel seen e := by
  induction fuel generalizing seen e with
  | zero => rfl
  | succ fuel ih =>
    rw [walkPath, walkPath, h]
    split
    · rfl
    · split
      · rfl
      · exact ih _ _

theorem lastFire_congr {tb tb1 : Tables} (h : tb1.entry = tb.entry) (first : Nat) : lastFire tb1 first = lastFire tb first := by
  unfold lastFire pathOf
  rw [walkPath_congr h, h]

theorem onFinalPass_of {x : Slot} (h : (x.mode = .once ∧ x.passesDone = 0) ∨ (x.mode = .count ∧ x.passesDone + 1 = x.passCount)) :
    x.onFinalPass = true := by
  unfold Slot.onFinalPass
  rcases h with ⟨mode, passes⟩ | ⟨mode, passes⟩ <;> rw [mode] <;> simpa using passes

/-! ### The end of a chain (R136, R138) -/

/-- The slot a completion leaves. -/
def endedSlot (x : Slot) : Slot := { x with state := .done, passesDone := min (x.passesDone + 1) 65535, timer := none }

/-- A slot with one pass more behind it. -/
def passCounted (x : Slot) : Slot := { x with passesDone := min (x.passesDone + 1) 65535 }

/-- The event of a completion, before the next chain. -/
def chainEnded (n : Nat) (ev : Ev) : Ev := (endSlot n (ev.updSlot n passCounted)).note .chainDone n (ev.tb.slot n).check

theorem completeStep_eq (n : Nat) (ev : Ev) : completeStep n ev =
    ((ev.tb.slot n).next.elim (.rest (chainEnded n ev))
      (fun j => if startable (chainEnded n ev).tb j then .go j true .reach (markStarted j (chainEnded n ev))
        else .rest (chainEnded n ev))) := by
  unfold completeStep
  dsimp only
  cases (ev.tb.slot n).next <;> rfl

theorem completeStep_rests {n : Nat} {ev : Ev} (h : ∀ j, (ev.tb.slot n).next = some j → startable (chainEnded n ev).tb j = false) :
    completeStep n ev = .rest (chainEnded n ev) := by
  rw [completeStep_eq]
  cases next : (ev.tb.slot n).next with
  | none => rfl
  | some j => exact if_neg (by rw [h j next]; simp)

theorem completeStep_starts {n j : Nat} {ev : Ev} (next : (ev.tb.slot n).next = some j) (h : startable (chainEnded n ev).tb j = true) :
    completeStep n ev = .go j true .reach (markStarted j (chainEnded n ev)) := by
  rw [completeStep_eq, next]
  exact if_pos h

theorem chainEnded_same (n : Nat) (ev : Ev) : SameButChains ev (chainEnded n ev) :=
  ((((SameButChains.refl ev).updSlot n _).updSlot n _).updCheck _ _).note _ _ _

section
variable {n : Nat} {x : Slot} {c : Check} {ev : Ev} {S : List (Nat × Slot)} {C : List (Nat × Check)}
variable (slots : ev.tb.slots = tset slot0 S n x)
include slots

theorem slot_of_slots : ev.tb.slot n = x := by unfold Tables.slot; rw [slots, tget_tset_same]

theorem chainEnded_notes (load : ev.inLoad = false) :
    (chainEnded n ev).notes = ev.notes ++ [{ kind := .chainDone, time := ev.tb.time, a := n, b := x.check }] := by
  have running : (endSlot n (ev.updSlot n passCounted)).inLoad = false := load
  rw [chainEnded, slot_of_slots slots, note_notes, running]
  rfl

theorem chainEnded_slots (used : x.state ≠ .idle) : (chainEnded n ev).tb.slots = tset slot0 S n (endedSlot x) := by
  have twice : (chainEnded n ev).tb.slots = tupd slot0 (tupd slot0 ev.tb.slots n passCounted) n
      (fun s => { s with state := .done, timer := none }) := by
    rw [chainEnded, Ev.note_tb]; rfl
  rw [twice, slots, tupd_tset _ _ (ne_slot0 used) (ne_slot0 (by simpa [passCounted] using used)),
    tupd_tset _ _ (ne_slot0 (by simpa [passCounted] using used)) (ne_slot0 (by simp))]
  rfl

theorem chainEnded_check (checks : ev.tb.checks = tset check0 C x.check c) (chain : c.chain = some n) (i : Nat) :
    (chainEnded n ev).tb.check i = if i = x.check then { c with chain := none } else tget check0 C i := by
  have ci : ((ev.updSlot n passCounted).tb.slot n).check = x.check := by
    rw [show (ev.updSlot n passCounted).tb.slot n = passCounted (ev.tb.slot n) from tget_tupd_same _ _ _ _, slot_of_slots slots]
    rfl
  have before : ∀ i, ev.tb.check i = if i = x.check then c else tget check0 C i := fun i => by
    unfold Tables.check; rw [checks, tget_tset]
  rw [chainEnded, Ev.note_tb, endSlot, ci, updCheck_check]
  show (if i = x.check then (fun c : Check => if c.chain = some n then { c with chain := none } else c) (ev.tb.check x.check)
    else ev.tb.check i) = _
  rw [before, before, if_pos rfl]
  dsimp only
  rw [if_pos chain]
  split <;> rfl

end

/-- The event of a chain that its last execution completed, before the next chain: whatever slots, checks and notices follow, the fire
stands. -/
structure ChainCompleted (n : Nat) (x : Slot) (c : Check) (ids : List Nat) (ev : Ev) (S : List (Nat × Slot)) (C : List (Nat × Check))
    (ev2 : Ev) : Prop where
  slots : ev2.tb.slots = tset slot0 S n (endedSlot (repDone x))
  checks : ∀ i, ev2.tb.check i =
    if i = x.check then { c with chain := none, outstanding := c.outstanding + (planFire ev.tb ids).length } else tget check0 C i
  program : ev2.tb.program = ev.tb.program
  notes : ev2.notes = ev.notes ++ [{ kind := .chainDone, time := ev.tb.time, a := n, b := x.check }]
  mode : ev2.mode = ev.mode
  ends : ∀ ev3, SameButChains ev2 ev3 → ChainFired x.check x.cur ids ev ev3

section
variable {n : Nat} {x : Slot} {c : Check} {ids : List Nat} {ev ev2 : Ev} {S : List (Nat × Slot)} {C : List (Nat × Check)}

theorem ExecutionBuilt.completed (h : ExecutionBuilt n x c ids ev S C ev2) (firing : x.state = .firing) (load : ev.inLoad = false)
    (chain : c.chain = some n) : ChainCompleted n x c ids ev S C (chainEnded n (ev2.updSlot n repDone)) := by
  have used : x.state ≠ .idle := by simp [firing]
  have slots : (ev2.updSlot n repDone).tb.slots = tset slot0 S n (repDone x) := by
    rw [Ev.updSlot_tb, Tables.setSlots_slots, h.slots, tupd_tset _ _ (ne_slot0 used) (ne_slot0 (by simpa [repDone] using used))]
  have same := ((SameButChains.refl ev2).updSlot n repDone).trans (chainEnded_same n _)
  have running : (ev2.updSlot n repDone).inLoad = false := by
    rw [← load]
    simp [Ev.inLoad, h.mode]
  exact {
    slots := chainEnded_slots slots (by simpa [repDone] using used)
    checks := chainEnded_check slots h.checks chain
    program := same.program.trans h.program
    notes := by
      rw [chainEnded_notes slots running, show (ev2.updSlot n repDone).notes = ev.notes from h.notes,
        show (ev2.updSlot n repDone).tb.time = ev.tb.time from h.time]
      rfl
    mode := same.mode.trans h.mode
    ends := fun ev3 later => h.ends ev3 (same.trans later) }

theorem ChainCompleted.slot (h : ChainCompleted n x c ids ev S C ev2) (k : Nat) :
    ev2.tb.slot k = if k = n then endedSlot (repDone x) else tget slot0 S k := by
  unfold Tables.slot
  rw [h.slots, tget_tset]

/-- The run of the last execution of a chain goes to its completion. -/
theorem ExecutionBuilt.runs_completed (h : ExecutionBuilt n x c ids ev S C ev2) (firing : x.state = .firing) (last : x.reps ≤ 1)
    (final : x.onFinalPass = true) (fires : lastFire ev.tb x.first = some x.cur) :
    runStep n true .built ev2 = completeStep n (ev2.updSlot n repDone) := by
  have program : ev2.tb.entry = ev.tb.entry := by funext j; unfold Tables.entry; rw [h.program]
  exact built_completes (slot_of_slots h.slots) firing last final (by rw [lastFire_congr program, fires])

/-- The next chain of a completed one starts, and rests in the WAIT of its first entry (R136). -/
theorem ChainCompleted.next_waits {j : Nat} {z : Slot} {w : ProgEntry} (h : ChainCompleted n x c ids ev S C ev2)
    (load : ev.inLoad = false) (slot : ev2.tb.slot j = z) (entry : ev.tb.entry z.cur = w) (wait : w.kind = .wait)
    (count : w.dur.count ≠ 0) (unskipped : w.next.isSome = true ∨ z.interval ≤ z.phase) :
    RunsIn 1 j true .reach (markStarted j ev2)
      (chained j z.check (waitOf w.dur (startedSlot z)) { ev2.tb.check z.check with chain := some j } ev2) := by
  have running : ev2.inLoad = false := by rw [← load]; simp [Ev.inLoad, h.mode]
  have program : ev2.tb.entry = ev.tb.entry := by funext j; unfold Tables.entry; rw [h.program]
  rw [markStarted_running running, slot]
  exact chained_waits rfl (by rw [program]; exact entry) wait count unskipped

theorem chained_same (n ci : Nat) (x : Slot) (c : Check) (ev : Ev) : SameButChains ev (chained n ci x c ev) := ⟨rfl, rfl, rfl, rfl, rfl⟩

end

end Sys2Proof.Machine
end

section
/-!
The copy of one template (08, R134, R135): what its tests read, the line added with its demand reserved and the bill recomputed, and what
the copy's fire reads of the tables.
-/

namespace Sys2Proof.Machine

/-! ### The tests of a copy -/

/-- The first free line record (R5). -/
theorem lowestLine_eq {tb : Tables} {id : Nat} (inside : id < 8192) (free : tb.line id = none)
    (below : ∀ j, j < id → (tb.line j).isSome = true) : lowestLine tb = some id := by
  unfold lowestLine
  cases found : findFrom (fun i => (tb.line i).isNone) Config.lineTotal 0 with
  | none =>
    have := findFrom_none found id (Nat.zero_le _) (by simpa [Config.lineTotal] using inside)
    simp [free] at this
  | some j =>
    obtain ⟨-, -, free_j, used⟩ := findFrom_some found
    rcases Nat.lt_trichotomy j id with h | h | h
    · have := below j h
      simp_all
    · rw [h]
    · have := used id (Nat.zero_le _) h
      simp [free] at this

theorem intakeAndStock_none {tb : Tables} {i qty : Nat} {openedAt : Word}
    (intake : ∀ n, n ∈ stationsOfItem tb i → acceptsLine (tb.station n) openedAt = true)
    (covered : ∀ d, d ∈ demandOf tb i qty → d.2 ≤ (tb.item d.1).avail) : intakeAndStock tb i qty openedAt = none := by
  have open_all : firstRefusing tb i openedAt = none := List.find?_eq_none.2 fun n hn => by simp [intake n hn]
  have enough : firstShort tb (demandOf tb i qty) = none := by
    unfold firstShort
    rw [List.find?_eq_none.2 fun d hd => by simpa using covered d hd]
    rfl
  rw [intakeAndStock, open_all, enough]
  rfl

theorem payerPaid_eq (c : Check) (p : Nat) : payerPaid c p = decide ((c.payers[p - 1]?).map (·.status) = some .paid) := by
  unfold payerPaid
  cases c.payers[p - 1]? <;> simp [isPaid, beq_eq_decide]

/-! ### What a bill and a fire read of a line -/

/-- A line but for its fired mark. -/
def Line.unfired (l : Line) : Line := { l with fired := false }

/-- The fired marks of the lines are nothing to a bill. -/
theorem computeBill_unfired (mode : SplitMode) (rates : Quad) (serviceRate : Nat) (ps : List Payer) (ls : List Line) :
    computeBill mode rates serviceRate ps (ls.map Line.unfired) = computeBill mode rates serviceRate ps ls := by
  have net : ∀ l : Line, lineNet l.unfired = lineNet l := fun _ => rfl
  have subtotal : subtotalOf (ls.map Line.unfired) = subtotalOf ls := by
    simp only [subtotalOf, List.map_map, Function.comp_def, net]
  have base : ∀ c, classBase (ls.map Line.unfired) c = classBase ls c := fun c => by
    simp only [classBase, List.filter_map, List.map_map, Function.comp_def, net]
    rfl
  have nets : ∀ n c, classNets (ls.map Line.unfired) n c = classNets ls n c := fun n c => by
    simp only [classNets, List.filter_map, List.foldl_map, Function.comp_def, net]
    rfl
  have taxes : taxesOf rates (ls.map Line.unfired) = taxesOf rates ls := by simp only [taxesOf, base]
  have service : serviceOf serviceRate (ls.map Line.unfired) = serviceOf serviceRate ls := by simp only [serviceOf, subtotal]
  have total : totalOf rates serviceRate (ls.map Line.unfired) = totalOf rates serviceRate ls := by
    simp only [totalOf, subtotal, taxes, service]
  have shares : ∀ n, idealByLine rates serviceRate (ls.map Line.unfired) n = idealByLine rates serviceRate ls n := fun n => by
    simp only [idealByLine, nets, taxes, service]
  cases mode <;> simp only [computeBill, idealShares, subtotal, taxes, service, total, shares]

theorem computeBill_of_unfired {mode : SplitMode} {rates : Quad} {serviceRate : Nat} {ps : List Payer} {ls ls1 : List Line}
    (h : ls1.map Line.unfired = ls.map Line.unfired) :
    computeBill mode rates serviceRate ps ls1 = computeBill mode rates serviceRate ps ls := by
  rw [← computeBill_unfired, h, computeBill_unfired]

/-- A fire reads what the lines order and where their items are made. -/
theorem planFire_congr {tb tb1 : Tables} {ids : List Nat}
    (lines : ∀ id, id ∈ ids → (tb1.line id).map (fun l => (l.item, l.qty, l.modifier)) =
      (tb.line id).map (fun l => (l.item, l.qty, l.modifier)))
    (items : ∀ i, (tb1.item i).kind = (tb.item i).kind ∧ (tb1.item i).comps = (tb.item i).comps ∧
      (tb1.item i).station = (tb.item i).station) : planFire tb1 ids = planFire tb ids := by
  have demand : ∀ i qty, demandOf tb1 i qty = demandOf tb i qty := fun i qty => by
    obtain ⟨kind, comps, -⟩ := items i
    unfold demandOf
    dsimp only
    rw [kind, comps]
  have station : ∀ i, (tb1.item i).station = (tb.item i).station := fun i => (items i).2.2
  have expand : ids.flatMap (expandLine tb1) = ids.flatMap (expandLine tb) := List.flatMap_congr fun id hid => by
    have same := lines id hid
    unfold expandLine
    cases h1 : tb1.line id <;> cases h : tb.line id <;> simp_all
  unfold planFire
  rw [expand]

/-! ### A line added with its demand reserved (R12, R24) -/

theorem foldl_touching {is acc : List Nat} (nodup : is.Nodup) (fresh : ∀ i, i ∈ is → i ∉ acc) : is.foldl touching acc = acc ++ is := by
  induction is generalizing acc with
  | nil => simp
  | cons i is ih =>
    rw [List.nodup_cons] at nodup
    have first : touching acc i = acc ++ [i] := if_neg (fresh i (by simp))
    rw [List.foldl_cons, first, ih nodup.2]
    · simp
    · intro j hj
      rw [List.mem_append, List.mem_singleton]
      rintro (h | rfl)
      · exact fresh j (by simp [hj]) h
      · exact nodup.1 hj

/-- The check with a line at its tail and the figures of a bill. -/
def Check.withLine (c : Check) (id : Nat) (f : Figures) : Check := { c with lines := c.lines ++ [id] }.withFigures f

/-- An event after a line `l` of no fired mark has been added to check `ci`, whose record was `c`: its demand is `ds` and the bill `f`. -/
structure LineAdded (ci id : Nat) (l : Line) (c : Check) (ds : List (Nat × Nat)) (f : Figures) (C : List (Nat × Check)) (ev ev1 : Ev) :
    Prop where
  tb : ev1.tb = (((ev.tb.setLines ev1.tb.lines).setItems ev1.tb.items).setCItems ev1.tb.cItems).setChecks ev1.tb.checks
  mode : ev1.mode = ev.mode
  notes : ev1.notes = ev.notes
  touched : ev1.touched = ds.map (·.1)
  reached : ev1.reached = ev.reached
  rewrites : ev1.rewrites = ev.rewrites
  checks : ev1.tb.checks = tset check0 C ci (c.withLine id f)
  line : ev1.tb.line id = some { l with net := lineNet l }
  lines : ∀ j, j ≠ id → ev1.tb.line j =
    if j ∈ c.lines then (ev.tb.line j).map (fun x => { x with net := lineNet x }) else ev.tb.line j
  items : ∀ k, ev1.tb.item k = { ev.tb.item k with reserved := (ev.tb.item k).reserved + demandOn ds k }
  counts : ∀ k, ev1.tb.cItem k = ev.tb.cItem k

theorem linesOf_append {tb tb1 : Tables} {ids : List Nat} {id : Nat} {l : Line} (fresh : id ∉ ids) (new : tb1.line id = some l)
    (others : ∀ j, j ≠ id → tb1.line j = tb.line j) : tb1.linesOf (ids ++ [id]) = tb.linesOf ids ++ [l] := by
  unfold Tables.linesOf
  rw [List.filterMap_append]
  congr 1
  · exact List.filterMap_congr fun j hj => others j (by rintro rfl; exact fresh hj)
  · simp [new]

theorem addLineEffect_adds {ci id : Nat} {l : Line} {c : Check} {ev : Ev} {C : List (Nat × Check)} (unfired : l.fired = false)
    (checks : ev.tb.checks = tset check0 C ci c) (chain : c.chain ≠ none) (fresh : id ∉ c.lines) (untouched : ev.touched = [])
    (nodup : ((demandOf ev.tb l.item l.qty).map (·.1)).Nodup)
    (covered : ∀ d, d ∈ demandOf ev.tb l.item l.qty → d.2 ≤ (ev.tb.item d.1).avail) :
    LineAdded ci id l c (demandOf ev.tb l.item l.qty)
      (computeBill c.split c.taxRates c.serviceRate c.payers (ev.tb.linesOf c.lines ++ [l])) C ev (addLineEffect ci id l ev) := by
  set ds := demandOf ev.tb l.item l.qty with hds
  set f := computeBill c.split c.taxRates c.serviceRate c.payers (ev.tb.linesOf c.lines ++ [l]) with hf
  set ev1 := appendLine ci id l ev with h1
  have check0_eq : ev.tb.check ci = c := by unfold Tables.check; rw [checks, tget_tset_same]
  have checks1 : ev1.tb.checks = tset check0 C ci { c with lines := c.lines ++ [id] } := by
    have appended : ev1.tb.checks = tupd check0 ev.tb.checks ci (fun c => { c with lines := c.lines ++ [id] }) := rfl
    rw [appended, checks, tupd_tset _ _ (chain_ne_check0 chain) (chain_ne_check0 chain)]
  have lines1 : ∀ j, ev1.tb.line j = if j = id then some l else ev.tb.line j := fun j =>
    tget_tset none ev.tb.lines id (some l) j
  obtain ⟨same, notes, touched, items, counts⟩ := reserveAll_spec ds ev1 nodup covered
  set ev2 := reserveAll ev1 ds with h2
  have checks2 : ev2.tb.checks = tset check0 C ci { c with lines := c.lines ++ [id] } := same.checks.trans checks1
  have check2 : ev2.tb.check ci = { c with lines := c.lines ++ [id] } := by unfold Tables.check; rw [checks2, tget_tset_same]
  have lines2 : ∀ j, ev2.tb.line j = if j = id then some l else ev.tb.line j := fun j => by
    rw [← lines1]; unfold Tables.line; rw [same.lines]
  have figures : figuresOf ev2.tb ci = f := by
    unfold figuresOf
    rw [check2]
    dsimp only
    rw [linesOf_append (tb := ev.tb) fresh (by rw [lines2, if_pos rfl]) (fun j hj => by rw [lines2, if_neg hj])]
  obtain ⟨L, nets, hL⟩ := updLines_spec (c.lines ++ [id]) (f := fun l => { l with net := lineNet l }) (fun _ => rfl) ev2
  have effect : addLineEffect ci id l ev = (ev2.setTb (ev2.tb.setLines L)).updCheck ci (fun c => c.withFigures f) := by
    unfold addLineEffect
    dsimp only
    rw [unfired, if_neg (by simp)]
    show recompute ci ev2 = _
    unfold recompute
    rw [figures, check2, writeNets_eq, nets]
  rw [effect]
  exact {
    tb := by
      show (ev2.tb.setLines L).setChecks _ = _
      rw [same.tb]; rfl
    mode := same.mode
    notes := notes
    touched := by
      show ev2.touched = _
      rw [touched, show ev1.touched = [] from untouched, foldl_touching nodup (by simp), List.nil_append]
    reached := same.reached
    rewrites := same.rewrites
    checks := by
      rw [Ev.updCheck_tb, Tables.setChecks_checks, Ev.setTb_tb, Tables.setLines_checks, checks2,
        tupd_tset (a := { c with lines := c.lines ++ [id] }) _ _ (chain_ne_check0 chain) (chain_ne_check0 chain)]
      rfl
    line := by
      show tget none L id = _
      rw [hL, if_pos (by simp), lines2, if_pos rfl]
      rfl
    lines := fun j hj => by
      show tget none L j = _
      rw [hL, lines2, if_neg hj]
      simp [hj]
    items := items
    counts := counts }

end Sys2Proof.Machine
end

section
/-!
A chain's execution that copies one template and fires the copy (08, R134, R135): the copying, what it leaves, and the start that begins
with it.
-/

namespace Sys2Proof.Machine

/-! ### One template copied -/

/-- The bill of a check with a line more. -/
def billWith (tb : Tables) (c : Check) (l : Line) : Figures :=
  computeBill c.split c.taxRates c.serviceRate c.payers (tb.linesOf c.lines ++ [l])

/-- The copy `l` of a template passes its tests on check `ci`, which does not close with it, and `id` is the record it takes (R134, R135). -/
structure CopyFits (tb : Tables) (ci id : Nat) (l : Line) : Prop where
  live : Live (tb.check ci)
  room : (tb.check ci).lines.length < 64
  fresh : id ∉ (tb.check ci).lines
  inside : id < 8192
  free : tb.line id = none
  below : ∀ j, j < id → (tb.line j).isSome = true
  intake : ∀ n, n ∈ stationsOfItem tb l.item → acceptsLine (tb.station n) (tb.check ci).openedAt = true
  nodup : ((demandOf tb l.item l.qty).map (·.1)).Nodup
  covered : ∀ d, d ∈ demandOf tb l.item l.qty → d.2 ≤ (tb.item d.1).avail
  total : (billWith tb (tb.check ci) l).total ≤ 99999999
  stays : (tb.check ci).state = .settling → allDone (billWith tb (tb.check ci) l).payers = false

section
variable {ci id tid n g : Nat} {l : Line} {ev : Ev} {C : List (Nat × Check)}

theorem CopyFits.adds (fits : CopyFits ev.tb ci id l) (unfired : l.fired = false)
    (checks : ev.tb.checks = tset check0 C ci (ev.tb.check ci)) (chain : (ev.tb.check ci).chain ≠ none) (untouched : ev.touched = []) :
    LineAdded ci id l (ev.tb.check ci) (demandOf ev.tb l.item l.qty) (billWith ev.tb (ev.tb.check ci) l) C ev
      (addLineEffect ci id l ev) :=
  addLineEffect_adds unfired checks chain fits.fresh untouched fits.nodup fits.covered

/-- The copy made, the level rules settled: the check has no reason to close. -/
theorem makeCopy_eq (fits : CopyFits ev.tb ci id l) (unfired : l.fired = false)
    (checks : ev.tb.checks = tset check0 C ci (ev.tb.check ci)) (chain : (ev.tb.check ci).chain ≠ none) (untouched : ev.touched = []) :
    makeCopy ci id l ev = settleLevels (addLineEffect ci id l ev) := by
  have added := fits.adds unfired checks chain untouched
  have check : (addLineEffect ci id l ev).tb.check ci = (ev.tb.check ci).withLine id (billWith ev.tb (ev.tb.check ci) l) := by
    rw [Tables.check, added.checks, tget_tset_same]
  have stays : ¬ ((addLineEffect ci id l ev).tb.check ci).closes = true := by
    rw [check, Check.closes, Bool.and_eq_true, beq_iff_eq]
    rintro ⟨settling, done⟩
    exact Bool.false_ne_true ((fits.stays settling).symm.trans done)
  rw [makeCopy, closeTest, if_neg stays]

theorem makeCopies_one (templates : templatesOf ev.tb ci g = [tid]) (template : ev.tb.line tid = some l)
    (fits : CopyFits ev.tb ci id (copyLine ev.tb ci l)) :
    makeCopies n ci g ev = { ev := makeCopy ci id (copyLine ev.tb ci l) ev, made := [id], skipped := 0 } := by
  have room : roomFor ev.tb ci = some id :=
    (if_pos (by simpa [Config.linesPerCheck] using fits.room)).trans (lowestLine_eq fits.inside fits.free fits.below)
  have live : (ev.tb.check ci).isLive = true := by simpa [Check.isLive] using fits.live
  have capped : overCap (ev.tb.check ci) (ev.tb.linesOf (ev.tb.check ci).lines ++ [copyLine ev.tb ci l]) = false :=
    decide_eq_false (Nat.not_lt.2 fits.total)
  have copied : copyTemplate ci { ev := ev, made := [], skipped := 0 } tid =
      { ev := makeCopy ci id (copyLine ev.tb ci l) ev, made := [id], skipped := 0 } := by
    unfold copyTemplate
    dsimp only
    rw [template, room]
    dsimp only
    rw [live, intakeAndStock_none fits.intake fits.covered, capped]
    rfl
  unfold makeCopies
  rw [templates, List.foldl_cons, List.foldl_nil, copied]
  rfl

end

/-! ### What a copy leaves (R66, R67) -/

theorem demandOn_unnamed {ds : List (Nat × Nat)} {k : Nat} (h : k ∉ ds.map (·.1)) : demandOn ds k = 0 := by
  have unnamed : ds.filter (fun d => d.1 == k) = [] := List.filter_eq_nil_iff.2 fun d hd same =>
    h (List.mem_map.2 ⟨d, hd, beq_iff_eq.1 same⟩)
  rw [demandOn, unnamed]
  rfl

theorem LineAdded.tb_stocked {ci id : Nat} {l : Line} {c : Check} {ds : List (Nat × Nat)} {f : Figures} {C : List (Nat × Check)}
    {ev ev1 ev2 : Ev} (h : LineAdded ci id l c ds f C ev ev1) (same : SameButStock ev1 ev2) :
    ev2.tb = (((ev.tb.setLines ev2.tb.lines).setItems ev2.tb.items).setCItems ev2.tb.cItems).setChecks ev2.tb.checks := by
  rw [same.tb, h.tb]
  rfl

theorem LineAdded.moved {ci id : Nat} {l : Line} {c : Check} {ds : List (Nat × Nat)} {f : Figures} {C : List (Nat × Check)} {ev ev1 : Ev}
    {s : State} (h : LineAdded ci id l c ds f C ev ev1) (nodup : (ds.map (·.1)).Nodup) (load : ev.inLoad = (s.engine == .load))
    (time : ev.tb.time = s.tb.time) (silent : ev.notes = []) (items : ev.tb.item = s.tb.item) (counts : ev.tb.cItem = s.tb.cItem) :
    StockMoved s (settleLevels ev1).tb (ds.map (·.1)) (fun k x => { x with reserved := x.reserved + demandOn ds k }) (fun _ x => x)
      (settleLevels ev1).notes := by
  refine settleLevels_moved nodup h.touched ?_ ?_ (h.notes.trans silent) (fun k => ?_) (fun _ _ => rfl) fun k => ?_
  · rw [Ev.inLoad, h.mode]; exact load
  · rw [h.tb]; exact time
  · rw [h.items, items]
    split
    · rfl
    · next other => rw [demandOn_unnamed other]; rfl
  · rw [h.counts, counts, ite_self]

/-- What `StockMoved` looks at of the tables after the event. -/
theorem StockMoved.congr {s : State} {X Y : Tables} {is : List Nat} {f : Nat → Item → Item} {g : Nat → ItemCount → ItemCount}
    {ns : List Notice} (h : StockMoved s X is f g ns) (same : SameStock X Y) : StockMoved s Y is f g ns := by
  have items : Y.item = X.item := by funext k; unfold Tables.item; rw [same.1]
  have counts : Y.cItem = X.cItem := by funext k; unfold Tables.cItem; rw [same.2]
  obtain ⟨items1, counts1, notices⟩ := h
  refine ⟨by rwa [items], by rwa [items, counts], notices.trans ?_⟩
  unfold levelNotices
  rw [items]

end Sys2Proof.Machine
end

section
/-!
START_CHAIN (08), assembled.
-/
namespace Sys2Proof.Machine

/-- A slot that a START_CHAIN of slot `n` starts (R131). -/
def StartReady (s : State) (n : Nat) : Prop :=
  n < 16 ∧ (s.tb.slot n).state = .armed ∧ (s.tb.check (s.tb.slot n).check).chain = none

/-- The event of a start at its first entry. -/
def startedEvent (s : State) (n : Nat) : Ev :=
  chained n (s.tb.slot n).check (startedSlot (s.tb.slot n)) { s.tb.check (s.tb.slot n).check with chain := some n } s.event

theorem startChainReq_rests {r : Req} {s : State} {k : Nat} {ev : Ev} {x : ChainState} (ready : StartReady s (reqWord r 0).toNat)
    (load : s.engine ≠ .load) (runs : RunsIn k (reqWord r 0).toNat true .reach (startedEvent s (reqWord r 0).toNat) ev)
    (few : k ≤ 400000) (left : (ev.tb.slot (reqWord r 0).toNat).state = x) :
    startChainReq r s.event = (ev, { code := .ok, body := [BitVec.ofNat 32 x.code] }) := by
  obtain ⟨inRange, armed, free⟩ := ready
  refine startChainReq_starts inRange armed free (startSlot_runs (event_inLoad load) ?_ few) left
  rwa [markStarted_running (event_inLoad load)]

theorem note_event {s : State} (load : s.engine ≠ .load) (k : NoticeKind) (a b : Nat) :
    s.event.note k a b = { s.event with notes := [{ kind := k, time := s.tb.time, a := a, b := b }] } := by
  unfold Ev.note
  rw [if_neg (by rw [event_inLoad load]; simp)]
  rfl

/-- A slot that has stalled (R137). -/
def stalledSlot (x : Slot) : Slot := { x with state := .stalled }

/-- A stall outside LOAD, of an event that has raised no notice. -/
theorem stall_chained {n ci : Nat} {x : Slot} {c : Check} {s : State} (load : s.engine ≠ .load) (used : x.state ≠ .idle) :
    stall n (chained n ci x c s.event) =
      { chained n ci (stalledSlot x) c
          (s.event.setTb (s.tb.setCEngine { s.tb.cEngine with stalls := satCount s.tb.cEngine.stalls 1 })) with
        notes := [{ kind := .chainStall, time := s.tb.time, a := n, b := x.cur }] } := by
  unfold stall
  dsimp only
  have written : (chained n ci x c s.event).updSlot n (fun s => { s with state := .stalled }) =
      chained n ci (stalledSlot x) c s.event := chained_updSlot used (by simp)
  rw [chained_slot, written, chained_note, note_event load]
  exact if_neg (show ¬ s.event.inLoad = true by rw [event_inLoad load]; simp)

/-- The event of a start at the first execution of its first entry. -/
def firstExecution (s : State) (n : Nat) : Ev :=
  chained n (s.tb.slot n).check (repsOf (s.tb.entry (s.tb.slot n).cur) (startedSlot (s.tb.slot n)))
    { s.tb.check (s.tb.slot n).check with chain := some n } s.event

theorem firstExecution_check (s : State) (n : Nat) : (firstExecution s n).tb.check (s.tb.slot n).check =
    { s.tb.check (s.tb.slot n).check with chain := some n } := chained_check

/-- The first execution of a start, taken from what its check has left to fire, is built. -/
theorem firstExecution_builds {s : State} {n : Nat} {ids : List Nat} (load : s.engine ≠ .load)
    (fire : (s.tb.entry (s.tb.slot n).cur).kind = .fire)
    (lines : groupUnsent s.tb (s.tb.check (s.tb.slot n).check).lines (s.tb.entry (s.tb.slot n).cur).group = ids)
    (takes : ids ≠ [] ∨ (s.tb.entry (s.tb.slot n).cur).reorder = false) (fits : (planFire s.tb ids).length ≤ freeTickets s.tb) :
    ∃ ev2, ExecutionBuilt n (repsOf (s.tb.entry (s.tb.slot n).cur) (startedSlot (s.tb.slot n)))
        { s.tb.check (s.tb.slot n).check with chain := some n } ids (firstExecution s n) s.tb.slots s.tb.checks ev2 ∧
      ∀ k ev3, RunsIn k n true .built ev2 ev3 → RunsIn (k + 2) n true .reach (startedEvent s n) ev3 := by
  obtain ⟨ev2, built, fires, done⟩ := execution_builds (n := n) (ids := ids) (ev := firstExecution s n) (S := s.tb.slots)
    (C := s.tb.checks) (x := repsOf (s.tb.entry (s.tb.slot n).cur) (startedSlot (s.tb.slot n)))
    (c := { s.tb.check (s.tb.slot n).check with chain := some n }) rfl rfl (by simp) fits (event_inLoad load) rfl rfl
  refine ⟨ev2, done, fun k ev3 runs => ?_⟩
  refine .go (chained_fires (ev := s.event) rfl rfl fire) (.go (execute_builds chained_slot rfl ?_ fires) runs)
  exact chained_takes (ev := s.event) rfl rfl lines takes

/-- The first execution of a start is the last of its chain (R136), and its fire finds room. -/
structure LastExecution (s : State) (n : Nat) (ids : List Nat) : Prop where
  load : s.engine ≠ .load
  fire : (s.tb.entry (s.tb.slot n).cur).kind = .fire
  lines : groupUnsent s.tb (s.tb.check (s.tb.slot n).check).lines (s.tb.entry (s.tb.slot n).cur).group = ids
  takes : ids ≠ [] ∨ (s.tb.entry (s.tb.slot n).cur).reorder = false
  fits : (planFire s.tb ids).length ≤ freeTickets s.tb
  few : (s.tb.entry (s.tb.slot n).cur).repeats ≤ 1
  final : (s.tb.slot n).onFinalPass = true
  fires : lastFire s.tb (s.tb.slot n).first = some (s.tb.slot n).cur

/-- The completion of a start of slot `n`, after which the event is `ev`. -/
abbrev StartCompleted (s : State) (n : Nat) (ids : List Nat) (ev : Ev) : Prop :=
  ChainCompleted n (repsOf (s.tb.entry (s.tb.slot n).cur) (startedSlot (s.tb.slot n)))
    { s.tb.check (s.tb.slot n).check with chain := some n } ids (firstExecution s n) s.tb.slots s.tb.checks ev

theorem startCompleted_check {s : State} {n : Nat} {ids : List Nat} {ev : Ev} (h : StartCompleted s n ids ev) (i : Nat) :
    ev.tb.check i = if i = (s.tb.slot n).check then
      { s.tb.check (s.tb.slot n).check with
        chain := none, outstanding := (s.tb.check (s.tb.slot n).check).outstanding + (planFire s.tb ids).length }
      else s.tb.check i := h.checks i

/-- A start whose first execution completes the chain: the completion, and how the run goes on from it. -/
theorem firstExecution_completes {s : State} {n : Nat} {ids : List Nat} (last : LastExecution s n ids) :
    ∃ ev, StartCompleted s n ids ev ∧
      ((∀ j, (s.tb.slot n).next = some j → startable ev.tb j = false) → RunsIn 3 n true .reach (startedEvent s n) ev) ∧
      (∀ j k ev1, (s.tb.slot n).next = some j → startable ev.tb j = true → RunsIn k j true .reach (markStarted j ev) ev1 →
        RunsIn (k + 3) n true .reach (startedEvent s n) ev1) := by
  obtain ⟨load, fire, lines, takes, fits, few, final, fires⟩ := last
  obtain ⟨ev2, done, runs⟩ := firstExecution_builds load fire lines takes fits
  have program : (firstExecution s n).tb.entry = s.tb.entry := rfl
  have step := done.runs_completed rfl few final (by rw [lastFire_congr program]; exact fires)
  have next : ((ev2.updSlot n repDone).tb.slot n).next = (s.tb.slot n).next := by
    rw [show (ev2.updSlot n repDone).tb.slot n = repDone (ev2.tb.slot n) from tget_tupd_same _ _ _ _, slot_of_slots done.slots]
    rfl
  refine ⟨_, done.completed rfl (event_inLoad load) rfl, fun none_starts => ?_, fun j k ev1 nextj starts later => ?_⟩
  · exact runs 1 _ (.rest (step.trans (completeStep_rests (by rwa [next]))))
  · exact runs (k + 1) _ (.go (step.trans (completeStep_starts (next.trans nextj) starts)) later)

/-! ### A start that copies one template (R134) -/

/-- The copy of a template that the first execution of a start makes. -/
def firstCopy (s : State) (n : Nat) (l : Line) : Line := copyLine (firstExecution s n).tb (s.tb.slot n).check l

theorem firstCopy_fired (s : State) (n : Nat) (l : Line) : { firstCopy s n l with fired := true } =
    { l with
      check := (s.tb.slot n).check, price := (s.tb.item l.item).prices.get s.tb.band, taxClass := (s.tb.item l.item).taxClass,
      discount := 0, net := 0, fired := true, voided := false, isRemake := false, isCopy := true, isTemplate := false,
      assign := assignOf (l.assign.members.filter (fun p =>
        !decide (((s.tb.check (s.tb.slot n).check).payers[p - 1]?).map (·.status) = some .paid))),
      made1 := false, made2 := false, made3 := false } := by
  unfold firstCopy copyLine Assign.reduce
  simp only [payerPaid_eq, firstExecution_check]
  rfl

/-- The fired mark of the copy is nothing to its check's bill. -/
theorem firstCopy_bill (s : State) (n : Nat) (l : Line) : billWith s.tb (s.tb.check (s.tb.slot n).check) (firstCopy s n l) =
    billWith s.tb (s.tb.check (s.tb.slot n).check) { firstCopy s n l with fired := true } :=
  computeBill_of_unfired (by rw [List.map_append, List.map_append]; rfl)

/-- The event of a start whose first execution has made one copy. -/
def copiedEvent (s : State) (n id : Nat) (l : Line) : Ev :=
  settleLevels (addLineEffect (s.tb.slot n).check id (firstCopy s n l) (firstExecution s n))

section
variable {s : State} {n id : Nat} {l : Line}

theorem firstCopy_fits (live : Live (s.tb.check (s.tb.slot n).check)) (room : (s.tb.check (s.tb.slot n).check).lines.length < 64)
    (fresh : id ∉ (s.tb.check (s.tb.slot n).check).lines) (inside : id < 8192) (free : s.tb.line id = none)
    (below : ∀ j, j < id → (s.tb.line j).isSome = true)
    (intake : ∀ k, k ∈ stationsOfItem s.tb l.item →
      acceptsLine (s.tb.station k) (s.tb.check (s.tb.slot n).check).openedAt = true)
    (nodup : ((demandOf s.tb l.item l.qty).map (·.1)).Nodup)
    (covered : ∀ d, d ∈ demandOf s.tb l.item l.qty → d.2 ≤ (s.tb.item d.1).avail)
    (total : (billWith s.tb (s.tb.check (s.tb.slot n).check) (firstCopy s n l)).total ≤ 99999999)
    (stays : (s.tb.check (s.tb.slot n).check).state = .settling →
      allDone (billWith s.tb (s.tb.check (s.tb.slot n).check) (firstCopy s n l)).payers = false) :
    CopyFits (firstExecution s n).tb (s.tb.slot n).check id (firstCopy s n l) := by
  have check := firstExecution_check s n
  exact ⟨by rwa [check], by rwa [check], by rwa [check], inside, free, below, by rw [check]; exact intake, nodup, covered,
    by rw [check]; exact total, by rw [check]; exact stays⟩

theorem firstExecution_adds (fits : CopyFits (firstExecution s n).tb (s.tb.slot n).check id (firstCopy s n l)) :
    LineAdded (s.tb.slot n).check id (firstCopy s n l) { s.tb.check (s.tb.slot n).check with chain := some n }
      (demandOf s.tb l.item l.qty) (billWith s.tb (s.tb.check (s.tb.slot n).check) (firstCopy s n l)) s.tb.checks (firstExecution s n)
      (addLineEffect (s.tb.slot n).check id (firstCopy s n l) (firstExecution s n)) := by
  have added := fits.adds (C := s.tb.checks) rfl (by rw [firstExecution_check]; rfl) (by rw [firstExecution_check]; simp) rfl
  rwa [firstExecution_check] at added

/-- The event with the copy: lines, stock and the one check have changed, and no item waits for its level. -/
theorem copiedEvent_eq (fits : CopyFits (firstExecution s n).tb (s.tb.slot n).check id (firstCopy s n l)) :
    (copiedEvent s n id l).tb = ((((firstExecution s n).tb.setLines (copiedEvent s n id l).tb.lines).setItems
      (copiedEvent s n id l).tb.items).setCItems (copiedEvent s n id l).tb.cItems).setChecks (copiedEvent s n id l).tb.checks ∧
    (copiedEvent s n id l).tb.checks = tset check0 s.tb.checks (s.tb.slot n).check
      ({ s.tb.check (s.tb.slot n).check with chain := some n }.withLine id
        (billWith s.tb (s.tb.check (s.tb.slot n).check) (firstCopy s n l))) ∧
    (copiedEvent s n id l).mode = s.engine ∧ (copiedEvent s n id l).touched = [] ∧ (copiedEvent s n id l).reached = [] ∧
    (copiedEvent s n id l).rewrites = [] := by
  have added := firstExecution_adds fits
  have same := settleLevels_same (addLineEffect (s.tb.slot n).check id (firstCopy s n l) (firstExecution s n))
  exact ⟨added.tb_stocked same, same.checks.trans added.checks, same.mode.trans added.mode, rfl, same.reached.trans added.reached,
    same.rewrites.trans added.rewrites⟩

theorem copiedEvent_check (fits : CopyFits (firstExecution s n).tb (s.tb.slot n).check id (firstCopy s n l)) :
    (copiedEvent s n id l).tb.check (s.tb.slot n).check =
      { s.tb.check (s.tb.slot n).check with chain := some n }.withLine id
        (billWith s.tb (s.tb.check (s.tb.slot n).check) (firstCopy s n l)) := by
  obtain ⟨-, checks, -⟩ := copiedEvent_eq fits
  rw [Tables.check, checks, tget_tset_same]

theorem copiedEvent_keeps (fits : CopyFits (firstExecution s n).tb (s.tb.slot n).check id (firstCopy s n l)) :
    SameSettings s.tb (copiedEvent s n id l).tb ∧ (copiedEvent s n id l).tb.stations = s.tb.stations ∧
    (copiedEvent s n id l).tb.tickets = s.tb.tickets ∧ (copiedEvent s n id l).tb.cStations = s.tb.cStations ∧
    (copiedEvent s n id l).tb.owed = s.tb.owed ∧ (copiedEvent s n id l).tb.cLanes = s.tb.cLanes ∧
    (copiedEvent s n id l).tb.cEngine = s.tb.cEngine := by
  rw [(copiedEvent_eq fits).1]
  simp [SameSettings, firstExecution, chained, State.event, Ev.ofTables]

theorem copiedEvent_line (fits : CopyFits (firstExecution s n).tb (s.tb.slot n).check id (firstCopy s n l)) (j : Nat) :
    (copiedEvent s n id l).tb.line j =
      if j = id then some { firstCopy s n l with net := lineNet (firstCopy s n l) }
      else if j ∈ (s.tb.check (s.tb.slot n).check).lines then (s.tb.line j).map (fun x => { x with net := lineNet x })
      else s.tb.line j := by
  have added := firstExecution_adds fits
  have lines : (copiedEvent s n id l).tb.line j =
      (addLineEffect (s.tb.slot n).check id (firstCopy s n l) (firstExecution s n)).tb.line j := by
    unfold Tables.line copiedEvent
    rw [(settleLevels_same _).lines]
  rw [lines]
  split
  · next same => rw [same, added.line]
  · next other => rw [added.lines j other]; rfl

theorem copiedEvent_moved (fits : CopyFits (firstExecution s n).tb (s.tb.slot n).check id (firstCopy s n l)) :
    StockMoved s (copiedEvent s n id l).tb ((demandOf s.tb l.item l.qty).map (·.1))
      (fun k x => { x with reserved := x.reserved + demandOn (demandOf s.tb l.item l.qty) k }) (fun _ x => x)
      (copiedEvent s n id l).notes :=
  (firstExecution_adds fits).moved fits.nodup rfl rfl rfl rfl rfl

theorem Item.settle_made (it : Item) : it.settle.kind = it.kind ∧ it.settle.comps = it.comps ∧ it.settle.station = it.station := by
  unfold Item.settle
  split <;> exact ⟨rfl, rfl, rfl⟩

/-- The copy's fire, as its line and the catalogue before the start give it. -/
theorem copiedEvent_plan (fits : CopyFits (firstExecution s n).tb (s.tb.slot n).check id (firstCopy s n l)) :
    planFire (copiedEvent s n id l).tb [id] =
      planFire (s.tb.setLines (tset none s.tb.lines id (some { firstCopy s n l with fired := true }))) [id] := by
  refine planFire_congr (fun j hj => ?_) fun i => ?_
  · obtain rfl := List.mem_singleton.1 hj
    rw [copiedEvent_line fits, if_pos rfl, Tables.line, Tables.setLines_lines, tget_tset_same]
    rfl
  · rw [(copiedEvent_moved fits).items]
    split
    · exact Item.settle_made _
    · exact ⟨rfl, rfl, rfl⟩

/-- The first execution of a start takes the copy it has made. -/
theorem firstExecution_lines {tid : Nat} (reorder : (s.tb.entry (s.tb.slot n).cur).reorder = true)
    (nothing : groupUnsent s.tb (s.tb.check (s.tb.slot n).check).lines (s.tb.entry (s.tb.slot n).cur).group = [])
    (templates : groupTemplates s.tb (s.tb.check (s.tb.slot n).check).lines (s.tb.entry (s.tb.slot n).cur).group = [tid])
    (template : s.tb.line tid = some l) (fits : CopyFits (firstExecution s n).tb (s.tb.slot n).check id (firstCopy s n l)) :
    executionLines n false (firstExecution s n) = (copiedEvent s n id l, [id]) := by
  have check := firstExecution_check s n
  have made := (makeCopies_one (n := n) (g := (s.tb.entry (s.tb.slot n).cur).group) (ev := firstExecution s n)
    (by rw [templatesOf_eq, check]; exact templates) template fits).trans
    (congrArg (Copies.mk · [id] 0) (makeCopy_eq (C := s.tb.checks) fits rfl (by rw [check]; rfl) (by rw [check]; simp) rfl))
  have lines := executionLines_copies (n := n) (ev := firstExecution s n)
    (x := repsOf (s.tb.entry (s.tb.slot n).cur) (startedSlot (s.tb.slot n))) (e := s.tb.entry (s.tb.slot n).cur) chained_slot rfl
    ((congrArg (fun c : Check => groupUnsent s.tb c.lines _) check).trans nothing) rfl reorder
  exact lines.trans (congrArg (fun x : Copies => (x.ev, x.made)) made)

/-- The copy is fired as its execution's only line; the slot rests in the wait that follows. -/
theorem firstExecution_copies {k tid : Nat} (load : s.engine ≠ .load) (fire : (s.tb.entry (s.tb.slot n).cur).kind = .fire)
    (reorder : (s.tb.entry (s.tb.slot n).cur).reorder = true)
    (nothing : groupUnsent s.tb (s.tb.check (s.tb.slot n).check).lines (s.tb.entry (s.tb.slot n).cur).group = [])
    (templates : groupTemplates s.tb (s.tb.check (s.tb.slot n).check).lines (s.tb.entry (s.tb.slot n).cur).group = [tid])
    (template : s.tb.line tid = some l) (fits : CopyFits (firstExecution s n).tb (s.tb.slot n).check id (firstCopy s n l))
    (held : (planFire (copiedEvent s n id l).tb [id]).length ≤ freeTickets s.tb)
    (more : 1 < (s.tb.entry (s.tb.slot n).cur).repeats) (next : (s.tb.entry (s.tb.slot n).cur).next = some k)
    (wait : (s.tb.entry k).kind = .wait) (count : (s.tb.entry k).dur.count ≠ 0) :
    ∃ ev, RunsIn 3 n true .reach (startedEvent s n) ev ∧ ev.notes = (copiedEvent s n id l).notes ∧
      ChainFired (s.tb.slot n).check (s.tb.slot n).cur [id] (copiedEvent s n id l) ev ∧
      ev.tb.slots = tset slot0 s.tb.slots n
        (waitOf (s.tb.entry k).dur (repDone (repsOf (s.tb.entry (s.tb.slot n).cur) (startedSlot (s.tb.slot n))))) ∧
      ev.tb.checks = tset check0 s.tb.checks (s.tb.slot n).check
        { ({ s.tb.check (s.tb.slot n).check with chain := some n }.withLine id
            (billWith s.tb (s.tb.check (s.tb.slot n).check) (firstCopy s n l))) with
          outstanding := (s.tb.check (s.tb.slot n).check).outstanding + (planFire (copiedEvent s n id l).tb [id]).length } := by
  obtain ⟨tables, checks, mode, touched, reached, -⟩ := copiedEvent_eq fits
  have slots : (copiedEvent s n id l).tb.slots = (firstExecution s n).tb.slots := by rw [tables]; rfl
  have entries : (copiedEvent s n id l).tb.entry = s.tb.entry := by rw [tables]; rfl
  have tickets : freeTickets (copiedEvent s n id l).tb = freeTickets s.tb := by rw [tables]; rfl
  have loads : (copiedEvent s n id l).inLoad = false := by rw [Ev.inLoad, mode]; simpa using load
  obtain ⟨ev2, built, fires, done⟩ := execution_builds (ids := [id]) (S := s.tb.slots) (C := s.tb.checks)
    (x := repsOf (s.tb.entry (s.tb.slot n).cur) (startedSlot (s.tb.slot n))) slots checks (by simp [Check.withLine, Check.withFigures])
    (by rw [tickets]; exact held) loads touched reached
  have copies := firstExecution_lines reorder nothing templates template fits
  obtain ⟨ev3, rests, silent, fired, rested, kept⟩ := done.spaced rfl rfl more (by rw [entries]; exact next)
    (by rw [entries]; exact wait) (by rw [entries]; exact count)
  refine ⟨ev3, .go (chained_fires (ev := s.event) rfl rfl fire) (.go (execute_builds chained_slot rfl copies fires) rests), silent, fired,
    ?_, ?_⟩
  · rw [rested, entries]
  · rw [kept, done.checks]; rfl

end

section
variable {bus : Bus} {s : State} {r : Req}

/-- What a START_CHAIN whose first fire is built leaves, once its run has rested: the fire, and the slots, checks and notices of the run. -/
theorem startChain_fired {k : Nat} {ids : List Nat} {ev : Ev} {x : ChainState} (allowed : Allowed 30 bus s r)
    (ready : StartReady s (reqWord r 0).toNat) (load : s.engine ≠ .load)
    (runs : RunsIn k (reqWord r 0).toNat true .reach (startedEvent s (reqWord r 0).toNat) ev) (few : k ≤ 400000)
    (left : (ev.tb.slot (reqWord r 0).toNat).state = x)
    (fired : ChainFired (s.tb.slot (reqWord r 0).toNat).check (s.tb.slot (reqWord r 0).toNat).cur ids
      (firstExecution s (reqWord r 0).toNat) ev) :
    ∃ m' t X, exec (.startChain bus) s = .next t ∧ Committed (s.afterHub bus) m' X ev.notes ∧
      Answered m' t r { code := .ok, body := [BitVec.ofNat 32 x.code] } ∧ X.slots = ev.tb.slots ∧ X.checks = ev.tb.checks ∧
      (∀ j, X.line j = if j ∈ ids then (s.tb.line j).map (fun l => { l with fired := true }) else s.tb.line j) ∧
      Fired s.tb X (s.tb.slot (reqWord r 0).toNat).check false (some (s.tb.slot (reqWord r 0).toNat).cur) (planFire s.tb ids) ∧
      SameSettings s.tb X ∧ SameStock s.tb X ∧ X.owed = s.tb.owed ∧ X.cLanes = s.tb.cLanes ∧ X.cEngine = s.tb.cEngine := by
  obtain ⟨m', committed, answered⟩ := completeKind_committed allowed (startChainReq_rests ready load runs few left) fired.rewrites
  rw [fired.notes] at committed
  exact ⟨m', _, _, rfl, committed, answered, fired.slots, fired.checks, fired.lines,
    fired.fired.congr rfl rfl rfl rfl (by rw [firstExecution_check]) (by rw [firstExecution_check]), fired.settings, fired.stock,
    fired.owed, fired.lanes, fired.engine⟩

/-- What a START_CHAIN whose first execution copies a template and fires the copy leaves, once its run has rested: the copy, its demand,
the fire, and the slots and checks of the run. -/
theorem startChain_copied {k id : Nat} {l : Line} {ev : Ev} {x : ChainState} (allowed : Allowed 30 bus s r)
    (ready : StartReady s (reqWord r 0).toNat) (load : s.engine ≠ .load)
    (runs : RunsIn k (reqWord r 0).toNat true .reach (startedEvent s (reqWord r 0).toNat) ev) (few : k ≤ 400000)
    (left : (ev.tb.slot (reqWord r 0).toNat).state = x)
    (copies : CopyFits (firstExecution s (reqWord r 0).toNat).tb (s.tb.slot (reqWord r 0).toNat).check id
      (firstCopy s (reqWord r 0).toNat l))
    (fired : ChainFired (s.tb.slot (reqWord r 0).toNat).check (s.tb.slot (reqWord r 0).toNat).cur [id]
      (copiedEvent s (reqWord r 0).toNat id l) ev) :
    let copy := firstCopy s (reqWord r 0).toNat l
    let evC := copiedEvent s (reqWord r 0).toNat id l
    let demand := demandOf s.tb l.item l.qty
    ∃ m' t X, exec (.startChain bus) s = .next t ∧ Committed (s.afterHub bus) m' X ev.notes ∧
      Answered m' t r { code := .ok, body := [BitVec.ofNat 32 x.code] } ∧ X.slots = ev.tb.slots ∧ X.checks = ev.tb.checks ∧
      X.line id = some { copy with fired := true, net := lineNet copy } ∧
      (∀ j, j ≠ id → X.line j = if j ∈ (s.tb.check (s.tb.slot (reqWord r 0).toNat).check).lines then
        (s.tb.line j).map (fun x => { x with net := lineNet x }) else s.tb.line j) ∧
      StockMoved s X (demand.map (·.1)) (fun k x => { x with reserved := x.reserved + demandOn demand k }) (fun _ x => x) evC.notes ∧
      Fired s.tb X (s.tb.slot (reqWord r 0).toNat).check false (some (s.tb.slot (reqWord r 0).toNat).cur) (planFire evC.tb [id]) ∧
      SameSettings s.tb X ∧ X.owed = s.tb.owed ∧ X.cLanes = s.tb.cLanes ∧ X.cEngine = s.tb.cEngine := by
  intro copy evC demand
  have check := copiedEvent_check copies
  obtain ⟨-, -, -, -, -, unmarked⟩ := copiedEvent_eq copies
  obtain ⟨settings, stations, tickets, counts, owed, lanes, engine⟩ := copiedEvent_keeps copies
  have ⟨_, _, _, time, _⟩ := settings
  obtain ⟨m', committed, answered⟩ :=
    completeKind_committed allowed (startChainReq_rests ready load runs few left) (fired.rewrites.trans unmarked)
  rw [fired.notes] at committed
  refine ⟨m', _, _, rfl, committed, answered, fired.slots, fired.checks, ?_, fun j other => ?_,
    (copiedEvent_moved copies).congr fired.stock, ?_, sameSettings_trans settings fired.settings, fired.owed.trans owed,
    fired.lanes.trans lanes, fired.engine.trans engine⟩
  · rw [fired.lines, if_pos (by simp), copiedEvent_line copies, if_pos rfl]
    rfl
  · rw [fired.lines, if_neg (by simpa using other), copiedEvent_line copies, if_neg other]
  · exact fired.fired.congr stations tickets counts time (by rw [check]; rfl) (by rw [check]; rfl)

/-- A START_CHAIN whose first execution completes the chain and fires `ids`: the slots, and the chain of every check, that it leaves. -/
def StartCompletes (bus : Bus) (s : State) (r : Req) (ids : List Nat) (slots : Nat → Slot) (chain : Nat → Option Nat) : Prop :=
  let y := s.tb.slot (reqWord r 0).toNat
  let plan := planFire s.tb ids
  ∃ m' t X, exec (.startChain bus) s = .next t ∧
    Committed (s.afterHub bus) m' X [{ kind := .chainDone, time := s.tb.time, a := (reqWord r 0).toNat, b := y.check }] ∧
    Answered m' t r { code := .ok, body := [5] } ∧ (∀ k, X.slot k = slots k) ∧
    (∀ i, X.check i = { s.tb.check i with
      chain := chain i,
      outstanding := if i = y.check then (s.tb.check y.check).outstanding + plan.length else (s.tb.check i).outstanding }) ∧
    (∀ j, X.line j = if j ∈ ids then (s.tb.line j).map (fun l => { l with fired := true }) else s.tb.line j) ∧
    Fired s.tb X y.check false (some y.cur) plan ∧
    SameSettings s.tb X ∧ SameStock s.tb X ∧ X.owed = s.tb.owed ∧ X.cLanes = s.tb.cLanes ∧ X.cEngine = s.tb.cEngine

/-- A completion after which the run comes to rest with slots and chains of checks changed only. -/
theorem startChain_completed {k : Nat} {ids : List Nat} {ev ev1 : Ev} {slots : Nat → Slot} {chain : Nat → Option Nat}
    (allowed : Allowed 30 bus s r) (ready : StartReady s (reqWord r 0).toNat) (load : s.engine ≠ .load)
    (done : StartCompleted s (reqWord r 0).toNat ids ev)
    (runs : RunsIn k (reqWord r 0).toNat true .reach (startedEvent s (reqWord r 0).toNat) ev1) (few : k ≤ 400000)
    (same : SameButChains ev ev1) (silent : ev1.notes = ev.notes) (slot : ∀ k, ev1.tb.slot k = slots k)
    (ended : (slots (reqWord r 0).toNat).state = .done) (chains : ∀ i, (ev1.tb.check i).chain = chain i)
    (checks : ∀ i, ev1.tb.check i = { ev.tb.check i with chain := (ev1.tb.check i).chain }) :
    StartCompletes bus s r ids slots chain := by
  obtain ⟨m', t, X, run, committed, answered, slots1, checks1, rest⟩ :=
    startChain_fired (x := .done) allowed ready load runs few (by rw [slot, ended]) (done.ends ev1 same)
  rw [silent, done.notes] at committed
  refine ⟨m', t, X, run, committed, answered, fun k => ?_, fun i => ?_, rest⟩
  · rw [Tables.slot, slots1]
    exact slot k
  · rw [Tables.check, checks1]
    refine (checks i).trans ?_
    rw [chains, startCompleted_check done]
    by_cases hi : i = (s.tb.slot (reqWord r 0).toNat).check
    · subst hi
      rw [if_pos rfl, if_pos rfl]
    · rw [if_neg hi, if_neg hi]

/-- The slot a completing start leaves (R136). -/
def completedSlot (e : ProgEntry) (y : Slot) : Slot := endedSlot (repDone (repsOf e (startedSlot y)))

/-- Where no next chain is ARMED, the completion is the end of the run. -/
theorem startChain_ends {ids : List Nat} (allowed : Allowed 30 bus s r) (ready : StartReady s (reqWord r 0).toNat)
    (last : LastExecution s (reqWord r 0).toNat ids)
    (unarmed : ∀ j, (s.tb.slot (reqWord r 0).toNat).next = some j → (s.tb.slot j).state ≠ .armed) :
    StartCompletes bus s r ids
      (fun k => if k = (reqWord r 0).toNat then
        completedSlot (s.tb.entry (s.tb.slot (reqWord r 0).toNat).cur) (s.tb.slot (reqWord r 0).toNat) else s.tb.slot k)
      (fun i => (s.tb.check i).chain) := by
  obtain ⟨ev, done, rests, -⟩ := firstExecution_completes last
  have stopped : ∀ j, (s.tb.slot (reqWord r 0).toNat).next = some j → startable ev.tb j = false := fun j next => by
    rw [← Bool.not_eq_true, startable_iff, done.slot]
    rintro ⟨armed, -⟩
    split at armed
    · cases armed
    · exact unarmed j next armed
  refine startChain_completed allowed ready last.load done (rests stopped) (by omega) (.refl ev) rfl done.slot ?_ (fun i => ?_) fun _ => rfl
  · rw [if_pos rfl]
    rfl
  · rw [startCompleted_check done]
    split
    · next hi => rw [hi]; exact ready.2.2.symm
    · rfl

/-- Where the next chain is ARMED and its first entry is a WAIT, it starts and waits there. -/
theorem startChain_leads {ids : List Nat} {j : Nat} {z : Slot} {w : ProgEntry} (allowed : Allowed 30 bus s r)
    (ready : StartReady s (reqWord r 0).toNat) (last : LastExecution s (reqWord r 0).toNat ids)
    (next : (s.tb.slot (reqWord r 0).toNat).next = some j) (other : j ≠ (reqWord r 0).toNat) (slot : s.tb.slot j = z)
    (entry : s.tb.entry z.cur = w) (armed : z.state = .armed) (free : (s.tb.check z.check).chain = none) (wait : w.kind = .wait)
    (count : w.dur.count ≠ 0) (unskipped : w.next.isSome = true ∨ z.interval ≤ z.phase) :
    StartCompletes bus s r ids
      (fun k => if k = (reqWord r 0).toNat then
          completedSlot (s.tb.entry (s.tb.slot (reqWord r 0).toNat).cur) (s.tb.slot (reqWord r 0).toNat)
        else if k = j then waitOf w.dur (startedSlot z) else s.tb.slot k)
      (fun i => if i = z.check then some j else (s.tb.check i).chain) := by
  obtain ⟨ev, done, -, goes⟩ := firstExecution_completes last
  have slot_j : ev.tb.slot j = z := by rw [done.slot, if_neg other]; exact slot
  have unchained : (ev.tb.check z.check).chain = none := by
    rw [startCompleted_check done]
    split
    · rfl
    · exact free
  have runs := goes j 1 _ next ((startable_iff _ _).2 ⟨by rw [slot_j]; exact armed, by rw [slot_j]; exact unchained⟩)
    (done.next_waits (event_inLoad last.load) slot_j entry wait count unskipped)
  refine startChain_completed allowed ready last.load done runs (by omega) (chained_same _ _ _ _ _) rfl (fun k => ?_) ?_ (fun i => ?_)
    fun i => ?_
  · rw [chained_slot_at, done.slot]
    by_cases hj : k = j
    · rw [if_pos hj, if_neg (hj ▸ other), if_pos hj]
    · rw [if_neg hj, if_neg hj]
      rfl
  · rw [if_pos rfl]
    rfl
  · rw [chained_check_at]
    dsimp only
    split
    · rfl
    · rw [startCompleted_check done]
      split
      · next hi => rw [hi]; exact ready.2.2.symm
      · rfl
  · rw [chained_check_at]
    split
    · next hi => rw [hi]
    · rfl

end

/-- Settles O51: each clause gives the run of its start in at most four steps, and the end of the event that goes with it. -/
theorem startChainRunsToRest : Obligations.StartChainRunsToRest := by
  intro bus s r allowed m n y c e started ids plan ready
  refine ⟨fun out => ?_, fun inRange unready => ?_, fun start load => ?_, fun start load wait count unskipped => ?_, ?_,
    fun start load fire takes short => ?_, ?_⟩
  · exact ⟨_, rfl, completeKind_unchanged allowed (startChainReq_unranged out)⟩
  · exact ⟨_, rfl, completeKind_unchanged allowed (startChainReq_unready inRange unready)⟩
  · obtain ⟨inRange, armed, free⟩ := start
    have loading : s.event.inLoad = true := by simp [State.event, Ev.ofTables, Ev.inLoad, load]
    have starts := startChainReq_starts (r := r) (x := .firing) inRange armed free
      ((startSlot_load loading).trans (markStarted_loading loading)) (by rw [chained_slot])
    exact ⟨_, rfl, completeKind_still allowed startChainReq starts rfl rfl rfl rfl rfl rfl⟩
  · have waits := startChainReq_rests start load
      (chained_waits (n := n) (ci := y.check) (x := startedSlot y) (ev := s.event) rfl rfl wait count unskipped) (by omega)
      (by rw [chained_slot])
    exact ⟨_, rfl, completeKind_still allowed startChainReq waits rfl rfl rfl rfl rfl rfl⟩
  · intro k start load fire takes fits more next wait count
    obtain ⟨ev2, done, runs⟩ := firstExecution_builds (n := n) load fire (ids := ids) rfl takes fits
    obtain ⟨ev3, rests, silent, fired, slots, checks⟩ := done.spaced rfl rfl more next wait count
    have left : (ev3.tb.slot n).state = .waiting := by unfold Tables.slot; rw [slots, tget_tset_same]; rfl
    obtain ⟨m', t, X, run, committed, answered, slots1, checks1, rest⟩ :=
      startChain_fired allowed start load (runs 1 ev3 rests) (by omega) left fired
    rw [silent] at committed
    exact ⟨m', t, X, run, committed, answered, slots1.trans slots, (checks1.trans checks).trans done.checks, rest⟩
  · have stalls := startChainReq_rests start load (x := .stalled)
      (chained_stalls (n := n) (ci := y.check) (x := startedSlot y) (c := { c with chain := some n }) (ev := s.event) (ids := ids)
        rfl rfl rfl fire rfl takes short) (by omega)
      (by rw [stall_chained load (by simp [repsOf, startedSlot])]; exact congrArg Slot.state chained_slot)
    rw [stall_chained load (by simp [repsOf, startedSlot])] at stalls
    obtain ⟨m', committed, answered⟩ := completeKind_committed allowed stalls (by rw [closeEv_still rfl rfl]; rfl)
    rw [closeEv_still rfl rfl] at committed
    exact ⟨m', _, rfl, committed, answered⟩
  · refine ⟨fun k start ⟨load, fire, nothing, reorder⟩ templates full ⟨more, next, wait, count⟩ => ?_, ?_, ?_⟩
    · have skips := startChainReq_rests start load (x := .waiting)
        (chained_skips (n := n) (ci := y.check) (x := startedSlot y) (c := { c with chain := some n }) (ev := s.event) (ids := ids)
          rfl rfl rfl fire rfl (by simp) nothing reorder templates full more next wait count) (by omega) (by rw [chained_slot]; rfl)
      rw [note_event load] at skips
      obtain ⟨m', committed, answered⟩ := completeKind_committed allowed skips (by rw [closeEv_still rfl rfl]; rfl)
      rw [closeEv_still rfl rfl] at committed
      exact ⟨m', _, rfl, committed, answered⟩
    · intro tid l id k start ⟨load, fire, nothing, reorder⟩ templates template ⟨more, next, wait, count⟩ live room
        fresh inside free below demand new plan f intake nodup covered total settling fits
      have copy : new = { firstCopy s n l with fired := true } := (firstCopy_fired s n l).symm
      have bill : billWith s.tb c (firstCopy s n l) = f :=
        (firstCopy_bill s n l).trans (congrArg (billWith s.tb c) copy.symm)
      have copies := firstCopy_fits live room fresh inside free below intake nodup covered (bill.symm ▸ total) (bill.symm ▸ settling)
      have planned : planFire (copiedEvent s n id l).tb [id] = plan :=
        (copiedEvent_plan copies).trans (congrArg (fun x => planFire (s.tb.setLines (tset none s.tb.lines id (some x))) [id]) copy.symm)
      obtain ⟨ev, runs, notes, fired, slots, checks⟩ := firstExecution_copies load fire reorder nothing templates template copies
        (planned.symm ▸ fits) more next wait count
      have left : (ev.tb.slot n).state = .waiting := by unfold Tables.slot; rw [slots, tget_tset_same]; rfl
      obtain ⟨m', t, X, run, committed, answered, slots1, checks1, line, others, stock, built, rest⟩ :=
        startChain_copied allowed start load runs (by omega) left copies fired
      rw [planned] at built
      refine ⟨m', t, X, _, run, committed, answered, slots1.trans slots, checks1.trans (checks.trans ?_), line.trans ?_, others,
        notes ▸ stock, built, rest⟩
      · rw [planned, bill]; rfl
      · rw [copy]; rfl
    · intro last ended completes
      have ending : last → LastExecution s n ids := fun ⟨load, fire, takes, fits, few, final, fires⟩ =>
        ⟨load, fire, rfl, takes, fits, few, onFinalPass_of final, fires⟩
      refine ⟨fun start is_last next => startChain_ends allowed start (ending is_last) fun j h => ?_, ?_,
        fun j start is_last next unarmed => startChain_ends allowed start (ending is_last) fun k h => ?_⟩
      · exact absurd (next.symm.trans h) (by simp)
      · exact fun j start is_last next other armed free wait count unskipped =>
          startChain_leads allowed start (ending is_last) next other rfl rfl armed free wait count unskipped
      · obtain rfl := Option.some.inj (next.symm.trans h)
        exact unarmed

end Sys2Proof.Machine
end
